-- ==== Sys2Proof/Word.lean ====
section
/-! DEFINITION. The machine word and the byte: registers and addresses are 32 bits (00_scope.md R8), memory is
byte-addressed (20_memory.md R80). -/

namespace Sys2Proof

/-- One byte of external memory, and the width of a command's OPCODE (30_encoding.md R120). -/
abbrev Byte := BitVec 8

/-- A register, an external address or a command word: 32 bits (00_scope.md R8). An i32 is the same 32 bits, read
with `BitVec.toInt` (00_scope.md R11). -/
abbrev Word := BitVec 32

end Sys2Proof
end

