-- ==== Sys2Proof/Config.lean ====
section
/-! DEFINITION. What one system around the block fixes: the OPEN parameters of 00_scope.md R8 as plain data, the
unknown value they have at reset, and the free values that 20_memory.md R86 and R90 and 70_reset_and_hazards.md R342,
R345 and R347 leave as any value. -/

namespace Sys2Proof.Machine

/-- A range of external addresses, modulo 2^32: the `size` bytes from `base` on. -/
structure Span where
  base : Word
  size : Nat
  deriving DecidableEq, Repr, Inhabited

/-- The kind of an engine access (00_scope.md R13). -/
inductive AccessKind where
  | read
  | write
  deriving DecidableEq, Repr, Inhabited

/-- One reason for which MEM_ADMIT refuses (20_memory.md R82): every access whose address lies in `span`, of `bytes`
bytes and of kind `kind`, where `none` stands for every width or kind. Any verdict over (addr, n, kind) is a finite
list of such rules, since there are finitely many addresses (log 3). -/
structure AdmitRule where
  span : Span
  bytes : Option Nat
  kind : Option AccessKind
  deriving DecidableEq, Repr, Inhabited

/-- The alignment classes of 44_layout.md R249. -/
inductive AlignClass where
  | normal
  | fwLeft
  | fwRight
  | fwCenter
  deriving DecidableEq, Repr, Inhabited

/-- A range of code points, both ends included, and its alignment class (44_layout.md R249). -/
structure AlignRange where
  first : Word
  last : Word
  cls : AlignClass
  deriving DecidableEq, Repr, Inhabited

/-- One pair of SPACE6: a code point and its advance of 0 to 255 pixels (44_layout.md R248). -/
structure SpaceEntry where
  cp : Word
  adv : Byte
  deriving DecidableEq, Repr, Inhabited

/-- The OPEN parameters of 00_scope.md R8, and the regions with read side effects of 20_memory.md R88, as data: a
statement over every `Platform` is a statement over every value of the parameters (log 2). -/
structure Platform where
  /-- BLOCK_BASE: where the register window sits (10_state.md R31) -/
  blockBase : Word
  /-- MEM_ADMIT refuses an access when one of these does (R82); the block's own window is refused besides -/
  refusals : List AdmitRule
  /-- BYTE_WRITE_OK is false at these addresses (20_memory.md R86) -/
  byteWriteBad : List Span
  /-- regions whose reads have side effects, which the host must not give the engine (20_memory.md R88) -/
  readEffects : List Span
  /-- SPACE6, in the order k = 0..5 (44_layout.md R246, R248) -/
  space6 : Vector SpaceEntry 6
  /-- ALIGN_CLASS as ranges, the first that holds the code point; NORMAL outside them (44_layout.md R249) -/
  alignRanges : List AlignRange
  deriving DecidableEq, Repr, Inhabited

end Sys2Proof.Machine

namespace Sys2Proof.Config

/-- The value the OPEN parameters have on the system the block is reset in: some value, nothing more is known of it
(00_scope.md R8; log 2). -/
opaque platform : Machine.Platform

/-- The k-th byte that the spec leaves as any value (20_memory.md R86 and R90, 70_reset_and_hazards.md R342; log 4). -/
opaque freeByte : Nat → Byte

/-- What the host's k-th read returns where the spec leaves it as any value (70_reset_and_hazards.md R345, R347;
log 4). -/
opaque freeWord : Nat → Word

/-- Byte `j` of what the host's k-th read returns, a load, where the spec leaves it as any value (70_reset_and_hazards.md
R347; log 4). -/
opaque freeLoad : Nat → Nat → Byte

end Sys2Proof.Config
end

