-- ==== Sys2Proof/Syntax.lean ====
section
/-! DEFINITION. The block's 19 commands, one constructor per row of spec/opcode_table.json (30_encoding.md R123). -/

namespace Sys2Proof

/-- A command of the block. A command has no operand fields: its operands are the block registers that
30_encoding.md R121 lists, read when the engine executes it (R120). -/
inductive Instr where
  /-- NOP, 0x00, 40_control.md R150 -/
  | nop
  /-- SETPIX, 0x01, 41_pixel.md R170 -/
  | setpix
  /-- GETPIX, 0x02, 41_pixel.md R171 -/
  | getpix
  /-- HRUN, 0x03, 41_pixel.md R172 -/
  | hrun
  /-- VRUN, 0x04, 41_pixel.md R173 -/
  | vrun
  /-- MAPADDR, 0x05, 41_pixel.md R174 -/
  | mapaddr
  /-- FILL, 0x08, 42_raster.md R190 -/
  | fill
  /-- FILLRECT, 0x09, 42_raster.md R191 -/
  | fillrect
  /-- RECTOUT, 0x0A, 42_raster.md R192 -/
  | rectout
  /-- LINE, 0x0B, 42_raster.md R193 -/
  | line
  /-- DEC_START, 0x10, 43_decoder.md R223 -/
  | decStart
  /-- DEC_NEXT, 0x11, 43_decoder.md R224 -/
  | decNext
  /-- DEC_PEEK, 0x12, 43_decoder.md R225 -/
  | decPeek
  /-- GLYPH_LOOKUP, 0x18, 44_layout.md R260 -/
  | glyphLookup
  /-- LAYOUT_START, 0x20, 44_layout.md R270 -/
  | layoutStart
  /-- LAYOUT_NEXT, 0x21, 44_layout.md R272 -/
  | layoutNext
  /-- LAYOUT_EXHAUST, 0x22, 44_layout.md R274 -/
  | layoutExhaust
  /-- RENDER_GLYPH, 0x28, 45_render.md R290 -/
  | renderGlyph
  /-- RENDER_TEXT, 0x29, 45_render.md R291 -/
  | renderText
  deriving DecidableEq, Repr

end Sys2Proof
end

