-- ==== Sys2Proof/WellFormed.lean ====
section
/-! DEFINITION. Well-formedness of what the decoder reads (a command word) and of the OPEN parameter SPACE6. A value
of `Instr` has no fields, so every one of them is well formed; what can be ill formed is the word the host writes. -/

namespace Sys2Proof

/-- The two fields of a 32-bit command word (30_encoding.md R120). -/
structure CommandWord where
  /-- bits 7:0 -/
  opcode : Byte
  /-- bits 31:8, which must be 0 -/
  rsvd : BitVec 24
  deriving DecidableEq, Repr

/-- The opcodes that the map of 30_encoding.md R123 assigns. -/
def assignedOpcodes : List Byte :=
  [0x00, 0x01, 0x02, 0x03, 0x04, 0x05, 0x08, 0x09, 0x0A, 0x0B] ++
  [0x10, 0x11, 0x12, 0x18, 0x20, 0x21, 0x22, 0x28, 0x29]

/-- RSVD must be 0 (30_encoding.md R120, R124). -/
def CommandWord.reservedClear (c : CommandWord) : Bool := c.rsvd == 0

/-- OPCODE must be assigned (30_encoding.md R123, R124). -/
def CommandWord.opcodeAssigned (c : CommandWord) : Bool := assignedOpcodes.contains c.opcode

/-- A legal command word passes both checks (30_encoding.md R124). -/
def CommandWord.wellFormed (c : CommandWord) : Bool := c.reservedClear && c.opcodeAssigned

namespace Machine

/-- The code points a SPACE6 entry may not have (44_layout.md R248). -/
def fixedSpecials : List Word := [0x09, 0x0A, 0x20, 0xA0, 0xAD, 0x3000]

/-- The six code points of SPACE6 are distinct (44_layout.md R248). -/
def Platform.spacesDistinct (p : Platform) : Bool := decide (p.space6.toList.map (·.cp)).Nodup

/-- None of them is one of the fixed special code points (44_layout.md R248). -/
def Platform.spacesNew (p : Platform) : Bool := p.space6.toList.all fun e => !fixedSpecials.contains e.cp

/-- SPACE6 as 44_layout.md R248 requires it. That an advance lies in 0..255, that BLOCK_BASE's window is refused to
the engine and that ALIGN_CLASS is NORMAL on U+0021..U+007E hold by construction. -/
def Platform.wellFormed (p : Platform) : Bool := p.spacesDistinct && p.spacesNew

end Machine

end Sys2Proof
end

