-- ==== Sys2Proof/Machine/State.lean ====
section
/-! DEFINITION. The state: everything spec/10_state.md gives the block, external memory, the OPEN parameters as data,
and the host's side of the interface. Plain data throughout. -/

namespace Sys2Proof.Machine

/-- External memory (20_memory.md R80): the listed bytes, addresses strictly rising, no entry 0; an address that is
not listed reads 0 (log 5). -/
abbrev Memory := List Host.Cell

/-- The surface descriptor registers SURF_* (10_state.md R39 to R42). -/
structure Surface where
  base : Word
  cfg : Word
  size : Word
  pitch : Word
  deriving DecidableEq, Repr

/-- The command argument registers ARG_P0, ARG_P1 and ARG_VALUE (10_state.md R43 to R45). -/
structure Args where
  p0 : Word
  p1 : Word
  value : Word
  deriving DecidableEq, Repr

/-- The text and layout configuration registers TEXT_* and LT_* (10_state.md R46 to R50). -/
structure TextRegs where
  base : Word
  len : Word
  ltStart : Word
  ltMax : Word
  ltCfg0 : Word
  ltCfg1 : Word
  deriving DecidableEq, Repr

/-- One charset descriptor slot, CS_*[i] (10_state.md R55). -/
structure CharsetSlot where
  base : Word
  len : Word
  min : Word
  max : Word
  ctrl : Word
  deriving DecidableEq, Repr

/-- The latched layout state L.* (10_state.md R52). -/
structure Layout where
  x : Word
  y : Word
  xInit : Word
  yInit : Word
  maxX : Word
  maxY : Word
  spaceW : Byte
  padW : Byte
  lineH : Byte
  glyphH : Byte
  fullCell : Byte
  wrap : Bool
  bbMinX : Word
  bbMinY : Word
  bbMaxX : Word
  bbMaxY : Word
  bbValid : Bool
  active : Bool
  done : Bool
  deriving DecidableEq, Repr

/-- The decoder state Dc.* (10_state.md R53). -/
structure Decoder where
  base : Word
  len : Word
  pos : Word
  deriving DecidableEq, Repr

/-- The glyph record registers GL_* (10_state.md R54). -/
structure Glyph where
  cp : Word
  x : Word
  y : Word
  nextX : Word
  info : Word
  data : Word
  hdr : Word
  deriving DecidableEq, Repr

/-- STATUS.FAULT, STATUS.FAULT_CODE and FAULT_INFO (10_state.md R35, R36). -/
structure FaultStatus where
  fault : Bool
  code : Byte
  info : Word
  deriving DecidableEq, Repr

/-- All block state (10_state.md R30). ID, CTRL and CMD hold nothing: ID is a constant and the other two read 0.
STATUS.BUSY is 1 exactly while `latch` holds a command (R56; log 6). -/
structure Block where
  /-- the pending-command latch (R56) -/
  latch : Option Word
  status : FaultStatus
  result0 : Word
  result1 : Word
  surf : Surface
  args : Args
  text : TextRegs
  cs : Vector CharsetSlot 8
  lay : Layout
  dec : Decoder
  gl : Glyph
  deriving DecidableEq, Repr

/-- The two agents (00_scope.md R7). -/
inductive Agent where
  | host
  | engine
  deriving DecidableEq, Repr

/-- One move of the host (30_encoding.md R126, 70_reset_and_hazards.md R354). -/
inductive HostMove where
  /-- a write of `width` bytes to the register window at `offset`; `wr` and `cmd` have width 4 -/
  | write (offset : Nat) (width : Nat) (value : Word)
  /-- a read of `width` bytes of the register window at `offset`; `rd` has width 4 -/
  | read (offset : Nat) (width : Nat)
  /-- `wait`: read STATUS until BUSY = 0 -/
  | wait
  /-- `mem.b`: store bytes at an external address and up -/
  | store (addr : Word) (bytes : List Byte)
  /-- load `count` bytes of external memory -/
  | load (addr : Word) (count : Nat)
  /-- hardware reset, from outside the block (70_reset_and_hazards.md R340) -/
  | hardwareReset
  /-- the platform changes which engine accesses it admits (70_reset_and_hazards.md R349) -/
  | readmit (refusals : List AdmitRule)
  deriving DecidableEq, Repr

/-- What a read of the host returned. -/
inductive HostSeen where
  | register (offset : Nat) (value : Word)
  | memory (addr : Word) (bytes : List Byte)
  deriving DecidableEq, Repr

/-- What the host may not read yet: the results of commands that no STATUS read has returned BUSY = 0 after
(70_reset_and_hazards.md R347; log 30). -/
structure Pending where
  /-- RESULT0, RESULT1, GL_* and the read-only views -/
  registers : Bool
  /-- the bytes of memory that commands wrote -/
  bytes : List Word
  deriving DecidableEq, Repr

/-- Nothing is pending. -/
def Pending.none : Pending := { registers := false, bytes := [] }

/-- The whole machine: the block, what surrounds it, and the host's side (00_scope.md R7, R8; 10_state.md R30). -/
structure State where
  /-- the block (10_state.md R30) -/
  blk : Block
  /-- external memory, the platform's (20_memory.md R80) -/
  mem : Memory
  /-- the OPEN parameters (00_scope.md R8) -/
  platform : Platform
  /-- how many free bytes have been taken (the model's own; log 4) -/
  draws : Nat
  /-- the host's moves to come, oldest first (the model's own; log 20) -/
  host : List HostMove
  /-- whose turn comes next, soonest first (the model's own; log 1) -/
  schedule : List Agent
  /-- what the host's reads returned, newest first (the model's own; log 20) -/
  seen : List HostSeen
  /-- a STATUS read has returned BUSY = 0 since the host's last CMD write (70_reset_and_hazards.md R355; log 29) -/
  settled : Bool
  /-- the results the host may not read yet (70_reset_and_hazards.md R347; the model's own; log 30) -/
  pending : Pending
  deriving DecidableEq, Repr

/-- A fault a command raises, with what it carries (60_exceptions.md R300). It is recorded in STATUS and FAULT_INFO,
in a next state (R302): it is no `Fault` of the model. -/
inductive Cause where
  | illegalCommand (word : Word)
  | badSurface (reason : Word)
  | outOfBounds (info : Word)
  | charsetRange (cp : Word)
  | charsetAlign (slot : Fin 8)
  | busError (addr : Word)
  | overflow (cp : Word)
  deriving DecidableEq, Repr

/-- The ways the model itself stops with a fault. -/
inductive Fault where
  /-- The host touches memory that the command in flight may use while BUSY = 1: a race, whose result is unspecified
  (20_memory.md R93, 60_exceptions.md R312; log 12). Raised by a host `store` or `load`. Safe: the machine stops
  where the spec defines nothing. -/
  | hostRace
  deriving DecidableEq, Repr

/-- The ways the model refuses to give a move or an instruction a meaning. -/
inductive Refusal where
  /-- An instruction without a meaning in this model, by its mnemonic. Raised by `exec` only. Safe. -/
  | notModelled (mnemonic : String)
  /-- A host register access that is not an aligned 32-bit access (10_state.md R32, 60_exceptions.md R312;
  log 10). Safe. -/
  | narrowRegisterAccess
  /-- A host register move whose offset lies outside the 0x200-byte window: it names no register of the block
  (10_state.md R31; log 10). Safe. -/
  | outsideWindow
  /-- A host write to a register other than CTRL while BUSY = 1, which the host must not make
  (70_reset_and_hazards.md R345, 60_exceptions.md R312; log 11). Safe. -/
  | hostWriteWhileBusy
  /-- An engine access to a region with read side effects (20_memory.md R88, 60_exceptions.md R312; log 21). Safe. -/
  | readSideEffects
  deriving DecidableEq, Repr

/-- What ends a command before its end: a raised fault (00_scope.md R14) or a refusal of the model. -/
inductive Stop where
  | raise (c : Cause)
  | refuse (r : Refusal)
  deriving DecidableEq, Repr

/-- A charset slot after reset: disabled (10_state.md R55). -/
def CharsetSlot.reset : CharsetSlot := { base := 0, len := 0, min := 0, max := 0, ctrl := 0 }

/-- L.* after reset (10_state.md R52). -/
def Layout.reset : Layout :=
  { x := 0, y := 0, xInit := 0, yInit := 0, maxX := 0, maxY := 0, spaceW := 0, padW := 0, lineH := 0, glyphH := 0,
    fullCell := 0, wrap := false, bbMinX := 0, bbMinY := 0, bbMaxX := 0, bbMaxY := 0, bbValid := false,
    active := false, done := false }

/-- GL_* after reset, and after LAYOUT_START (10_state.md R54, 44_layout.md R270). -/
def Glyph.reset : Glyph := { cp := 0, x := 0, y := 0, nextX := 0, info := 0, data := 0, hdr := 0 }

/-- FAULT = 0, FAULT_CODE = 0, FAULT_INFO = 0 (10_state.md R35, R36). -/
def FaultStatus.clear : FaultStatus := { fault := false, code := 0, info := 0 }

/-- The block after hardware or soft reset (70_reset_and_hazards.md R340, R341). -/
def Block.reset : Block :=
  { latch := none, status := .clear, result0 := 0, result1 := 0,
    surf := { base := 0, cfg := 0, size := 0, pitch := 0 },
    args := { p0 := 0, p1 := 0, value := 0 },
    text := { base := 0, len := 0, ltStart := 0, ltMax := 0, ltCfg0 := 0, ltCfg1 := 0 },
    cs := Vector.replicate 8 .reset, lay := .reset, dec := { base := 0, len := 0, pos := 0 }, gl := .reset }

/-- The machine right after reset: the block as 70_reset_and_hazards.md R340 gives it, no byte of memory listed, the
OPEN parameters at their unknown value, no host move pending. -/
def State.reset : State :=
  { blk := .reset, mem := [], platform := Config.platform, draws := 0, host := [], schedule := [], seen := [],
    settled := false, pending := .none }

end Sys2Proof.Machine
end

