-- ==== Sys2Proof/Machine/Operands.lean ====
section
/-! DEFINITION. Operand assembly (30_encoding.md R122): every field of every register and of a glyph header that a
command reads, with its extension, and the narrowing of exact integers. -/

namespace Sys2Proof.Machine

/-- Bits 15:0 of a register, zero-extended. -/
def lowHalf (w : Word) : Nat := (w.extractLsb' 0 16).toNat

/-- Bits 31:16 of a register, zero-extended. -/
def highHalf (w : Word) : Nat := (w.extractLsb' 16 16).toNat

/-- Bits 15:0 of a register, sign-extended. -/
def lowHalfSigned (w : Word) : Int := (w.extractLsb' 0 16).toInt

/-- Bits 31:16 of a register, sign-extended. -/
def highHalfSigned (w : Word) : Int := (w.extractLsb' 16 16).toInt

/-- INT32 (00_scope.md R11). -/
def int32 (v : Int) : Bool := decide (-(2 ^ 31) ≤ v) && decide (v ≤ 2 ^ 31 - 1)

/-- The 32-bit two's-complement pattern of an integer (00_scope.md R11). -/
def wordOfInt (v : Int) : Word := BitVec.ofInt 32 v

/-- `clamp` (00_scope.md R11) to 0..hi. -/
def clampNat (v : Int) (hi : Nat) : Nat := (min (max v 0) hi).toNat

/-- ARG_P0.X0 (10_state.md R43). -/
def Args.x0 (a : Args) : Nat := lowHalf a.p0

/-- ARG_P0.Y0 (10_state.md R43). -/
def Args.y0 (a : Args) : Nat := highHalf a.p0

/-- ARG_P1.X1, also the width w and the run length (10_state.md R44). -/
def Args.x1 (a : Args) : Nat := lowHalf a.p1

/-- ARG_P1.Y1, also the height h (10_state.md R44). -/
def Args.y1 (a : Args) : Nat := highHalf a.p1

/-- SURF_CFG.KIND = 1 (10_state.md R40). -/
def Surface.tiled (sf : Surface) : Bool := sf.cfg.getLsbD 0

/-- SURF_CFG.VRAM16 (10_state.md R40). -/
def Surface.vram16 (sf : Surface) : Bool := sf.cfg.getLsbD 1

/-- SURF_CFG.FMT (10_state.md R40). -/
def Surface.fmt (sf : Surface) : Nat := (sf.cfg.extractLsb' 4 3).toNat

/-- SURF_SIZE.WIDTH (10_state.md R41). -/
def Surface.width (sf : Surface) : Nat := lowHalf sf.size

/-- SURF_SIZE.HEIGHT (10_state.md R41). -/
def Surface.height (sf : Surface) : Nat := highHalf sf.size

/-- SURF_PITCH.PITCH (10_state.md R42). -/
def Surface.stride (sf : Surface) : Nat := lowHalf sf.pitch

/-- LT_START.START_X (10_state.md R47). -/
def TextRegs.startX (t : TextRegs) : Int := lowHalfSigned t.ltStart

/-- LT_START.START_Y (10_state.md R47). -/
def TextRegs.startY (t : TextRegs) : Int := highHalfSigned t.ltStart

/-- LT_MAX.MAX_X (10_state.md R48). -/
def TextRegs.maxX (t : TextRegs) : Int := lowHalfSigned t.ltMax

/-- LT_MAX.MAX_Y (10_state.md R48). -/
def TextRegs.maxY (t : TextRegs) : Int := highHalfSigned t.ltMax

/-- LT_CFG0.SPACE_W (10_state.md R49). -/
def TextRegs.spaceW (t : TextRegs) : Byte := t.ltCfg0.extractLsb' 0 8

/-- LT_CFG0.PAD_W (10_state.md R49). -/
def TextRegs.padW (t : TextRegs) : Byte := t.ltCfg0.extractLsb' 8 8

/-- LT_CFG0.LINE_H (10_state.md R49). -/
def TextRegs.lineH (t : TextRegs) : Byte := t.ltCfg0.extractLsb' 16 8

/-- LT_CFG0.GLYPH_H (10_state.md R49). -/
def TextRegs.glyphH (t : TextRegs) : Byte := t.ltCfg0.extractLsb' 24 8

/-- LT_CFG1.FULL_CELL (10_state.md R50). -/
def TextRegs.fullCell (t : TextRegs) : Byte := t.ltCfg1.extractLsb' 0 8

/-- LT_CFG1.WRAP (10_state.md R50). -/
def TextRegs.wrap (t : TextRegs) : Bool := t.ltCfg1.getLsbD 8

/-- CS_CTRL.ENABLE (10_state.md R55). -/
def CharsetSlot.enabled (c : CharsetSlot) : Bool := c.ctrl.getLsbD 0

/-- "Has data" (10_state.md R55). -/
def CharsetSlot.hasData (c : CharsetSlot) : Bool := c.enabled && decide (0 < c.len.toNat)

/-- Header field SIZE_X (44_layout.md R241). -/
def hdrSizeX (h : Word) : Nat := (h.extractLsb' 0 4).toNat

/-- Header field SIZE_Y (44_layout.md R241). -/
def hdrSizeY (h : Word) : Nat := (h.extractLsb' 4 4).toNat

/-- Header field OFFSET_Y (44_layout.md R241). -/
def hdrOffsetY (h : Word) : Nat := (h.extractLsb' 8 4).toNat

/-- Header field DATA_OFFSET (44_layout.md R241). -/
def hdrDataOffset (h : Word) : Nat := (h.extractLsb' 16 16).toNat

/-- WIDE (44_layout.md R241). -/
def hdrWide (h : Word) : Bool := decide (8 < hdrSizeX h)

/-- ROWBYTES (44_layout.md R241). -/
def hdrRowBytes (h : Word) : Nat := if hdrWide h then 2 else 1

/-- GL_INFO.SIZE_X (10_state.md R54). -/
def Glyph.sizeX (g : Glyph) : Nat := (g.info.extractLsb' 0 4).toNat

/-- GL_INFO.SIZE_Y (10_state.md R54). -/
def Glyph.sizeY (g : Glyph) : Nat := (g.info.extractLsb' 4 4).toNat

/-- GL_INFO.HAS_DATA (10_state.md R54). -/
def Glyph.hasData (g : Glyph) : Bool := g.info.getLsbD 8

/-- GL_INFO.WIDE (10_state.md R54). -/
def Glyph.wide (g : Glyph) : Bool := g.info.getLsbD 9

/-- GL_INFO.EOF (10_state.md R54). -/
def Glyph.eof (g : Glyph) : Bool := g.info.getLsbD 12

/-- The bytes of one row of the record's bitmap (45_render.md R290). -/
def Glyph.rowBytes (g : Glyph) : Nat := if g.wide then 2 else 1

end Sys2Proof.Machine
end

