-- ==== Sys2Proof/Machine/Flags.lean ====
section
/-! DEFINITION. The flag and status words the block assembles: STATUS, LS_FLAGS, GL_INFO and the flag words that
MAPADDR and GLYPH_LOOKUP leave in RESULT1. -/

namespace Sys2Proof.Machine

/-- A flag as a 1-bit field. -/
def bit (b : Bool) : BitVec 1 := BitVec.ofBool b

/-- STATUS.BUSY: the latch holds a command the engine has not executed (10_state.md R35, R56). -/
def Block.busy (b : Block) : Bool := b.latch.isSome

/-- STATUS: FAULT_CODE in 15:8, FAULT in 1, BUSY in 0, the rest reserved (10_state.md R35). -/
def Block.statusWord (b : Block) : Word :=
  (0 : BitVec 16) ++ b.status.code ++ (0 : BitVec 6) ++ bit b.status.fault ++ bit b.busy

/-- LS_FLAGS: DONE, BBOX_VALID and ACTIVE in 2, 1 and 0 (10_state.md R51). -/
def Layout.flagsWord (l : Layout) : Word :=
  (0 : BitVec 29) ++ bit l.done ++ bit l.bbValid ++ bit l.active

/-- The encoding of an alignment class (44_layout.md R249). -/
def AlignClass.code : AlignClass → BitVec 2
  | .normal => 0
  | .fwLeft => 1
  | .fwRight => 2
  | .fwCenter => 3

/-- GL_INFO of an EOF record (10_state.md R54, 44_layout.md R262). -/
def eofInfo : Word := (0 : BitVec 19) ++ bit true ++ (0 : BitVec 12)

/-- GL_INFO of a drawable record (10_state.md R54, 44_layout.md R262): CS 18:16, ALIGN 14:13, EOF 12, TRUNC_Y 11,
TRUNC_X 10, WIDE 9, HAS_DATA 8, SIZE_Y 7:4, SIZE_X 3:0. -/
def drawableInfo (slot : Fin 8) (cls : AlignClass) (truncX truncY wide : Bool) (sizeX sizeY : Nat) : Word :=
  (0 : BitVec 13) ++ BitVec.ofNat 3 slot.val ++ (0 : BitVec 1) ++ cls.code ++ (0 : BitVec 1) ++ bit truncY ++
    bit truncX ++ bit wide ++ bit true ++ BitVec.ofNat 4 sizeY ++ BitVec.ofNat 4 sizeX

/-- RESULT1 of MAPADDR (41_pixel.md R174): RMW8 17, RMW16 16, PB 15:8, SHIFT 3:0. -/
def mapFlags (shift bpp : Nat) (rmw16 rmw8 : Bool) : Word :=
  (0 : BitVec 14) ++ bit rmw8 ++ bit rmw16 ++ BitVec.ofNat 8 bpp ++ (0 : BitVec 4) ++ BitVec.ofNat 4 shift

/-- RESULT1 of GLYPH_LOOKUP when a slot matched (44_layout.md R260): the class 5:4, the slot 3:1, FOUND 0. -/
def lookupFlags (slot : Fin 8) (cls : AlignClass) : Word :=
  (0 : BitVec 26) ++ cls.code ++ BitVec.ofNat 3 slot.val ++ bit true

end Sys2Proof.Machine
end

