-- ==== Sys2Proof/Machine/Ops.lean ====
section
/-! DEFINITION. The shared operations: bytes of external memory and little-endian accesses, the platform's verdict on
an access, the engine's read and write primitives, free values, raising a fault (the block's exception entry),
clearing it (the return), and the frame in which a command runs. -/

namespace Sys2Proof.Machine

/-! ### Bytes of memory -/

/-- The byte listed at an address, 0 where none is (log 5). -/
def memGet : Memory → Nat → Byte
  | [], _ => 0#8
  | (k, b) :: rest, a => if k = a then b else memGet rest a

/-- Memory with one byte written, in canonical form. -/
def memSet : Memory → Nat → Byte → Memory
  | [], a, b => if b = 0#8 then [] else [(a, b)]
  | (k, c) :: rest, a, b =>
    if a < k then (if b = 0#8 then (k, c) :: rest else (a, b) :: (k, c) :: rest)
    else if a = k then (if b = 0#8 then rest else (a, b) :: rest)
    else (k, c) :: memSet rest a b

/-- Addresses from `lo` on, strictly rising and below 2^32, and no entry equal to what an unlisted address reads. -/
def memWfFrom : Nat → Memory → Bool
  | _, [] => true
  | lo, (k, b) :: rest => decide (lo ≤ k) && decide (k < 2 ^ 32) && decide (b ≠ 0#8) && memWfFrom (k + 1) rest

/-- The canonical form of memory (log 5). -/
def Memory.wf (m : Memory) : Bool := memWfFrom 0 m

/-- The byte at an external address (20_memory.md R80). -/
def byteAt (m : Memory) (a : Word) : Byte := memGet m a.toNat

/-- Memory with the byte at an external address written. -/
def setByte (m : Memory) (a : Word) (b : Byte) : Memory := memSet m a.toNat b

/-- The `n` bytes from `a` on, each address modulo 2^32, composed little-endian, for n up to 4 (00_scope.md R13,
20_memory.md R81, R83). -/
def readLE (m : Memory) (a : Word) : Nat → Word
  | 0 => 0#32
  | n + 1 => (byteAt m a).setWidth 32 ||| (readLE m (a + 1#32) n <<< 8)

/-- The low `n` bytes of `v` written from `a` on, the least significant at the lowest address (00_scope.md R13). -/
def writeLE (m : Memory) (a : Word) : Nat → Word → Memory
  | 0, _ => m
  | n + 1, v => writeLE (setByte m a (v.setWidth 8)) (a + 1#32) n (v >>> 8)

/-- A run of bytes stored from `a` on. -/
def storeBytes (m : Memory) (a : Word) : List Byte → Memory
  | [] => m
  | b :: rest => storeBytes (setByte m a b) (a + 1#32) rest

/-- The addresses of an access of `n` bytes at `a`, each modulo 2^32 (00_scope.md R13). -/
def accessBytes (a : Word) (n : Nat) : List Word := (List.range n).map fun k => a + BitVec.ofNat 32 k

/-- The two bytes of the aligned halfword that contains `a` (20_memory.md R86). -/
def halfwordBytes (a : Word) : List Word := [a &&& ~~~1#32, (a &&& ~~~1#32) + 1#32]

/-! ### The platform's verdicts -/

/-- An address lies in a span, modulo 2^32. -/
def Span.has (r : Span) (a : Word) : Bool := decide ((a - r.base).toNat < r.size)

/-- A refusal rule covers an access. -/
def AdmitRule.covers (r : AdmitRule) (a : Word) (n : Nat) (k : AccessKind) : Bool :=
  r.span.has a && (match r.bytes with | none => true | some b => b == n) &&
    (match r.kind with | none => true | some q => q == k)

/-- An address of the register window: 0x200 bytes at BLOCK_BASE (10_state.md R31). -/
def Platform.inWindow (p : Platform) (a : Word) : Bool := decide ((a - p.blockBase).toNat < 0x200)

/-- MEM_ADMIT(addr, n, kind) (20_memory.md R82): no refusal rule covers the access, and it does not touch the
block's own register window, which must be refused. -/
def Platform.admits (p : Platform) (a : Word) (n : Nat) (k : AccessKind) : Bool :=
  !((accessBytes a n).any p.inWindow) && !(p.refusals.any fun r => r.covers a n k)

/-- The access touches a region with read side effects (20_memory.md R88). -/
def Platform.touchesReadEffects (p : Platform) (a : Word) (n : Nat) : Bool :=
  (accessBytes a n).any fun b => p.readEffects.any fun r => r.has b

/-- BYTE_WRITE_OK(addr) (20_memory.md R86). -/
def Platform.byteWriteOk (p : Platform) (a : Word) : Bool := !(p.byteWriteBad.any fun r => r.has a)

/-- The access is admitted and is to plain memory: it takes place. -/
def Platform.serves (p : Platform) (a : Word) (n : Nat) (k : AccessKind) : Bool :=
  p.admits a n k && !p.touchesReadEffects a n

/-- ALIGN_CLASS(cp): NORMAL on U+0021..U+007E, as 44_layout.md R249 requires, else what the parameter says. -/
def Platform.alignClass (p : Platform) (cp : Word) : AlignClass :=
  if 0x21 ≤ cp.toNat ∧ cp.toNat ≤ 0x7E then .normal
  else match p.alignRanges.find? fun r => decide (r.first.toNat ≤ cp.toNat) && decide (cp.toNat ≤ r.last.toNat) with
    | some r => r.cls
    | none => .normal

/-! ### The engine's memory primitives -/

/-- What comes before every engine access (00_scope.md R13, 20_memory.md R82, R88): MEM_ADMIT is asked first (log 21). -/
def access (p : Platform) (a : Word) (n : Nat) (k : AccessKind) : Except Stop Unit :=
  if p.admits a n k then
    if p.touchesReadEffects a n then .error (.refuse .readSideEffects) else .ok ()
  else .error (.raise (.busError a))

/-- MemRead(addr, n) (00_scope.md R13). -/
def memRead (p : Platform) (m : Memory) (a : Word) (n : Nat) : Except Stop Word := do
  access p a n .read
  return readLE m a n

/-- What a command draws on: memory, the counter of free values, and the addresses it has written so far. -/
structure Canvas where
  mem : Memory
  draws : Nat
  wrote : List Word
  deriving DecidableEq, Repr

/-- A computation that writes memory and may stop; the writes made before a stop stay (00_scope.md R14). -/
abbrev Draw := EStateM Stop Canvas

/-- Each of these bytes takes any value (20_memory.md R86, R90; log 4). -/
def freeBytes : List Word → Canvas → Canvas
  | [], c => c
  | a :: rest, c =>
    freeBytes rest
      { mem := setByte c.mem a (Config.freeByte c.draws), draws := c.draws + 1, wrote := a :: c.wrote }

/-- The bytes an admitted MemWrite changes: its own, or both bytes of the halfword when an 8-bit write is not
honoured there (20_memory.md R86). -/
def writtenBytes (p : Platform) (a : Word) (n : Nat) : List Word :=
  if n = 1 ∧ p.byteWriteOk a = false then halfwordBytes a else accessBytes a n

/-- MemWrite(addr, n, v) (00_scope.md R13). -/
def memWrite (p : Platform) (a : Word) (n : Nat) (v : Word) : Draw Unit := fun c =>
  match access p a n .write with
  | .error e => .error e c
  | .ok _ =>
    if n = 1 ∧ p.byteWriteOk a = false then .ok () (freeBytes (halfwordBytes a) c)
    else .ok () { c with mem := writeLE c.mem a n v, wrote := accessBytes a n ++ c.wrote }

/-- A read in the course of drawing: it sees the writes made before it (20_memory.md R93). -/
def drawRead (p : Platform) (a : Word) (n : Nat) : Draw Word := fun c =>
  match memRead p c.mem a n with
  | .ok v => .ok v c
  | .error e => .error e c

/-- A loop over a list, in its order. -/
def forEach {ε σ α : Type} (f : α → EStateM ε σ Unit) : List α → EStateM ε σ Unit
  | [] => pure ()
  | a :: rest => do
    f a
    forEach f rest

/-! ### The frame of a command -/

/-- The state in which a command runs: the machine, and the addresses the command has written so far. -/
structure Work where
  st : State
  wrote : List Word
  deriving DecidableEq, Repr

/-- A command's computation. -/
abbrev Engine := EStateM Stop Work

/-- The state as the command has made it so far. -/
def theState : Engine State := fun w => .ok w.st w

/-- A check or a read, which changes nothing. -/
def check {α : Type} (e : Except Stop α) : Engine α := fun w =>
  match e with
  | .ok a => .ok a w
  | .error r => .error r w

/-- A register write of the command. -/
def update (f : State → State) : Engine Unit := fun w => .ok () { w with st := f w.st }

/-- What a command draws on at this point. -/
def Work.canvas (w : Work) : Canvas := { mem := w.st.mem, draws := w.st.draws, wrote := w.wrote }

/-- The command's state after drawing. -/
def Work.drawn (w : Work) (c : Canvas) : Work :=
  { st := { w.st with mem := c.mem, draws := c.draws }, wrote := c.wrote }

/-- Memory writes of the command. -/
def draw {α : Type} (d : Draw α) : Engine α := fun w =>
  match d w.canvas with
  | .ok a c => .ok a (w.drawn c)
  | .error e c => .error e (w.drawn c)

/-! ### Taking a fault, and returning from it -/

/-- FAULT_CODE (60_exceptions.md R300). -/
def Cause.code : Cause → Byte
  | .illegalCommand _ => 1
  | .badSurface _ => 2
  | .outOfBounds _ => 3
  | .charsetRange _ => 4
  | .charsetAlign _ => 5
  | .busError _ => 6
  | .overflow _ => 7

/-- FAULT_INFO (60_exceptions.md R300). -/
def Cause.info : Cause → Word
  | .illegalCommand w => w
  | .badSurface reason => reason
  | .outOfBounds info => info
  | .charsetRange cp => cp
  | .charsetAlign slot => BitVec.ofNat 32 slot.val
  | .busError a => a
  | .overflow cp => cp

/-- The engine step takes the latched word and clears BUSY (10_state.md R56). -/
def complete (s : State) : State := { s with blk := { s.blk with latch := none } }

/-- `raise F(info)` (60_exceptions.md R302): FAULT, FAULT_CODE and FAULT_INFO are set and BUSY is cleared. No other
register is saved, and there is no vector. -/
def raiseFault (c : Cause) (s : State) : State :=
  { s with blk := { s.blk with latch := none, status := { fault := true, code := c.code, info := c.info } } }

/-- Return from a fault (60_exceptions.md R306): the host's write of STATUS bit 1. It has no effect while
FAULT = 0. -/
def clearFault (s : State) : State :=
  if s.blk.status.fault then { s with blk := { s.blk with status := .clear } } else s

/-- A command runs to its end or to its first raise (00_scope.md R14, R16); either way the step clears BUSY
(10_state.md R56). -/
def finish (e : Engine Unit) (s : State) : Host.Outcome State Fault Refusal :=
  match e { st := s, wrote := [] } with
  | .ok _ w => .next (complete w.st)
  | .error (.raise c) w => .next (raiseFault c w.st)
  | .error (.refuse r) _ => .refused r

/-- The state a computation ends or stops in. -/
def finalWork (e : Engine Unit) (s : State) : Work :=
  match e { st := s, wrote := [] } with
  | .ok _ w => w
  | .error _ w => w

/-- A command's computation is refused by the model. -/
def isRefused (e : Engine Unit) (s : State) : Bool :=
  match e { st := s, wrote := [] } with
  | .error (.refuse _) _ => true
  | .ok _ _ => false
  | .error (.raise _) _ => false

/-- The state on a platform that admits every access outside the register window, to plain memory: what the platform
may come to admit before the command in flight is executed (70_reset_and_hazards.md R349), with every region with read
side effects taken for plain memory (log 9). -/
def State.plain (s : State) : State := { s with platform := { s.platform with refusals := [], readEffects := [] } }

/-- The command in flight is abandoned (70_reset_and_hazards.md R342): each byte it could have written holds any
value, every other byte is unchanged, and no register changes. The bytes are those that the command writes in
`State.plain`: a region with read side effects does not refuse the abandonment (log 9). -/
def abandon (e : Engine Unit) (s : State) : State :=
  let w := finalWork e s.plain
  let c := freeBytes w.wrote { mem := s.mem, draws := w.st.draws, wrote := [] }
  { s with mem := c.mem, draws := c.draws }

/-- Hardware or soft reset of the block (70_reset_and_hazards.md R340, R341): all block state, and nothing else. After it
no register is unspecified, so none is pending (log 30). -/
def resetBlock (s : State) : State := { s with blk := .reset, pending := { s.pending with registers := false } }

/-! ### Register writes of commands -/

/-- RESULT0 (10_state.md R38). -/
def setResult0 (v : Word) (s : State) : State := { s with blk := { s.blk with result0 := v } }

/-- RESULT1 (10_state.md R38). -/
def setResult1 (v : Word) (s : State) : State := { s with blk := { s.blk with result1 := v } }

/-- Dc.* (10_state.md R53). -/
def setDecoder (d : Decoder) (s : State) : State := { s with blk := { s.blk with dec := d } }

/-- L.* (10_state.md R52). -/
def setLayout (l : Layout) (s : State) : State := { s with blk := { s.blk with lay := l } }

/-- `emit`: every GL_* register is overwritten (44_layout.md R262). -/
def setGlyph (g : Glyph) (s : State) : State := { s with blk := { s.blk with gl := g } }

end Sys2Proof.Machine
end

