-- ==== Sys2Proof/Machine/Control.lean ====
section
/-! DEFINITION. The control command: NOP (40_control.md R150). -/

namespace Sys2Proof.Machine

/-- `skip`. -/
def nopBody : Engine Unit := pure ()

/-- NOP (40_control.md R150): only BUSY changes. -/
def execNop (s : State) : Host.Outcome State Fault Refusal := finish nopBody s

end Sys2Proof.Machine
end

