-- ==== Sys2Proof/Machine/Utf8.lean ====
section
/-! DEFINITION. The UTF-8 code point decoder: Decode, DecNext, DecPeek and the commands DEC_START, DEC_NEXT and
DEC_PEEK (43_decoder.md R220 to R225). -/

namespace Sys2Proof.Machine

/-- The code point -1, which ends the input (43_decoder.md R221). -/
def eofCode : Word := 0xFFFFFFFF

/-- Byte `k` of the input (43_decoder.md R220). -/
def inputByte (p : Platform) (m : Memory) (d : Decoder) (k : Nat) : Except Stop Word :=
  memRead p m (d.base + BitVec.ofNat 32 k) 1

/-- `c(k)` at position `k` of the input: the low six bits, or 0 without an access beyond the input's end
(43_decoder.md R220, R221). -/
def continuation (p : Platform) (m : Memory) (d : Decoder) (k : Nat) : Except Stop Word :=
  if k < d.len.toNat then do
    let b ← inputByte p m d k
    return b &&& 0x3F
  else .ok 0

/-- Decode(pos): the code point at a position and the bytes it takes (43_decoder.md R221). -/
def decodeAt (p : Platform) (m : Memory) (d : Decoder) (pos : Nat) : Except Stop (Word × Nat) :=
  if d.len.toNat ≤ pos then .ok (eofCode, 0)
  else do
    let b0 ← inputByte p m d pos
    if b0.toNat < 0xC0 then return (b0, 1)
    else if b0.toNat < 0xE0 then
      let c1 ← continuation p m d (pos + 1)
      return (((b0 &&& 0x1F) <<< 6) ||| c1, 2)
    else if b0.toNat < 0xF0 then
      let c1 ← continuation p m d (pos + 1)
      let c2 ← continuation p m d (pos + 2)
      return (((b0 &&& 0x0F) <<< 12) ||| (c1 <<< 6) ||| c2, 3)
    else
      let c1 ← continuation p m d (pos + 1)
      let c2 ← continuation p m d (pos + 2)
      let c3 ← continuation p m d (pos + 3)
      return (((b0 &&& 0x07) <<< 18) ||| (c1 <<< 12) ||| (c2 <<< 6) ||| c3, 4)

/-- `Dc.pos <- min(Dc.pos + n, Dc.len)` (43_decoder.md R222). -/
def Decoder.advance (d : Decoder) (n : Nat) : Decoder :=
  { d with pos := BitVec.ofNat 32 (min (d.pos.toNat + n) d.len.toNat) }

/-- DecPeek() (43_decoder.md R222): the code point at Dc.pos. -/
def peekCode : Engine Word := do
  let s ← theState
  let r ← check (decodeAt s.platform s.mem s.blk.dec s.blk.dec.pos.toNat)
  return r.1

/-- DecNext() (43_decoder.md R222): the code point at Dc.pos, and Dc.pos moves past it. -/
def nextCode : Engine Word := do
  let s ← theState
  let r ← check (decodeAt s.platform s.mem s.blk.dec s.blk.dec.pos.toNat)
  update (setDecoder (s.blk.dec.advance r.2))
  return r.1

/-- The decoder over the text input, latched (43_decoder.md R223, 44_layout.md R270). -/
def Decoder.start (t : TextRegs) : Decoder := { base := t.base, len := t.len, pos := 0 }

/-- DEC_START (43_decoder.md R223). -/
def decStartBody : Engine Unit := do
  let s ← theState
  update (setDecoder (.start s.blk.text))

/-- DEC_START (43_decoder.md R223). -/
def execDecStart (s : State) : Host.Outcome State Fault Refusal := finish decStartBody s

/-- DEC_NEXT (43_decoder.md R224). -/
def decNextBody : Engine Unit := do
  let cp ← nextCode
  update (setResult0 cp)

/-- DEC_NEXT (43_decoder.md R224). -/
def execDecNext (s : State) : Host.Outcome State Fault Refusal := finish decNextBody s

/-- DEC_PEEK (43_decoder.md R225). -/
def decPeekBody : Engine Unit := do
  let cp ← peekCode
  update (setResult0 cp)

/-- DEC_PEEK (43_decoder.md R225). -/
def execDecPeek (s : State) : Host.Outcome State Fault Refusal := finish decPeekBody s

end Sys2Proof.Machine
end

