-- ==== Sys2Proof/Machine/Layout.lean ====
section
/-! DEFINITION. The charset table and the text layout state machine (44_layout.md R240 to R274): GLYPH_LOOKUP,
LAYOUT_START, LAYOUT_NEXT and LAYOUT_EXHAUST. -/

namespace Sys2Proof.Machine

/-! ### The charset table -/

/-- Slot matches code point (44_layout.md R240): it has data, and CS_MIN <= cp <= CS_MAX as i32. -/
def CharsetSlot.covers (c : CharsetSlot) (cp : Word) : Bool :=
  c.hasData && decide (c.min.toInt ≤ cp.toInt) && decide (cp.toInt ≤ c.max.toInt)

/-- The slots in table order. -/
def allSlots : List (Fin 8) := [0, 1, 2, 3, 4, 5, 6, 7]

/-- FindCharset(cp): the first matching slot (44_layout.md R240). -/
def findCharset (cs : Vector CharsetSlot 8) (cp : Word) : Option (Fin 8) :=
  if cp.toInt < 0 then none else allSlots.find? fun i => (cs.get i).covers cp

/-- The byte offset of a code point's header in its blob (44_layout.md R242). -/
def headerOffset (c : CharsetSlot) (cp : Word) : Int := 4 * (cp.toInt - c.min.toInt)

/-- The four bytes of a header, read one by one and composed little-endian (44_layout.md R242). -/
def readHeader (p : Platform) (m : Memory) (a : Word) : Except Stop Word := do
  let b0 ← memRead p m a 1
  let b1 ← memRead p m (a + 1#32) 1
  let b2 ← memRead p m (a + 2#32) 1
  let b3 ← memRead p m (a + 3#32) 1
  return b0 ||| (b1 <<< 8) ||| (b2 <<< 16) ||| (b3 <<< 24)

/-- GetHeader(i, cp) (44_layout.md R242 to R244). -/
def getHeader (p : Platform) (m : Memory) (cs : Vector CharsetSlot 8) (i : Fin 8) (cp : Word) : Except Stop Word := do
  let c := cs.get i
  if c.base.toNat % 2 ≠ 0 then .error (.raise (.charsetAlign i))
  else if (c.len.toNat : Int) < headerOffset c cp + 4 then .error (.raise (.charsetRange cp))
  else
    let h ← readHeader p m (c.base + wordOfInt (headerOffset c cp))
    if c.len.toNat < hdrDataOffset h + hdrSizeY h * hdrRowBytes h then .error (.raise (.charsetRange cp))
    else return h

/-- GLYPH_LOOKUP (44_layout.md R260). -/
def glyphLookupBody : Engine Unit := do
  let s ← theState
  let cp := s.blk.args.value
  match findCharset s.blk.cs cp with
  | none =>
    update (setResult0 0)
    update (setResult1 0)
  | some i =>
    let h ← check (getHeader s.platform s.mem s.blk.cs i cp)
    update (setResult0 h)
    update (setResult1 (lookupFlags i (s.platform.alignClass cp)))

/-- GLYPH_LOOKUP (44_layout.md R260). -/
def execGlyphLookup (s : State) : Host.Outcome State Fault Refusal := finish glyphLookupBody s

/-! ### Special code points -/

/-- TAB_STOP (00_scope.md R8). -/
def tabStop : Int := 16

/-- TabStop(x), with floor division (44_layout.md R247). -/
def nextTab (x : Int) : Int := (x / tabStop + 1) * tabStop

/-- The advance of a SPACE6 code point (44_layout.md R246, R248). -/
def spaceAdvance (p : Platform) (cp : Word) : Option Nat :=
  (p.space6.toList.find? fun e => e.cp == cp).map fun e => e.adv.toNat

/-- The new cursor (x, y) after a special code point, in unbounded integers; `none` for any other code point
(44_layout.md R246, the rows in the table's order). -/
def specialMove (p : Platform) (l : Layout) (cp : Word) : Option (Int × Int) :=
  let x := l.x.toInt
  let y := l.y.toInt
  if cp = 0x20 then some (x + l.spaceW.toNat, y)
  else if cp = 0xA0 then some (x + l.spaceW.toNat, y)
  else if cp = 0x09 then some (nextTab x, y)
  else if cp = 0x0A then some (l.xInit.toInt, y + l.lineH.toNat)
  else if cp = 0xAD then some (x, y)
  else match spaceAdvance p cp with
    | some adv => some (x + adv, y)
    | none => if cp = 0x3000 then some (x + l.fullCell.toNat, y) else none

/-! ### Placement -/

/-- Place(h, cls, cx): the glyph's left edge and the next cursor x (44_layout.md R250, R251). -/
def place (l : Layout) (h : Word) (cls : AlignClass) (cx : Int) : Int × Int :=
  let sx : Int := hdrSizeX h
  let full : Int := l.fullCell.toNat
  let room : Int := max 0 (full - sx)
  match cls with
  | .normal =>
    let cell : Int := max sx l.padW.toNat
    (cx + (cell - sx) / 2, cx + cell + 1)
  | .fwLeft => (cx, cx + full)
  | .fwRight => (cx + room, cx + full)
  | .fwCenter => (cx + room / 2, cx + full)

/-- Where a drawable glyph ends up: its left edge and top, the cursor after it and the line it is on, its clipped
sizes and what was cut off. -/
structure Placement where
  gx : Int
  gy : Int
  nx : Int
  cy : Int
  csx : Nat
  csy : Nat
  truncX : Bool
  truncY : Bool
  deriving DecidableEq, Repr

/-- The word-wrap test on the first placement (44_layout.md R253). -/
def wraps (l : Layout) (h : Word) (gx : Int) : Bool :=
  l.wrap && decide (l.xInit.toInt < l.x.toInt) && decide (l.maxX.toInt < gx + hdrSizeX h)

/-- The clipped sizes of a glyph at (gx, gy) (44_layout.md R254). -/
def clipped (l : Layout) (h : Word) (gx nx cy : Int) : Placement :=
  let gy := cy + hdrOffsetY h
  let csx := clampNat (l.maxX.toInt - gx) (hdrSizeX h)
  let csy := clampNat (l.maxY.toInt - gy) (hdrSizeY h)
  { gx := gx, gy := gy, nx := nx, cy := cy, csx := csx, csy := csy, truncX := decide (csx < hdrSizeX h),
    truncY := decide (csy < hdrSizeY h) }

/-- Steps 5 to 7 of a drawable glyph (44_layout.md R250 to R254, R272): placed at the cursor, and once more at the
start of the next line when it wraps. -/
def placeGlyph (l : Layout) (h : Word) (cls : AlignClass) : Placement :=
  let first := place l h cls l.x.toInt
  if wraps l h first.1 then
    let again := place l h cls l.xInit.toInt
    clipped l h again.1 again.2 (l.y.toInt + l.lineH.toNat)
  else clipped l h first.1 first.2 l.y.toInt

/-- The quantities of a drawable glyph that must be i32 (44_layout.md R256; log 14). -/
def Placement.fits (g : Placement) (h : Word) : Bool :=
  int32 g.nx && int32 g.cy && int32 g.gx && int32 g.gy && int32 (g.gx + hdrSizeX h) && int32 (g.gx + g.csx) &&
    int32 (g.gy + g.csy)

/-- The bounding box after a drawable glyph (44_layout.md R255). -/
def Layout.cover (l : Layout) (g : Placement) : Layout :=
  if g.csx = 0 ∨ g.csy = 0 then l
  else if l.bbValid then
    { l with
      bbMinX := wordOfInt (min l.bbMinX.toInt g.gx)
      bbMinY := wordOfInt (min l.bbMinY.toInt g.gy)
      bbMaxX := wordOfInt (max l.bbMaxX.toInt (g.gx + g.csx))
      bbMaxY := wordOfInt (max l.bbMaxY.toInt (g.gy + g.csy)) }
  else
    { l with
      bbMinX := wordOfInt g.gx
      bbMinY := wordOfInt g.gy
      bbMaxX := wordOfInt (g.gx + g.csx)
      bbMaxY := wordOfInt (g.gy + g.csy)
      bbValid := true }

/-! ### Glyph records (44_layout.md R262) -/

/-- The EOF record. -/
def eofRecord (l : Layout) : Glyph :=
  { cp := eofCode, x := l.x, y := l.y, nextX := l.x, info := eofInfo, data := 0, hdr := 0 }

/-- The record of a special or unknown code point: the cursor before the step, and its x after. -/
def unprintableRecord (cp : Word) (before : Layout) (xAfter : Word) : Glyph :=
  { cp := cp, x := before.x, y := before.y, nextX := xAfter, info := 0, data := 0, hdr := 0 }

/-- The record of a drawable glyph. -/
def drawableRecord (cp : Word) (slot : Fin 8) (slotBase : Word) (h : Word) (cls : AlignClass) (g : Placement) : Glyph :=
  { cp := cp, x := wordOfInt g.gx, y := wordOfInt g.gy, nextX := wordOfInt g.nx,
    info := drawableInfo slot cls g.truncX g.truncY (hdrWide h) g.csx g.csy,
    data := slotBase + BitVec.ofNat 32 (hdrDataOffset h), hdr := h }

/-! ### The layout step -/

/-- What a LayoutStep returns (44_layout.md R272). -/
inductive StepKind where
  | eof
  | unprintable
  | drawable
  deriving DecidableEq, Repr

/-- `check rule R256`: Overflow with the code point unless the quantities are i32. -/
def overflowCheck (cp : Word) (fits : Bool) : Except Stop Unit :=
  if fits then .ok () else .error (.raise (.overflow cp))

/-- `emit(EOF) ; L.done <- 1` (44_layout.md R272, steps 1 and 2). -/
def endLayout : Engine StepKind := do
  let s ← theState
  update (setGlyph (eofRecord s.blk.lay))
  update (setLayout { s.blk.lay with done := true })
  return .eof

/-- Steps 4 to 7 of a code point that charset slot `i` covers (44_layout.md R272). -/
def layoutGlyph (cp : Word) (i : Fin 8) : Engine StepKind := do
  let s ← theState
  let l := s.blk.lay
  let h ← check (getHeader s.platform s.mem s.blk.cs i cp)
  let cls := s.platform.alignClass cp
  let g := placeGlyph l h cls
  check (overflowCheck cp (g.fits h))
  update (setLayout (Layout.cover { l with x := wordOfInt g.nx, y := wordOfInt g.cy } g))
  update (setGlyph (drawableRecord cp i (s.blk.cs.get i).base h cls g))
  return .drawable

/-- Steps 3 to 7 of a code point (44_layout.md R272): special, unknown (R257) or drawable. -/
def layoutCode (cp : Word) : Engine StepKind := do
  let s ← theState
  let l := s.blk.lay
  match specialMove s.platform l cp with
  | some xy =>
    check (overflowCheck cp (int32 xy.1 && int32 xy.2))
    update (setLayout { l with x := wordOfInt xy.1, y := wordOfInt xy.2 })
    update (setGlyph (unprintableRecord cp l (wordOfInt xy.1)))
    return .unprintable
  | none =>
    match findCharset s.blk.cs cp with
    | none =>
      update (setGlyph (unprintableRecord cp l l.x))
      return .unprintable
    | some i => layoutGlyph cp i

/-- LayoutStep() (44_layout.md R272). -/
def layoutStep : Engine StepKind := do
  let s ← theState
  let l := s.blk.lay
  if l.active = false then
    update (setGlyph (eofRecord l))
    return .eof
  else if l.maxY.toInt ≤ l.y.toInt then endLayout
  else
    let cp ← nextCode
    if cp = eofCode then endLayout else layoutCode cp

/-- L.* latched from the registers (44_layout.md R270). -/
def Layout.start (t : TextRegs) : Layout :=
  let y := t.startY + t.lineH.toNat - t.glyphH.toNat
  { x := wordOfInt t.startX, y := wordOfInt y, xInit := wordOfInt t.startX, yInit := wordOfInt y,
    maxX := wordOfInt t.maxX, maxY := wordOfInt t.maxY, spaceW := t.spaceW, padW := t.padW, lineH := t.lineH,
    glyphH := t.glyphH, fullCell := t.fullCell, wrap := t.wrap, bbMinX := 0, bbMinY := 0, bbMaxX := 0, bbMaxY := 0,
    bbValid := false, active := true, done := false }

/-- LAYOUT_START (44_layout.md R270). -/
def layoutStartBody : Engine Unit := do
  let s ← theState
  update (setDecoder (.start s.blk.text))
  update (setLayout (.start s.blk.text))
  update (setGlyph .reset)

/-- LAYOUT_START (44_layout.md R270). -/
def execLayoutStart (s : State) : Host.Outcome State Fault Refusal := finish layoutStartBody s

/-- LAYOUT_NEXT (44_layout.md R272): one LayoutStep(). -/
def layoutNextBody : Engine Unit := do
  let _ ← layoutStep
  return ()

/-- LAYOUT_NEXT (44_layout.md R272). -/
def execLayoutNext (s : State) : Host.Outcome State Fault Refusal := finish layoutNextBody s

/-- `repeat LayoutStep() until EOF`, for at most `fuel` steps. -/
def layoutLoop : Nat → Engine Unit
  | 0 => return ()
  | fuel + 1 => do
    match ← layoutStep with
    | .eof => return ()
    | .unprintable | .drawable => layoutLoop fuel

/-- Enough steps to reach EOF: each other step consumes a byte of the input (44_layout.md R276 (c); log 26). -/
def Decoder.stepBound (d : Decoder) : Nat := d.len.toNat - d.pos.toNat + 1

/-- LAYOUT_EXHAUST (44_layout.md R274). -/
def layoutExhaustBody : Engine Unit := do
  let s ← theState
  layoutLoop s.blk.dec.stepBound

/-- LAYOUT_EXHAUST (44_layout.md R274). -/
def execLayoutExhaust (s : State) : Host.Outcome State Fault Refusal := finish layoutExhaustBody s

end Sys2Proof.Machine
end

