-- ==== Sys2Proof/Machine/Surface.lean ====
section
/-! DEFINITION. The pixel surface: descriptor checks, extent, address mapping of the three variants, pixel read and
write with the 16-bit write restriction, and drawing a list of pixels (41_pixel.md R160 to R169). -/

namespace Sys2Proof.Machine

/-- The legal combinations of KIND, VRAM16 and FMT (41_pixel.md R160). -/
def Surface.legal (sf : Surface) : Bool :=
  if sf.tiled then sf.fmt == 0 || sf.fmt == 1
  else (sf.fmt == 1 || sf.fmt == 2 || sf.fmt == 3 || sf.fmt == 4) && !(sf.vram16 && sf.fmt == 3)

/-- The alignment SURF_BASE needs (41_pixel.md R160). -/
def Surface.baseAlign (sf : Surface) : Nat :=
  let byFormat := if !sf.tiled && sf.fmt == 2 then 2 else if !sf.tiled && sf.fmt == 4 then 4 else 1
  if sf.vram16 then max byFormat 2 else byFormat

/-- SurfCheck() (41_pixel.md R160): reasons 1, 2 and 3, in this order. -/
def surfCheck (sf : Surface) : Except Stop Unit :=
  if sf.legal = false then .error (.raise (.badSurface 1))
  else if sf.stride < sf.width then .error (.raise (.badSurface 2))
  else if sf.base.toNat % sf.baseAlign ≠ 0 then .error (.raise (.badSurface 3))
  else .ok ()

/-- PB, the bits per pixel (41_pixel.md R161). -/
def Surface.bpp (sf : Surface) : Nat :=
  match sf.fmt with
  | 0 => 4
  | 1 => 8
  | 2 => 16
  | 3 => 24
  | _ => 32

/-- PW, the width in pixels (41_pixel.md R161). -/
def Surface.pixelWidth (sf : Surface) : Nat := if sf.tiled then 8 * sf.width else sf.width

/-- PH, the height in pixels (41_pixel.md R161). -/
def Surface.pixelHeight (sf : Surface) : Nat := if sf.tiled then 8 * sf.height else sf.height

/-- InBounds(x, y) (41_pixel.md R161). -/
def Surface.inBounds (sf : Surface) (x y : Int) : Bool :=
  decide (0 ≤ x) && decide (x < sf.pixelWidth) && decide (0 ≤ y) && decide (y < sf.pixelHeight)

/-- The byte offset of a pixel from SURF_BASE on a linear surface (41_pixel.md R162). -/
def Surface.linearOffset (sf : Surface) (x y : Nat) : Nat := (x + y * sf.stride) * (sf.bpp / 8)

/-- The byte offset of a pixel from SURF_BASE on a tiled surface (41_pixel.md R163): tiles of 8x8 pixels in row-major
order, 64 bytes for 8 bits per pixel and 32 for 4. -/
def Surface.tiledOffset (sf : Surface) (x y : Nat) : Nat :=
  let tile := (y / 8) * sf.stride + x / 8
  if sf.bpp = 8 then tile * 64 + (y % 8) * 8 + x % 8 else tile * 32 + (y % 8) * 4 + (x % 8) / 2

/-- PixAddr(x, y): the address modulo 2^32 and the bit shift in the byte (41_pixel.md R162, R163). -/
def Surface.pixAddr (sf : Surface) (x y : Nat) : Word × Nat :=
  if sf.tiled then
    (sf.base + BitVec.ofNat 32 (sf.tiledOffset x y), if sf.bpp = 4 then 4 * (x % 8 % 2) else 0)
  else (sf.base + BitVec.ofNat 32 (sf.linearOffset x y), 0)

/-- The mask 2^PB - 1 (41_pixel.md R166). -/
def pixelMask (bpp : Nat) : Word := BitVec.ofNat 32 (2 ^ bpp - 1)

/-- GetPix(x, y) (41_pixel.md R165). -/
def getPix (p : Platform) (m : Memory) (sf : Surface) (x y : Nat) : Except Stop Word := do
  let a := (sf.pixAddr x y).1
  let sh := (sf.pixAddr x y).2
  match sf.bpp with
  | 32 => memRead p m a 4
  | 24 =>
    let b0 ← memRead p m a 1
    let b1 ← memRead p m (a + 1#32) 1
    let b2 ← memRead p m (a + 2#32) 1
    return b0 ||| (b1 <<< 8) ||| (b2 <<< 16)
  | 16 => memRead p m a 2
  | 8 => memRead p m a 1
  | _ =>
    let b ← memRead p m a 1
    return (b >>> sh) &&& 0xF

/-- `v` put in place of the bits of `mask` in `old`, both shifted left by `sh` (41_pixel.md R167). -/
def merge (old mask v : Word) (sh : Nat) : Word := (old &&& ~~~(mask <<< sh)) ||| (v <<< sh)

/-- The 16-bit read-modify-write of the halfword that contains byte `a`: `sh` is the shift inside the byte
(41_pixel.md R167). -/
def mergeHalfword (p : Platform) (a mask v : Word) (sh : Nat) : Draw Unit := do
  let old ← drawRead p (a &&& ~~~1#32) 2
  memWrite p (a &&& ~~~1#32) 2 (merge old mask v (8 * (a.toNat % 2) + sh))

/-- PutPix(x, y, v) (41_pixel.md R166, R167). -/
def putPix (p : Platform) (sf : Surface) (v : Word) (x y : Nat) : Draw Unit := do
  let a := (sf.pixAddr x y).1
  let sh := (sf.pixAddr x y).2
  let u := v &&& pixelMask sf.bpp
  match sf.bpp with
  | 32 => memWrite p a 4 u
  | 24 =>
    memWrite p a 1 u
    memWrite p (a + 1#32) 1 (u >>> 8)
    memWrite p (a + 2#32) 1 (u >>> 16)
  | 16 => memWrite p a 2 u
  | 8 => if sf.vram16 then mergeHalfword p a 0xFF u 0 else memWrite p a 1 u
  | _ =>
    if sf.vram16 then mergeHalfword p a 0xF u sh
    else
      let old ← drawRead p a 1
      memWrite p a 1 (merge old 0xF u sh)

/-- The bytes that PutPix(x, y, _) writes: the whole unit of a read-modify-write, and the whole halfword where an
8-bit write is not honoured (20_memory.md R86, R90; log 8). -/
def pixBytes (p : Platform) (sf : Surface) (x y : Nat) : List Word :=
  let a := (sf.pixAddr x y).1
  match sf.bpp with
  | 32 => accessBytes a 4
  | 24 => writtenBytes p a 1 ++ writtenBytes p (a + 1#32) 1 ++ writtenBytes p (a + 2#32) 1
  | 16 => accessBytes a 2
  | _ => if sf.vram16 then halfwordBytes a else writtenBytes p a 1

/-- The run of HRunOp(x, y, n, _) (41_pixel.md R168). -/
def horizontalRun (x y n : Nat) : List (Nat × Nat) := (List.range n).map fun k => (x + k, y)

/-- The run of VRunOp(x, y, n, _) (41_pixel.md R168). -/
def verticalRun (x y n : Nat) : List (Nat × Nat) := (List.range n).map fun k => (x, y + k)

/-- RunCheck(x, y, n, horizontal) (41_pixel.md R169). -/
def runCheckH (sf : Surface) (opcode : Word) (x y n : Nat) : Except Stop Unit :=
  if x < sf.pixelWidth ∧ y < sf.pixelHeight ∧ x + n ≤ sf.pixelWidth then .ok ()
  else .error (.raise (.outOfBounds opcode))

/-- RunCheck(x, y, n, vertical) (41_pixel.md R169). -/
def runCheckV (sf : Surface) (opcode : Word) (x y n : Nat) : Except Stop Unit :=
  if x < sf.pixelWidth ∧ y < sf.pixelHeight ∧ y + n ≤ sf.pixelHeight then .ok ()
  else .error (.raise (.outOfBounds opcode))

/-- The check that one pixel is in bounds (41_pixel.md R170, R171, R174). -/
def pixelCheck (sf : Surface) (opcode : Word) (x y : Nat) : Except Stop Unit :=
  if sf.inBounds x y then .ok () else .error (.raise (.outOfBounds opcode))

/-- PutPix on each pixel of a list, in its order. -/
def putPixels (p : Platform) (sf : Surface) (v : Word) (pixels : List (Nat × Nat)) : Draw Unit :=
  forEach (fun xy => putPix p sf v xy.1 xy.2) pixels

/-- The body of a drawing command other than the renderer (20_memory.md R89): its pixel writes in order; and when a
BusError stops them, each byte the command would have written holds any value (R90). -/
def drawPixels (p : Platform) (sf : Surface) (v : Word) (pixels : List (Nat × Nat)) : Draw Unit := fun c =>
  match putPixels p sf v pixels c with
  | .ok _ c' => .ok () c'
  | .error (.raise cause) c' =>
    .error (.raise cause)
      (freeBytes (pixels.flatMap fun xy => pixBytes p sf xy.1 xy.2) { c with draws := c'.draws })
  | .error (.refuse r) c' => .error (.refuse r) c'

end Sys2Proof.Machine
end

