-- ==== Sys2Proof/Machine/Pixel.lean ====
section
/-! DEFINITION. The pixel commands SETPIX, GETPIX, HRUN, VRUN and MAPADDR (41_pixel.md R170 to R174). -/

namespace Sys2Proof.Machine

/-- SETPIX (41_pixel.md R170): a single pixel, its writes exact also when one is refused (log 7). -/
def setpixBody : Engine Unit := do
  let s ← theState
  let sf := s.blk.surf
  let g := s.blk.args
  check (surfCheck sf)
  check (pixelCheck sf 0x01 g.x0 g.y0)
  draw (putPix s.platform sf g.value g.x0 g.y0)

/-- SETPIX (41_pixel.md R170). -/
def execSetpix (s : State) : Host.Outcome State Fault Refusal := finish setpixBody s

/-- GETPIX (41_pixel.md R171): RESULT0 is the pixel. -/
def getpixBody : Engine Unit := do
  let s ← theState
  let sf := s.blk.surf
  let g := s.blk.args
  check (surfCheck sf)
  check (pixelCheck sf 0x02 g.x0 g.y0)
  let v ← check (getPix s.platform s.mem sf g.x0 g.y0)
  update (setResult0 v)

/-- GETPIX (41_pixel.md R171). -/
def execGetpix (s : State) : Host.Outcome State Fault Refusal := finish getpixBody s

/-- HRUN (41_pixel.md R172): n pixels to the right, n in ARG_P1.X1. -/
def hrunBody : Engine Unit := do
  let s ← theState
  let sf := s.blk.surf
  let g := s.blk.args
  check (surfCheck sf)
  check (runCheckH sf 0x03 g.x0 g.y0 g.x1)
  draw (drawPixels s.platform sf g.value (horizontalRun g.x0 g.y0 g.x1))

/-- HRUN (41_pixel.md R172). -/
def execHrun (s : State) : Host.Outcome State Fault Refusal := finish hrunBody s

/-- VRUN (41_pixel.md R173): n pixels down, n in ARG_P1.X1. -/
def vrunBody : Engine Unit := do
  let s ← theState
  let sf := s.blk.surf
  let g := s.blk.args
  check (surfCheck sf)
  check (runCheckV sf 0x04 g.x0 g.y0 g.x1)
  draw (drawPixels s.platform sf g.value (verticalRun g.x0 g.y0 g.x1))

/-- VRUN (41_pixel.md R173). -/
def execVrun (s : State) : Host.Outcome State Fault Refusal := finish vrunBody s

/-- MAPADDR (41_pixel.md R174): the address mapper, without any memory access. -/
def mapaddrBody : Engine Unit := do
  let s ← theState
  let sf := s.blk.surf
  let g := s.blk.args
  check (surfCheck sf)
  check (pixelCheck sf 0x05 g.x0 g.y0)
  update (setResult0 (sf.pixAddr g.x0 g.y0).1)
  update (setResult1 (mapFlags (sf.pixAddr g.x0 g.y0).2 sf.bpp (sf.vram16 && decide (sf.bpp < 16))
    (!sf.vram16 && sf.bpp == 4)))

/-- MAPADDR (41_pixel.md R174). -/
def execMapaddr (s : State) : Host.Outcome State Fault Refusal := finish mapaddrBody s

end Sys2Proof.Machine
end

