-- ==== Sys2Proof/Machine/Raster.lean ====
section
/-! DEFINITION. The rasterizer: FILL, FILLRECT, RECTOUT and LINE (42_raster.md R190 to R195), each as the list of the
pixels it writes, in order. -/

namespace Sys2Proof.Machine

/-- `h` rows of `w` pixels from (x, y) on, row by row (42_raster.md R190, R191). -/
def rectPixels (x y w h : Nat) : List (Nat × Nat) := (List.range h).flatMap fun r => horizontalRun x (y + r) w

/-- The top, bottom, left and right runs of an outline with w, h >= 1 (42_raster.md R192). -/
def outlinePixels (x y w h : Nat) : List (Nat × Nat) :=
  horizontalRun x y w ++ (if 2 ≤ h then horizontalRun x (y + h - 1) w else []) ++
    (if 3 ≤ h then
      verticalRun x (y + 1) (h - 2) ++ (if 2 ≤ w then verticalRun (x + w - 1) (y + 1) (h - 2) else [])
    else [])

/-- The Bresenham recurrence: `n` pixels (major, minor), the major coordinate counting up from `major`, the minor one
stepping by `step` after each pixel at which D > 0 (42_raster.md R194, R195). -/
def bresenham (twoMajor twoMinor step : Int) : Nat → Nat → Int → Int → List (Nat × Nat)
  | 0, _, _, _ => []
  | n + 1, major, minor, d =>
    (major, minor.toNat) ::
      if 0 < d then bresenham twoMajor twoMinor step n (major + 1) (minor + step) (d - twoMajor + twoMinor)
      else bresenham twoMajor twoMinor step n (major + 1) minor (d + twoMinor)

/-- The pixels (major, minor) from (a0, b0) to (a1, b1), for a0 <= a1: the minor axis steps by -1 with its difference
made positive when b1 < b0 (42_raster.md R194, R195). -/
def steppedLine (a0 b0 a1 b1 : Nat) : List (Nat × Nat) :=
  let da : Int := (a1 : Int) - a0
  let db : Int := (b1 : Int) - b0
  let step : Int := if db < 0 then -1 else 1
  let db' : Int := if db < 0 then -db else db
  bresenham (2 * da) (2 * db') step (a1 - a0 + 1) a0 b0 (2 * db' - da)

/-- LineLow (42_raster.md R194): x is the major axis, and the endpoints are first ordered by x. -/
def lineLow (x0 y0 x1 y1 : Nat) : List (Nat × Nat) :=
  if x1 < x0 then steppedLine x1 y1 x0 y0 else steppedLine x0 y0 x1 y1

/-- LineHigh (42_raster.md R195): y is the major axis, and the endpoints are first ordered by y. -/
def lineHigh (x0 y0 x1 y1 : Nat) : List (Nat × Nat) :=
  (if y1 < y0 then steppedLine y1 x1 y0 x0 else steppedLine y0 x0 y1 x1).map fun p => (p.2, p.1)

/-- |a - b|. -/
def distance (a b : Nat) : Nat := max a b - min a b

/-- The pixels of LINE (42_raster.md R193). -/
def linePixels (x0 y0 x1 y1 : Nat) : List (Nat × Nat) :=
  if y0 = y1 then
    if x0 = x1 then [(x0, y0)] else horizontalRun (min x0 x1) y0 (distance x0 x1 + 1)
  else if x0 = x1 then verticalRun x0 (min y0 y1) (distance y0 y1 + 1)
  else if distance y0 y1 < distance x0 x1 then lineLow x0 y0 x1 y1
  else lineHigh x0 y0 x1 y1

/-- FILL (42_raster.md R190): every pixel of the surface, row by row. -/
def fillBody : Engine Unit := do
  let s ← theState
  let sf := s.blk.surf
  check (surfCheck sf)
  draw (drawPixels s.platform sf s.blk.args.value (rectPixels 0 0 sf.pixelWidth sf.pixelHeight))

/-- FILL (42_raster.md R190). -/
def execFill (s : State) : Host.Outcome State Fault Refusal := finish fillBody s

/-- The check of FILLRECT: nothing when h = 0, else the preconditions of every row's run (42_raster.md R191). -/
def rectCheck (sf : Surface) (x y w h : Nat) : Except Stop Unit :=
  if h = 0 ∨ (x < sf.pixelWidth ∧ x + w ≤ sf.pixelWidth ∧ y + h ≤ sf.pixelHeight) then .ok ()
  else .error (.raise (.outOfBounds 0x09))

/-- FILLRECT (42_raster.md R191). -/
def fillrectBody : Engine Unit := do
  let s ← theState
  let sf := s.blk.surf
  let g := s.blk.args
  check (surfCheck sf)
  check (rectCheck sf g.x0 g.y0 g.x1 g.y1)
  draw (drawPixels s.platform sf g.value (rectPixels g.x0 g.y0 g.x1 g.y1))

/-- FILLRECT (42_raster.md R191). -/
def execFillrect (s : State) : Host.Outcome State Fault Refusal := finish fillrectBody s

/-- The check of each of RECTOUT's four cases (42_raster.md R192). -/
def rectoutCheck (sf : Surface) (x y w h : Nat) : Except Stop Unit :=
  if w = 0 ∧ h = 0 then pixelCheck sf 0x0A x y
  else if w = 0 then runCheckV sf 0x0A x y h
  else if h = 0 then runCheckH sf 0x0A x y w
  else if x + w ≤ sf.pixelWidth ∧ y + h ≤ sf.pixelHeight then .ok ()
  else .error (.raise (.outOfBounds 0x0A))

/-- The pixels of RECTOUT: a point, a vertical run, a horizontal run or an outline (42_raster.md R192). -/
def rectoutPixels (x y w h : Nat) : List (Nat × Nat) :=
  if w = 0 ∧ h = 0 then [(x, y)]
  else if w = 0 then verticalRun x y h
  else if h = 0 then horizontalRun x y w
  else outlinePixels x y w h

/-- RECTOUT (42_raster.md R192). -/
def rectoutBody : Engine Unit := do
  let s ← theState
  let sf := s.blk.surf
  let g := s.blk.args
  check (surfCheck sf)
  check (rectoutCheck sf g.x0 g.y0 g.x1 g.y1)
  draw (drawPixels s.platform sf g.value (rectoutPixels g.x0 g.y0 g.x1 g.y1))

/-- RECTOUT (42_raster.md R192). -/
def execRectout (s : State) : Host.Outcome State Fault Refusal := finish rectoutBody s

/-- LINE (42_raster.md R193): both endpoints are checked, the first one first. -/
def lineBody : Engine Unit := do
  let s ← theState
  let sf := s.blk.surf
  let g := s.blk.args
  check (surfCheck sf)
  check (pixelCheck sf 0x0B g.x0 g.y0)
  check (pixelCheck sf 0x0B g.x1 g.y1)
  draw (drawPixels s.platform sf g.value (linePixels g.x0 g.y0 g.x1 g.y1))

/-- LINE (42_raster.md R193). -/
def execLine (s : State) : Host.Outcome State Fault Refusal := finish lineBody s

end Sys2Proof.Machine
end

