-- ==== Sys2Proof/Machine/Render.lean ====
section
/-! DEFINITION. The glyph renderer: RENDER_GLYPH and RENDER_TEXT (45_render.md R290, R291). -/

namespace Sys2Proof.Machine

/-- Row `r` of the record's bitmap: one byte, or two composed little-endian (45_render.md R290). -/
def rowBits (p : Platform) (g : Glyph) (r : Nat) : Draw Word := do
  let a := g.data + BitVec.ofNat 32 (r * g.rowBytes)
  let lo ← drawRead p a 1
  if g.wide then
    let hi ← drawRead p (a + 1#32) 1
    return lo ||| (hi <<< 8)
  else return lo

/-- FAULT_INFO of a glyph pixel outside the surface (60_exceptions.md R300). -/
def pixelInfo (x y : Int) : Word := BitVec.ofInt 16 y ++ BitVec.ofInt 16 x

/-- One set bit of a row: the pixel is checked, then written (45_render.md R290). -/
def plotGlyphPixel (p : Platform) (sf : Surface) (v : Word) (x y : Int) : Draw Unit := fun c =>
  if sf.inBounds x y then putPix p sf v x.toNat y.toNat c
  else .error (.raise (.outOfBounds (pixelInfo x y))) c

/-- The clipped columns of a row, ascending (45_render.md R290). -/
def renderRow (p : Platform) (sf : Surface) (g : Glyph) (v : Word) (r : Nat) : Draw Unit := do
  let row ← rowBits p g r
  forEach
    (fun c => if row.getLsbD c then plotGlyphPixel p sf v (g.x.toInt + c) (g.y.toInt + r) else pure ())
    (List.range g.sizeX)

/-- RenderRec(v): the clipped rows, ascending; an EOF or unprintable record draws nothing (45_render.md R290). -/
def renderRecord (p : Platform) (sf : Surface) (g : Glyph) (v : Word) : Draw Unit :=
  if g.eof = true ∨ g.hasData = false then pure ()
  else forEach (renderRow p sf g v) (List.range g.sizeY)

/-- RenderRec on the record now in GL_*. -/
def renderCurrent : Engine Unit := do
  let s ← theState
  draw (renderRecord s.platform s.blk.surf s.blk.gl s.blk.args.value)

/-- RENDER_GLYPH (45_render.md R290). -/
def renderGlyphBody : Engine Unit := do
  let s ← theState
  check (surfCheck s.blk.surf)
  renderCurrent

/-- RENDER_GLYPH (45_render.md R290). -/
def execRenderGlyph (s : State) : Host.Outcome State Fault Refusal := finish renderGlyphBody s

/-- The loop of RENDER_TEXT, for at most `fuel` layout steps (45_render.md R291). -/
def renderLoop : Nat → Engine Unit
  | 0 => return ()
  | fuel + 1 => do
    match ← layoutStep with
    | .eof => return ()
    | .unprintable => renderLoop fuel
    | .drawable =>
      renderCurrent
      renderLoop fuel

/-- RENDER_TEXT (45_render.md R291). -/
def renderTextBody : Engine Unit := do
  let s ← theState
  check (surfCheck s.blk.surf)
  renderLoop s.blk.dec.stepBound

/-- RENDER_TEXT (45_render.md R291). -/
def execRenderText (s : State) : Host.Outcome State Fault Refusal := finish renderTextBody s

end Sys2Proof.Machine
end

