-- ==== Sys2Proof/Machine/Dispatch.lean ====
section
/-! DEFINITION. The meaning of each command: one arm per constructor of Instr (30_encoding.md R123). -/

namespace Sys2Proof.Machine

/-- What the engine does with a command (00_scope.md R7). -/
def exec (i : Instr) (s : State) : Host.Outcome State Fault Refusal :=
  match i with
  -- 40_control.md
  | .nop => Sys2Proof.Machine.execNop s
  -- 41_pixel.md
  | .setpix => Sys2Proof.Machine.execSetpix s
  | .getpix => Sys2Proof.Machine.execGetpix s
  | .hrun => Sys2Proof.Machine.execHrun s
  | .vrun => Sys2Proof.Machine.execVrun s
  | .mapaddr => Sys2Proof.Machine.execMapaddr s
  -- 42_raster.md
  | .fill => Sys2Proof.Machine.execFill s
  | .fillrect => Sys2Proof.Machine.execFillrect s
  | .rectout => Sys2Proof.Machine.execRectout s
  | .line => Sys2Proof.Machine.execLine s
  -- 43_decoder.md
  | .decStart => Sys2Proof.Machine.execDecStart s
  | .decNext => Sys2Proof.Machine.execDecNext s
  | .decPeek => Sys2Proof.Machine.execDecPeek s
  -- 44_layout.md
  | .glyphLookup => Sys2Proof.Machine.execGlyphLookup s
  | .layoutStart => Sys2Proof.Machine.execLayoutStart s
  | .layoutNext => Sys2Proof.Machine.execLayoutNext s
  | .layoutExhaust => Sys2Proof.Machine.execLayoutExhaust s
  -- 45_render.md
  | .renderGlyph => Sys2Proof.Machine.execRenderGlyph s
  | .renderText => Sys2Proof.Machine.execRenderText s

end Sys2Proof.Machine
end

