-- ==== Sys2Proof/Decode.lean ====
section
/-! DEFINITION. The decoder of command words (30_encoding.md R120, R123 to R125), total on every 32-bit word, and the
encoder. -/

namespace Sys2Proof

/-- The fields of a command word (30_encoding.md R120). -/
def CommandWord.ofWord (w : Word) : CommandWord :=
  { opcode := w.extractLsb' 0 8, rsvd := w.extractLsb' 8 24 }

/-- The opcode map (30_encoding.md R123), in the table's order. -/
def opcodeTable : List (Byte × Instr) :=
  [(0x00, .nop), (0x01, .setpix), (0x02, .getpix), (0x03, .hrun), (0x04, .vrun), (0x05, .mapaddr)] ++
  [(0x08, .fill), (0x09, .fillrect), (0x0A, .rectout), (0x0B, .line)] ++
  [(0x10, .decStart), (0x11, .decNext), (0x12, .decPeek), (0x18, .glyphLookup)] ++
  [(0x20, .layoutStart), (0x21, .layoutNext), (0x22, .layoutExhaust)] ++
  [(0x28, .renderGlyph), (0x29, .renderText)]

/-- Why a word is illegal (30_encoding.md R124). -/
inductive IllegalReason where
  /-- bits 31:8 are not all 0 -/
  | reservedBitsSet
  /-- OPCODE is not in the map -/
  | unassignedOpcode
  deriving DecidableEq, Repr

/-- Every word is exactly one command or illegal (30_encoding.md R124). -/
inductive Decoded where
  | command (i : Instr)
  | illegal (why : IllegalReason)
  deriving DecidableEq, Repr

/-- The command an opcode stands for (30_encoding.md R123). -/
def instrOfOpcode (op : Byte) : Option Instr :=
  (opcodeTable.find? fun row => row.1 == op).map Prod.snd

/-- `decode` of 30_encoding.md R125. -/
def decode (w : Word) : Decoded :=
  if (CommandWord.ofWord w).reservedClear then
    match instrOfOpcode (CommandWord.ofWord w).opcode with
    | some i => .command i
    | none => .illegal .unassignedOpcode
  else .illegal .reservedBitsSet

/-- The opcode of each command (30_encoding.md R123). -/
def Instr.opcode : Instr → Byte
  | .nop => 0x00
  | .setpix => 0x01
  | .getpix => 0x02
  | .hrun => 0x03
  | .vrun => 0x04
  | .mapaddr => 0x05
  | .fill => 0x08
  | .fillrect => 0x09
  | .rectout => 0x0A
  | .line => 0x0B
  | .decStart => 0x10
  | .decNext => 0x11
  | .decPeek => 0x12
  | .glyphLookup => 0x18
  | .layoutStart => 0x20
  | .layoutNext => 0x21
  | .layoutExhaust => 0x22
  | .renderGlyph => 0x28
  | .renderText => 0x29

/-- The fields of a command's word: its opcode, and RSVD = 0 (30_encoding.md R120). -/
def Instr.commandWord (i : Instr) : CommandWord := { opcode := i.opcode, rsvd := 0 }

/-- The command word of a command: RSVD in bits 31:8, OPCODE in bits 7:0 (30_encoding.md R120). -/
def encode (i : Instr) : Word := i.commandWord.rsvd ++ i.commandWord.opcode

/-- The command the decoder reads from the `nbits` low bits of `w`, every bit above them 0. A command is one 32-bit
word written to CMD (30_encoding.md R120, R125), so its bits are numbered as the table numbers them. -/
def decodeTableWord (nbits w : Nat) : Option Instr :=
  match decode (BitVec.ofNat 32 (w % 2 ^ nbits)) with
  | .command i => some i
  | .illegal _ => none

end Sys2Proof
end

