-- ==== Sys2Proof/Machine/Footprint.lean ====
section
/-! DEFINITION. What a command in flight may touch: the bytes it could write (70_reset_and_hazards.md R342), the
bytes it does write (R347) and the bytes it reads or writes (20_memory.md R93). -/

namespace Sys2Proof.Machine

/-- The computation of each command. -/
def bodyOf : Instr → Engine Unit
  | .nop => nopBody
  | .setpix => setpixBody
  | .getpix => getpixBody
  | .hrun => hrunBody
  | .vrun => vrunBody
  | .mapaddr => mapaddrBody
  | .fill => fillBody
  | .fillrect => fillrectBody
  | .rectout => rectoutBody
  | .line => lineBody
  | .decStart => decStartBody
  | .decNext => decNextBody
  | .decPeek => decPeekBody
  | .glyphLookup => glyphLookupBody
  | .layoutStart => layoutStartBody
  | .layoutNext => layoutNextBody
  | .layoutExhaust => layoutExhaustBody
  | .renderGlyph => renderGlyphBody
  | .renderText => renderTextBody

/-- The bytes a command writes, run in `s` to its end, wherever the platform admits its accesses
(70_reset_and_hazards.md R342; log 9). -/
def bytesWritten (i : Instr) (s : State) : List Word := (finalWork (bodyOf i) s.plain).wrote

/-- The bytes a command writes when it is executed in `s`, also when it ends in a fault: its results in memory
(70_reset_and_hazards.md R347). -/
def resultBytes (i : Instr) (s : State) : List Word := (finalWork (bodyOf i) s).wrote

/-- A platform that admits every access outside the register window, with the byte `a`, and no other, in a region with
read side effects. -/
def Platform.watching (p : Platform) (a : Word) : Platform :=
  { p with refusals := [], readEffects := [{ base := a, size := 1 }] }

/-- The state on such a platform: a command is refused in it exactly when it accesses the byte. -/
def State.watching (s : State) (a : Word) : State := { s with platform := s.platform.watching a }

/-- The command reads or writes the byte, wherever the platform admits its accesses (20_memory.md R93; log 12): it
accesses it, or changes it with an 8-bit write to the halfword's other byte that is not honoured (R86). -/
def uses (i : Instr) (s : State) (a : Word) : Bool :=
  isRefused (bodyOf i) (s.watching a) || (bytesWritten i s).contains a

/-- The command in flight may read or write the byte (20_memory.md R93). -/
def State.mayUse (s : State) (a : Word) : Bool :=
  match s.blk.latch with
  | none => false
  | some w =>
    match decode w with
    | .illegal _ => false
    | .command i => uses i s a

/-- Soft reset (70_reset_and_hazards.md R341, R342): the block is reset; a command in flight is abandoned, and its
bytes hold any value. With no command in flight nothing but the block changes. -/
def softReset (s : State) : State :=
  match s.blk.latch with
  | none => resetBlock s
  | some w =>
    match decode w with
    | .illegal _ => resetBlock s
    | .command i => resetBlock (abandon (bodyOf i) s)

end Sys2Proof.Machine
end

