-- ==== Sys2Proof/Machine/HostPort.lean ====
section
/-! DEFINITION. The host's side: the register map (10_state.md R31 to R56), register reads and writes, host memory
accesses, and the host protocol (70_reset_and_hazards.md R345, R354). -/

namespace Sys2Proof.Machine

/-- The registers of the window, by name (10_state.md R31). -/
inductive Reg where
  | id | ctrl | status | faultInfo | cmd | result0 | result1
  | surfBase | surfCfg | surfSize | surfPitch
  | argP0 | argP1 | argValue
  | textBase | textLen | ltStart | ltMax | ltCfg0 | ltCfg1
  | decPos | lsX | lsY | lsXinit | bbMinX | bbMinY | bbMaxX | bbMaxY | lsFlags
  | glCp | glX | glY | glNextX | glInfo | glData | glHdr
  | csBase (i : Fin 8) | csLen (i : Fin 8) | csMin (i : Fin 8) | csMax (i : Fin 8) | csCtrl (i : Fin 8)
  deriving DecidableEq, Repr

/-- The register of a charset slot at an offset inside the slot's 0x20 bytes (10_state.md R31). -/
def charsetReg (i : Fin 8) : Nat → Option Reg
  | 0x00 => some (.csBase i)
  | 0x04 => some (.csLen i)
  | 0x08 => some (.csMin i)
  | 0x0C => some (.csMax i)
  | 0x10 => some (.csCtrl i)
  | _ => none

/-- The offsets of the registers below the charset slots (10_state.md R31). -/
def fixedRegs : List (Nat × Reg) :=
  [(0x000, .id), (0x004, .ctrl), (0x008, .status), (0x00C, .faultInfo), (0x010, .cmd), (0x014, .result0)] ++
  [(0x018, .result1), (0x020, .surfBase), (0x024, .surfCfg), (0x028, .surfSize), (0x02C, .surfPitch)] ++
  [(0x030, .argP0), (0x034, .argP1), (0x038, .argValue), (0x040, .textBase), (0x044, .textLen)] ++
  [(0x048, .ltStart), (0x04C, .ltMax), (0x050, .ltCfg0), (0x054, .ltCfg1), (0x060, .decPos), (0x064, .lsX)] ++
  [(0x068, .lsY), (0x06C, .lsXinit), (0x070, .bbMinX), (0x074, .bbMinY), (0x078, .bbMaxX), (0x07C, .bbMaxY)] ++
  [(0x080, .lsFlags), (0x090, .glCp), (0x094, .glX), (0x098, .glY), (0x09C, .glNextX), (0x0A0, .glInfo)] ++
  [(0x0A4, .glData), (0x0A8, .glHdr)]

/-- The register at an offset of the window; `none` where the offset is reserved (10_state.md R31, R32). -/
def regAt (offset : Nat) : Option Reg :=
  if offset < 0x100 then (fixedRegs.find? fun row => row.1 == offset).map Prod.snd
  else if offset < 0x200 then charsetReg (Fin.ofNat 8 ((offset - 0x100) / 0x20)) ((offset - 0x100) % 0x20)
  else none

/-- What a host read of a register returns while BUSY = 0; CTRL and CMD read 0 (10_state.md R31 to R56). -/
def Block.readReg (b : Block) : Reg → Word
  | .id => 0x5A520007
  | .ctrl => 0
  | .status => b.statusWord
  | .faultInfo => b.status.info
  | .cmd => 0
  | .result0 => b.result0
  | .result1 => b.result1
  | .surfBase => b.surf.base
  | .surfCfg => b.surf.cfg
  | .surfSize => b.surf.size
  | .surfPitch => b.surf.pitch
  | .argP0 => b.args.p0
  | .argP1 => b.args.p1
  | .argValue => b.args.value
  | .textBase => b.text.base
  | .textLen => b.text.len
  | .ltStart => b.text.ltStart
  | .ltMax => b.text.ltMax
  | .ltCfg0 => b.text.ltCfg0
  | .ltCfg1 => b.text.ltCfg1
  | .decPos => b.dec.pos
  | .lsX => b.lay.x
  | .lsY => b.lay.y
  | .lsXinit => b.lay.xInit
  | .bbMinX => b.lay.bbMinX
  | .bbMinY => b.lay.bbMinY
  | .bbMaxX => b.lay.bbMaxX
  | .bbMaxY => b.lay.bbMaxY
  | .lsFlags => b.lay.flagsWord
  | .glCp => b.gl.cp
  | .glX => b.gl.x
  | .glY => b.gl.y
  | .glNextX => b.gl.nextX
  | .glInfo => b.gl.info
  | .glData => b.gl.data
  | .glHdr => b.gl.hdr
  | .csBase i => (b.cs.get i).base
  | .csLen i => (b.cs.get i).len
  | .csMin i => (b.cs.get i).min
  | .csMax i => (b.cs.get i).max
  | .csCtrl i => (b.cs.get i).ctrl

/-- What a host read at an offset of the window returns while BUSY = 0: a reserved offset reads 0
(10_state.md R32). -/
def Block.readOffset (b : Block) (offset : Nat) : Word :=
  match regAt offset with
  | some r => b.readReg r
  | none => 0

/-- A charset slot changed (10_state.md R55). -/
def Block.setSlot (b : Block) (i : Fin 8) (c : CharsetSlot) : Block := { b with cs := b.cs.set i c }

/-- The bits of SURF_CFG that are not reserved (10_state.md R40). -/
def surfCfgMask : Word := 0x73

/-- The bits of SURF_PITCH that are not reserved (10_state.md R42). -/
def surfPitchMask : Word := 0xFFFF

/-- The bits of LT_CFG1 that are not reserved (10_state.md R50). -/
def ltCfg1Mask : Word := 0x1FF

/-- The bits of CS_CTRL that are not reserved (10_state.md R55). -/
def csCtrlMask : Word := 0x1

/-- A host write to a read/write register while BUSY = 0; a reserved bit ignores it, and a write to any other register
changes nothing here (10_state.md R31, R32). -/
def Block.writeReg (b : Block) (v : Word) : Reg → Block
  | .surfBase => { b with surf := { b.surf with base := v } }
  | .surfCfg => { b with surf := { b.surf with cfg := v &&& surfCfgMask } }
  | .surfSize => { b with surf := { b.surf with size := v } }
  | .surfPitch => { b with surf := { b.surf with pitch := v &&& surfPitchMask } }
  | .argP0 => { b with args := { b.args with p0 := v } }
  | .argP1 => { b with args := { b.args with p1 := v } }
  | .argValue => { b with args := { b.args with value := v } }
  | .textBase => { b with text := { b.text with base := v } }
  | .textLen => { b with text := { b.text with len := v } }
  | .ltStart => { b with text := { b.text with ltStart := v } }
  | .ltMax => { b with text := { b.text with ltMax := v } }
  | .ltCfg0 => { b with text := { b.text with ltCfg0 := v } }
  | .ltCfg1 => { b with text := { b.text with ltCfg1 := v &&& ltCfg1Mask } }
  | .csBase i => b.setSlot i { b.cs.get i with base := v }
  | .csLen i => b.setSlot i { b.cs.get i with len := v }
  | .csMin i => b.setSlot i { b.cs.get i with min := v }
  | .csMax i => b.setSlot i { b.cs.get i with max := v }
  | .csCtrl i => b.setSlot i { b.cs.get i with ctrl := v &&& csCtrlMask }
  | .id | .ctrl | .status | .faultInfo | .cmd | .result0 | .result1 | .decPos | .lsX | .lsY | .lsXinit => b
  | .bbMinX | .bbMinY | .bbMaxX | .bbMaxY | .lsFlags => b
  | .glCp | .glX | .glY | .glNextX | .glInfo | .glData | .glHdr => b

/-- A host write to CMD while BUSY = 0: it latches the word, or is dropped while FAULT = 1 (10_state.md R37,
60_exceptions.md R305). Either way no STATUS read has followed it yet (70_reset_and_hazards.md R355), and the results of
a command that is latched are pending until one does (R347). -/
def issueCommand (w : Word) (s : State) : State :=
  if s.blk.status.fault then { s with settled := false }
  else { s with
    blk := { s.blk with latch := some w }
    settled := false
    pending := { s.pending with registers := true } }

/-- A register access is an aligned 32-bit access (10_state.md R32). -/
def wordAccess (offset width : Nat) : Bool := width == 4 && offset % 4 == 0

/-- A host write to CTRL: a soft reset when bit 0 is 1, else nothing (10_state.md R34; 70_reset_and_hazards.md R341,
R342). -/
def writeCtrl (v : Word) (s : State) : State := if v.getLsbD 0 then softReset s else s

/-- A host write to a register (10_state.md R31 to R37). While BUSY = 1 the host may write only CTRL
(70_reset_and_hazards.md R345; log 11); a reserved offset, which is no register, ignores writes always (R32). -/
def hostWrite (offset : Nat) (v : Word) (s : State) : Host.Outcome State Fault Refusal :=
  match regAt offset with
  | some .ctrl => .next (writeCtrl v s)
  | some .status => if s.blk.busy then .refused .hostWriteWhileBusy else .next (if v.getLsbD 1 then clearFault s else s)
  | some .cmd => if s.blk.busy then .refused .hostWriteWhileBusy else .next (issueCommand v s)
  | some r => if s.blk.busy then .refused .hostWriteWhileBusy else .next { s with blk := s.blk.writeReg v r }
  | none => .next s

/-- What the host learns from a read. -/
def remember (o : HostSeen) (s : State) : State := { s with seen := o :: s.seen }

/-- The registers that hold results of commands: RESULT0, RESULT1, GL_* and the read-only views (70_reset_and_hazards.md
R347; 10_state.md R38, R51, R54). -/
def Reg.holdsResult : Reg → Bool
  | .result0 | .result1 | .decPos | .lsX | .lsY | .lsXinit | .bbMinX | .bbMinY | .bbMaxX | .bbMaxY | .lsFlags => true
  | .glCp | .glX | .glY | .glNextX | .glInfo | .glData | .glHdr => true
  | .id | .ctrl | .status | .faultInfo | .cmd | .surfBase | .surfCfg | .surfSize | .surfPitch => false
  | .argP0 | .argP1 | .argValue | .textBase | .textLen | .ltStart | .ltMax | .ltCfg0 | .ltCfg1 => false
  | .csBase _ | .csLen _ | .csMin _ | .csMax _ | .csCtrl _ => false

/-- What a host read at an offset of the window returns (10_state.md R31, R32): while BUSY = 1 every register but STATUS,
and after it the results of a command until a STATUS read has returned BUSY = 0, read any value, the k-th read of the
host the k-th free word (70_reset_and_hazards.md R345, R347; log 4, log 13, log 30); a reserved offset is no register,
and reads 0 always. -/
def State.readValue (s : State) (offset : Nat) : Word :=
  match regAt offset with
  | none => 0
  | some .status => s.blk.statusWord
  | some r =>
    if s.blk.busy || (s.pending.registers && r.holdsResult) then Config.freeWord s.seen.length else s.blk.readReg r

/-- A host read of the register window. A STATUS read that returns BUSY = 0 settles the host's last command, and nothing
is pending after it (70_reset_and_hazards.md R347, R355; 20_memory.md R93). -/
def hostRead (offset : Nat) (s : State) : State :=
  let t := remember (.register offset (s.readValue offset)) s
  if regAt offset = some .status ∧ s.blk.busy = false then { t with settled := true, pending := .none } else t

/-- Byte `j` of a host load at `a`: any value where a command's result is pending (70_reset_and_hazards.md R347;
log 30). -/
def State.loadByte (s : State) (a : Word) (j : Nat) : Byte :=
  let c := a + BitVec.ofNat 32 j
  if s.pending.bytes.contains c then Config.freeLoad s.seen.length j else byteAt s.mem c

/-- The bytes of a host load. -/
def State.loadBytes (s : State) (a : Word) (n : Nat) : List Byte := (List.range n).map (s.loadByte a)

/-- Bytes that the host stores to hold no command's result any more (log 30). -/
def Pending.overwrite (p : Pending) (l : List Word) : Pending := { p with bytes := p.bytes.filter fun c => !l.contains c }

/-- A host store (30_encoding.md R126). -/
def storeMemory (a : Word) (bytes : List Byte) (s : State) : State :=
  { s with mem := storeBytes s.mem a bytes, pending := s.pending.overwrite (accessBytes a bytes.length) }

/-- A host access to external memory (20_memory.md R93, 30_encoding.md R126): it must not race the command in flight,
and a byte of the register window is no memory (10_state.md R32). -/
def hostMemory (a : Word) (n : Nat) (effect : State → State) (s : State) : Host.Outcome State Fault Refusal :=
  if (accessBytes a n).any s.platform.inWindow then .refused .narrowRegisterAccess
  else if (accessBytes a n).any s.mayUse then .fault .hostRace
  else .next (effect s)

/-- One move of the host, already taken from the queue; `wait` goes back to the head of the queue until BUSY = 0
(30_encoding.md R126). -/
def hostMove (move : HostMove) (s : State) : Host.Outcome State Fault Refusal :=
  match move with
  | .write offset width v =>
    if 0x200 ≤ offset then .refused .outsideWindow
    else if wordAccess offset width then hostWrite offset v s
    else .refused .narrowRegisterAccess
  | .read offset width =>
    if 0x200 ≤ offset then .refused .outsideWindow
    else if wordAccess offset width then .next (hostRead offset s)
    else .refused .narrowRegisterAccess
  | .wait =>
    let t := hostRead 0x008 s
    .next (if s.blk.busy then { t with host := .wait :: t.host } else t)
  | .store a bytes => hostMemory a bytes.length (storeMemory a bytes) s
  | .load a n => hostMemory a n (fun s => remember (.memory a (s.loadBytes a n)) s) s
  | .hardwareReset => .next (resetBlock s)
  | .readmit refusals => .next { s with platform := { s.platform with refusals := refusals } }

end Sys2Proof.Machine
end

