-- ==== Sys2Proof/Machine/Agents.lean ====
section
/-! DEFINITION. The two agents' steps and whose turn it is (00_scope.md R7, 10_state.md R56). -/

namespace Sys2Proof.Machine

/-- Whose turn it is: the schedule's next agent; when the schedule is used up, the engine while a command is latched
and the host otherwise (70_reset_and_hazards.md R353; log 1). -/
def State.turn (s : State) : Agent :=
  match s.schedule with
  | agent :: _ => agent
  | [] => if s.blk.busy then .engine else .host

/-- The schedule moved on by one turn. -/
def State.nextTurn (s : State) : State := { s with schedule := s.schedule.tail }

/-- The engine executes a command, and the bytes it wrote are pending for the host (70_reset_and_hazards.md R347;
log 30). -/
def runCommand (i : Instr) (s : State) : Host.Outcome State Fault Refusal :=
  match exec i s with
  | .next t => .next { t with pending := { t.pending with bytes := resultBytes i s ++ t.pending.bytes } }
  | .fault f => .fault f
  | .refused r => .refused r

/-- The engine executes a command word (00_scope.md R7): a command, or IllegalCommand with the word when it is illegal
(30_encoding.md R124). -/
def runWord (w : Word) (s : State) : Host.Outcome State Fault Refusal :=
  match decode w with
  | .command i => runCommand i s
  | .illegal _ => .next (raiseFault (.illegalCommand w) s)

/-- The engine's step (10_state.md R56): it takes the latched word and executes it. With no command latched the engine
is idle (70_reset_and_hazards.md R340). -/
def engineStep (s : State) : Host.Outcome State Fault Refusal :=
  match s.blk.latch with
  | none => .next s
  | some w => runWord w s

/-- The host's step: its next move, if it has one. -/
def hostStep (s : State) : Host.Outcome State Fault Refusal :=
  match s.host with
  | [] => .next s
  | move :: rest => hostMove move { s with host := rest }

end Sys2Proof.Machine
end

