-- ==== Sys2Proof/Machine/Step.lean ====
section
/-! DEFINITION. One step of the machine: the agent whose turn it is moves. -/

namespace Sys2Proof.Machine

/-- One step: the schedule moves on, and the agent whose turn it is moves (00_scope.md R7). -/
def step (s : State) : Host.Outcome State Fault Refusal :=
  match s.turn with
  | .engine => engineStep s.nextTurn
  | .host => hostStep s.nextTurn

/-- The command whose word is the `nbits` low bits of `w`, latched as a host's CMD write leaves it (10_state.md R37,
R56; 70_reset_and_hazards.md R347, R355), with the engine's turn next: the next step executes it (log 20). -/
def State.withFetchWord (s : State) (nbits w : Nat) : State :=
  { s with
    blk := { s.blk with latch := some (BitVec.ofNat 32 (w % 2 ^ nbits)) }
    schedule := .engine :: s.schedule
    settled := false
    pending := { s.pending with registers := true } }

end Sys2Proof.Machine
end

