-- ==== Sys2Proof/Safety.lean ====
section
/-! DEFINITION. What a good state and a good run are, and the conditions under which commands run undisturbed: the
terms the statements use. -/

namespace Sys2Proof.Machine

/-! ### Good states -/

/-- What holds of the block whatever happens: the fault bits (10_state.md R35, R36; 60_exceptions.md R300, R305), the
decoder's position (R53), the reserved bits of the registers the host writes (R32, R40, R42, R50, R55) and of GL_INFO
(R54), and the relations among the layout flags, the bounding box and the record (R51, R52, R54; D33, D34). -/
structure Block.Inv (b : Block) : Prop where
  noFault : b.status.fault = false → b.status = .clear
  faulted : b.status.fault = true → b.latch = none ∧ 1 ≤ b.status.code.toNat ∧ b.status.code.toNat ≤ 7
  decoder : b.dec.pos.toNat ≤ b.dec.len.toNat
  surfCfg : b.surf.cfg &&& ~~~surfCfgMask = 0#32
  surfPitch : b.surf.pitch &&& ~~~surfPitchMask = 0#32
  ltCfg1 : b.text.ltCfg1 &&& ~~~ltCfg1Mask = 0#32
  csCtrl : ∀ i : Fin 8, (b.cs.get i).ctrl &&& ~~~csCtrlMask = 0#32
  glInfo : b.gl.info &&& 0xFFF88000#32 = 0#32
  noData : b.gl.hasData = false → b.gl.data = 0#32 ∧ b.gl.hdr = 0#32
  eofCode : b.gl.eof = true → b.gl.cp = 0xFFFFFFFF#32 ∧ b.gl.hasData = false
  boxActive : b.lay.bbValid = true → b.lay.active = true
  doneActive : b.lay.done = true → b.lay.active = true
  noBox : b.lay.bbValid = false →
    b.lay.bbMinX = 0#32 ∧ b.lay.bbMinY = 0#32 ∧ b.lay.bbMaxX = 0#32 ∧ b.lay.bbMaxY = 0#32
  box : b.lay.bbValid = true →
    b.lay.bbMinX.toInt < b.lay.bbMaxX.toInt ∧ b.lay.bbMinY.toInt < b.lay.bbMaxY.toInt

/-- The block's invariant, memory in canonical form, the results of a command in flight pending, and none pending once a
STATUS read has returned BUSY = 0 (20_memory.md R94, 70_reset_and_hazards.md R347, R355). -/
structure State.Inv (s : State) : Prop where
  blk : s.blk.Inv
  mem : Memory.wf s.mem = true
  inFlight : s.blk.latch ≠ none → s.pending.registers = true
  settled : s.settled = true → s.pending = .none

/-- A run has ended (70_reset_and_hazards.md R355): the host has made its last move, and a STATUS read has returned
BUSY = 0 since its last CMD write. -/
def State.ended (s : State) : Bool := s.host.isEmpty && s.settled

/-- A run that ended in success: one that ends with FAULT = 1 is none (60_exceptions.md R312). -/
def State.succeeded (s : State) : Bool := s.ended && !s.blk.status.fault

/-- A step is safe when it answers a next state in which FAULT = 0. -/
def State.safeStep (s : State) : Prop := ∃ t, step s = .next t ∧ t.blk.status.fault = false

/-! ### Accesses -/

/-- One engine access (20_memory.md R82). -/
structure Access where
  addr : Word
  bytes : Nat
  kind : AccessKind
  deriving DecidableEq, Repr

/-- `a` is the address of the first access of the list that the platform refuses: those before it are served. -/
def Platform.firstRefused (p : Platform) (l : List Access) (a : Word) : Prop :=
  ∃ before q rest, l = before ++ q :: rest ∧ q.addr = a ∧
    (∀ c ∈ before, p.serves c.addr c.bytes c.kind = true) ∧ p.admits q.addr q.bytes q.kind = false

/-- The accesses of GetPix(x, y), in order (41_pixel.md R165). -/
def Surface.getAccesses (sf : Surface) (x y : Nat) : List Access :=
  let a := (sf.pixAddr x y).1
  match sf.fmt with
  | 0 | 1 => [⟨a, 1, .read⟩]
  | 2 => [⟨a, 2, .read⟩]
  | 3 => [⟨a, 1, .read⟩, ⟨a + 1, 1, .read⟩, ⟨a + 2, 1, .read⟩]
  | _ => [⟨a, 4, .read⟩]

/-- The accesses of PutPix(x, y, _), in order (41_pixel.md R167). -/
def Surface.putAccesses (sf : Surface) (x y : Nat) : List Access :=
  let a := (sf.pixAddr x y).1
  let h := a &&& 0xFFFFFFFE
  match sf.fmt with
  | 0 => if sf.vram16 then [⟨h, 2, .read⟩, ⟨h, 2, .write⟩] else [⟨a, 1, .read⟩, ⟨a, 1, .write⟩]
  | 1 => if sf.vram16 then [⟨h, 2, .read⟩, ⟨h, 2, .write⟩] else [⟨a, 1, .write⟩]
  | 2 => [⟨a, 2, .write⟩]
  | 3 => [⟨a, 1, .write⟩, ⟨a + 1, 1, .write⟩, ⟨a + 2, 1, .write⟩]
  | _ => [⟨a, 4, .write⟩]

/-- The accesses of the header of code point `cp`, in order (44_layout.md R242). -/
def headerAccesses (c : CharsetSlot) (cp : Int) : List Access :=
  (List.range 4).map fun k => ⟨c.base + BitVec.ofInt 32 (4 * (cp - c.min.toInt)) + BitVec.ofNat 32 k, 1, .read⟩

/-! ### Undisturbed pixel accesses -/

/-- The byte offset of a pixel from SURF_BASE (41_pixel.md R162, R163). -/
def Surface.offset (sf : Surface) (x y : Nat) : Nat := if sf.tiled then sf.tiledOffset x y else sf.linearOffset x y

/-- The bytes a pixel lies in: one for 4 and 8 bits per pixel (41_pixel.md R165). -/
def Surface.unitBytes (sf : Surface) : Nat := (sf.bpp + 7) / 8

/-- The pixel's coordinates are in bounds (41_pixel.md R161). -/
def Surface.Inside (sf : Surface) (x y : Nat) : Prop := x < sf.pixelWidth ∧ y < sf.pixelHeight

/-- The surface does not reach around the 32-bit address space: no pixel's offset from SURF_BASE reaches 2^32. -/
def Surface.Fits (sf : Surface) : Prop := ∀ x y, sf.Inside x y → sf.offset x y + sf.unitBytes ≤ 2 ^ 32

/-- The addresses of the bytes a pixel lies in. -/
def Surface.pixelBytes (sf : Surface) (x y : Nat) : List Word := accessBytes (sf.pixAddr x y).1 sf.unitBytes

/-- The platform serves the reads of GetPix(x, y) (41_pixel.md R165, 20_memory.md R82). -/
def Platform.readsPixel (p : Platform) (sf : Surface) (x y : Nat) : Bool :=
  let a := (sf.pixAddr x y).1
  match sf.bpp with
  | 32 => p.serves a 4 .read
  | 24 => p.serves a 1 .read && p.serves (a + 1#32) 1 .read && p.serves (a + 2#32) 1 .read
  | 16 => p.serves a 2 .read
  | _ => p.serves a 1 .read

/-- The platform serves the accesses of PutPix(x, y, _) and honours its 8-bit writes (41_pixel.md R167, 20_memory.md
R82, R86). -/
def Platform.writesPixel (p : Platform) (sf : Surface) (x y : Nat) : Bool :=
  let a := (sf.pixAddr x y).1
  let h := a &&& ~~~1#32
  let byteOk (b : Word) : Bool := p.serves b 1 .write && p.byteWriteOk b
  match sf.bpp with
  | 32 => p.serves a 4 .write
  | 24 => byteOk a && byteOk (a + 1#32) && byteOk (a + 2#32)
  | 16 => p.serves a 2 .write
  | 8 => if sf.vram16 then p.serves h 2 .read && p.serves h 2 .write else byteOk a
  | _ => if sf.vram16 then p.serves h 2 .read && p.serves h 2 .write else p.serves a 1 .read && byteOk a

/-- In memory `m` the pixels of `set` are drawn, and nothing else: every pixel of the set reads as ARG_VALUE cut to the
pixel width (41_pixel.md R166), every other pixel of the surface reads as in `s`, and so does every byte outside the
pixels of the set. -/
def DrawnExactly (s : State) (m : Memory) (set : Nat → Nat → Prop) : Prop :=
  let sf := s.blk.surf
  (∀ x y, set x y → s.platform.readsPixel sf x y = true →
    getPix s.platform m sf x y = .ok (s.blk.args.value &&& pixelMask sf.bpp)) ∧
  (∀ x y, sf.Inside x y → ¬ set x y → getPix s.platform m sf x y = getPix s.platform s.mem sf x y) ∧
  ∀ a, (∀ x y, set x y → a ∉ sf.pixelBytes x y) → byteAt m a = byteAt s.mem a

/-- The command draws the pixels of `set`, and nothing else: it answers a next state that differs from `s` in the
latch and in memory only, and there exactly the pixels of the set are drawn. -/
def DrawsExactly (i : Instr) (s : State) (set : Nat → Nat → Prop) : Prop :=
  ∃ m, exec i s = .next { s with blk := { s.blk with latch := none }, mem := m } ∧ DrawnExactly s m set

/-- What a drawing command needs to draw the pixels of `set`: a legal descriptor (41_pixel.md R160) of a surface that
does not reach around the address space, memory in canonical form, and undisturbed accesses. -/
structure CanDraw (s : State) (set : Nat → Nat → Prop) : Prop where
  legal : surfCheck s.blk.surf = .ok ()
  fits : s.blk.surf.Fits
  mem : Memory.wf s.mem = true
  served : ∀ x y, set x y → s.platform.writesPixel s.blk.surf x y = true

/-! ### What a command may read -/

/-- The text input not yet consumed (20_memory.md R80, R96). -/
def textRegion (d : Decoder) : Span :=
  { base := d.base + d.pos, size := d.len.toNat - d.pos.toNat }

/-- The blob of each charset slot that has data (20_memory.md R80). -/
def charsetRegions (cs : Vector CharsetSlot 8) : List Span :=
  (cs.toList.filter fun c => c.hasData).map fun c => { base := c.base, size := c.len.toNat }

/-- The rows of the glyph record (45_render.md R290). -/
def rowRegion (g : Glyph) : Span := { base := g.data, size := g.sizeY * g.rowBytes }

/-- The regions a command may read besides those it writes (20_memory.md R80). -/
def readRegions (i : Instr) (s : State) : List Span :=
  let sf := s.blk.surf
  let pixel : Span := { base := (sf.pixAddr s.blk.args.x0 s.blk.args.y0).1, size := (sf.bpp + 7) / 8 }
  match i with
  | .nop | .setpix | .hrun | .vrun | .mapaddr | .fill | .fillrect | .rectout | .line | .decStart | .layoutStart => []
  | .getpix => [pixel]
  | .decNext | .decPeek => [textRegion s.blk.dec]
  | .glyphLookup => charsetRegions s.blk.cs
  | .layoutNext | .layoutExhaust => textRegion s.blk.dec :: charsetRegions s.blk.cs
  | .renderGlyph => [rowRegion s.blk.gl]
  | .renderText => textRegion s.blk.dec :: charsetRegions s.blk.cs

/-! ### Lines -/

/-- On a line whose major difference is `n` and whose minor difference is `d`, the pixel `k` along the major axis lies
`c` along the minor one: `c` is the nearest to `d * k / n`, the smaller of two that are equally near. -/
def NearestMinor (n d k c : Int) : Prop := 2 * d * k - n ≤ 2 * n * c ∧ 2 * n * c < 2 * d * k + n

/-- The pixels (major, minor) of the line from (a0, b0) to (a1, b1) with a0 <= a1. -/
def OnSteppedLine (a0 b0 a1 b1 a b : Int) : Prop :=
  a0 ≤ a ∧ a ≤ a1 ∧
    if b0 ≤ b1 then NearestMinor (a1 - a0) (b1 - b0) (a - a0) (b - b0)
    else NearestMinor (a1 - a0) (b0 - b1) (a - a0) (b0 - b)

/-- The pixels of the line between two points: x is the major axis when the line is longer in x than in y, else y is;
the endpoint with the smaller major coordinate comes first. -/
def OnLine (x0 y0 x1 y1 x y : Int) : Prop :=
  if x0 = x1 ∧ y0 = y1 then x = x0 ∧ y = y0
  else if |y1 - y0| < |x1 - x0| then
    if x0 ≤ x1 then OnSteppedLine x0 y0 x1 y1 x y else OnSteppedLine x1 y1 x0 y0 x y
  else if y0 ≤ y1 then OnSteppedLine y0 x0 y1 x1 y x else OnSteppedLine y1 x1 y0 x0 y x

/-! ### Text -/

/-- The UTF-8 bytes of a code point below 2^21 (43_decoder.md R221). -/
def utf8Bytes (cp : Nat) : List Byte :=
  if cp < 0x80 then [BitVec.ofNat 8 cp]
  else if cp < 0x800 then [BitVec.ofNat 8 (0xC0 + cp / 64), BitVec.ofNat 8 (0x80 + cp % 64)]
  else if cp < 0x10000 then
    [BitVec.ofNat 8 (0xE0 + cp / 4096), BitVec.ofNat 8 (0x80 + cp / 64 % 64), BitVec.ofNat 8 (0x80 + cp % 64)]
  else
    [BitVec.ofNat 8 (0xF0 + cp / 262144), BitVec.ofNat 8 (0x80 + cp / 4096 % 64),
      BitVec.ofNat 8 (0x80 + cp / 64 % 64), BitVec.ofNat 8 (0x80 + cp % 64)]

/-- The platform serves the read of every byte of the input that the next code point may take (43_decoder.md R220,
R221). -/
def State.servesNextCode (s : State) : Prop :=
  ∀ k, s.blk.dec.pos.toNat ≤ k → k < s.blk.dec.pos.toNat + 4 → k < s.blk.dec.len.toNat →
    s.platform.serves (s.blk.dec.base + BitVec.ofNat 32 k) 1 .read = true

/-- The platform serves the read of every byte of the input that is left. -/
def State.servesText (s : State) : Prop :=
  ∀ k, s.blk.dec.pos.toNat ≤ k → k < s.blk.dec.len.toNat →
    s.platform.serves (s.blk.dec.base + BitVec.ofNat 32 k) 1 .read = true

/-- The blob of a charset slot holds a sound header for the code point (44_layout.md R242 to R244): an even base, the
header and the row data it names inside the blob, and the header's bytes served. -/
structure SoundGlyph (s : State) (i : Fin 8) (cp : Word) (h : Word) : Prop where
  even : (s.blk.cs.get i).base.toNat % 2 = 0
  headerInside : headerOffset (s.blk.cs.get i) cp + 4 ≤ (s.blk.cs.get i).len.toNat
  served : ∀ k < 4, s.platform.serves
    ((s.blk.cs.get i).base + wordOfInt (headerOffset (s.blk.cs.get i) cp) + BitVec.ofNat 32 k) 1 .read = true
  header : h = readLE s.mem ((s.blk.cs.get i).base + wordOfInt (headerOffset (s.blk.cs.get i) cp)) 4
  rowsInside : hdrDataOffset h + hdrSizeY h * hdrRowBytes h ≤ (s.blk.cs.get i).len.toNat

/-- Every code point that a charset slot covers has a sound glyph in the first slot that covers it. -/
def State.soundCharsets (s : State) : Prop :=
  ∀ cp i, findCharset s.blk.cs cp = some i → ∃ h, SoundGlyph s i cp h

/-- The cursor stays so far from the ends of the i32 range that no layout quantity of the text that is left can leave
it (44_layout.md R256): a step moves x by at most 256 and y by at most 255, and a glyph reaches at most 285 further. -/
def State.farFromOverflow (s : State) : Prop :=
  let left : Int := s.blk.dec.len.toNat - s.blk.dec.pos.toNat
  s.blk.lay.x.toInt + 256 * left + 600 < 2 ^ 31 ∧ s.blk.lay.xInit.toInt + 256 * left + 600 < 2 ^ 31 ∧
    s.blk.lay.y.toInt + 255 * left + 600 < 2 ^ 31

/-! ### The register window -/

/-- The offsets of the read/write registers, each with the bits that are not reserved (10_state.md R31, R40, R42, R50,
R55). -/
def writableRegs : List (Nat × Word) :=
  [(0x020, 0xFFFFFFFF), (0x024, 0x00000073), (0x028, 0xFFFFFFFF), (0x02C, 0x0000FFFF), (0x030, 0xFFFFFFFF)] ++
  [(0x034, 0xFFFFFFFF), (0x038, 0xFFFFFFFF), (0x040, 0xFFFFFFFF), (0x044, 0xFFFFFFFF), (0x048, 0xFFFFFFFF)] ++
  [(0x04C, 0xFFFFFFFF), (0x050, 0xFFFFFFFF), (0x054, 0x000001FF)] ++
  (List.range 8).flatMap fun i =>
    [(0x100 + 0x20 * i, 0xFFFFFFFF), (0x104 + 0x20 * i, 0xFFFFFFFF), (0x108 + 0x20 * i, 0xFFFFFFFF),
      (0x10C + 0x20 * i, 0xFFFFFFFF), (0x110 + 0x20 * i, 0x00000001)]

/-- A word offset of the window that names no register (10_state.md R32). -/
def reservedOffset (offset : Nat) : Prop :=
  offset % 4 = 0 ∧ (offset = 0x01C ∨ offset = 0x03C ∨ (0x058 ≤ offset ∧ offset ≤ 0x05C) ∨
    (0x084 ≤ offset ∧ offset ≤ 0x08C) ∨ (0x0AC ≤ offset ∧ offset ≤ 0x0FC) ∨
    ∃ i < 8, 0x114 + 0x20 * i ≤ offset ∧ offset ≤ 0x11C + 0x20 * i)

/-- The block with nothing but the pending-command latch and the fault bits changed: what a command leaves that faults
in a check (60_exceptions.md R302, R303). -/
def State.faulted (s : State) (code : Byte) (info : Word) : State :=
  { s with blk := { s.blk with latch := none, status := { fault := true, code := code, info := info } } }

/-! ### The families of commands -/

/-- The commands that run SurfCheck() first (41_pixel.md R160, 60_exceptions.md R300). -/
def surfaceCommands : List Instr :=
  [.setpix, .getpix, .hrun, .vrun, .mapaddr, .fill, .fillrect, .rectout, .line, .renderGlyph, .renderText]

/-- The fault codes each command can raise (60_exceptions.md R300, the column "raised by"). -/
def mayRaise : Instr → List Nat
  | .nop | .decStart | .layoutStart => []
  | .setpix | .getpix | .hrun | .vrun | .fillrect | .rectout | .line | .renderGlyph => [2, 3, 6]
  | .mapaddr => [2, 3]
  | .fill => [2, 6]
  | .decNext | .decPeek => [6]
  | .glyphLookup => [4, 5, 6]
  | .layoutNext | .layoutExhaust => [4, 5, 6, 7]
  | .renderText => [2, 3, 4, 5, 6, 7]

/-- A command's argument checks fail (41_pixel.md R169 to R174, 42_raster.md R191 to R193). -/
def badArguments (i : Instr) (s : State) : Prop :=
  let sf := s.blk.surf
  let x := s.blk.args.x0
  let y := s.blk.args.y0
  let w := s.blk.args.x1
  let h := s.blk.args.y1
  match i with
  | .setpix | .getpix | .mapaddr => ¬ sf.Inside x y
  | .hrun => ¬ (sf.Inside x y ∧ x + w ≤ sf.pixelWidth)
  | .vrun => ¬ (sf.Inside x y ∧ y + w ≤ sf.pixelHeight)
  | .fillrect => 0 < h ∧ ¬ (x < sf.pixelWidth ∧ x + w ≤ sf.pixelWidth ∧ y + h ≤ sf.pixelHeight)
  | .rectout =>
    (w = 0 ∧ h = 0 ∧ ¬ sf.Inside x y) ∨
    (w = 0 ∧ 0 < h ∧ ¬ (sf.Inside x y ∧ y + h ≤ sf.pixelHeight)) ∨
    (0 < w ∧ h = 0 ∧ ¬ (sf.Inside x y ∧ x + w ≤ sf.pixelWidth)) ∨
    (0 < w ∧ 0 < h ∧ ¬ (x + w ≤ sf.pixelWidth ∧ y + h ≤ sf.pixelHeight))
  | .line => ¬ sf.Inside x y ∨ ¬ sf.Inside w h
  | .nop | .fill | .decStart | .decNext | .decPeek | .glyphLookup | .layoutStart | .layoutNext | .layoutExhaust => False
  | .renderGlyph | .renderText => False

/-- The pixels (a, b) a drawing command writes (41_pixel.md R170, R172, R173; 42_raster.md R190 to R193). -/
def drawnSet (i : Instr) (s : State) (a b : Nat) : Prop :=
  let x := s.blk.args.x0
  let y := s.blk.args.y0
  let w := s.blk.args.x1
  let h := s.blk.args.y1
  match i with
  | .setpix => a = x ∧ b = y
  | .hrun => x ≤ a ∧ a < x + w ∧ b = y
  | .vrun => a = x ∧ y ≤ b ∧ b < y + w
  | .fill => s.blk.surf.Inside a b
  | .fillrect => x ≤ a ∧ a < x + w ∧ y ≤ b ∧ b < y + h
  | .rectout =>
    (w = 0 ∧ h = 0 ∧ a = x ∧ b = y) ∨
    (w = 0 ∧ 0 < h ∧ a = x ∧ y ≤ b ∧ b < y + h) ∨
    (0 < w ∧ h = 0 ∧ x ≤ a ∧ a < x + w ∧ b = y) ∨
    (0 < w ∧ 0 < h ∧ x ≤ a ∧ a < x + w ∧ y ≤ b ∧ b < y + h ∧ (b = y ∨ b = y + h - 1 ∨ a = x ∨ a = x + w - 1))
  | .line => OnLine x y w h a b
  | .nop | .getpix | .mapaddr | .decStart | .decNext | .decPeek | .glyphLookup | .layoutStart | .layoutNext => False
  | .layoutExhaust | .renderGlyph | .renderText => False

/-- A drawing command comes to pixel (a, b) before pixel (a', b') (41_pixel.md R168; 42_raster.md R190 to R195): row by
row, and ascending in a row; RECTOUT with w, h >= 1 the top row first, then the bottom row, the left column and the right
column; LINE ascending along its longer axis, y where both are equally long. -/
def drawnBefore (i : Instr) (s : State) (a b a' b' : Nat) : Prop :=
  let x := s.blk.args.x0
  let y := s.blk.args.y0
  let w := s.blk.args.x1
  let h := s.blk.args.y1
  let side (a b : Nat) : Nat := if b = y then 0 else if b = y + h - 1 then 1 else if a = x then 2 else 3
  match i with
  | .rectout =>
    if 0 < w ∧ 0 < h then
      side a b < side a' b' ∨ (side a b = side a' b' ∧ (b < b' ∨ (b = b' ∧ a < a')))
    else b < b' ∨ (b = b' ∧ a < a')
  | .line => if |(h : Int) - y| < |(w : Int) - x| then a < a' else b < b'
  | .nop | .setpix | .getpix | .hrun | .vrun | .mapaddr | .fill | .fillrect => b < b' ∨ (b = b' ∧ a < a')
  | .decStart | .decNext | .decPeek | .glyphLookup | .layoutStart | .layoutNext | .layoutExhaust => False
  | .renderGlyph | .renderText => False

/-! ### What the decoder reads, in numbers -/

/-- Byte `k` of the input, 0 at and beyond its end (43_decoder.md R220). -/
def State.inputAt (s : State) (k : Nat) : Nat :=
  if k < s.blk.dec.len.toNat then (byteAt s.mem (s.blk.dec.base + BitVec.ofNat 32 k)).toNat else 0

/-- The code point at the decoder's position, which is before the end, and the bytes it takes (43_decoder.md R221). -/
def State.codeHere (s : State) : Nat × Nat :=
  let p := s.blk.dec.pos.toNat
  let b := s.inputAt p
  let c (k : Nat) : Nat := s.inputAt (p + k) % 64
  if b < 0xC0 then (b, 1)
  else if b < 0xE0 then (b % 32 * 64 + c 1, 2)
  else if b < 0xF0 then (b % 16 * 4096 + c 1 * 64 + c 2, 3)
  else (b % 8 * 262144 + c 1 * 4096 + c 2 * 64 + c 3, 4)

/-- The accesses of Decode at the decoder's position, in order: the bytes of the code point that lie before the input's
end (43_decoder.md R220, R221). -/
def State.codeAccesses (s : State) : List Access :=
  let p := s.blk.dec.pos.toNat
  (List.range (min s.codeHere.2 (s.blk.dec.len.toNat - p))).map fun k =>
    ⟨s.blk.dec.base + BitVec.ofNat 32 (p + k), 1, .read⟩

/-- Dc after the code point at its position is consumed (43_decoder.md R222). -/
def State.decoderAfter (s : State) : Decoder :=
  { s.blk.dec with pos := BitVec.ofNat 32 (min (s.blk.dec.pos.toNat + s.codeHere.2) s.blk.dec.len.toNat) }

/-! ### What the layout does with a code point, in numbers -/

/-- The layout is active and not at its vertical clip, and the decoder stands at a readable code point `cp`
(44_layout.md R272). -/
structure AtCode (s : State) (cp : Nat) : Prop where
  active : s.blk.lay.active = true
  above : s.blk.lay.y.toInt < s.blk.lay.maxY.toInt
  more : s.blk.dec.pos.toNat < s.blk.dec.len.toNat
  served : s.servesNextCode
  code : s.codeHere.1 = cp

/-- The code point is none of the special ones (44_layout.md R246). -/
def State.plainCode (s : State) (cp : Nat) : Prop :=
  cp ∉ [0x09, 0x0A, 0x20, 0xA0, 0xAD, 0x3000] ∧ ∀ k : Fin 6, (s.platform.space6.get k).cp.toNat ≠ cp

/-- Slot `i` has data and its range holds `cp`, read as i32 (44_layout.md R240, 10_state.md R55). -/
def SlotHolds (c : CharsetSlot) (cp : Int) : Prop :=
  c.ctrl.getLsbD 0 = true ∧ 0 < c.len.toNat ∧ c.min.toInt ≤ cp ∧ cp ≤ c.max.toInt

/-- Slot `i` is the first that holds the code point (44_layout.md R240). -/
def State.firstSlot (s : State) (cp : Int) (i : Fin 8) : Prop :=
  0 ≤ cp ∧ SlotHolds (s.blk.cs.get i) cp ∧ ∀ j < i, ¬ SlotHolds (s.blk.cs.get j) cp

/-- The left edge and the next cursor x of a glyph `sx` pixels wide at cursor x `cx` (44_layout.md R250, R251). -/
def glyphSpot (l : Layout) (cls : AlignClass) (sx cx : Int) : Int × Int :=
  let pad : Int := l.padW.toNat
  let full : Int := l.fullCell.toNat
  match cls with
  | .normal => (cx + (max sx pad - sx) / 2, cx + max sx pad + 1)
  | .fwLeft => (cx, cx + full)
  | .fwRight => (cx + max 0 (full - sx), cx + full)
  | .fwCenter => (cx + max 0 (full - sx) / 2, cx + full)

/-- The glyph of header `h`, placed at the cursor, wraps (44_layout.md R253). -/
def State.wrapsAt (s : State) (cls : AlignClass) (h : Word) : Prop :=
  s.blk.lay.wrap = true ∧ s.blk.lay.xInit.toInt < s.blk.lay.x.toInt ∧
    s.blk.lay.maxX.toInt < (glyphSpot s.blk.lay cls (h.toNat % 16) s.blk.lay.x.toInt).1 + h.toNat % 16

/-- `v` is an i32 (00_scope.md R11). -/
def IsInt32 (v : Int) : Prop := -2 ^ 31 ≤ v ∧ v < 2 ^ 31

/-- The quantities that 44_layout.md R256 names, for a glyph of header `h` placed at cursor (cx, cy), are i32. -/
def GlyphFits (l : Layout) (cls : AlignClass) (h : Word) (cx cy : Int) : Prop :=
  let sx : Int := h.toNat % 16
  let sy : Int := h.toNat / 16 % 16
  let gx := (glyphSpot l cls sx cx).1
  let gy := cy + h.toNat / 256 % 16
  IsInt32 (glyphSpot l cls sx cx).2 ∧ IsInt32 cy ∧ IsInt32 gx ∧ IsInt32 gy ∧ IsInt32 (gx + sx) ∧
    IsInt32 (gx + min (max (l.maxX.toInt - gx) 0) sx) ∧ IsInt32 (gy + min (max (l.maxY.toInt - gy) 0) sy)

/-- The box `b` covers what the box `a` covers: `a` is not valid, or both are valid and `b` reaches at least as far on
every side (44_layout.md R255, R276 (a)). -/
def BoxWithin (a b : Layout) : Prop :=
  a.bbValid = true → b.bbValid = true ∧ b.bbMinX.toInt ≤ a.bbMinX.toInt ∧ b.bbMinY.toInt ≤ a.bbMinY.toInt ∧
    a.bbMaxX.toInt ≤ b.bbMaxX.toInt ∧ a.bbMaxY.toInt ≤ b.bbMaxY.toInt

/-- `t` is `s` after LAYOUT_NEXT has placed the glyph of code point `cp`, with header `h` in slot `i`, at cursor
(cx, cy) (44_layout.md R250 to R255, R262, R272): where the glyph and the cursor are, how far the glyph is clipped, its
record, the bounding box, and that nothing else but Dc.pos changed. -/
structure LaidOut (s t : State) (cp : Nat) (i : Fin 8) (h : Word) (cx cy : Int) : Prop where
  left : t.blk.gl.x.toInt = (glyphSpot s.blk.lay (s.platform.alignClass (BitVec.ofNat 32 cp)) (h.toNat % 16) cx).1
  top : t.blk.gl.y.toInt = cy + h.toNat / 256 % 16
  next : t.blk.gl.nextX.toInt = (glyphSpot s.blk.lay (s.platform.alignClass (BitVec.ofNat 32 cp)) (h.toNat % 16) cx).2
  cursorX : t.blk.lay.x = t.blk.gl.nextX
  cursorY : t.blk.lay.y.toInt = cy
  columns : ∀ c : Nat, c < t.blk.gl.sizeX ↔ c < h.toNat % 16 ∧ t.blk.gl.x.toInt + c < s.blk.lay.maxX.toInt
  rows : ∀ r : Nat, r < t.blk.gl.sizeY ↔ r < h.toNat / 16 % 16 ∧ t.blk.gl.y.toInt + r < s.blk.lay.maxY.toInt
  record : t.blk.gl.info.toNat = t.blk.gl.sizeX + t.blk.gl.sizeY * 2 ^ 4 + 2 ^ 8 +
    (if 8 < h.toNat % 16 then 2 ^ 9 else 0) + (if t.blk.gl.sizeX < h.toNat % 16 then 2 ^ 10 else 0) +
    (if t.blk.gl.sizeY < h.toNat / 16 % 16 then 2 ^ 11 else 0) +
    (s.platform.alignClass (BitVec.ofNat 32 cp)).code.toNat * 2 ^ 13 + i.val * 2 ^ 16
  rest : t.blk.gl.cp = BitVec.ofNat 32 cp ∧ t.blk.gl.hdr = h ∧
    t.blk.gl.data = (s.blk.cs.get i).base + BitVec.ofNat 32 (h.toNat / 65536)
  noBox : t.blk.gl.sizeX = 0 ∨ t.blk.gl.sizeY = 0 → t.blk.lay = { s.blk.lay with x := t.blk.lay.x, y := t.blk.lay.y }
  firstBox : s.blk.lay.bbValid = false → 0 < t.blk.gl.sizeX → 0 < t.blk.gl.sizeY →
    t.blk.lay.bbMinX.toInt = t.blk.gl.x.toInt ∧ t.blk.lay.bbMinY.toInt = t.blk.gl.y.toInt ∧
      t.blk.lay.bbMaxX.toInt = t.blk.gl.x.toInt + t.blk.gl.sizeX ∧
      t.blk.lay.bbMaxY.toInt = t.blk.gl.y.toInt + t.blk.gl.sizeY ∧ t.blk.lay.bbValid = true
  nextBox : s.blk.lay.bbValid = true → 0 < t.blk.gl.sizeX → 0 < t.blk.gl.sizeY →
    t.blk.lay.bbMinX.toInt = min s.blk.lay.bbMinX.toInt t.blk.gl.x.toInt ∧
      t.blk.lay.bbMinY.toInt = min s.blk.lay.bbMinY.toInt t.blk.gl.y.toInt ∧
      t.blk.lay.bbMaxX.toInt = max s.blk.lay.bbMaxX.toInt (t.blk.gl.x.toInt + t.blk.gl.sizeX) ∧
      t.blk.lay.bbMaxY.toInt = max s.blk.lay.bbMaxY.toInt (t.blk.gl.y.toInt + t.blk.gl.sizeY) ∧ t.blk.lay.bbValid = true
  layout : t.blk.lay = { s.blk.lay with
    x := t.blk.lay.x, y := t.blk.lay.y, bbMinX := t.blk.lay.bbMinX, bbMinY := t.blk.lay.bbMinY,
    bbMaxX := t.blk.lay.bbMaxX, bbMaxY := t.blk.lay.bbMaxY, bbValid := t.blk.lay.bbValid }
  frame : t = { s with blk :=
    { s.blk with latch := none, dec := s.decoderAfter, lay := t.blk.lay, gl := t.blk.gl } }

/-! ### Rendering -/

/-- Bit `c` of row `r` of the record's bitmap, least significant bit first; a row has 8 or 16 bits (45_render.md
R290). -/
def Glyph.bitAt (g : Glyph) (m : Memory) (r c : Nat) : Bool :=
  decide (c < 8 * g.rowBytes) && (byteAt m (g.data + BitVec.ofNat 32 (r * g.rowBytes + c / 8))).getLsbD (c % 8)

/-- Pixel (a, b) is one of the record's set bits within its clipped sizes (45_render.md R290). -/
def GlyphPixel (g : Glyph) (m : Memory) (a b : Int) : Prop :=
  ∃ r c : Nat, r < g.sizeY ∧ c < g.sizeX ∧ g.bitAt m r c = true ∧ a = g.x.toInt + c ∧ b = g.y.toInt + r

/-- What RENDER_GLYPH needs to draw the record that it finds: the pixels are inside and can be drawn, the rows can be
read, and no row byte is one of the pixels' bytes. -/
structure CanRender (s : State) : Prop where
  draw : CanDraw s fun a b => GlyphPixel s.blk.gl s.mem a b
  inside : ∀ a b, GlyphPixel s.blk.gl s.mem a b → 0 ≤ a ∧ a < s.blk.surf.pixelWidth ∧ 0 ≤ b ∧ b < s.blk.surf.pixelHeight
  rows : ∀ r k, r < s.blk.gl.sizeY → k < s.blk.gl.rowBytes →
    s.platform.serves (s.blk.gl.data + BitVec.ofNat 32 (r * s.blk.gl.rowBytes + k)) 1 .read = true
  apart : ∀ (r k a b : Nat), r < s.blk.gl.sizeY → k < s.blk.gl.rowBytes → GlyphPixel s.blk.gl s.mem a b →
    s.blk.gl.data + BitVec.ofNat 32 (r * s.blk.gl.rowBytes + k) ∉ s.blk.surf.pixelBytes a b

/-- Pixel (a, b) is one of the record's set bits that RENDER_GLYPH comes to before bit `c` of row `r`: rows ascending,
and columns ascending in a row (45_render.md R290). -/
def GlyphPixelBefore (g : Glyph) (m : Memory) (r c : Nat) (a b : Int) : Prop :=
  ∃ r' c' : Nat, r' < g.sizeY ∧ c' < g.sizeX ∧ (r' < r ∨ (r' = r ∧ c' < c)) ∧ g.bitAt m r' c' = true ∧
    a = g.x.toInt + c' ∧ b = g.y.toInt + r'

/-- What RENDER_GLYPH needs to come to bit `c` of row `r`, or to byte `n` of that row: the pixels before are inside and
can be drawn, the row bytes before can be read, and no row byte up to that row is one of those pixels' bytes. -/
structure CanRenderBefore (s : State) (r c n : Nat) : Prop where
  draw : CanDraw s fun a b => GlyphPixelBefore s.blk.gl s.mem r c a b
  inside : ∀ a b, GlyphPixelBefore s.blk.gl s.mem r c a b →
    0 ≤ a ∧ a < s.blk.surf.pixelWidth ∧ 0 ≤ b ∧ b < s.blk.surf.pixelHeight
  rows : ∀ r' k, k < s.blk.gl.rowBytes → (r' < r ∨ (r' = r ∧ k < n)) →
    s.platform.serves (s.blk.gl.data + BitVec.ofNat 32 (r' * s.blk.gl.rowBytes + k)) 1 .read = true
  apart : ∀ (r' k a b : Nat), r' ≤ r → k < s.blk.gl.rowBytes → GlyphPixelBefore s.blk.gl s.mem r c a b →
    s.blk.gl.data + BitVec.ofNat 32 (r' * s.blk.gl.rowBytes + k) ∉ s.blk.surf.pixelBytes a b

/-- RENDER_GLYPH stops at bit `c` of row `r` with the fault, with the pixels before drawn and nothing else
(20_memory.md R90, 60_exceptions.md R303). -/
def RenderStopsAt (s : State) (r c : Nat) (code : Byte) (info : Word) : Prop :=
  ∃ m, exec .renderGlyph s = .next (State.faulted { s with mem := m } code info) ∧
    DrawnExactly s m fun a b => GlyphPixelBefore s.blk.gl s.mem r c a b

/-- RENDER_GLYPH stops with BusError in the pixel at bit `c` of row `r`, with `n` bytes of the pixel written from its
address `a` on: the pixels before are drawn, these bytes hold the pixel's, and nothing else has changed (20_memory.md R90,
60_exceptions.md R303, 41_pixel.md R167). -/
def RenderStopsInPixel (s : State) (r c : Nat) (a : Word) (n : Nat) (info : Word) : Prop :=
  ∃ m m', exec .renderGlyph s = .next (State.faulted { s with mem := m' } 6 info) ∧
    DrawnExactly s m (fun a b => GlyphPixelBefore s.blk.gl s.mem r c a b) ∧
    (∀ j < n, byteAt m' (a + BitVec.ofNat 32 j) = s.blk.args.value.extractLsb' (8 * j) 8) ∧
    ∀ b, (∀ j < n, b ≠ a + BitVec.ofNat 32 j) → byteAt m' b = byteAt m b

/-- What RENDER_TEXT needs to come to its end undisturbed: a surface that every pixel write of is served, layout limits
inside it, text and charset blobs that are served and lie apart from it, sound charsets, and a cursor far from the ends
of the i32 range. -/
structure CanRenderText (s : State) : Prop where
  legal : surfCheck s.blk.surf = .ok ()
  mem : Memory.wf s.mem = true
  writes : ∀ x y, s.blk.surf.Inside x y → s.platform.writesPixel s.blk.surf x y = true
  limitX : s.blk.lay.maxX.toInt ≤ s.blk.surf.pixelWidth
  limitY : s.blk.lay.maxY.toInt ≤ s.blk.surf.pixelHeight
  startX : 0 ≤ s.blk.lay.x.toInt ∧ 0 ≤ s.blk.lay.xInit.toInt
  startY : 0 ≤ s.blk.lay.y.toInt
  text : s.servesText
  textApart : ∀ k x y, s.blk.dec.pos.toNat ≤ k → k < s.blk.dec.len.toNat → s.blk.surf.Inside x y →
    s.blk.dec.base + BitVec.ofNat 32 k ∉ pixBytes s.platform s.blk.surf x y
  blobs : ∀ (i : Fin 8) k, k < (s.blk.cs.get i).len.toNat →
    s.platform.serves ((s.blk.cs.get i).base + BitVec.ofNat 32 k) 1 .read = true
  blobsApart : ∀ (i : Fin 8) k x y, k < (s.blk.cs.get i).len.toNat → s.blk.surf.Inside x y →
    (s.blk.cs.get i).base + BitVec.ofNat 32 k ∉ pixBytes s.platform s.blk.surf x y
  sound : s.soundCharsets
  far : s.farFromOverflow

/-! ### Runs -/

/-- The layout's record says that it ended (10_state.md R54). -/
def State.atEnd (s : State) : Prop := s.blk.gl.eof = true

/-- A state with the latch of another. -/
def State.relatched (s : State) (w : Option Word) : State := { s with blk := { s.blk with latch := w } }

end Sys2Proof.Machine
end

