-- ==== Sys2Proof/Certificates/Slice0/Obligations.lean ====
section
/-! DEFINITION. The statements about the block. `s` is the state before, `t` the state after. -/

open Sys2Proof Sys2Proof.Machine

/-! ## Command words -/

/-- The 19 command words, written out from the opcode map: bits 31:8 clear, bits 7:0 the opcode. -/
def Obligations.CommandWordsDecode : Prop :=
  decode 0x00000000 = .command .nop ∧ decode 0x00000001 = .command .setpix ∧ decode 0x00000002 = .command .getpix ∧
  decode 0x00000003 = .command .hrun ∧ decode 0x00000004 = .command .vrun ∧ decode 0x00000005 = .command .mapaddr ∧
  decode 0x00000008 = .command .fill ∧ decode 0x00000009 = .command .fillrect ∧
  decode 0x0000000A = .command .rectout ∧ decode 0x0000000B = .command .line ∧
  decode 0x00000010 = .command .decStart ∧ decode 0x00000011 = .command .decNext ∧
  decode 0x00000012 = .command .decPeek ∧ decode 0x00000018 = .command .glyphLookup ∧
  decode 0x00000020 = .command .layoutStart ∧ decode 0x00000021 = .command .layoutNext ∧
  decode 0x00000022 = .command .layoutExhaust ∧ decode 0x00000028 = .command .renderGlyph ∧
  decode 0x00000029 = .command .renderText

/-- R125: a word is a command exactly when bits 31:8 are 0 and bits 7:0 are in the map, and then it is that command. -/
def Obligations.DecodingIsTheOpcodeMap : Prop :=
  ∀ (w : Word) (i : Instr), decode w = .command i ↔
    w.extractLsb' 8 24 = 0 ∧ (w.extractLsb' 0 8, i) ∈
      ([(0x00, .nop), (0x01, .setpix), (0x02, .getpix), (0x03, .hrun), (0x04, .vrun), (0x05, .mapaddr),
        (0x08, .fill), (0x09, .fillrect), (0x0A, .rectout), (0x0B, .line), (0x10, .decStart), (0x11, .decNext),
        (0x12, .decPeek), (0x18, .glyphLookup), (0x20, .layoutStart), (0x21, .layoutNext), (0x22, .layoutExhaust),
        (0x28, .renderGlyph), (0x29, .renderText)] : List (Byte × Instr))

/-- Decode and encode agree in both directions: each command has exactly one word, with every bit of it at its one
value. -/
def Obligations.DecodeAndEncodeAgree : Prop :=
  ∀ (w : Word) (i : Instr), decode w = .command i ↔ w = encode i

/-- R124: a word whose bits 31:8 are not 0, or whose opcode is unassigned, raises IllegalCommand with the word when the
engine executes it, and does nothing else; and every word is exactly one command or illegal. -/
def Obligations.IllegalWordsRaiseIllegalCommand : Prop :=
  (∀ (s : State) (w : Word), s.turn = .engine → s.blk.latch = some w →
    (w.extractLsb' 8 24 ≠ 0 ∨
      w.extractLsb' 0 8 ∉ ([0x00, 0x01, 0x02, 0x03, 0x04, 0x05, 0x08, 0x09, 0x0A, 0x0B, 0x10, 0x11, 0x12, 0x18, 0x20,
        0x21, 0x22, 0x28, 0x29] : List Byte)) →
    step s = .next (s.nextTurn.faulted 1 w)) ∧
  ∀ w : Word, (∃ i, decode w = .command i ∧ ∀ j, decode w = .command j → j = i) ∨ ∃ why, decode w = .illegal why

/-! ## Steps -/

/-- R7, R56: on the engine's turn a step is `exec` of the latched command, at the state with the schedule moved on by one
turn, and the bytes of memory that the command writes, each byte that it changes among them and none of a command that
writes no memory, are pending for the host after it (R347, log 30); on the host's turn a step is the host's next move, at
the state with that move taken from the queue besides. An agent with nothing to do changes nothing but the schedule. The
schedule (log 1) and that an idle turn changes nothing else (log 24) are the model's choices. -/
def Obligations.StepRunsTheAgentsMove : Prop :=
  (∀ (s : State) (w : Word) (i : Instr), s.turn = .engine → s.blk.latch = some w → decode w = .command i →
    let s' := { s with schedule := s.schedule.tail }
    (∀ t, exec i s' = .next t →
      step s = .next { t with pending := { t.pending with bytes := resultBytes i s' ++ t.pending.bytes } } ∧
      (∀ a, byteAt t.mem a ≠ byteAt s.mem a → a ∈ resultBytes i s') ∧
      (i ∈ [.nop, .getpix, .mapaddr, .decStart, .decNext, .decPeek, .glyphLookup, .layoutStart, .layoutNext,
        .layoutExhaust] → resultBytes i s' = [])) ∧
    ∀ r, exec i s' = .refused r → step s = .refused r) ∧
  (∀ (s : State) (m : HostMove) (rest : List HostMove), s.turn = .host → s.host = m :: rest →
    step s = hostMove m { s with host := rest, schedule := s.schedule.tail }) ∧
  ∀ s : State, (s.turn = .engine ∧ s.blk.latch = none) ∨ (s.turn = .host ∧ s.host = []) →
    step s = .next { s with schedule := s.schedule.tail }

/-- R353: when the host is done, a latched command gets its turn within as many steps as the schedule has turns, and
nothing has changed until then but the schedule (log 1: the schedule is the model's own). And where no region has read
side effects, every `wait` of the host ends, with no command in flight, the host's last command settled (log 29) and no
result pending (R347, log 30), within two steps more than the schedule has turns. -/
def Obligations.LatchedCommandGetsItsTurn : Prop :=
  (∀ s : State, s.host = [] → s.blk.latch ≠ none →
    ∃ k ≤ s.schedule.length, ∃ t, Host.Core.run core k s = .next t ∧ t = { s with schedule := s.schedule.drop k } ∧
      t.turn = .engine) ∧
  ∀ (s : State) (rest : List HostMove), s.platform.readEffects = [] → s.host = .wait :: rest →
    ∃ k ≤ s.schedule.length + 2, ∃ t, Host.Core.run core k s = .next t ∧ t.host = rest ∧ t.blk.latch = none ∧
      t.settled = true ∧ t.pending = .none

/-- R56, R302: every command's step takes the latched word and clears BUSY, whether the command completed or faulted; it
leaves every register that the host writes as it was, the OPEN parameters and the host's side of the model. R352: every
command ends: none stops with a fault of the model, none is refused but for a region with read side effects (log 21), and
where no region has read side effects every command answers a next state. -/
def Obligations.CommandsLeaveTheHostsRegisters : Prop :=
  ∀ (i : Instr) (s : State), (∀ f, exec i s ≠ .fault f) ∧ (∀ r, exec i s = .refused r → r = .readSideEffects) ∧
    (s.platform.readEffects = [] → ∃ t, exec i s = .next t) ∧
    ∀ t, exec i s = .next t →
      t.blk.latch = none ∧ t.blk.surf = s.blk.surf ∧ t.blk.args = s.blk.args ∧ t.blk.text = s.blk.text ∧
        t.blk.cs = s.blk.cs ∧ t.platform = s.platform ∧ t.host = s.host ∧ t.schedule = s.schedule ∧ t.seen = s.seen ∧
        t.settled = s.settled ∧ t.pending = s.pending

/-! ## Reset -/

/-- R340: after hardware reset ID reads 0x5A520007 and every other offset of the window reads 0, the latch is empty, L.*
and Dc.* are 0, and the engine, on its turn, does nothing. From any state, with a command in flight or without,
hardware reset leaves that block, no register of which is pending (R347, log 30), and changes nothing else: memory is
untouched. -/
def Obligations.HardwareResetValues : Prop :=
  (∀ offset < 0x200, State.reset.blk.readOffset offset = if offset = 0 then 0x5A520007 else 0) ∧
  State.reset.blk.latch = none ∧
  State.reset.blk.lay =
    { x := 0, y := 0, xInit := 0, yInit := 0, maxX := 0, maxY := 0, spaceW := 0, padW := 0, lineH := 0, glyphH := 0,
      fullCell := 0, wrap := false, bbMinX := 0, bbMinY := 0, bbMaxX := 0, bbMaxY := 0, bbValid := false,
      active := false, done := false } ∧
  State.reset.blk.dec = { base := 0, len := 0, pos := 0 } ∧
  (∀ s : State, hostMove .hardwareReset s =
    .next { s with blk := State.reset.blk, pending := { s.pending with registers := false } }) ∧
  ∀ s : State, s.blk = State.reset.blk → s.turn = .engine → step s = .next s.nextTurn

/-- R341, R342: a write of 1 to CTRL bit 0 puts all block state in its reset value, FAULT included, no register of which is
pending (R347, log 30), and CTRL reads 0 afterwards. While BUSY = 0, or with an illegal word in the latch, nothing else changes. With a command in flight each
byte that it could have written (those it writes, run to its end, wherever the platform admits its accesses, log 9) holds
a free value, and nothing else changes; a soft reset always answers a next state. -/
def Obligations.SoftReset : Prop :=
  (∀ (s : State) (v : Word), v.getLsbD 0 = true →
    (s.blk.latch = none ∨ ∃ w why, s.blk.latch = some w ∧ decode w = .illegal why) →
    hostMove (.write 0x004 4 v) s =
      .next { s with blk := State.reset.blk, pending := { s.pending with registers := false } }) ∧
  State.reset.blk.readOffset 0x004 = 0 ∧
  ∀ (s : State) (v w : Word) (i : Instr), Memory.wf s.mem = true → v.getLsbD 0 = true → s.blk.latch = some w →
    decode w = .command i →
    ∃ m n, hostMove (.write 0x004 4 v) s = .next { s with
        blk := State.reset.blk, mem := m, draws := n, pending := { s.pending with registers := false } } ∧
      (∀ a ∈ bytesWritten i s, ∃ k, s.draws ≤ k ∧ byteAt m a = Config.freeByte k) ∧
      ∀ a, a ∉ bytesWritten i s → byteAt m a = byteAt s.mem a

/-! ## The register window -/

/-- R33 to R38, R51, R54: what the read-only registers show: the constant ID, STATUS with BUSY in bit 0, FAULT in bit 1,
FAULT_CODE in bits 15:8 and 0 elsewhere, the results, the views of Dc.* and L.*, and the glyph record; the write-only
registers read 0. R31, R347, R354: while BUSY = 0 a host read of any offset returns this, but for a read of RESULT0,
RESULT1, a view or GL_* before a STATUS read has returned BUSY = 0 after the command (`pending`, log 30), which returns a
free value; and it changes nothing but what the host has seen, and, when it reads STATUS, that the host's last command is
settled (R355, log 29) and no result is pending. -/
def Obligations.ReadOnlyRegistersShowTheState : Prop :=
  (∀ (s : State) (offset : Nat), s.blk.latch = none → offset < 0x200 → offset % 4 = 0 →
    let results : List Nat := [0x014, 0x018, 0x060, 0x064, 0x068, 0x06C, 0x070, 0x074, 0x078, 0x07C, 0x080, 0x090, 0x094,
      0x098, 0x09C, 0x0A0, 0x0A4, 0x0A8]
    hostMove (.read offset 4) s = .next { s with
      seen := .register offset
        (if s.pending.registers = true ∧ offset ∈ results then Config.freeWord s.seen.length
          else s.blk.readOffset offset) :: s.seen
      settled := if offset = 0x008 then true else s.settled
      pending := if offset = 0x008 then .none else s.pending }) ∧
  ∀ b : Block,
    b.readOffset 0x000 = 0x5A520007 ∧ b.readOffset 0x004 = 0 ∧ b.readOffset 0x010 = 0 ∧
    (b.readOffset 0x008).toNat =
      (if b.latch = none then 0 else 1) + (if b.status.fault then 2 else 0) + b.status.code.toNat * 2 ^ 8 ∧
    b.readOffset 0x00C = b.status.info ∧ b.readOffset 0x014 = b.result0 ∧ b.readOffset 0x018 = b.result1 ∧
    b.readOffset 0x060 = b.dec.pos ∧ b.readOffset 0x064 = b.lay.x ∧ b.readOffset 0x068 = b.lay.y ∧
    b.readOffset 0x06C = b.lay.xInit ∧ b.readOffset 0x070 = b.lay.bbMinX ∧ b.readOffset 0x074 = b.lay.bbMinY ∧
    b.readOffset 0x078 = b.lay.bbMaxX ∧ b.readOffset 0x07C = b.lay.bbMaxY ∧
    (b.readOffset 0x080).toNat =
      (if b.lay.active then 1 else 0) + (if b.lay.bbValid then 2 else 0) + (if b.lay.done then 4 else 0) ∧
    b.readOffset 0x090 = b.gl.cp ∧ b.readOffset 0x094 = b.gl.x ∧ b.readOffset 0x098 = b.gl.y ∧
    b.readOffset 0x09C = b.gl.nextX ∧ b.readOffset 0x0A0 = b.gl.info ∧ b.readOffset 0x0A4 = b.gl.data ∧
    b.readOffset 0x0A8 = b.gl.hdr

/-- R31, R305: while BUSY = 0 a write to a read/write register, whether FAULT is 0 or 1, makes the register read the
value written, cut to the bits that are not reserved, and leaves every other offset of the window reading as before, and
nothing else changes; a write to any other offset but CTRL, STATUS and CMD changes nothing. -/
def Obligations.WrittenRegistersReadBack : Prop :=
  (∀ (s : State) (offset : Nat) (mask v : Word), (offset, mask) ∈ writableRegs → s.blk.latch = none →
    ∃ b, hostMove (.write offset 4 v) s = .next { s with blk := b } ∧ b.readOffset offset = v &&& mask ∧
      (∀ other < 0x200, other ≠ offset → b.readOffset other = s.blk.readOffset other) ∧
      b.latch = none ∧ b.status = s.blk.status ∧ b.lay = s.blk.lay ∧ b.dec = s.blk.dec ∧ b.gl = s.blk.gl) ∧
  ∀ (s : State) (offset : Nat) (v : Word), offset < 0x200 → offset % 4 = 0 → s.blk.latch = none →
    offset ∉ [0x004, 0x008, 0x010] → (∀ mask, (offset, mask) ∉ writableRegs) →
    hostMove (.write offset 4 v) s = .next s

/-- R32: a reserved offset of the window, which is no register, reads 0 and ignores writes, whatever BUSY is (so do
logs 11 and 13 read R345); the reserved bits of every register ignore writes, and are 0 in the register's value in each
state that meets the invariant. That value is what a host read returns only while BUSY = 0 and no result is pending: else
such a register reads as a free value, reserved bits and all, whichever register but STATUS while BUSY = 1 (R345, log 13),
LS_FLAGS and GL_INFO while results are pending (R347, log 30). And an access that is no aligned 32-bit access is refused,
reads and writes alike (log 10). -/
def Obligations.ReservedSpaceAndAccessWidth : Prop :=
  (∀ (s : State) (offset : Nat) (v : Word), reservedOffset offset →
    s.blk.readOffset offset = 0 ∧
    hostMove (.read offset 4) s = .next { s with seen := .register offset 0 :: s.seen } ∧
    hostMove (.write offset 4 v) s = .next s) ∧
  (∀ (s : State) (offset : Nat) (mask v : Word),
    (offset, mask) ∈ writableRegs ∨ (offset = 0x004 ∧ mask = 0x1) ∨ (offset = 0x008 ∧ mask = 0x2) →
    hostMove (.write offset 4 v) s = hostMove (.write offset 4 (v &&& mask)) s) ∧
  (∀ s : State, s.Inv →
    (∀ offset mask, (offset, mask) ∈ writableRegs → s.blk.readOffset offset &&& ~~~mask = 0) ∧
    s.blk.readOffset 0x008 &&& 0xFFFF00FC = 0 ∧ s.blk.readOffset 0x080 &&& 0xFFFFFFF8 = 0 ∧
    s.blk.readOffset 0x0A0 &&& 0xFFF88000 = 0) ∧
  ∀ (s : State) (offset width : Nat) (v : Word), offset < 0x200 → ¬ (width = 4 ∧ offset % 4 = 0) →
    hostMove (.write offset width v) s = .refused .narrowRegisterAccess ∧
      hostMove (.read offset width) s = .refused .narrowRegisterAccess

/-- R37: CMD reads 0; a CMD write while BUSY = 0 latches the word and sets BUSY when FAULT = 0, and is dropped when
FAULT = 1; either way no STATUS read has followed it yet, as a run's end needs (R355, log 29), and the results of a command
that is latched are pending until one does (R347, log 30); and while BUSY = 1 the host has no such move: the model refuses
it by name (log 11). -/
def Obligations.CommandWriteLatchesOrIsDropped : Prop :=
  ∀ (s : State) (w : Word), s.blk.readOffset 0x010 = 0 ∧
    (s.blk.latch = none → s.blk.status.fault = false →
      ∃ t, hostMove (.write 0x010 4 w) s = .next t ∧
        t = { s with
          blk := { s.blk with latch := some w }
          settled := false
          pending := { s.pending with registers := true } } ∧
        t.blk.busy = true) ∧
    (s.blk.latch = none → s.blk.status.fault = true →
      hostMove (.write 0x010 4 w) s = .next { s with settled := false }) ∧
    (s.blk.latch ≠ none → hostMove (.write 0x010 4 w) s = .refused .hostWriteWhileBusy)

/-- R306: while BUSY = 0 a STATUS write with bit 1 set clears FAULT, FAULT_CODE and FAULT_INFO and restores nothing else,
and the host may then write CMD again (of which no STATUS read has followed yet, log 29, log 30); it has no effect while FAULT = 0, and
neither has a write with bit 1 clear; a soft reset clears the fault as well. -/
def Obligations.FaultIsClearedByStatusWrite : Prop :=
  ∀ (s : State) (v : Word), s.blk.latch = none →
    (v.getLsbD 1 = true → s.blk.status.fault = true →
      ∃ t, hostMove (.write 0x008 4 v) s = .next t ∧
        t = { s with blk := { s.blk with status := { fault := false, code := 0, info := 0 } } } ∧
        ∀ w, hostMove (.write 0x010 4 w) t =
          .next { t with
            blk := { t.blk with latch := some w }
            settled := false
            pending := { t.pending with registers := true } }) ∧
    ((v.getLsbD 1 = false ∨ s.blk.status.fault = false) → hostMove (.write 0x008 4 v) s = .next s) ∧
    (v.getLsbD 0 = true →
      ∃ t, hostMove (.write 0x004 4 v) s = .next t ∧ t.blk.status = { fault := false, code := 0, info := 0 })

/-- R34, R345: while BUSY = 1 the host has no write to a register but to CTRL (the model refuses it by name, log 11), of
which a write with bit 0 clear has no effect; a read of STATUS returns STATUS with BUSY = 1, and a read of any other
register, ID among them (log 13), returns a free value; neither read changes anything but what the host has seen. R126:
`wait` reads STATUS, and stays the host's next move until it reads BUSY = 0, which settles the host's last command
(log 29), and leaves no result pending (R347, log 30). -/
def Obligations.HostRulesWhileBusy : Prop :=
  (∀ s : State,
    (s.blk.latch ≠ none → hostMove .wait s = .next { s with
      host := .wait :: s.host
      seen := .register 0x008 s.blk.statusWord :: s.seen }) ∧
    (s.blk.latch = none → hostMove .wait s = .next { s with
      seen := .register 0x008 s.blk.statusWord :: s.seen
      settled := true
      pending := .none })) ∧
  ∀ (s : State) (offset : Nat) (v : Word), s.blk.latch ≠ none → offset < 0x200 → offset % 4 = 0 →
    ¬ reservedOffset offset →
    (offset ≠ 0x004 → hostMove (.write offset 4 v) s = .refused .hostWriteWhileBusy) ∧
    (v.getLsbD 0 = false → hostMove (.write 0x004 4 v) s = .next s) ∧
    hostMove (.read 0x008 4) s = .next { s with seen := .register 0x008 s.blk.statusWord :: s.seen } ∧
    s.blk.statusWord.getLsbD 0 = true ∧
    (offset ≠ 0x008 → hostMove (.read offset 4) s =
      .next { s with seen := .register offset (Config.freeWord s.seen.length) :: s.seen })

/-- R93: the host's stores and loads, outside the register window, while BUSY = 0 or an illegal word is in the latch, or
of bytes that the command in flight does not use: the bytes stored are read back, every other byte is unchanged, and a
load returns the bytes of memory. R347: but a byte that a command wrote, and after which no STATUS read has returned
BUSY = 0, is loaded as a free value, unless the host has stored to it since (log 30). A store or load that touches the
register window is refused (log 22). -/
def Obligations.HostStoresAndLoads : Prop :=
  (∀ (s : State) (a : Word) (bytes : List Byte),
    (∃ j < bytes.length, (a + BitVec.ofNat 32 j - s.platform.blockBase).toNat < 0x200) →
    hostMove (.store a bytes) s = .refused .narrowRegisterAccess ∧
      hostMove (.load a bytes.length) s = .refused .narrowRegisterAccess) ∧
  ∀ (s : State) (a : Word) (bytes : List Byte), Memory.wf s.mem = true → bytes.length ≤ 2 ^ 32 →
    (∀ c ∈ accessBytes a bytes.length, 0x200 ≤ (c - s.platform.blockBase).toNat) →
    (∀ w i, s.blk.latch = some w → decode w = .command i → ∀ c ∈ accessBytes a bytes.length, uses i s c = false) →
    (∃ m p, hostMove (.store a bytes) s = .next { s with mem := m, pending := p } ∧
      p.registers = s.pending.registers ∧
      (∀ c, c ∈ p.bytes ↔ c ∈ s.pending.bytes ∧ c ∉ accessBytes a bytes.length) ∧
      (∀ (k : Nat) (hk : k < bytes.length), byteAt m (a + BitVec.ofNat 32 k) = bytes[k]) ∧
      ∀ c, c ∉ accessBytes a bytes.length → byteAt m c = byteAt s.mem c) ∧
    hostMove (.load a bytes.length) s = .next { s with
      seen := .memory a ((List.range bytes.length).map fun k =>
        if a + BitVec.ofNat 32 k ∈ s.pending.bytes then Config.freeLoad s.seen.length k
        else byteAt s.mem (a + BitVec.ofNat 32 k)) :: s.seen }

/-- R93: a host access, outside the register window, to a byte that the command in flight uses is a race: the model
stops with `hostRace`, stores and loads alike. Used are, wherever the platform admits the accesses (log 12): the bytes of
SETPIX's pixel, the whole unit of a read-modify-write; the bytes of the code point that DEC_NEXT and DEC_PEEK read; and,
of a command that writes no memory, no bytes but those of the regions it may read. -/
def Obligations.HostRaceStops : Prop :=
  (∀ (s : State) (w a c : Word) (i : Instr) (bytes : List Byte), s.blk.latch = some w → decode w = .command i →
    (∀ b ∈ accessBytes a bytes.length, s.platform.inWindow b = false) → c ∈ accessBytes a bytes.length →
    uses i s c = true →
    hostMove (.store a bytes) s = .fault .hostRace ∧ hostMove (.load a bytes.length) s = .fault .hostRace) ∧
  (∀ (s : State) (c : Word), surfCheck s.blk.surf = .ok () → ¬ badArguments .setpix s →
    (∀ b ∈ pixBytes s.platform s.blk.surf s.blk.args.x0 s.blk.args.y0, s.platform.inWindow b = false) →
    (uses .setpix s c = true ↔ c ∈ pixBytes s.platform s.blk.surf s.blk.args.x0 s.blk.args.y0)) ∧
  (∀ (i : Instr) (s : State) (c : Word), i = .decNext ∨ i = .decPeek →
    (∀ q ∈ s.codeAccesses, s.platform.inWindow q.addr = false) →
    (uses i s c = true ↔ ∃ q ∈ s.codeAccesses, c = q.addr)) ∧
  ∀ (i : Instr) (s : State) (c : Word),
    i ∈ [.nop, .getpix, .mapaddr, .decStart, .decNext, .decPeek, .glyphLookup, .layoutStart, .layoutNext,
      .layoutExhaust] →
    uses i s c = true → ∃ r ∈ readRegions i s, r.has c = true

/-- R122: how the operands are taken from the register fields: coordinates zero-extended, the layout's start and maximum
sign-extended, one-byte fields and single bits as they are. -/
def Obligations.OperandsAreRegisterFields : Prop :=
  (∀ g : Args,
    g.x0 = g.p0.toNat % 65536 ∧ g.y0 = g.p0.toNat / 65536 ∧ g.x1 = g.p1.toNat % 65536 ∧ g.y1 = g.p1.toNat / 65536) ∧
  (∀ sf : Surface,
    sf.width = sf.size.toNat % 65536 ∧ sf.height = sf.size.toNat / 65536 ∧ sf.stride = sf.pitch.toNat % 65536 ∧
    (sf.tiled = true ↔ sf.cfg.toNat % 2 = 1) ∧ (sf.vram16 = true ↔ sf.cfg.toNat / 2 % 2 = 1) ∧
    sf.fmt = sf.cfg.toNat / 16 % 8) ∧
  ∀ r : TextRegs,
    (r.startX - r.ltStart.toNat) % 65536 = 0 ∧ -32768 ≤ r.startX ∧ r.startX < 32768 ∧
    (r.startY - (r.ltStart.toNat / 65536 : Nat)) % 65536 = 0 ∧ -32768 ≤ r.startY ∧ r.startY < 32768 ∧
    (r.maxX - r.ltMax.toNat) % 65536 = 0 ∧ -32768 ≤ r.maxX ∧ r.maxX < 32768 ∧
    (r.maxY - (r.ltMax.toNat / 65536 : Nat)) % 65536 = 0 ∧ -32768 ≤ r.maxY ∧ r.maxY < 32768 ∧
    r.spaceW.toNat = r.ltCfg0.toNat % 256 ∧ r.padW.toNat = r.ltCfg0.toNat / 256 % 256 ∧
    r.lineH.toNat = r.ltCfg0.toNat / 65536 % 256 ∧ r.glyphH.toNat = r.ltCfg0.toNat / 16777216 ∧
    r.fullCell.toNat = r.ltCfg1.toNat % 256 ∧ (r.wrap = true ↔ r.ltCfg1.toNat / 256 % 2 = 1)

/-! ## Invariants and whole-machine rules -/

/-- The state after reset meets the invariant. -/
def Obligations.ResetMeetsTheInvariant : Prop := State.reset.Inv

/-- Every step of either agent keeps the invariant (Safety.lean, `State.Inv`): FAULT_CODE and FAULT_INFO are 0 while
FAULT = 0, no command is latched while FAULT = 1, 0 <= Dc.pos <= Dc.len, reserved bits read 0, GL_DATA and GL_HDR are 0
without HAS_DATA, the bounding box is 0 until it is valid and never empty after, memory keeps its canonical form, the results
of a command in flight are pending, and none is pending once a STATUS read has returned BUSY = 0 (R347, log 29, log 30). -/
def Obligations.StepsKeepTheInvariant : Prop :=
  ∀ s t : State, s.Inv → step s = .next t → t.Inv

/-- R52, R53, R54: only LAYOUT_START, LAYOUT_NEXT, LAYOUT_EXHAUST, RENDER_TEXT and reset change L.* and the GL_*
registers; only those, DEC_START, DEC_NEXT and reset change Dc.*. -/
def Obligations.LayoutAndDecoderHaveTheirOwnWriters : Prop :=
  (∀ (i : Instr) (s t : State), exec i s = .next t →
    (i ∉ [.layoutStart, .layoutNext, .layoutExhaust, .renderText] → t.blk.lay = s.blk.lay ∧ t.blk.gl = s.blk.gl) ∧
    (i ∉ [.decStart, .layoutStart, .decNext, .layoutNext, .layoutExhaust, .renderText] → t.blk.dec = s.blk.dec)) ∧
  ∀ (m : HostMove) (s t : State), hostMove m s = .next t →
    (t.blk.lay = s.blk.lay ∧ t.blk.gl = s.blk.gl ∧ t.blk.dec = s.blk.dec) ∨ t.blk = State.reset.blk

/-- R38, R89: the frame of results and memory: a command whose rule does not name RESULT0 or RESULT1 leaves it
unchanged, and a command whose rule writes no memory leaves all of memory, listed and unlisted, as it was. -/
def Obligations.ResultsAndMemoryHaveTheirOwnWriters : Prop :=
  ∀ (i : Instr) (s t : State), exec i s = .next t →
    (i ∉ [.getpix, .mapaddr, .decNext, .decPeek, .glyphLookup] → t.blk.result0 = s.blk.result0) ∧
    (i ∉ [.mapaddr, .glyphLookup] → t.blk.result1 = s.blk.result1) ∧
    (i ∈ [.nop, .getpix, .mapaddr, .decStart, .decNext, .decPeek, .glyphLookup, .layoutStart, .layoutNext,
      .layoutExhaust] → t.mem = s.mem ∧ t.draws = s.draws)

/-- R300, R302: a command leaves the fault bits as they are, or raises one of the faults that the table of R300 gives
it. -/
def Obligations.FaultsEachCommandRaises : Prop :=
  ∀ (i : Instr) (s t : State), exec i s = .next t →
    t.blk.status = s.blk.status ∨ (t.blk.status.fault = true ∧ t.blk.status.code.toNat ∈ mayRaise i)

/-- R303: a command that faults in a check changes nothing but STATUS and FAULT_INFO; no faulting command changes
RESULT0 or RESULT1; and a layout step that faults leaves L.* and GL_*. -/
def Obligations.FaultsArePrecise : Prop :=
  ∀ (i : Instr) (s t : State), s.blk.status.fault = false → exec i s = .next t → t.blk.status.fault = true →
    (t.blk.status.code = 2 ∨ (t.blk.status.code = 3 ∧ i ≠ .renderGlyph ∧ i ≠ .renderText) →
      t = s.faulted t.blk.status.code t.blk.status.info) ∧
    t.blk.result0 = s.blk.result0 ∧ t.blk.result1 = s.blk.result1 ∧
    (i = .layoutNext → t.blk.lay = s.blk.lay ∧ t.blk.gl = s.blk.gl)

/-- What a command that writes no memory and answers a next state computes is a function of the block, the OPEN
parameters and the bytes of the regions that it may read (Safety.lean, `readRegions`), and of these of the bytes that it
uses, by which the model tells a race (log 12): with any other bytes of memory changed it leaves the same block. -/
def Obligations.CommandsReadOnlyTheirRegions : Prop :=
  ∀ (i : Instr) (s : State) (m : Memory),
    i ∈ [.nop, .getpix, .mapaddr, .decStart, .decNext, .decPeek, .glyphLookup, .layoutStart, .layoutNext,
      .layoutExhaust] →
    (∀ a, (∃ r ∈ readRegions i s, r.has a = true) → byteAt m a = byteAt s.mem a) ∨
      (∀ a, uses i s a = true → byteAt m a = byteAt s.mem a) →
    ∀ t, exec i s = .next t → exec i { s with mem := m } = .next { t with mem := m }

/-! ## Control -/

/-- R150: NOP changes nothing but BUSY; and the host's write of its word is dropped while FAULT = 1: it changes nothing
but that no STATUS read has followed it (log 29). -/
def Obligations.NopClearsBusyOnly : Prop :=
  (∀ s : State, exec .nop s = .next { s with blk := { s.blk with latch := none } }) ∧
  ∀ s : State, s.blk.latch = none → s.blk.status.fault = true →
    hostMove (.write 0x010 4 0x00000000) s = .next { s with settled := false }

/-! ## Surfaces -/

/-- R160: SurfCheck comes first in every surface command: the reasons 1, 2 and 3 in this order, from the raw fields of
SURF_CFG, SURF_SIZE, SURF_PITCH and SURF_BASE; a surface with none of them never gives BadSurface. -/
def Obligations.SurfaceChecksComeFirst : Prop :=
  ∀ (i : Instr) (s : State), i ∈ surfaceCommands →
    let kind := s.blk.surf.cfg.toNat % 2
    let v16 := s.blk.surf.cfg.toNat / 2 % 2
    let fmt := s.blk.surf.cfg.toNat / 16 % 8
    let legal := (kind = 0 ∧ (fmt = 1 ∨ fmt = 2 ∨ fmt = 3 ∨ fmt = 4) ∧ ¬ (v16 = 1 ∧ fmt = 3)) ∨
      (kind = 1 ∧ (fmt = 0 ∨ fmt = 1))
    let narrow := s.blk.surf.size.toNat % 65536 ≤ s.blk.surf.pitch.toNat % 65536
    let even := (kind = 0 ∧ fmt = 2) ∨ v16 = 1 → s.blk.surf.base.toNat % 2 = 0
    let byFour := kind = 0 ∧ fmt = 4 → s.blk.surf.base.toNat % 4 = 0
    (¬ legal → exec i s = .next (s.faulted 2 1)) ∧
    (legal ∧ ¬ narrow → exec i s = .next (s.faulted 2 2)) ∧
    (legal ∧ narrow ∧ ¬ (even ∧ byFour) → exec i s = .next (s.faulted 2 3)) ∧
    (legal ∧ narrow ∧ even ∧ byFour → s.blk.status.fault = false → ∀ t, exec i s = .next t →
      t.blk.status.fault = true → t.blk.status.code ≠ 2)

/-- R169 to R174, R191 to R193: after SurfCheck, an argument check that fails raises OutOfBounds with the command's
opcode and changes nothing else; a command other than the renderer whose checks pass never gives OutOfBounds. -/
def Obligations.ArgumentChecks : Prop :=
  ∀ (i : Instr) (s : State), i ∈ surfaceCommands → surfCheck s.blk.surf = .ok () →
    (badArguments i s → exec i s = .next (s.faulted 3 (i.opcode.setWidth 32))) ∧
    (¬ badArguments i s → i ≠ .renderGlyph → i ≠ .renderText → s.blk.status.fault = false →
      ∀ t, exec i s = .next t → t.blk.status.fault = true → t.blk.status.code ≠ 3)

/-- R161, R162, R163, R174: MAPADDR of an in-bounds pixel of a legal surface: the address and the flags, from the raw
fields, and nothing else changes. -/
def Obligations.MapaddrGivesAddressAndFlags : Prop :=
  ∀ s : State, surfCheck s.blk.surf = .ok () →
    let sf := s.blk.surf
    let x := s.blk.args.x0
    let y := s.blk.args.y0
    let bits := match sf.fmt with | 0 => 4 | 1 => 8 | 2 => 16 | 3 => 24 | _ => 32
    let scale := if sf.tiled then 8 else 1
    let tile := y / 8 * sf.stride + x / 8
    let offset :=
      if sf.tiled = false then (x + y * sf.stride) * (bits / 8)
      else if bits = 8 then tile * 64 + y % 8 * 8 + x % 8
      else tile * 32 + y % 8 * 4 + x % 8 / 2
    let shift := if sf.tiled = true ∧ bits = 4 then 4 * (x % 8 % 2) else 0
    x < scale * sf.width → y < scale * sf.height →
    ∃ r0 r1, exec .mapaddr s = .next { s with blk := { s.blk with latch := none, result0 := r0, result1 := r1 } } ∧
      r0.toNat = (sf.base.toNat + offset) % 2 ^ 32 ∧
      r1.toNat = shift + bits * 2 ^ 8 + (if sf.vram16 = true ∧ bits < 16 then 2 ^ 16 else 0) +
        (if sf.vram16 = false ∧ bits = 4 then 2 ^ 17 else 0)

/-- R164, first bullet, on a surface that does not reach around the address space (log 27): distinct in-bounds pixels
have distinct (address, shift) pairs, and pixels in different bytes share no byte. -/
def Obligations.MapperIsInjective : Prop :=
  ∀ (sf : Surface) (x y x' y' : Nat), surfCheck sf = .ok () → sf.Fits → sf.Inside x y → sf.Inside x' y' →
    (sf.pixAddr x y = sf.pixAddr x' y' → x = x' ∧ y = y') ∧
    ((sf.pixAddr x y).1 ≠ (sf.pixAddr x' y').1 → ∀ a ∈ sf.pixelBytes x y, a ∉ sf.pixelBytes x' y')

/-- R164, first bullet, on every legal surface: it fails where offsets from SURF_BASE reach 2^32, since addresses are
taken modulo 2^32 (R81; log 27). -/
def Obligations.MapperIsInjectiveOnEverySurface : Prop :=
  ∀ (sf : Surface) (x y x' y' : Nat), surfCheck sf = .ok () → sf.Inside x y → sf.Inside x' y' →
    sf.pixAddr x y = sf.pixAddr x' y' → x = x' ∧ y = y'

/-- R86: under VRAM16 no command's outcome depends on where 8-bit writes are honoured. -/
def Obligations.NoByteWritesUnderVram16 : Prop :=
  ∀ (i : Instr) (s : State) (bad : List Span), s.blk.surf.vram16 = true →
    exec i { s with platform := { s.platform with byteWriteBad := bad } } =
      match exec i s with
      | .next t => .next { t with platform := { t.platform with byteWriteBad := bad } }
      | .fault f => .fault f
      | .refused r => .refused r

/-! ## Pixel commands -/

/-- R166 to R168, R170, R172, R173: SETPIX, HRUN and VRUN, with their checks passed, draw their pixels, a run of length 0
none, and nothing else: every other pixel of the surface, the other nibble or half of a read-modify-write among them,
and every byte outside the drawn pixels' keep their values; no register changes. -/
def Obligations.PixelCommandsDrawTheirPixels : Prop :=
  ∀ (i : Instr) (s : State), i = .setpix ∨ i = .hrun ∨ i = .vrun → CanDraw s (drawnSet i s) → ¬ badArguments i s →
    DrawsExactly i s (drawnSet i s)

/-- R86: SETPIX on an 8-bit linear surface without VRAM16, at a byte where an 8-bit write is not honoured, completes, and
both bytes of the halfword that holds it take a free value; nothing else changes. And SETPIX, HRUN, VRUN, FILL, FILLRECT,
RECTOUT and LINE on every surface that is written in 8-bit writes (linear 8 and 24 bits, tiled 4 and 8 bits, without
VRAM16), where none of the drawn pixels' bytes honours them, complete, and each byte of each such halfword holds a free
value; nothing else changes. -/
def Obligations.UnhonouredByteWriteFreesTheHalfword : Prop :=
  (∀ (i : Instr) (s : State), i ∈ [.setpix, .hrun, .vrun, .fill, .fillrect, .rectout, .line] → Memory.wf s.mem = true →
    surfCheck s.blk.surf = .ok () → s.blk.surf.vram16 = false → s.blk.surf.fmt ≠ 2 → s.blk.surf.fmt ≠ 4 →
    ¬ badArguments i s →
    (∀ x y, drawnSet i s x y → ∀ a ∈ s.blk.surf.pixelBytes x y,
      s.platform.byteWriteOk a = false ∧ s.platform.serves a 1 .write = true ∧
        (s.blk.surf.fmt = 0 → s.platform.serves a 1 .read = true)) →
    ∃ m n, exec i s = .next { s with blk := { s.blk with latch := none }, mem := m, draws := n } ∧
      (∀ x y a b, drawnSet i s x y → a ∈ s.blk.surf.pixelBytes x y → b = a &&& 0xFFFFFFFE ∨ b = (a &&& 0xFFFFFFFE) + 1 →
        ∃ k, s.draws ≤ k ∧ byteAt m b = Config.freeByte k) ∧
      ∀ b, (∀ x y a, drawnSet i s x y → a ∈ s.blk.surf.pixelBytes x y →
        b ≠ a &&& 0xFFFFFFFE ∧ b ≠ (a &&& 0xFFFFFFFE) + 1) → byteAt m b = byteAt s.mem b) ∧
  ∀ s : State, Memory.wf s.mem = true → surfCheck s.blk.surf = .ok () → s.blk.surf.tiled = false → s.blk.surf.fmt = 1 →
    s.blk.surf.vram16 = false → ¬ badArguments .setpix s →
    let a := s.blk.surf.base + BitVec.ofNat 32 (s.blk.args.x0 + s.blk.args.y0 * s.blk.surf.stride)
    let even := a &&& 0xFFFFFFFE
    s.platform.serves a 1 .write = true → s.platform.byteWriteOk a = false →
    ∃ m, exec .setpix s = .next { s with blk := { s.blk with latch := none }, mem := m, draws := s.draws + 2 } ∧
      byteAt m even = Config.freeByte s.draws ∧ byteAt m (even + 1) = Config.freeByte (s.draws + 1) ∧
      ∀ c, c ≠ even → c ≠ even + 1 → byteAt m c = byteAt s.mem c

/-- R83, R165, R171: GETPIX of an in-bounds pixel leaves it in RESULT0, zero-extended: its bytes little-endian, or its
nibble, the low one for an even x; and nothing else changes. -/
def Obligations.GetpixReadsThePixel : Prop :=
  ∀ s : State, surfCheck s.blk.surf = .ok () → ¬ badArguments .getpix s →
    let sf := s.blk.surf
    let x := s.blk.args.x0
    let y := s.blk.args.y0
    let b (k : Nat) : Nat := (byteAt s.mem (sf.base + BitVec.ofNat 32 (sf.offset x y + k))).toNat
    s.platform.readsPixel sf x y = true →
    ∃ v, exec .getpix s = .next { s with blk := { s.blk with latch := none, result0 := v } } ∧
      v.toNat = match sf.fmt with
        | 0 => if x % 2 = 0 then b 0 % 16 else b 0 / 16
        | 1 => b 0
        | 2 => b 0 + 2 ^ 8 * b 1
        | 3 => b 0 + 2 ^ 8 * b 1 + 2 ^ 16 * b 2
        | _ => b 0 + 2 ^ 8 * b 1 + 2 ^ 16 * b 2 + 2 ^ 24 * b 3

/-- R82, R171, R222, R242: a read of GETPIX, DEC_NEXT, DEC_PEEK, GLYPH_LOOKUP's header or LAYOUT_NEXT's input that the
platform refuses, the reads before it being served, raises BusError with its address and changes nothing else, Dc.pos
included. An access that touches the register window is never admitted. R88: where the first access of GETPIX, SETPIX,
DEC_NEXT or DEC_PEEK is admitted and touches a region with read side effects, the model refuses the command (log 21). -/
def Obligations.RefusedReadsAreBusErrors : Prop :=
  (∀ (s : State) (a : Word), surfCheck s.blk.surf = .ok () → ¬ badArguments .getpix s →
    s.platform.firstRefused (s.blk.surf.getAccesses s.blk.args.x0 s.blk.args.y0) a →
    exec .getpix s = .next (s.faulted 6 a)) ∧
  (∀ (i : Instr) (s : State) (a : Word), i = .decNext ∨ i = .decPeek → s.platform.firstRefused s.codeAccesses a →
    exec i s = .next (s.faulted 6 a)) ∧
  (∀ (s : State) (a : Word), s.blk.lay.active = true → s.blk.lay.y.toInt < s.blk.lay.maxY.toInt →
    s.platform.firstRefused s.codeAccesses a → exec .layoutNext s = .next (s.faulted 6 a)) ∧
  (∀ (s : State) (i : Fin 8) (a : Word), s.firstSlot s.blk.args.value.toInt i → (s.blk.cs.get i).base.toNat % 2 = 0 →
    4 * (s.blk.args.value.toInt - (s.blk.cs.get i).min.toInt) + 4 ≤ (s.blk.cs.get i).len.toNat →
    s.platform.firstRefused (headerAccesses (s.blk.cs.get i) s.blk.args.value.toInt) a →
    exec .glyphLookup s = .next (s.faulted 6 a)) ∧
  (∀ (p : Platform) (a : Word) (n : Nat) (k : AccessKind),
    (∃ j < n, (a + BitVec.ofNat 32 j - p.blockBase).toNat < 0x200) → p.admits a n k = false) ∧
  ∀ (i : Instr) (s : State) (q : Access) (rest : List Access),
    (surfCheck s.blk.surf = .ok () ∧ ¬ badArguments i s ∧
      ((i = .getpix ∧ s.blk.surf.getAccesses s.blk.args.x0 s.blk.args.y0 = q :: rest) ∨
        (i = .setpix ∧ s.blk.surf.putAccesses s.blk.args.x0 s.blk.args.y0 = q :: rest))) ∨
      ((i = .decNext ∨ i = .decPeek) ∧ s.codeAccesses = q :: rest) →
    s.platform.admits q.addr q.bytes q.kind = true →
    (∃ r ∈ s.platform.readEffects, ∃ j < q.bytes, (q.addr + BitVec.ofNat 32 j - r.base).toNat < r.size) →
    exec i s = .refused .readSideEffects

/-! ## Rasterizer -/

/-- R190, R191, R192: FILL draws every pixel of the surface, so padding and tiles outside it keep their bytes; FILLRECT
draws the rectangle, and with h = 0 checks and draws nothing; RECTOUT draws a point, a vertical run, a horizontal run or
the border of the rectangle, by which of w and h are 0; and nothing else changes. -/
def Obligations.RectangleCommandsDrawTheirPixels : Prop :=
  ∀ (i : Instr) (s : State), i = .fill ∨ i = .fillrect ∨ i = .rectout → CanDraw s (drawnSet i s) →
    ¬ badArguments i s → DrawsExactly i s (drawnSet i s)

/-- R193 to R195: LINE draws the pixels of `OnLine` and nothing else: along the longer axis (y when both are equal), from
the endpoint that comes first on it, the pixel nearest to the line at each step, the smaller of two equally near. -/
def Obligations.LineDrawsTheNearestPixels : Prop :=
  ∀ s : State, CanDraw s (drawnSet .line s) → ¬ badArguments .line s → DrawsExactly .line s (drawnSet .line s)

/-- R196 (a), (b), (c), (e): the pixels LINE writes, in order: no pixel twice, max(|dx|, |dy|) + 1 of them, both
endpoints among them, all in the box the endpoints span. -/
def Obligations.LinePixelsAreDistinctAndInTheBox : Prop :=
  ∀ x0 y0 x1 y1 : Nat,
    (linePixels x0 y0 x1 y1).Nodup ∧
    (linePixels x0 y0 x1 y1).length = max (max x0 x1 - min x0 x1) (max y0 y1 - min y0 y1) + 1 ∧
    (x0, y0) ∈ linePixels x0 y0 x1 y1 ∧ (x1, y1) ∈ linePixels x0 y0 x1 y1 ∧
    ∀ p ∈ linePixels x0 y0 x1 y1, min x0 x1 ≤ p.1 ∧ p.1 ≤ max x0 x1 ∧ min y0 y1 ≤ p.2 ∧ p.2 ≤ max y0 y1

/-- R196 (d): LINE with its endpoints exchanged has the same outcome, faults and refusals included. -/
def Obligations.LineIsSymmetric : Prop :=
  ∀ s : State,
    let swap (s : State) : State :=
      { s with blk := { s.blk with args := { s.blk.args with p0 := s.blk.args.p1, p1 := s.blk.args.p0 } } }
    exec .line (swap s) =
      match exec .line s with
      | .next t => .next (swap t)
      | .fault f => .fault f
      | .refused r => .refused r

/-- R82, R300: HRUN, VRUN, FILL, FILLRECT, RECTOUT and LINE, with their checks passed and no region with read side effects
(log 21), raise BusError exactly when the platform refuses an access of a pixel that they draw, and FAULT_INFO is the
address of the first such access in the order of the pseudocode (log 15); when it refuses none they complete, and no
register changes. R90: when one of them ends in BusError, each byte it would have written holds a free value (the whole
unit of a read-modify-write, log 8), every other byte is unchanged, and no register changes but STATUS and FAULT_INFO.
SETPIX, of which R90 does not speak (log 7): an access that the platform refuses, those before it being
served, raises BusError with its address, the bytes of a 24-bit pixel written before it, where 8-bit writes are honoured,
hold the pixel's, and nothing else changes. -/
def Obligations.BusErrorFreesTheDrawnBytes : Prop :=
  (∀ (s : State) (before rest : List Access) (q : Access), Memory.wf s.mem = true → surfCheck s.blk.surf = .ok () →
    ¬ badArguments .setpix s →
    let sf := s.blk.surf
    let a := (sf.pixAddr s.blk.args.x0 s.blk.args.y0).1
    sf.putAccesses s.blk.args.x0 s.blk.args.y0 = before ++ q :: rest →
    (∀ c ∈ before, s.platform.serves c.addr c.bytes c.kind = true ∧
      (c.kind = .write → s.platform.byteWriteOk c.addr = true)) →
    s.platform.admits q.addr q.bytes q.kind = false →
    ∃ m, exec .setpix s = .next (State.faulted { s with mem := m } 6 q.addr) ∧
      (sf.fmt ≠ 3 → m = s.mem) ∧
      (sf.fmt = 3 → (∀ j < before.length, byteAt m (a + BitVec.ofNat 32 j) = s.blk.args.value.extractLsb' (8 * j) 8) ∧
        ∀ c, (∀ j < before.length, c ≠ a + BitVec.ofNat 32 j) → byteAt m c = byteAt s.mem c)) ∧
  (∀ (i : Instr) (s : State), i ∈ [.hrun, .vrun, .fill, .fillrect, .rectout, .line] → surfCheck s.blk.surf = .ok () →
    ¬ badArguments i s → s.platform.readEffects = [] →
    let admitted (x y : Nat) : Prop :=
      ∀ q ∈ s.blk.surf.putAccesses x y, s.platform.admits q.addr q.bytes q.kind = true
    ((∀ x y, drawnSet i s x y → admitted x y) → ∃ t, exec i s = .next t ∧ t.blk = { s.blk with latch := none }) ∧
    ((∃ x y, drawnSet i s x y ∧ ¬ admitted x y) →
      ∃ t x y a, exec i s = .next t ∧ t.blk = (s.faulted 6 a).blk ∧ drawnSet i s x y ∧
        s.platform.firstRefused (s.blk.surf.putAccesses x y) a ∧
        ∀ x' y', drawnSet i s x' y' → drawnBefore i s x' y' x y → admitted x' y')) ∧
  ∀ (i : Instr) (s t : State), i ∈ [.hrun, .vrun, .fill, .fillrect, .rectout, .line] → Memory.wf s.mem = true →
    s.blk.status.fault = false → exec i s = .next t → t.blk.status.fault = true → t.blk.status.code = 6 →
    t.blk = (s.faulted 6 t.blk.status.info).blk ∧
    (∀ a x y, drawnSet i s x y → a ∈ pixBytes s.platform s.blk.surf x y →
      ∃ k, s.draws ≤ k ∧ byteAt t.mem a = Config.freeByte k) ∧
    ∀ a, (∀ x y, drawnSet i s x y → a ∉ pixBytes s.platform s.blk.surf x y) → byteAt t.mem a = byteAt s.mem a

/-- R86, R89, R90: the frame of SETPIX, HRUN, VRUN, FILL, FILLRECT, RECTOUT and LINE on every surface and platform,
whether the command completes or faults: no register changes but STATUS and FAULT_INFO, and no byte outside those that
its pixels are written in (the whole unit of a read-modify-write, log 8). -/
def Obligations.DrawingStaysInItsBytes : Prop :=
  ∀ (i : Instr) (s t : State), i ∈ [.setpix, .hrun, .vrun, .fill, .fillrect, .rectout, .line] → exec i s = .next t →
    t = { s with blk := { s.blk with latch := none, status := t.blk.status }, mem := t.mem, draws := t.draws } ∧
    ∀ a, (∀ x y, drawnSet i s x y → a ∉ pixBytes s.platform s.blk.surf x y) → byteAt t.mem a = byteAt s.mem a

/-! ## Decoder -/

/-- R223: DEC_START latches TEXT_BASE and TEXT_LEN and puts the position at 0; nothing else changes. -/
def Obligations.DecStartLatchesTheText : Prop :=
  ∀ s : State, exec .decStart s = .next { s with blk :=
    { s.blk with latch := none, dec := { base := s.blk.text.base, len := s.blk.text.len, pos := 0 } } }

/-- R221, R222, R224: DEC_NEXT before the end leaves in RESULT0 the code point that the lead byte's class gives, of any
bytes whatever, and the position moves past it, but never past the end; at the end it leaves -1 and moves nothing. -/
def Obligations.DecNextReadsACodePoint : Prop :=
  ∀ s : State,
    (s.blk.dec.pos.toNat < s.blk.dec.len.toNat → s.servesNextCode →
      exec .decNext s = .next { s with blk :=
        { s.blk with latch := none, result0 := BitVec.ofNat 32 s.codeHere.1, dec := s.decoderAfter } } ∧
      s.codeHere.1 < 2 ^ 21 ∧ s.blk.dec.pos.toNat < s.decoderAfter.pos.toNat ∧
      s.decoderAfter.pos.toNat ≤ s.blk.dec.pos.toNat + 4 ∧ s.decoderAfter.pos.toNat ≤ s.blk.dec.len.toNat) ∧
    (s.blk.dec.pos.toNat = s.blk.dec.len.toNat →
      exec .decNext s = .next { s with blk := { s.blk with latch := none, result0 := 0xFFFFFFFF } })

/-- R225: DEC_PEEK leaves what DEC_NEXT would leave, but for the position, which it does not move; it completes where
DEC_NEXT does, and faults or is refused as DEC_NEXT is. -/
def Obligations.DecPeekAgreesWithDecNext : Prop :=
  (∀ s : State, exec .decPeek s =
    match exec .decNext s with
    | .next t => .next { t with blk := { t.blk with dec := s.blk.dec } }
    | .fault f => .fault f
    | .refused r => .refused r) ∧
  ∀ s : State, s.servesNextCode →
    ∃ v, exec .decPeek s = .next { s with blk := { s.blk with latch := none, result0 := v } } ∧
      ∃ d, exec .decNext s = .next { s with blk := { s.blk with latch := none, result0 := v, dec := d } }

/-- R221, R226: where the input holds the UTF-8 bytes of a code point below 2^21, DEC_NEXT leaves that code point in
RESULT0 and moves the position by exactly those bytes. -/
def Obligations.DecNextReadsUtf8 : Prop :=
  ∀ (s : State) (cp : Nat), cp < 2 ^ 21 → s.servesNextCode →
    s.blk.dec.pos.toNat + (utf8Bytes cp).length ≤ s.blk.dec.len.toNat →
    (∀ (k : Nat) (hk : k < (utf8Bytes cp).length),
      byteAt s.mem (s.blk.dec.base + BitVec.ofNat 32 (s.blk.dec.pos.toNat + k)) = (utf8Bytes cp)[k]) →
    exec .decNext s = .next { s with blk :=
      { s.blk with
        latch := none
        result0 := BitVec.ofNat 32 cp
        dec := { s.blk.dec with pos := s.blk.dec.pos + BitVec.ofNat 32 (utf8Bytes cp).length } } }

/-! ## Charset table -/

/-- R240, R260: GLYPH_LOOKUP of a code point that is negative or in no slot leaves 0 in both results; of one whose first
slot holds a sound glyph, the header and the flags; nothing else changes. R249: the alignment class in the flags is 0 to
3 for NORMAL, FW_LEFT, FW_RIGHT and FW_CENTER; it is NORMAL on U+0021..U+007E, and elsewhere that of the parameter's first
range that holds the code point, NORMAL outside all (log 16). -/
def Obligations.GlyphLookupFindsTheFirstSlot : Prop :=
  (AlignClass.normal.code.toNat = 0 ∧ AlignClass.fwLeft.code.toNat = 1 ∧ AlignClass.fwRight.code.toNat = 2 ∧
    AlignClass.fwCenter.code.toNat = 3) ∧
  (∀ (p : Platform) (cp : Word),
    (0x21 ≤ cp.toNat → cp.toNat ≤ 0x7E → p.alignClass cp = .normal) ∧
    (¬ (0x21 ≤ cp.toNat ∧ cp.toNat ≤ 0x7E) →
      (∀ before r rest, p.alignRanges = before ++ r :: rest → r.first.toNat ≤ cp.toNat → cp.toNat ≤ r.last.toNat →
        (∀ q ∈ before, ¬ (q.first.toNat ≤ cp.toNat ∧ cp.toNat ≤ q.last.toNat)) → p.alignClass cp = r.cls) ∧
      ((∀ q ∈ p.alignRanges, ¬ (q.first.toNat ≤ cp.toNat ∧ cp.toNat ≤ q.last.toNat)) → p.alignClass cp = .normal))) ∧
  ∀ s : State,
    let cp := s.blk.args.value.toInt
    ((cp < 0 ∨ ∀ i : Fin 8, ¬ SlotHolds (s.blk.cs.get i) cp) →
      exec .glyphLookup s = .next { s with blk := { s.blk with latch := none, result0 := 0, result1 := 0 } }) ∧
    ∀ (i : Fin 8) (h : Word), s.firstSlot cp i → SoundGlyph s i s.blk.args.value h →
      ∃ r1, exec .glyphLookup s = .next { s with blk := { s.blk with latch := none, result0 := h, result1 := r1 } } ∧
        r1.toNat = 1 + 2 * i.val + 16 * (s.platform.alignClass s.blk.args.value).code.toNat

/-- R242, R243, R244, R272, R303: GLYPH_LOOKUP and LAYOUT_NEXT of a code point whose first slot has an odd base raise
CharsetAlign with the slot; with an even base, CharsetRange with the code point when the header lies beyond the blob,
BusError with its address when the platform refuses a byte of the header, and CharsetRange when the row data lie beyond
the blob. Nothing else changes, L.* and GL_* included, but that LAYOUT_NEXT has moved Dc.pos past the code point. -/
def Obligations.UnsoundCharsetsFault : Prop :=
  ∀ (j : Instr) (s u : State) (cp : Nat) (i : Fin 8), s.firstSlot cp i →
    (j = .glyphLookup ∧ cp = s.blk.args.value.toNat ∧ u = s) ∨
      (j = .layoutNext ∧ AtCode s cp ∧ s.plainCode cp ∧ u = { s with blk := { s.blk with dec := s.decoderAfter } }) →
    let c := s.blk.cs.get i
    let offset := 4 * (cp - c.min.toInt)
    let a := c.base + BitVec.ofInt 32 offset
    let h := (readLE s.mem a 4).toNat
    (c.base.toNat % 2 = 1 → exec j s = .next (u.faulted 5 (BitVec.ofNat 32 i.val))) ∧
    (c.base.toNat % 2 = 0 → c.len.toNat < offset + 4 → exec j s = .next (u.faulted 4 (BitVec.ofNat 32 cp))) ∧
    (c.base.toNat % 2 = 0 → offset + 4 ≤ c.len.toNat →
      (∀ b, s.platform.firstRefused (headerAccesses c cp) b → exec j s = .next (u.faulted 6 b)) ∧
      ((∀ k < 4, s.platform.serves (a + BitVec.ofNat 32 k) 1 .read = true) →
        c.len.toNat < h / 65536 + h / 16 % 16 * (if 8 < h % 16 then 2 else 1) →
        exec j s = .next (u.faulted 4 (BitVec.ofNat 32 cp))))

/-! ## Layout -/

/-- R270: LAYOUT_START latches the text and the configuration, clears the record and the bounding box, and changes
nothing else; the start y is adjusted by the line and glyph heights. -/
def Obligations.LayoutStartLatchesTheConfiguration : Prop :=
  ∀ s : State, ∃ y : Word,
    y.toInt = s.blk.text.startY + s.blk.text.lineH.toNat - s.blk.text.glyphH.toNat ∧
    exec .layoutStart s = .next { s with blk :=
      { s.blk with
        latch := none
        dec := { base := s.blk.text.base, len := s.blk.text.len, pos := 0 }
        lay :=
          { x := BitVec.ofInt 32 s.blk.text.startX, y := y, xInit := BitVec.ofInt 32 s.blk.text.startX, yInit := y,
            maxX := BitVec.ofInt 32 s.blk.text.maxX, maxY := BitVec.ofInt 32 s.blk.text.maxY,
            spaceW := s.blk.text.spaceW, padW := s.blk.text.padW, lineH := s.blk.text.lineH,
            glyphH := s.blk.text.glyphH, fullCell := s.blk.text.fullCell, wrap := s.blk.text.wrap, bbMinX := 0,
            bbMinY := 0, bbMaxX := 0, bbMaxY := 0, bbValid := false, active := true, done := false }
        gl := { cp := 0, x := 0, y := 0, nextX := 0, info := 0, data := 0, hdr := 0 } } }

/-- R262, R272: LAYOUT_NEXT emits EOF and consumes no code point: without DONE when no layout is active, with DONE when
the cursor has reached the vertical clip or the input is at its end. -/
def Obligations.LayoutNextEnds : Prop :=
  ∀ s : State,
    let ended : Glyph :=
      { cp := 0xFFFFFFFF, x := s.blk.lay.x, y := s.blk.lay.y, nextX := s.blk.lay.x, info := 0x1000, data := 0, hdr := 0 }
    (s.blk.lay.active = false →
      exec .layoutNext s = .next { s with blk := { s.blk with latch := none, gl := ended } }) ∧
    (s.blk.lay.active = true →
      s.blk.lay.maxY.toInt ≤ s.blk.lay.y.toInt ∨ s.blk.dec.pos.toNat = s.blk.dec.len.toNat →
      exec .layoutNext s = .next { s with blk :=
        { s.blk with latch := none, gl := ended, lay := { s.blk.lay with done := true } } })

/-- R246, R247, R256, R262: LAYOUT_NEXT at a special code point: the cursor moves as the table says, the record is
unprintable, and nothing else changes but Dc.pos; a cursor outside the i32 range raises Overflow and leaves L.* and
GL_*. -/
def Obligations.SpecialCodePointsMoveTheCursor : Prop :=
  ∀ (s : State) (cp : Nat) (x y : Int), AtCode s cp → s.platform.wellFormed = true →
    let l := s.blk.lay
    ((cp = 0x20 ∧ x = l.x.toInt + l.spaceW.toNat ∧ y = l.y.toInt) ∨
      (cp = 0xA0 ∧ x = l.x.toInt + l.spaceW.toNat ∧ y = l.y.toInt) ∨
      (cp = 0x09 ∧ x % 16 = 0 ∧ l.x.toInt < x ∧ x ≤ l.x.toInt + 16 ∧ y = l.y.toInt) ∨
      (cp = 0x0A ∧ x = l.xInit.toInt ∧ y = l.y.toInt + l.lineH.toNat) ∨
      (cp = 0xAD ∧ x = l.x.toInt ∧ y = l.y.toInt) ∨
      (∃ k : Fin 6, cp = (s.platform.space6.get k).cp.toNat ∧ x = l.x.toInt + (s.platform.space6.get k).adv.toNat ∧
        y = l.y.toInt) ∨
      (cp = 0x3000 ∧ x = l.x.toInt + l.fullCell.toNat ∧ y = l.y.toInt)) →
    (IsInt32 x ∧ IsInt32 y →
      exec .layoutNext s = .next { s with blk :=
        { s.blk with
          latch := none
          dec := s.decoderAfter
          lay := { l with x := BitVec.ofInt 32 x, y := BitVec.ofInt 32 y }
          gl := { cp := BitVec.ofNat 32 cp, x := l.x, y := l.y, nextX := BitVec.ofInt 32 x, info := 0, data := 0,
                  hdr := 0 } } }) ∧
    (¬ (IsInt32 x ∧ IsInt32 y) →
      exec .layoutNext s = .next
        (State.faulted { s with blk := { s.blk with dec := s.decoderAfter } } 7 (BitVec.ofNat 32 cp)))

/-- R257, R262: LAYOUT_NEXT at a code point that is not special and in no slot: an unprintable record, and the cursor
stays. -/
def Obligations.UnknownCodePointsAreUnprintable : Prop :=
  ∀ (s : State) (cp : Nat), AtCode s cp → s.plainCode cp → (∀ i : Fin 8, ¬ SlotHolds (s.blk.cs.get i) cp) →
    exec .layoutNext s = .next { s with blk :=
      { s.blk with
        latch := none
        dec := s.decoderAfter
        gl := { cp := BitVec.ofNat 32 cp, x := s.blk.lay.x, y := s.blk.lay.y, nextX := s.blk.lay.x, info := 0,
                data := 0, hdr := 0 } } }

/-- R250 to R256, R262, R272: LAYOUT_NEXT at a code point with a sound glyph: placed at the cursor, or at the initial x
of the next line when it wraps, clipped, recorded and taken into the bounding box as `LaidOut` says; when a quantity of
R256 is no i32, Overflow, with L.* and GL_* as before. That the quantities of a first placement which a wrap throws away
are not checked is the model's reading of R272 (log 14). -/
def Obligations.DrawableGlyphsAreLaidOut : Prop :=
  ∀ (s : State) (cp : Nat) (i : Fin 8) (h : Word), AtCode s cp → s.plainCode cp → s.firstSlot cp i →
    SoundGlyph s i (BitVec.ofNat 32 cp) h →
    let l := s.blk.lay
    let cls := s.platform.alignClass (BitVec.ofNat 32 cp)
    let outcome (cx cy : Int) : Prop :=
      (GlyphFits l cls h cx cy → ∃ t, exec .layoutNext s = .next t ∧ LaidOut s t cp i h cx cy) ∧
      (¬ GlyphFits l cls h cx cy → exec .layoutNext s = .next
        (State.faulted { s with blk := { s.blk with dec := s.decoderAfter } } 7 (BitVec.ofNat 32 cp)))
    (¬ s.wrapsAt cls h → outcome l.x.toInt l.y.toInt) ∧
    (s.wrapsAt cls h → outcome l.xInit.toInt (l.y.toInt + l.lineH.toNat))

/-- R276 (a), (b), (c): over LAYOUT_NEXT, LAYOUT_EXHAUST and RENDER_TEXT, from a state that meets the invariant, the
bounding box never shrinks, L.y never decreases, Dc.pos never moves back or past the end; and a LAYOUT_NEXT that neither
ends nor faults consumes at least one byte. -/
def Obligations.LayoutOnlyGoesForward : Prop :=
  ∀ (i : Instr) (s t : State), s.Inv → s.blk.status.fault = false →
    i = .layoutNext ∨ i = .layoutExhaust ∨ i = .renderText → exec i s = .next t →
    BoxWithin s.blk.lay t.blk.lay ∧ s.blk.lay.y.toInt ≤ t.blk.lay.y.toInt ∧
    s.blk.dec.pos.toNat ≤ t.blk.dec.pos.toNat ∧ t.blk.dec.pos.toNat ≤ t.blk.dec.len.toNat ∧
    (i = .layoutNext → t.blk.status.fault = false → ¬ t.atEnd → s.blk.dec.pos.toNat < t.blk.dec.pos.toNat)

/-- R274: LAYOUT_EXHAUST is LAYOUT_NEXT repeated until it emits EOF or does not go on, from a state that meets the
invariant: it ends as the first LAYOUT_NEXT when that ends the layout, faults or is refused, and else as LAYOUT_EXHAUST
does on the state after it. -/
def Obligations.LayoutExhaustRepeatsLayoutNext : Prop :=
  ∀ s : State, s.Inv → s.blk.status.fault = false →
    (∀ r, exec .layoutNext s = .refused r → exec .layoutExhaust s = .refused r) ∧
    ∀ t, exec .layoutNext s = .next t →
      (t.blk.status.fault = true ∨ t.atEnd → exec .layoutExhaust s = .next t) ∧
      (t.blk.status.fault = false → ¬ t.atEnd →
        exec .layoutExhaust s = exec .layoutExhaust (t.relatched s.blk.latch))

/-- R274: LAYOUT_EXHAUST comes to EOF, without a fault, on text that the platform serves, with sound charsets and a
cursor far from the ends of the i32 range: the record is the EOF record at the cursor, and DONE = 1 when a layout is
active. -/
def Obligations.LayoutExhaustComesToEof : Prop :=
  ∀ s : State, s.Inv → s.servesText → s.soundCharsets → s.farFromOverflow →
    ∃ t, exec .layoutExhaust s = .next t ∧ t.blk.status = s.blk.status ∧ t.mem = s.mem ∧
      t.blk.gl = { cp := 0xFFFFFFFF, x := t.blk.lay.x, y := t.blk.lay.y, nextX := t.blk.lay.x, info := 0x1000,
                   data := 0, hdr := 0 } ∧
      (s.blk.lay.active = true → t.blk.lay.done = true) ∧
      (s.blk.lay.active = false → t.blk.lay = s.blk.lay)

/-! ## Renderer -/

/-- R290, R292 (b): RENDER_GLYPH of an EOF or unprintable record, on a legal surface, draws nothing and reads no memory;
of a drawable record it draws the set bits of its clipped rows and columns, each at the record's place plus the bit's
column and row, and nothing else. -/
def Obligations.RenderGlyphDrawsTheSetBits : Prop :=
  ∀ s : State,
    (surfCheck s.blk.surf = .ok () → s.blk.gl.eof = true ∨ s.blk.gl.hasData = false →
      exec .renderGlyph s = .next { s with blk := { s.blk with latch := none } }) ∧
    (s.blk.gl.eof = false → s.blk.gl.hasData = true → CanRender s →
      DrawsExactly .renderGlyph s fun a b => GlyphPixel s.blk.gl s.mem a b)

/-- R290, R292 (a), R300: whatever ends RENDER_GLYPH, it changes no register but STATUS and FAULT_INFO and no byte
outside those that the in-bounds pixels of the record's clipped box are written in (the whole unit of a
read-modify-write, log 8); and OutOfBounds carries a pixel of that box that lies outside the surface. R90, R303: it stops
exactly at the first thing that fails, with the pixels before it drawn and nothing else: a row byte that the platform
refuses (BusError), a set bit outside the surface (OutOfBounds), an access of a pixel that the platform refuses
(BusError); of a 24-bit pixel the bytes written before the refused one, where 8-bit writes are honoured, hold the
pixel's. -/
def Obligations.RenderGlyphStaysInTheBox : Prop :=
  (∀ (s : State) (r c : Nat), s.blk.gl.eof = false → s.blk.gl.hasData = true → r < s.blk.gl.sizeY →
    let g := s.blk.gl
    let x : Int := g.x.toInt + c
    let y : Int := g.y.toInt + r
    (∀ k < g.rowBytes, CanRenderBefore s r 0 k →
      let a := g.data + BitVec.ofNat 32 (r * g.rowBytes + k)
      s.platform.admits a 1 .read = false → RenderStopsAt s r 0 6 a) ∧
    (c < g.sizeX → g.bitAt s.mem r c = true → CanRenderBefore s r c g.rowBytes →
      (s.blk.surf.inBounds x y = false → RenderStopsAt s r c 3 (BitVec.ofInt 16 y ++ BitVec.ofInt 16 x)) ∧
      (s.blk.surf.inBounds x y = true → ∀ (before rest : List Access) (q : Access),
        s.blk.surf.putAccesses x.toNat y.toNat = before ++ q :: rest →
        (∀ e ∈ before, s.platform.serves e.addr e.bytes e.kind = true ∧
          (e.kind = .write → s.platform.byteWriteOk e.addr = true)) →
        s.platform.admits q.addr q.bytes q.kind = false →
        RenderStopsInPixel s r c (s.blk.surf.pixAddr x.toNat y.toNat).1 (before.filter fun e => e.kind = .write).length
          q.addr))) ∧
  ∀ s t : State, s.blk.status.fault = false → exec .renderGlyph s = .next t →
    t.blk = { s.blk with latch := none, status := t.blk.status } ∧
    (∀ a, (∀ x y : Nat, s.blk.surf.Inside x y →
        s.blk.gl.x.toInt ≤ x → (x : Int) < s.blk.gl.x.toInt + s.blk.gl.sizeX →
        s.blk.gl.y.toInt ≤ y → (y : Int) < s.blk.gl.y.toInt + s.blk.gl.sizeY →
        a ∉ pixBytes s.platform s.blk.surf x y) → byteAt t.mem a = byteAt s.mem a) ∧
    (t.blk.status.fault = true → t.blk.status.code = 3 → ∃ r c : Nat, r < s.blk.gl.sizeY ∧ c < s.blk.gl.sizeX ∧
      s.blk.surf.inBounds (s.blk.gl.x.toInt + c) (s.blk.gl.y.toInt + r) = false ∧
      t.blk.status.info = BitVec.ofInt 16 (s.blk.gl.y.toInt + r) ++ BitVec.ofInt 16 (s.blk.gl.x.toInt + c))

/-- R291: RENDER_TEXT on a legal surface is LAYOUT_NEXT repeated until EOF, with RENDER_GLYPH after each step that
leaves a drawable record, from a state that meets the invariant; the first step or render that faults or is refused ends
it. -/
def Obligations.RenderTextRepeatsLayoutAndRender : Prop :=
  ∀ s : State, s.Inv → s.blk.status.fault = false → surfCheck s.blk.surf = .ok () →
    (∀ r, exec .layoutNext s = .refused r → exec .renderText s = .refused r) ∧
    ∀ t, exec .layoutNext s = .next t →
      (t.blk.status.fault = true ∨ t.atEnd → exec .renderText s = .next t) ∧
      (t.blk.status.fault = false → ¬ t.atEnd → t.blk.gl.hasData = false →
        exec .renderText s = exec .renderText (t.relatched s.blk.latch)) ∧
      (t.blk.status.fault = false → ¬ t.atEnd → t.blk.gl.hasData = true →
        (∀ r, exec .renderGlyph t = .refused r → exec .renderText s = .refused r) ∧
        ∀ u, exec .renderGlyph t = .next u →
          (u.blk.status.fault = true → exec .renderText s = .next u) ∧
          (u.blk.status.fault = false → exec .renderText s = exec .renderText (u.relatched s.blk.latch)))

/-- R291: RENDER_TEXT comes to EOF, without a fault, under `CanRenderText`: the record is the EOF record at the cursor,
DONE = 1 when a layout is active, and no byte changes outside those that the surface's pixels are written in (the whole
unit of a read-modify-write, log 8). -/
def Obligations.RenderTextComesToEof : Prop :=
  ∀ s : State, s.Inv → CanRenderText s →
    ∃ t, exec .renderText s = .next t ∧ t.blk.status = s.blk.status ∧
      t.blk.gl = { cp := 0xFFFFFFFF, x := t.blk.lay.x, y := t.blk.lay.y, nextX := t.blk.lay.x, info := 0x1000,
                   data := 0, hdr := 0 } ∧
      (s.blk.lay.active = true → t.blk.lay.done = true) ∧
      t.blk.surf = s.blk.surf ∧ t.blk.args = s.blk.args ∧
      ∀ a, (∀ x y, s.blk.surf.Inside x y → a ∉ pixBytes s.platform s.blk.surf x y) → byteAt t.mem a = byteAt s.mem a
end

