-- ==== Sys2Proof/Laws/State.lean ====
section
/-! SUPPORT. One lemma per field for each update of the state, each true by definition. -/

namespace Sys2Proof.Machine

@[simp] theorem complete_blk (s : State) : (complete s).blk = { s.blk with latch := none } := rfl
@[simp] theorem complete_mem (s : State) : (complete s).mem = s.mem := rfl
@[simp] theorem complete_platform (s : State) : (complete s).platform = s.platform := rfl
@[simp] theorem complete_draws (s : State) : (complete s).draws = s.draws := rfl
@[simp] theorem complete_host (s : State) : (complete s).host = s.host := rfl
@[simp] theorem complete_schedule (s : State) : (complete s).schedule = s.schedule := rfl
@[simp] theorem complete_seen (s : State) : (complete s).seen = s.seen := rfl
@[simp] theorem complete_settled (s : State) : (complete s).settled = s.settled := rfl
@[simp] theorem complete_pending (s : State) : (complete s).pending = s.pending := rfl

@[simp] theorem raiseFault_blk (c : Cause) (s : State) : (raiseFault c s).blk = { s.blk with latch := none, status := { fault := true, code := c.code, info := c.info } } := rfl
@[simp] theorem raiseFault_mem (c : Cause) (s : State) : (raiseFault c s).mem = s.mem := rfl
@[simp] theorem raiseFault_platform (c : Cause) (s : State) : (raiseFault c s).platform = s.platform := rfl
@[simp] theorem raiseFault_draws (c : Cause) (s : State) : (raiseFault c s).draws = s.draws := rfl
@[simp] theorem raiseFault_host (c : Cause) (s : State) : (raiseFault c s).host = s.host := rfl
@[simp] theorem raiseFault_schedule (c : Cause) (s : State) : (raiseFault c s).schedule = s.schedule := rfl
@[simp] theorem raiseFault_seen (c : Cause) (s : State) : (raiseFault c s).seen = s.seen := rfl
@[simp] theorem raiseFault_settled (c : Cause) (s : State) : (raiseFault c s).settled = s.settled := rfl
@[simp] theorem raiseFault_pending (c : Cause) (s : State) : (raiseFault c s).pending = s.pending := rfl

@[simp] theorem setResult0_blk (v : Word) (s : State) : (setResult0 v s).blk = { s.blk with result0 := v } := rfl
@[simp] theorem setResult0_mem (v : Word) (s : State) : (setResult0 v s).mem = s.mem := rfl
@[simp] theorem setResult0_platform (v : Word) (s : State) : (setResult0 v s).platform = s.platform := rfl
@[simp] theorem setResult0_draws (v : Word) (s : State) : (setResult0 v s).draws = s.draws := rfl
@[simp] theorem setResult0_host (v : Word) (s : State) : (setResult0 v s).host = s.host := rfl
@[simp] theorem setResult0_schedule (v : Word) (s : State) : (setResult0 v s).schedule = s.schedule := rfl
@[simp] theorem setResult0_seen (v : Word) (s : State) : (setResult0 v s).seen = s.seen := rfl
@[simp] theorem setResult0_settled (v : Word) (s : State) : (setResult0 v s).settled = s.settled := rfl
@[simp] theorem setResult0_pending (v : Word) (s : State) : (setResult0 v s).pending = s.pending := rfl

@[simp] theorem setResult1_blk (v : Word) (s : State) : (setResult1 v s).blk = { s.blk with result1 := v } := rfl
@[simp] theorem setResult1_mem (v : Word) (s : State) : (setResult1 v s).mem = s.mem := rfl
@[simp] theorem setResult1_platform (v : Word) (s : State) : (setResult1 v s).platform = s.platform := rfl
@[simp] theorem setResult1_draws (v : Word) (s : State) : (setResult1 v s).draws = s.draws := rfl
@[simp] theorem setResult1_host (v : Word) (s : State) : (setResult1 v s).host = s.host := rfl
@[simp] theorem setResult1_schedule (v : Word) (s : State) : (setResult1 v s).schedule = s.schedule := rfl
@[simp] theorem setResult1_seen (v : Word) (s : State) : (setResult1 v s).seen = s.seen := rfl
@[simp] theorem setResult1_settled (v : Word) (s : State) : (setResult1 v s).settled = s.settled := rfl
@[simp] theorem setResult1_pending (v : Word) (s : State) : (setResult1 v s).pending = s.pending := rfl

@[simp] theorem setDecoder_blk (d : Decoder) (s : State) : (setDecoder d s).blk = { s.blk with dec := d } := rfl
@[simp] theorem setDecoder_mem (d : Decoder) (s : State) : (setDecoder d s).mem = s.mem := rfl
@[simp] theorem setDecoder_platform (d : Decoder) (s : State) : (setDecoder d s).platform = s.platform := rfl
@[simp] theorem setDecoder_draws (d : Decoder) (s : State) : (setDecoder d s).draws = s.draws := rfl
@[simp] theorem setDecoder_host (d : Decoder) (s : State) : (setDecoder d s).host = s.host := rfl
@[simp] theorem setDecoder_schedule (d : Decoder) (s : State) : (setDecoder d s).schedule = s.schedule := rfl
@[simp] theorem setDecoder_seen (d : Decoder) (s : State) : (setDecoder d s).seen = s.seen := rfl
@[simp] theorem setDecoder_settled (d : Decoder) (s : State) : (setDecoder d s).settled = s.settled := rfl
@[simp] theorem setDecoder_pending (d : Decoder) (s : State) : (setDecoder d s).pending = s.pending := rfl

@[simp] theorem setLayout_blk (l : Layout) (s : State) : (setLayout l s).blk = { s.blk with lay := l } := rfl
@[simp] theorem setLayout_mem (l : Layout) (s : State) : (setLayout l s).mem = s.mem := rfl
@[simp] theorem setLayout_platform (l : Layout) (s : State) : (setLayout l s).platform = s.platform := rfl
@[simp] theorem setLayout_draws (l : Layout) (s : State) : (setLayout l s).draws = s.draws := rfl
@[simp] theorem setLayout_host (l : Layout) (s : State) : (setLayout l s).host = s.host := rfl
@[simp] theorem setLayout_schedule (l : Layout) (s : State) : (setLayout l s).schedule = s.schedule := rfl
@[simp] theorem setLayout_seen (l : Layout) (s : State) : (setLayout l s).seen = s.seen := rfl
@[simp] theorem setLayout_settled (l : Layout) (s : State) : (setLayout l s).settled = s.settled := rfl
@[simp] theorem setLayout_pending (l : Layout) (s : State) : (setLayout l s).pending = s.pending := rfl

@[simp] theorem setGlyph_blk (g : Glyph) (s : State) : (setGlyph g s).blk = { s.blk with gl := g } := rfl
@[simp] theorem setGlyph_mem (g : Glyph) (s : State) : (setGlyph g s).mem = s.mem := rfl
@[simp] theorem setGlyph_platform (g : Glyph) (s : State) : (setGlyph g s).platform = s.platform := rfl
@[simp] theorem setGlyph_draws (g : Glyph) (s : State) : (setGlyph g s).draws = s.draws := rfl
@[simp] theorem setGlyph_host (g : Glyph) (s : State) : (setGlyph g s).host = s.host := rfl
@[simp] theorem setGlyph_schedule (g : Glyph) (s : State) : (setGlyph g s).schedule = s.schedule := rfl
@[simp] theorem setGlyph_seen (g : Glyph) (s : State) : (setGlyph g s).seen = s.seen := rfl
@[simp] theorem setGlyph_settled (g : Glyph) (s : State) : (setGlyph g s).settled = s.settled := rfl
@[simp] theorem setGlyph_pending (g : Glyph) (s : State) : (setGlyph g s).pending = s.pending := rfl

@[simp] theorem resetBlock_blk (s : State) : (resetBlock s).blk = Block.reset := rfl
@[simp] theorem resetBlock_mem (s : State) : (resetBlock s).mem = s.mem := rfl
@[simp] theorem resetBlock_platform (s : State) : (resetBlock s).platform = s.platform := rfl
@[simp] theorem resetBlock_draws (s : State) : (resetBlock s).draws = s.draws := rfl
@[simp] theorem resetBlock_host (s : State) : (resetBlock s).host = s.host := rfl
@[simp] theorem resetBlock_schedule (s : State) : (resetBlock s).schedule = s.schedule := rfl
@[simp] theorem resetBlock_seen (s : State) : (resetBlock s).seen = s.seen := rfl
@[simp] theorem resetBlock_settled (s : State) : (resetBlock s).settled = s.settled := rfl
@[simp] theorem resetBlock_pending (s : State) : (resetBlock s).pending = { s.pending with registers := false } := rfl

@[simp] theorem remember_seen (o : HostSeen) (s : State) : (remember o s).seen = o :: s.seen := rfl
@[simp] theorem remember_settled (o : HostSeen) (s : State) : (remember o s).settled = s.settled := rfl
@[simp] theorem remember_pending (o : HostSeen) (s : State) : (remember o s).pending = s.pending := rfl
@[simp] theorem remember_blk (o : HostSeen) (s : State) : (remember o s).blk = s.blk := rfl
@[simp] theorem remember_mem (o : HostSeen) (s : State) : (remember o s).mem = s.mem := rfl
@[simp] theorem remember_platform (o : HostSeen) (s : State) : (remember o s).platform = s.platform := rfl
@[simp] theorem remember_draws (o : HostSeen) (s : State) : (remember o s).draws = s.draws := rfl
@[simp] theorem remember_host (o : HostSeen) (s : State) : (remember o s).host = s.host := rfl
@[simp] theorem remember_schedule (o : HostSeen) (s : State) : (remember o s).schedule = s.schedule := rfl

@[simp] theorem nextTurn_schedule (s : State) : s.nextTurn.schedule = s.schedule.tail := rfl
@[simp] theorem nextTurn_blk (s : State) : s.nextTurn.blk = s.blk := rfl
@[simp] theorem nextTurn_mem (s : State) : s.nextTurn.mem = s.mem := rfl
@[simp] theorem nextTurn_platform (s : State) : s.nextTurn.platform = s.platform := rfl
@[simp] theorem nextTurn_draws (s : State) : s.nextTurn.draws = s.draws := rfl
@[simp] theorem nextTurn_host (s : State) : s.nextTurn.host = s.host := rfl
@[simp] theorem nextTurn_seen (s : State) : s.nextTurn.seen = s.seen := rfl
@[simp] theorem nextTurn_settled (s : State) : s.nextTurn.settled = s.settled := rfl
@[simp] theorem nextTurn_pending (s : State) : s.nextTurn.pending = s.pending := rfl

@[simp] theorem drawn_wrote (w : Work) (c : Canvas) : (w.drawn c).wrote = c.wrote := rfl
@[simp] theorem drawn_mem (w : Work) (c : Canvas) : (w.drawn c).st.mem = c.mem := rfl
@[simp] theorem drawn_draws (w : Work) (c : Canvas) : (w.drawn c).st.draws = c.draws := rfl
@[simp] theorem drawn_blk (w : Work) (c : Canvas) : (w.drawn c).st.blk = w.st.blk := rfl
@[simp] theorem drawn_platform (w : Work) (c : Canvas) : (w.drawn c).st.platform = w.st.platform := rfl
@[simp] theorem drawn_host (w : Work) (c : Canvas) : (w.drawn c).st.host = w.st.host := rfl
@[simp] theorem drawn_schedule (w : Work) (c : Canvas) : (w.drawn c).st.schedule = w.st.schedule := rfl
@[simp] theorem drawn_seen (w : Work) (c : Canvas) : (w.drawn c).st.seen = w.st.seen := rfl
@[simp] theorem drawn_settled (w : Work) (c : Canvas) : (w.drawn c).st.settled = w.st.settled := rfl
@[simp] theorem drawn_pending (w : Work) (c : Canvas) : (w.drawn c).st.pending = w.st.pending := rfl

@[simp] theorem canvas_mem (w : Work) : w.canvas.mem = w.st.mem := rfl
@[simp] theorem canvas_draws (w : Work) : w.canvas.draws = w.st.draws := rfl
@[simp] theorem canvas_wrote (w : Work) : w.canvas.wrote = w.wrote := rfl

/-- A command without memory writes leaves its canvas as it was. -/
@[simp] theorem drawn_canvas (w : Work) : w.drawn w.canvas = w := rfl

@[simp] theorem plain_blk (s : State) : s.plain.blk = s.blk := rfl
@[simp] theorem plain_mem (s : State) : s.plain.mem = s.mem := rfl
@[simp] theorem plain_draws (s : State) : s.plain.draws = s.draws := rfl
@[simp] theorem watching_blk (s : State) (a : Word) : (s.watching a).blk = s.blk := rfl
@[simp] theorem watching_mem (s : State) (a : Word) : (s.watching a).mem = s.mem := rfl
@[simp] theorem watching_draws (s : State) (a : Word) : (s.watching a).draws = s.draws := rfl

@[simp] theorem storeMemory_blk (a : Word) (l : List Byte) (s : State) : (storeMemory a l s).blk = s.blk := rfl
@[simp] theorem storeMemory_mem (a : Word) (l : List Byte) (s : State) : (storeMemory a l s).mem = storeBytes s.mem a l := rfl
@[simp] theorem storeMemory_platform (a : Word) (l : List Byte) (s : State) : (storeMemory a l s).platform = s.platform := rfl
@[simp] theorem storeMemory_draws (a : Word) (l : List Byte) (s : State) : (storeMemory a l s).draws = s.draws := rfl
@[simp] theorem storeMemory_host (a : Word) (l : List Byte) (s : State) : (storeMemory a l s).host = s.host := rfl
@[simp] theorem storeMemory_schedule (a : Word) (l : List Byte) (s : State) : (storeMemory a l s).schedule = s.schedule := rfl
@[simp] theorem storeMemory_seen (a : Word) (l : List Byte) (s : State) : (storeMemory a l s).seen = s.seen := rfl
@[simp] theorem storeMemory_settled (a : Word) (l : List Byte) (s : State) : (storeMemory a l s).settled = s.settled := rfl
@[simp] theorem storeMemory_pending (a : Word) (l : List Byte) (s : State) :
    (storeMemory a l s).pending = s.pending.overwrite (accessBytes a l.length) := rfl
@[simp] theorem overwrite_registers (p : Pending) (l : List Word) : (p.overwrite l).registers = p.registers := rfl
@[simp] theorem none_overwrite (l : List Word) : Pending.none.overwrite l = .none := rfl

end Sys2Proof.Machine
end

