-- ==== Sys2Proof/Laws/Engine.lean ====
section
/-! SUPPORT. How the computations of commands run: what each shared operation answers, and what ends a command. -/

namespace Sys2Proof.Machine

section Run
variable {ε σ α β : Type}

@[simp] theorem run_pure (a : α) (s : σ) : (pure a : EStateM ε σ α) s = .ok a s := rfl

theorem run_bind (x : EStateM ε σ α) (f : α → EStateM ε σ β) (s : σ) :
    (x >>= f) s = match x s with
      | .ok a t => f a t
      | .error e t => .error e t := rfl

/-- A computation that goes on hands its answer to the rest. -/
theorem run_bind_ok {x : EStateM ε σ α} {f : α → EStateM ε σ β} {s t : σ} {a : α} (h : x s = .ok a t) :
    (x >>= f) s = f a t := by rw [run_bind, h]

/-- A computation that stops ends the whole. -/
theorem run_bind_error {x : EStateM ε σ α} {f : α → EStateM ε σ β} {s t : σ} {e : ε} (h : x s = .error e t) :
    (x >>= f) s = .error e t := by rw [run_bind, h]

/-- What comes to its end came through both parts. -/
theorem bind_ok_iff {x : EStateM ε σ α} {f : α → EStateM ε σ β} {s u : σ} {b : β} :
    (x >>= f) s = .ok b u ↔ ∃ a t, x s = .ok a t ∧ f a t = .ok b u := by
  rw [run_bind]
  cases h : x s <;> simp

/-- What stops has stopped in one of its parts. -/
theorem bind_error_iff {x : EStateM ε σ α} {f : α → EStateM ε σ β} {s u : σ} {e : ε} :
    (x >>= f) s = .error e u ↔ x s = .error e u ∨ ∃ a t, x s = .ok a t ∧ f a t = .error e u := by
  rw [run_bind]
  cases h : x s <;> simp

end Run

section Ops
variable {α : Type}

@[simp] theorem run_theState (w : Work) : theState w = .ok w.st w := rfl
@[simp] theorem run_update (f : State → State) (w : Work) : update f w = .ok () { w with st := f w.st } := rfl
@[simp] theorem run_check_ok (a : α) (w : Work) : check (.ok a) w = .ok a w := rfl
@[simp] theorem run_check_error (r : Stop) (w : Work) : check (α := α) (.error r) w = .error r w := rfl

theorem run_draw (d : Draw α) (w : Work) :
    draw d w = match d w.canvas with
      | .ok a c => .ok a (w.drawn c)
      | .error e c => .error e (w.drawn c) := rfl

/-- A check or a read never changes anything. -/
theorem check_ok_iff {e : Except Stop α} {w u : Work} {a : α} : check e w = .ok a u ↔ e = .ok a ∧ u = w := by
  cases e <;> simp [check, eq_comm]

theorem check_error_iff {e : Except Stop α} {w u : Work} {r : Stop} :
    check e w = .error r u ↔ e = .error r ∧ u = w := by
  cases e <;> simp [check, eq_comm]

theorem draw_ok_iff {d : Draw α} {w u : Work} {a : α} :
    draw d w = .ok a u ↔ ∃ c, d w.canvas = .ok a c ∧ u = w.drawn c := by
  rw [run_draw]
  cases h : d w.canvas <;> simp [eq_comm]

theorem draw_error_iff {d : Draw α} {w u : Work} {e : Stop} :
    draw d w = .error e u ↔ ∃ c, d w.canvas = .error e c ∧ u = w.drawn c := by
  rw [run_draw]
  cases h : d w.canvas <;> simp [eq_comm]

theorem update_ok_iff {f : State → State} {w u : Work} :
    update f w = .ok () u ↔ u = { w with st := f w.st } := by
  rw [run_update]; simp [eq_comm]

end Ops

/-! ### How a command ends -/

theorem finish_ok {e : Engine Unit} {s : State} {w : Work} (h : e { st := s, wrote := [] } = .ok () w) :
    finish e s = .next (complete w.st) := by rw [finish, h]

theorem finish_raise {e : Engine Unit} {s : State} {w : Work} {c : Cause}
    (h : e { st := s, wrote := [] } = .error (.raise c) w) : finish e s = .next (raiseFault c w.st) := by
  rw [finish, h]

theorem finish_refuse {e : Engine Unit} {s : State} {w : Work} {r : Refusal}
    (h : e { st := s, wrote := [] } = .error (.refuse r) w) : finish e s = .refused r := by rw [finish, h]

/-- A command answers a next state in two ways: it came to its end, or it raised a fault. -/
theorem finish_next_iff {e : Engine Unit} {s t : State} :
    finish e s = .next t ↔
      (∃ w, e { st := s, wrote := [] } = .ok () w ∧ t = complete w.st) ∨
        ∃ c w, e { st := s, wrote := [] } = .error (.raise c) w ∧ t = raiseFault c w.st := by
  rw [finish]
  cases h : e { st := s, wrote := [] } with
  | ok a w => cases a; simp [eq_comm]
  | error r w => cases r <;> simp [eq_comm]

/-- A command never stops with a fault of the model. -/
theorem finish_ne_fault {e : Engine Unit} {s : State} {f : Fault} : finish e s ≠ .fault f := by
  rw [finish]
  cases h : e { st := s, wrote := [] } with
  | ok a w => simp
  | error r w => cases r <;> simp

/-! ### Loops -/

theorem forEach_nil {ε σ α : Type} (f : α → EStateM ε σ Unit) (s : σ) : forEach f [] s = .ok () s := rfl

theorem forEach_cons {ε σ α : Type} (f : α → EStateM ε σ Unit) (a : α) (rest : List α) (s : σ) :
    forEach f (a :: rest) s = match f a s with
      | .ok _ t => forEach f rest t
      | .error e t => .error e t := by
  rw [forEach, run_bind]
  cases f a s <;> rfl

/-- What every turn of a loop keeps, the loop keeps, also when it stops. -/
theorem forEach_keeps {ε σ α : Type} {P : σ → Prop} {f : α → EStateM ε σ Unit} :
    ∀ {l : List α}, (∀ a ∈ l, ∀ s, P s → match f a s with | .ok _ t => P t | .error _ t => P t) →
      ∀ s, P s → match forEach f l s with | .ok _ t => P t | .error _ t => P t := by
  intro l
  induction l with
  | nil => intro _ s hs; exact hs
  | cons a rest ih =>
    intro h s hs
    have ha := h a (by simp) s hs
    rw [forEach_cons]
    cases hf : f a s with
    | ok u t =>
      rw [hf] at ha
      exact ih (fun b hb => h b (by simp [hb])) t ha
    | error e t =>
      rw [hf] at ha
      exact ha

end Sys2Proof.Machine
end

