-- ==== Sys2Proof/Laws/Memory.lean ====
section
/-! SUPPORT. Bytes of memory: read after write, a write leaves every other byte alone, and every memory operation keeps
the canonical form. -/

namespace Sys2Proof.Machine

/-- A write leaves every other address alone, in any list. -/
theorem memGet_memSet_ne (m : Memory) {a c : Nat} (b : Byte) (h : c ≠ a) :
    memGet (memSet m a b) c = memGet m c := by
  induction m with
  | nil => by_cases hb : b = 0#8 <;> simp [memSet, memGet, hb, Ne.symm h]
  | cons head rest ih =>
    obtain ⟨k, v⟩ := head
    simp only [memSet]
    split
    · by_cases hb : b = 0#8 <;> simp [memGet, hb, Ne.symm h]
    · split
      · rename_i hk
        subst hk
        by_cases hb : b = 0#8 <;> simp [memGet, hb, Ne.symm h]
      · simp [memGet, ih]

/-- Below its first address a canonical memory lists nothing. -/
theorem memGet_below {m : Memory} : ∀ {lo a : Nat}, memWfFrom lo m = true → a < lo → memGet m a = 0#8 := by
  induction m with
  | nil => intros; rfl
  | cons head rest ih =>
    obtain ⟨k, v⟩ := head
    intro lo a hwf ha
    simp only [memWfFrom, Bool.and_eq_true, decide_eq_true_eq] at hwf
    have : k ≠ a := by omega
    simp only [memGet, this, if_false]
    exact ih hwf.2 (by omega)

/-- In a canonical memory a byte reads as it was written. -/
theorem memGet_memSet_self {m : Memory} :
    ∀ {lo a : Nat} (b : Byte), memWfFrom lo m = true → memGet (memSet m a b) a = b := by
  induction m with
  | nil => intro lo a b _; by_cases hb : b = 0#8 <;> simp [memSet, memGet, hb]
  | cons head rest ih =>
    obtain ⟨k, v⟩ := head
    intro lo a b hwf
    simp only [memWfFrom, Bool.and_eq_true, decide_eq_true_eq] at hwf
    simp only [memSet]
    split
    · rename_i hak
      by_cases hb : b = 0#8
      · have : k ≠ a := by omega
        simp [hb, memGet, this, memGet_below hwf.2 (show a < k + 1 by omega)]
      · simp [hb, memGet]
    · split
      · rename_i hak
        by_cases hb : b = 0#8
        · simp [hb, memGet_below hwf.2 (show a < k + 1 by omega)]
        · simp [hb, memGet]
      · rename_i h1 h2
        have : k ≠ a := fun e => h2 e.symm
        simp [memGet, this, ih b hwf.2]

/-- A weaker lower bound. -/
theorem memWfFrom_mono {m : Memory} {lo lo' : Nat} (h : lo' ≤ lo) (hwf : memWfFrom lo m = true) :
    memWfFrom lo' m = true := by
  cases m with
  | nil => rfl
  | cons head rest =>
    obtain ⟨k, v⟩ := head
    simp only [memWfFrom, Bool.and_eq_true, decide_eq_true_eq] at hwf ⊢
    exact ⟨⟨⟨by omega, hwf.1.1.2⟩, hwf.1.2⟩, hwf.2⟩

/-- A write of an address in range keeps the canonical form. -/
theorem memWfFrom_memSet {m : Memory} :
    ∀ {lo a : Nat} (b : Byte), memWfFrom lo m = true → lo ≤ a → a < 2 ^ 32 → memWfFrom lo (memSet m a b) = true := by
  induction m with
  | nil =>
    intro lo a b _ hlo ha
    by_cases hb : b = 0#8
    · simp [memSet, hb, memWfFrom]
    · simp only [memSet, hb, if_false, memWfFrom, Bool.and_eq_true, decide_eq_true_eq]
      exact ⟨⟨⟨hlo, ha⟩, hb⟩, trivial⟩
  | cons head rest ih =>
    obtain ⟨k, v⟩ := head
    intro lo a b hwf hlo ha
    have hwf' := hwf
    simp only [memWfFrom, Bool.and_eq_true, decide_eq_true_eq] at hwf
    simp only [memSet]
    split
    · by_cases hb : b = 0#8
      · simp only [hb, if_true]; exact hwf'
      · simp only [hb, if_false, memWfFrom, Bool.and_eq_true, decide_eq_true_eq]
        exact ⟨⟨⟨hlo, ha⟩, hb⟩, ⟨⟨⟨by omega, hwf.1.1.2⟩, hwf.1.2⟩, hwf.2⟩⟩
    · split
      · rename_i hak
        by_cases hb : b = 0#8
        · simp only [hb, if_true]
          exact memWfFrom_mono (by omega) hwf.2
        · simp only [hb, if_false, memWfFrom, Bool.and_eq_true, decide_eq_true_eq]
          exact ⟨⟨⟨hlo, ha⟩, hb⟩, by rw [hak]; exact hwf.2⟩
      · simp only [memWfFrom, Bool.and_eq_true, decide_eq_true_eq]
        exact ⟨⟨⟨hwf.1.1.1, hwf.1.1.2⟩, hwf.1.2⟩, ih b hwf.2 (by omega) ha⟩

/-- The byte at an address after the byte at an address was written. -/
theorem byteAt_setByte {m : Memory} (hm : Memory.wf m = true) (a c : Word) (b : Byte) :
    byteAt (setByte m a b) c = if c = a then b else byteAt m c := by
  by_cases h : c = a
  · subst h
    simp [byteAt, setByte, memGet_memSet_self (lo := 0) b hm]
  · have : c.toNat ≠ a.toNat := fun e => h (BitVec.eq_of_toNat_eq e)
    simp [byteAt, setByte, memGet_memSet_ne m b this, h]

theorem byteAt_setByte_ne (m : Memory) {a c : Word} (b : Byte) (h : c ≠ a) :
    byteAt (setByte m a b) c = byteAt m c :=
  memGet_memSet_ne m b fun e => h (BitVec.eq_of_toNat_eq e)

theorem setByte_wf {m : Memory} (hm : Memory.wf m = true) (a : Word) (b : Byte) :
    Memory.wf (setByte m a b) = true :=
  memWfFrom_memSet b hm (Nat.zero_le _) a.isLt

theorem writeLE_wf (n : Nat) : ∀ {m : Memory} (a v : Word), Memory.wf m = true → Memory.wf (writeLE m a n v) = true := by
  induction n with
  | zero => intro m a v hm; exact hm
  | succ n ih => intro m a v hm; exact ih _ _ (setByte_wf hm a _)

theorem storeBytes_wf (bs : List Byte) : ∀ {m : Memory} (a : Word), Memory.wf m = true →
    Memory.wf (storeBytes m a bs) = true := by
  induction bs with
  | nil => intro m a hm; exact hm
  | cons b rest ih => intro m a hm; exact ih _ (setByte_wf hm a b)

/-! ### The addresses of an access -/

@[simp] theorem accessBytes_zero (a : Word) : accessBytes a 0 = [] := rfl

theorem accessBytes_succ (a : Word) (n : Nat) : accessBytes a (n + 1) = a :: accessBytes (a + 1#32) n := by
  simp only [accessBytes, List.range_succ_eq_map, List.map_cons, List.map_map]
  congr 1
  · simp
  · apply List.map_congr_left
    intro k _
    simp only [Function.comp, Nat.succ_eq_add_one, BitVec.ofNat_add]
    rw [BitVec.add_assoc, BitVec.add_comm 1#32]

/-- A write leaves every byte outside its own alone. -/
theorem byteAt_writeLE_ne (n : Nat) : ∀ (m : Memory) (a v : Word) {c : Word}, c ∉ accessBytes a n →
    byteAt (writeLE m a n v) c = byteAt m c := by
  induction n with
  | zero => intro m a v c _; rfl
  | succ n ih =>
    intro m a v c hc
    rw [accessBytes_succ] at hc
    simp only [List.mem_cons, not_or] at hc
    rw [writeLE, ih _ _ _ hc.2, byteAt_setByte_ne _ _ hc.1]

theorem byteAt_storeBytes_ne (bs : List Byte) : ∀ (m : Memory) (a : Word) {c : Word}, c ∉ accessBytes a bs.length →
    byteAt (storeBytes m a bs) c = byteAt m c := by
  induction bs with
  | nil => intro m a c _; rfl
  | cons b rest ih =>
    intro m a c hc
    rw [List.length_cons, accessBytes_succ] at hc
    simp only [List.mem_cons, not_or] at hc
    rw [storeBytes, ih _ _ hc.2, byteAt_setByte_ne _ _ hc.1]

theorem mem_accessBytes {a c : Word} {n : Nat} : c ∈ accessBytes a n ↔ (c - a).toNat < n := by
  simp only [accessBytes, List.mem_map, List.mem_range]
  constructor
  · rintro ⟨k, hk, rfl⟩
    have : (a + BitVec.ofNat 32 k - a) = BitVec.ofNat 32 k := by
      rw [BitVec.add_comm, BitVec.add_sub_cancel]
    rw [this, BitVec.toNat_ofNat]
    exact lt_of_le_of_lt (Nat.mod_le _ _) hk
  · intro h
    refine ⟨(c - a).toNat, h, ?_⟩
    rw [BitVec.ofNat_toNat, BitVec.setWidth_eq, BitVec.add_comm, BitVec.sub_add_cancel]

/-- Reading depends only on the bytes read. -/
theorem readLE_congr (n : Nat) : ∀ {m m' : Memory} (a : Word), (∀ c ∈ accessBytes a n, byteAt m' c = byteAt m c) →
    readLE m' a n = readLE m a n := by
  induction n with
  | zero => intros; rfl
  | succ n ih =>
    intro m m' a h
    rw [accessBytes_succ] at h
    rw [readLE, readLE, h a (List.mem_cons_self ..), ih (a + 1#32) fun c hc => h c (List.mem_cons_of_mem _ hc)]

/-- An access of at most four bytes reads back what was written, cut to its width. -/
theorem readLE_writeLE {m : Memory} (hm : Memory.wf m = true) (a v : Word) {n : Nat} (hn : n ≤ 4) :
    readLE (writeLE m a n v) a n = v &&& BitVec.ofNat 32 (2 ^ (8 * n) - 1) := by
  have key : ∀ (k : Nat) (m : Memory) (a v : Word), k ≤ 4 → Memory.wf m = true →
      readLE (writeLE m a k v) a k = v &&& BitVec.ofNat 32 (2 ^ (8 * k) - 1) := by
    intro k
    induction k with
    | zero => intro m a v _ _; simp [readLE]
    | succ k ih =>
      intro m a v hk hm
      have hout : a ∉ accessBytes (a + 1#32) k := by
        rw [mem_accessBytes]
        have : (a - (a + 1#32)).toNat = 2 ^ 32 - 1 := by bv_omega
        omega
      rw [readLE, writeLE, byteAt_writeLE_ne _ _ _ _ hout, byteAt_setByte hm, if_pos rfl,
        ih _ _ _ (by omega) (setByte_wf hm a _)]
      apply BitVec.eq_of_getLsbD_eq
      intro i hi
      simp only [BitVec.getLsbD_or, BitVec.getLsbD_setWidth, BitVec.getLsbD_shiftLeft, BitVec.getLsbD_and,
        BitVec.getLsbD_ushiftRight, BitVec.getLsbD_ofNat, Nat.testBit_two_pow_sub_one]
      by_cases h8 : i < 8
      · simp [h8, hi, show i < 8 * (k + 1) by omega]
      · by_cases hk8 : i < 8 * (k + 1)
        · simp [h8, hi, hk8, show 8 + (i - 8) = i by omega, show i - 8 < 8 * k by omega, show i - 8 < 32 by omega]
        · simp [h8, hk8, show ¬ (i - 8 < 8 * k) by omega]
  exact key n m a v hn hm

end Sys2Proof.Machine
end

