-- ==== Sys2Proof/Laws/Access.lean ====
section
/-! SUPPORT. The engine's memory primitives: when an access takes place, what it reads, and what it writes. -/

namespace Sys2Proof.Machine

section Verdicts
variable {p : Platform} {m : Memory} {a : Word} {n : Nat} {k : AccessKind} {e : Stop}

/-- An access takes place exactly when the platform serves it. -/
theorem access_ok_iff : access p a n k = .ok () ↔ p.serves a n k = true := by
  unfold access Platform.serves
  cases p.admits a n k <;> cases p.touchesReadEffects a n <;> simp

/-- Any other access stops: with BusError and its address, or with the refusal of the model. -/
theorem access_error (h : access p a n k = .error e) :
    (p.admits a n k = false ∧ e = .raise (.busError a)) ∨
      (p.admits a n k = true ∧ p.touchesReadEffects a n = true ∧ e = .refuse .readSideEffects) := by
  unfold access at h
  cases h1 : p.admits a n k <;> cases h2 : p.touchesReadEffects a n <;> simp_all

theorem access_of_serves (h : p.serves a n k = true) : access p a n k = .ok () := access_ok_iff.2 h

theorem access_of_not_admitted (h : p.admits a n k = false) : access p a n k = .error (.raise (.busError a)) := by
  simp [access, h]

theorem memRead_ok_iff {v : Word} : memRead p m a n = .ok v ↔ p.serves a n .read = true ∧ v = readLE m a n := by
  unfold memRead
  cases h : access p a n .read with
  | ok u => simp [access_ok_iff.1 h, bind, Except.bind, pure, Except.pure, eq_comm]
  | error e =>
    have : p.serves a n .read = false := by
      rw [Bool.eq_false_iff]; intro hs; rw [access_of_serves hs] at h; cases h
    simp [this, bind, Except.bind]

theorem memRead_error_iff : memRead p m a n = .error e ↔ access p a n .read = .error e := by
  unfold memRead
  cases h : access p a n .read <;> simp [bind, Except.bind, pure, Except.pure]

theorem memRead_of_serves (h : p.serves a n .read = true) : memRead p m a n = .ok (readLE m a n) :=
  memRead_ok_iff.2 ⟨h, rfl⟩

/-- A read depends only on the bytes read. -/
theorem memRead_congr {m' : Memory} (h : ∀ c ∈ accessBytes a n, byteAt m' c = byteAt m c) :
    memRead p m' a n = memRead p m a n := by
  unfold memRead
  rw [readLE_congr n a h]

theorem drawRead_eq (c : Canvas) :
    drawRead p a n c = match memRead p c.mem a n with | .ok v => .ok v c | .error e => .error e c := rfl

end Verdicts

/-! ### What a write changes -/

/-- From `c` to `c'` no byte outside `bytes` changed, each byte that changed is noted as written, free values were only
taken, and memory kept its form. -/
structure Writes (bytes : List Word) (c c' : Canvas) : Prop where
  frame : ∀ a, a ∉ bytes → byteAt c'.mem a = byteAt c.mem a
  wf : Memory.wf c.mem = true → Memory.wf c'.mem = true
  draws : c.draws ≤ c'.draws
  wrote : ∀ a ∈ c'.wrote, a ∈ c.wrote ∨ a ∈ bytes
  notes : (∀ a ∈ c.wrote, a ∈ c'.wrote) ∧ ∀ a, a ∉ c'.wrote → byteAt c'.mem a = byteAt c.mem a

theorem Writes.refl (bytes : List Word) (c : Canvas) : Writes bytes c c :=
  ⟨fun _ _ => rfl, id, le_refl _, fun _ h => .inl h, fun _ h => h, fun _ _ => rfl⟩

theorem Writes.mono {bytes more : List Word} {c c' : Canvas} (h : Writes bytes c c') (hs : ∀ a ∈ bytes, a ∈ more) :
    Writes more c c' :=
  ⟨fun a ha => h.frame a fun hb => ha (hs a hb), h.wf, h.draws, fun a ha => (h.wrote a ha).imp_right (hs a),
    h.notes⟩

theorem Writes.trans {bytes : List Word} {c c' c'' : Canvas} (h : Writes bytes c c') (h' : Writes bytes c' c'') :
    Writes bytes c c'' :=
  ⟨fun a ha => (h'.frame a ha).trans (h.frame a ha), fun hm => h'.wf (h.wf hm), h.draws.trans h'.draws,
    fun a ha => (h'.wrote a ha).elim (h.wrote a) .inr, fun a ha => h'.notes.1 a (h.notes.1 a ha),
    fun a ha => (h'.notes.2 a ha).trans (h.notes.2 a fun hc => ha (h'.notes.1 a hc))⟩

/-- Freeing bytes changes no other. -/
theorem freeBytes_writes (bytes : List Word) : ∀ c : Canvas, Writes bytes c (freeBytes bytes c) := by
  induction bytes with
  | nil => intro c; exact Writes.refl _ c
  | cons a rest ih =>
    intro c
    let c' : Canvas := ⟨setByte c.mem a (Config.freeByte c.draws), c.draws + 1, a :: c.wrote⟩
    refine Writes.trans (c' := c') ⟨?_, ?_, ?_, ?_, fun b hb => List.mem_cons_of_mem _ hb, fun b hb => ?_⟩ ((ih _).mono fun b hb => List.mem_cons_of_mem _ hb)
    · intro b hb
      exact byteAt_setByte_ne _ _ fun e => hb (e ▸ List.mem_cons_self ..)
    · exact fun hm => setByte_wf hm a _
    · exact Nat.le_succ _
    · intro b hb
      rcases List.mem_cons.1 hb with rfl | hb
      · exact .inr (List.mem_cons_self ..)
      · exact .inl hb
    · exact byteAt_setByte_ne _ _ fun e => hb (e ▸ List.mem_cons_self ..)

/-- A freed byte holds one of the free values not taken before. -/
theorem freeBytes_free (bytes : List Word) : ∀ {c : Canvas} {a : Word}, Memory.wf c.mem = true → a ∈ bytes →
    ∃ k, c.draws ≤ k ∧ byteAt (freeBytes bytes c).mem a = Config.freeByte k := by
  induction bytes with
  | nil => intro c a _ ha; cases ha
  | cons b rest ih =>
    intro c a hm ha
    by_cases hr : a ∈ rest
    · let c' : Canvas := ⟨setByte c.mem b (Config.freeByte c.draws), c.draws + 1, b :: c.wrote⟩
      obtain ⟨k, hk, h⟩ := ih (c := c') (setByte_wf hm b _) hr
      exact ⟨k, Nat.le_of_succ_le hk, h⟩
    · have hab : a = b := by simpa [hr] using ha
      subst hab
      refine ⟨c.draws, le_refl _, ?_⟩
      rw [freeBytes, (freeBytes_writes rest _).frame a hr, byteAt_setByte hm, if_pos rfl]

/-- What a write that takes place leaves. -/
theorem memWrite_of_serves {p : Platform} {a v : Word} {n : Nat} (h : p.serves a n .write = true) (c : Canvas) :
    memWrite p a n v c = .ok () (if n = 1 ∧ p.byteWriteOk a = false then freeBytes (halfwordBytes a) c
      else { c with mem := writeLE c.mem a n v, wrote := accessBytes a n ++ c.wrote }) := by
  simp only [memWrite, access_of_serves h]
  split <;> rfl

/-- A write that takes place as it is asked for. -/
theorem memWrite_exact {p : Platform} {a v : Word} {n : Nat} (h : p.serves a n .write = true)
    (hb : n = 1 → p.byteWriteOk a = true) (c : Canvas) :
    memWrite p a n v c = .ok () { c with mem := writeLE c.mem a n v, wrote := accessBytes a n ++ c.wrote } := by
  rw [memWrite_of_serves h, if_neg]
  rintro ⟨h1, h2⟩
  rw [hb h1] at h2
  cases h2

theorem memWrite_of_error {p : Platform} {a v : Word} {n : Nat} {e : Stop} (h : access p a n .write = .error e)
    (c : Canvas) : memWrite p a n v c = .error e c := by simp [memWrite, h]

/-- What ends a computation on a canvas: a relation to the canvas it started from, and of what kind a stop is. -/
def DrawEnds {α : Type} (R : Canvas → Canvas → Prop) (Q : Stop → Prop) (d : Draw α) : Prop :=
  ∀ c, match d c with | .ok _ c' => R c c' | .error e c' => R c c' ∧ Q e

theorem DrawEnds.bind {α β : Type} {R : Canvas → Canvas → Prop} {Q : Stop → Prop} {d : Draw α} {f : α → Draw β}
    (trans : ∀ {c c' c''}, R c c' → R c' c'' → R c c'') (hd : DrawEnds R Q d) (hf : ∀ a, DrawEnds R Q (f a)) :
    DrawEnds R Q (d >>= f) := by
  intro c
  have h := hd c
  rw [run_bind]
  cases hdc : d c with
  | ok a c' =>
    rw [hdc] at h
    have h' := hf a c'
    simp only
    cases hfc : f a c' with
    | ok b c'' => rw [hfc] at h'; exact trans h h'
    | error e c'' => rw [hfc] at h'; exact ⟨trans h h'.1, h'.2⟩
  | error e c' => rw [hdc] at h; exact h

theorem DrawEnds.pure {α : Type} {R : Canvas → Canvas → Prop} {Q : Stop → Prop} (refl : ∀ c, R c c) (a : α) :
    DrawEnds R Q (Pure.pure a : Draw α) := fun c => refl c

theorem DrawEnds.forEach {α : Type} {R : Canvas → Canvas → Prop} {Q : Stop → Prop} {f : α → Draw Unit}
    (refl : ∀ c, R c c) (trans : ∀ {c c' c''}, R c c' → R c' c'' → R c c'') :
    ∀ {l : List α}, (∀ a ∈ l, DrawEnds R Q (f a)) → DrawEnds R Q (forEach f l)
  | [], _ => fun c => refl c
  | a :: _, h =>
    DrawEnds.bind trans (h a (List.mem_cons_self ..)) fun _ =>
      DrawEnds.forEach refl trans fun b hb => h b (List.mem_cons_of_mem _ hb)

/-- An access stops with BusError or is refused. -/
def Stop.isAccess : Stop → Prop
  | .raise (.busError _) => True
  | .raise _ => False
  | .refuse r => r = .readSideEffects

theorem access_isAccess {p : Platform} {a : Word} {n : Nat} {k : AccessKind} {e : Stop}
    (h : access p a n k = .error e) : e.isAccess := by
  rcases access_error h with ⟨_, rfl⟩ | ⟨_, _, rfl⟩
  · trivial
  · rfl

/-- A write changes only the bytes that `writtenBytes` names. -/
theorem memWrite_ends (p : Platform) (a v : Word) (n : Nat) :
    DrawEnds (Writes (writtenBytes p a n)) Stop.isAccess (memWrite p a n v) := by
  intro c
  cases h : access p a n .write with
  | error e => rw [memWrite_of_error h]; exact ⟨Writes.refl _ c, access_isAccess h⟩
  | ok u =>
    rw [memWrite_of_serves (access_ok_iff.1 h)]
    simp only [writtenBytes]
    split
    · exact freeBytes_writes _ c
    · refine ⟨fun b hb => byteAt_writeLE_ne _ _ _ _ hb, fun hm => writeLE_wf _ _ _ hm, le_refl _, fun b hb => ?_,
        fun b hb => List.mem_append_right _ hb,
        fun b hb => byteAt_writeLE_ne _ _ _ _ fun h => hb (List.mem_append_left _ h)⟩
      rcases List.mem_append.1 hb with hb | hb
      · exact .inr hb
      · exact .inl hb

/-- A read changes nothing. -/
theorem drawRead_ends (p : Platform) (a : Word) (n : Nat) (bytes : List Word) :
    DrawEnds (Writes bytes) Stop.isAccess (drawRead p a n) := by
  intro c
  rw [drawRead_eq]
  cases h : memRead p c.mem a n with
  | ok v => exact Writes.refl _ c
  | error e => exact ⟨Writes.refl _ c, access_isAccess (memRead_error_iff.1 h)⟩

theorem DrawEnds.mono {α : Type} {R R' : Canvas → Canvas → Prop} {Q Q' : Stop → Prop} {d : Draw α}
    (h : DrawEnds R Q d) (hR : ∀ {c c'}, R c c' → R' c c') (hQ : ∀ {e}, Q e → Q' e) : DrawEnds R' Q' d := by
  intro c
  have hc := h c
  cases hd : d c with
  | ok a c' => rw [hd] at hc; exact hR hc
  | error e c' => rw [hd] at hc; exact ⟨hR hc.1, hQ hc.2⟩

end Sys2Proof.Machine
end

