-- ==== Sys2Proof/Laws/Pixel.lean ====
section
/-! SUPPORT. One pixel: what GetPix reads and what PutPix leaves, on every legal surface (41_pixel.md R160 to R167). -/

namespace Sys2Proof.Machine

/-! ### Bits of words -/

theorem getLsbD_pixelMask (w i : Nat) : (pixelMask w).getLsbD i = (decide (i < 32) && decide (i < w)) := by
  rw [pixelMask, BitVec.getLsbD_ofNat, Nat.testBit_two_pow_sub_one]

theorem getLsbD_and_pixelMask (v : Word) (w i : Nat) :
    (v &&& pixelMask w).getLsbD i = (decide (i < w) && v.getLsbD i) := by
  rw [BitVec.getLsbD_and, getLsbD_pixelMask]
  by_cases h : i < 32
  · simp [h, Bool.and_comm]
  · simp [h, BitVec.getLsbD_of_ge v i (by omega)]

/-- A merge replaces the bits of its mask and keeps the others (41_pixel.md R167). -/
theorem getLsbD_merge (old v : Word) (w sh i : Nat) (hi : i < 32) :
    (merge old (pixelMask w) (v &&& pixelMask w) sh).getLsbD i =
      if sh ≤ i ∧ i < sh + w then v.getLsbD (i - sh) else old.getLsbD i := by
  unfold merge
  simp only [BitVec.getLsbD_or, BitVec.getLsbD_and, BitVec.getLsbD_not, BitVec.getLsbD_shiftLeft, getLsbD_pixelMask]
  by_cases h1 : sh ≤ i
  · by_cases h2 : i < sh + w
    · simp [hi, h1, h2, show ¬ i < sh by omega, show i - sh < 32 by omega, show i - sh < w by omega]
    · simp [hi, h2, show ¬ i - sh < w by omega]
  · simp [hi, h1, show i < sh by omega]

/-- Byte `k` of what `n` bytes were written with. -/
theorem byteAt_writeLE {m : Memory} (hm : Memory.wf m = true) {n : Nat} (hn : n ≤ 4) {a v : Word} {k : Nat}
    (hk : k < n) : byteAt (writeLE m a n v) (a + BitVec.ofNat 32 k) = (v >>> (8 * k)).setWidth 8 := by
  have key : ∀ (n : Nat), n ≤ 4 → ∀ {m : Memory}, Memory.wf m = true → ∀ {a v : Word} {k : Nat}, k < n →
      byteAt (writeLE m a n v) (a + BitVec.ofNat 32 k) = (v >>> (8 * k)).setWidth 8 := by
    intro n
    induction n with
    | zero => intro _ m _ a v k hk; omega
    | succ n ih =>
      intro hn m hm a v k hk
      rw [writeLE]
      cases k with
      | zero =>
        have hout : a ∉ accessBytes (a + 1#32) n := by
          rw [mem_accessBytes]
          have : (a - (a + 1#32)).toNat = 2 ^ 32 - 1 := by bv_omega
          omega
        simp [byteAt_writeLE_ne _ _ _ _ hout, byteAt_setByte hm]
      | succ k =>
        have := ih (by omega) (setByte_wf hm a (v.setWidth 8)) (a := a + 1#32) (v := v >>> 8) (k := k) (by omega)
        rw [show a + BitVec.ofNat 32 (k + 1) = a + 1#32 + BitVec.ofNat 32 k by
          rw [BitVec.ofNat_add, BitVec.add_assoc, BitVec.add_comm (BitVec.ofNat 32 k)], this,
          ← BitVec.shiftRight_add, show 8 + 8 * k = 8 * (k + 1) by omega]
  exact key n hn hm hk

/-- A one-byte read is its byte. -/
theorem readLE_one (m : Memory) (a : Word) : readLE m a 1 = (byteAt m a).setWidth 32 := by simp [readLE]

theorem getLsbD_readLE_two (m : Memory) (a : Word) (i : Nat) :
    (readLE m a 2).getLsbD i =
      if i < 8 then (byteAt m a).getLsbD i else (byteAt m (a + 1#32)).getLsbD (i - 8) := by
  simp only [readLE, BitVec.getLsbD_or, BitVec.getLsbD_setWidth, BitVec.getLsbD_shiftLeft]
  by_cases h : i < 8
  · simp [h, show i < 32 by omega]
  · by_cases h32 : i < 32
    · simp [h, h32, show i - 8 < 32 by omega, BitVec.getLsbD_of_ge (byteAt m a) i (by omega)]
    · simp [h32, h, BitVec.getLsbD_of_ge (byteAt m (a + 1#32)) (i - 8) (by omega)]

/-! ### Legal surfaces -/

/-- What SurfCheck lets through. -/
structure Surface.Legal (sf : Surface) : Prop where
  format : (sf.tiled = true ∧ (sf.fmt = 0 ∨ sf.fmt = 1)) ∨
    (sf.tiled = false ∧ (sf.fmt = 1 ∨ sf.fmt = 2 ∨ (sf.fmt = 3 ∧ sf.vram16 = false) ∨ sf.fmt = 4))
  narrow : sf.width ≤ sf.stride
  aligned : sf.base.toNat % sf.baseAlign = 0

theorem surfCheck_ok_iff {sf : Surface} : surfCheck sf = .ok () ↔ sf.Legal := by
  have hl : sf.legal = true ↔ (sf.tiled = true ∧ (sf.fmt = 0 ∨ sf.fmt = 1)) ∨
      (sf.tiled = false ∧ (sf.fmt = 1 ∨ sf.fmt = 2 ∨ (sf.fmt = 3 ∧ sf.vram16 = false) ∨ sf.fmt = 4)) := by
    unfold Surface.legal
    cases sf.tiled <;> cases sf.vram16 <;> simp <;> omega
  unfold surfCheck
  by_cases h1 : sf.legal = true
  · rw [if_neg (by simp [h1])]
    by_cases h2 : sf.stride < sf.width
    · rw [if_pos h2]
      exact ⟨fun h => by simp at h, fun h => absurd h.narrow (by omega)⟩
    · rw [if_neg h2]
      by_cases h3 : sf.base.toNat % sf.baseAlign = 0
      · rw [if_neg (by simpa using h3)]
        exact ⟨fun _ => ⟨hl.1 h1, by omega, h3⟩, fun _ => rfl⟩
      · rw [if_pos h3]
        exact ⟨fun h => by simp at h, fun h => absurd h.aligned h3⟩
  · rw [if_pos (by simpa using h1)]
    exact ⟨fun h => by simp at h, fun h => absurd (hl.2 h.format) h1⟩

theorem surfCheck_error {sf : Surface} {e : Stop} (h : surfCheck sf = .error e) :
    ∃ r, e = .raise (.badSurface r) ∧ ¬ sf.Legal := by
  have hn : ¬ sf.Legal := fun hl => by rw [surfCheck_ok_iff.2 hl] at h; cases h
  unfold surfCheck at h
  split at h
  · exact ⟨1, by simpa [eq_comm] using h, hn⟩
  · split at h
    · exact ⟨2, by simpa [eq_comm] using h, hn⟩
    · split at h
      · exact ⟨3, by simpa [eq_comm] using h, hn⟩
      · cases h

/-- The format decides the pixel width. -/
theorem Surface.Legal.bpp_cases {sf : Surface} (h : sf.Legal) :
    (sf.bpp = 4 ∧ sf.tiled = true) ∨ sf.bpp = 8 ∨ (sf.bpp = 16 ∧ sf.tiled = false) ∨
      (sf.bpp = 24 ∧ sf.tiled = false ∧ sf.vram16 = false) ∨ (sf.bpp = 32 ∧ sf.tiled = false) := by
  unfold Surface.bpp
  rcases h.format with ⟨ht, hf | hf⟩ | ⟨ht, hf | hf | ⟨hf, hv⟩ | hf⟩ <;> simp [*]

theorem Surface.pixAddr_fst (sf : Surface) (x y : Nat) :
    (sf.pixAddr x y).1 = sf.base + BitVec.ofNat 32 (sf.offset x y) := by
  unfold Surface.pixAddr Surface.offset
  split <;> rfl

theorem Surface.pixAddr_snd (sf : Surface) (x y : Nat) :
    (sf.pixAddr x y).2 = if sf.tiled = true ∧ sf.bpp = 4 then 4 * (x % 8 % 2) else 0 := by
  unfold Surface.pixAddr
  cases sf.tiled <;> simp

/-! ### Reading -/

/-- The pixel that lies in memory, whoever may read it. -/
def rawPix (m : Memory) (sf : Surface) (x y : Nat) : Word :=
  match sf.bpp with
  | 32 => readLE m (sf.pixAddr x y).1 4
  | 24 => readLE m (sf.pixAddr x y).1 3
  | 16 => readLE m (sf.pixAddr x y).1 2
  | 8 => readLE m (sf.pixAddr x y).1 1
  | _ => (readLE m (sf.pixAddr x y).1 1 >>> (sf.pixAddr x y).2) &&& 0xF

theorem readLE_three (m : Memory) (a : Word) :
    readLE m a 1 ||| (readLE m (a + 1#32) 1 <<< 8) ||| (readLE m (a + 2#32) 1 <<< 16) = readLE m a 3 := by
  rw [show a + 2#32 = a + 1#32 + 1#32 by rw [BitVec.add_assoc]; rfl]
  simp only [readLE]
  apply BitVec.eq_of_getLsbD_eq
  intro i hi
  simp only [BitVec.getLsbD_or, BitVec.getLsbD_setWidth, BitVec.getLsbD_shiftLeft, BitVec.getLsbD_ofNat]
  by_cases h1 : i < 8
  · simp [h1, hi, show i < 16 by omega]
  · by_cases h2 : i < 16
    · simp [h1, h2, hi, show i - 8 < 8 by omega, show i - 8 < 32 by omega]
    · simp [h1, h2, hi, Bool.or_assoc, show ¬ i - 8 < 8 by omega, show i - 8 - 8 = i - 16 by omega, show i - 8 < 32 by omega,
        show i - 16 < 32 by omega]

/-- GetPix answers the pixel in memory when its reads are served (41_pixel.md R165). -/
theorem getPix_eq {p : Platform} (m : Memory) {sf : Surface} (hl : sf.Legal) {x y : Nat}
    (h : p.readsPixel sf x y = true) : getPix p m sf x y = .ok (rawPix m sf x y) := by
  unfold Platform.readsPixel at h
  unfold getPix rawPix
  rcases hl.bpp_cases with ⟨hb, _⟩ | hb | ⟨hb, _⟩ | ⟨hb, _⟩ | ⟨hb, _⟩ <;>
    simp only [hb, Bool.and_eq_true] at h ⊢
  · simp only [memRead_of_serves h, bind, Except.bind, pure, Except.pure]
  · exact memRead_of_serves h
  · exact memRead_of_serves h
  · simp only [memRead_of_serves h.1.1, memRead_of_serves h.1.2, memRead_of_serves h.2, bind, Except.bind, pure,
      Except.pure, readLE_three]
  · exact memRead_of_serves h

/-- GetPix stops, whatever memory holds, when one of its reads is not served. -/
theorem getPix_stops {p : Platform} {sf : Surface} (hl : sf.Legal) {x y : Nat} (h : p.readsPixel sf x y ≠ true) :
    ∃ e : Stop, e.isAccess ∧ ∀ m, getPix p m sf x y = .error e := by
  have stop : ∀ {a : Word} {n : Nat}, p.serves a n .read ≠ true →
      ∃ e : Stop, e.isAccess ∧ ∀ m : Memory, memRead p m a n = .error e := by
    intro a n hs
    cases ha : access p a n .read with
    | ok u => exact absurd (access_ok_iff.1 ha) hs
    | error e => exact ⟨e, access_isAccess ha, fun m => memRead_error_iff.2 ha⟩
  unfold Platform.readsPixel at h
  unfold getPix
  rcases hl.bpp_cases with ⟨hb, _⟩ | hb | ⟨hb, _⟩ | ⟨hb, _⟩ | ⟨hb, _⟩ <;>
    simp only [hb, ne_eq, Bool.and_eq_true] at h ⊢
  · obtain ⟨e, hk, he⟩ := stop h
    exact ⟨e, hk, fun m => by simp only [he, bind, Except.bind]⟩
  · exact stop h
  · exact stop h
  · by_cases h0 : p.serves (sf.pixAddr x y).1 1 .read = true
    · by_cases h1 : p.serves ((sf.pixAddr x y).1 + 1#32) 1 .read = true
      · obtain ⟨e, hk, he⟩ := stop (fun h2 => h ⟨⟨h0, h1⟩, h2⟩)
        exact ⟨e, hk, fun m => by simp only [memRead_of_serves h0, memRead_of_serves h1, he, bind, Except.bind]⟩
      · obtain ⟨e, hk, he⟩ := stop h1
        exact ⟨e, hk, fun m => by simp only [memRead_of_serves h0, he, bind, Except.bind]⟩
    · obtain ⟨e, hk, he⟩ := stop h0
      exact ⟨e, hk, fun m => by simp only [he, bind, Except.bind]⟩
  · exact stop h

/-- GetPix depends on memory only through the pixel. -/
theorem getPix_congr (p : Platform) {m m' : Memory} {sf : Surface} (hl : sf.Legal) {x y : Nat}
    (h : rawPix m' sf x y = rawPix m sf x y) : getPix p m' sf x y = getPix p m sf x y := by
  by_cases hr : p.readsPixel sf x y = true
  · rw [getPix_eq m' hl hr, getPix_eq m hl hr, h]
  · obtain ⟨e, -, he⟩ := getPix_stops hl hr
    rw [he, he]

/-- GetPix stops only as an access stops. -/
theorem getPix_error {p : Platform} {m : Memory} {sf : Surface} (hl : sf.Legal) {x y : Nat} {e : Stop}
    (h : getPix p m sf x y = .error e) : e.isAccess := by
  by_cases hr : p.readsPixel sf x y = true
  · rw [getPix_eq m hl hr] at h; cases h
  · obtain ⟨e', hk, he⟩ := getPix_stops hl hr
    rw [he] at h; cases h; exact hk

/-- The pixel depends only on the bytes it lies in. -/
theorem rawPix_congr {m m' : Memory} {sf : Surface} (hl : sf.Legal) {x y : Nat}
    (h : ∀ a ∈ sf.pixelBytes x y, byteAt m' a = byteAt m a) : rawPix m' sf x y = rawPix m sf x y := by
  unfold Surface.pixelBytes Surface.unitBytes at h
  unfold rawPix
  rcases hl.bpp_cases with ⟨hb, _⟩ | hb | ⟨hb, _⟩ | ⟨hb, _⟩ | ⟨hb, _⟩ <;> simp only [hb] at h ⊢ <;>
    rw [readLE_congr _ _ (by simpa using h)]

/-! ### Writing -/

/-- PutPix changes only the bytes that `pixBytes` names, whatever ends it (20_memory.md R86). -/
theorem putPix_ends (p : Platform) (sf : Surface) (v : Word) (x y : Nat) :
    DrawEnds (Writes (pixBytes p sf x y)) Stop.isAccess (putPix p sf v x y) := by
  have one : ∀ {a v : Word} {n : Nat} {bytes : List Word}, (∀ b ∈ writtenBytes p a n, b ∈ bytes) →
      DrawEnds (Writes bytes) Stop.isAccess (memWrite p a n v) :=
    fun h => (memWrite_ends p _ _ _).mono (fun hw => hw.mono h) id
  have half : ∀ {a mask v : Word} {sh : Nat} {bytes : List Word}, (∀ b ∈ halfwordBytes a, b ∈ bytes) →
      DrawEnds (Writes bytes) Stop.isAccess (mergeHalfword p a mask v sh) := by
    intro a mask v sh bytes h
    refine DrawEnds.bind Writes.trans (drawRead_ends p _ _ _) fun old => one fun b hb => h b ?_
    simpa [writtenBytes, accessBytes_succ, halfwordBytes] using hb
  unfold putPix pixBytes
  by_cases h32 : sf.bpp = 32
  · simp only [h32]; exact one fun b hb => by simpa [writtenBytes] using hb
  by_cases h24 : sf.bpp = 24
  · simp only [h24]
    refine DrawEnds.bind Writes.trans (one fun b hb => by simp [hb]) fun _ => ?_
    exact DrawEnds.bind Writes.trans (one fun b hb => by simp [hb]) fun _ => one fun b hb => by simp [hb]
  by_cases h16 : sf.bpp = 16
  · simp only [h16]; exact one fun b hb => by simpa [writtenBytes] using hb
  by_cases h8 : sf.bpp = 8
  · simp only [h8]
    cases sf.vram16
    · exact one fun b hb => hb
    · exact half fun b hb => hb
  · simp only
    cases sf.vram16
    · exact DrawEnds.bind Writes.trans (drawRead_ends p _ _ _) fun _ => one fun b hb => hb
    · exact half fun b hb => hb

/-- The bytes of a halfword are those at an even address and the next. -/
theorem halfword_cases (a : Word) :
    (a.toNat % 2 = 0 ∧ a &&& ~~~1#32 = a) ∨ (a.toNat % 2 = 1 ∧ (a &&& ~~~1#32) + 1#32 = a) := by
  have hh : (a &&& ~~~1#32).toNat = a.toNat / 2 * 2 := by
    have : a &&& ~~~1#32 = (a >>> 1) <<< 1 := by
      apply BitVec.eq_of_getLsbD_eq
      intro i hi
      simp only [BitVec.getLsbD_and, BitVec.getLsbD_not, BitVec.getLsbD_shiftLeft, BitVec.getLsbD_ushiftRight,
        BitVec.getLsbD_ofNat]
      cases i with
      | zero => simp
      | succ i =>
        have : Nat.testBit 1 (i + 1) = false := by simp [Nat.testBit_succ]
        simp [hi, this, Nat.add_comm]
    rw [this, BitVec.toNat_shiftLeft, BitVec.toNat_ushiftRight, Nat.shiftLeft_eq, Nat.shiftRight_eq_div_pow]
    have := a.isLt
    omega
  rcases Nat.mod_two_eq_zero_or_one a.toNat with h | h
  · refine .inl ⟨h, BitVec.eq_of_toNat_eq ?_⟩
    omega
  · refine .inr ⟨h, BitVec.eq_of_toNat_eq ?_⟩
    rw [BitVec.toNat_add, hh]
    have := a.isLt
    simp
    omega

/-- What a write of `w` bits at shift `sh` of byte `a` leaves, by whichever access it is made. -/
structure Merged (a v : Word) (w sh : Nat) (c c' : Canvas) : Prop where
  draws : c'.draws = c.draws
  wf : Memory.wf c'.mem = true
  frame : ∀ b, b ≠ a → byteAt c'.mem b = byteAt c.mem b
  bits : ∀ j < 8, (byteAt c'.mem a).getLsbD j =
    if sh ≤ j ∧ j < sh + w then v.getLsbD (j - sh) else (byteAt c.mem a).getLsbD j

/-- The 16-bit read-modify-write changes only the bits asked for (41_pixel.md R167). -/
theorem mergeHalfword_exact {p : Platform} {a v : Word} {w sh : Nat} {c : Canvas} (hm : Memory.wf c.mem = true)
    (hw : sh + w ≤ 8) (hr : p.serves (a &&& ~~~1#32) 2 .read = true) (hs : p.serves (a &&& ~~~1#32) 2 .write = true) :
    ∃ c', mergeHalfword p a (pixelMask w) (v &&& pixelMask w) sh c = .ok () c' ∧ Merged a v w sh c c' := by
  refine ⟨⟨writeLE c.mem (a &&& ~~~1#32) 2 (merge (readLE c.mem (a &&& ~~~1#32) 2) (pixelMask w) (v &&& pixelMask w)
    (8 * (a.toNat % 2) + sh)), c.draws, accessBytes (a &&& ~~~1#32) 2 ++ c.wrote⟩, ?_, ⟨?_, ?_, ?_, ?_⟩⟩
  · unfold mergeHalfword
    rw [run_bind, drawRead_eq, memRead_of_serves hr]
    simp only
    exact memWrite_exact hs (by omega) c
  · rfl
  · exact writeLE_wf _ _ _ hm
  · intro b hb
    by_cases hin : b ∈ accessBytes (a &&& ~~~1#32) 2
    · have hb' : b = (a &&& ~~~1#32) + BitVec.ofNat 32 0 ∨ b = (a &&& ~~~1#32) + BitVec.ofNat 32 1 := by
        simpa [accessBytes_succ] using hin
      apply BitVec.eq_of_getLsbD_eq
      intro j hj
      rcases hb' with h | h <;> rw [h] <;> simp only [] <;>
        rw [byteAt_writeLE hm (by omega) (by omega), BitVec.getLsbD_setWidth, BitVec.getLsbD_ushiftRight,
          getLsbD_merge _ _ _ _ _ (by omega), getLsbD_readLE_two]
      · rcases halfword_cases a with ⟨h0, h1⟩ | ⟨h0, h1⟩
        · exact absurd (by rw [h, h1]; simp) hb
        · rw [if_neg (by omega)]; simp [hj]
      · rcases halfword_cases a with ⟨h0, h1⟩ | ⟨h0, h1⟩
        · rw [if_neg (by omega)]; simp [hj, show ¬ 8 + j < 8 by omega]
        · exact absurd (by rw [h]; exact h1) hb
    · exact byteAt_writeLE_ne _ _ _ _ hin
  · intro j hj
    have key : ∀ k < 2, a = (a &&& ~~~1#32) + BitVec.ofNat 32 k → a.toNat % 2 = k →
        (byteAt (writeLE c.mem (a &&& ~~~1#32) 2 (merge (readLE c.mem (a &&& ~~~1#32) 2) (pixelMask w)
          (v &&& pixelMask w) (8 * (a.toNat % 2) + sh))) ((a &&& ~~~1#32) + BitVec.ofNat 32 k)).getLsbD j =
        if sh ≤ j ∧ j < sh + w then v.getLsbD (j - sh)
        else (byteAt c.mem ((a &&& ~~~1#32) + BitVec.ofNat 32 k)).getLsbD j := by
      intro k hk _ h0
      rw [byteAt_writeLE hm (by omega) hk, BitVec.getLsbD_setWidth, BitVec.getLsbD_ushiftRight,
        getLsbD_merge _ _ _ _ _ (by omega), getLsbD_readLE_two, h0]
      have hk' : k = 0 ∨ k = 1 := by omega
      rcases hk' with rfl | rfl
      · simp [hj]
      · by_cases hc : sh ≤ j ∧ j < sh + w
        · rw [if_pos hc, if_pos (by omega)]
          simp [hj, show 8 * 1 + j - (8 * 1 + sh) = j - sh by omega]
        · rw [if_neg hc, if_neg (by omega)]
          simp [hj, show ¬ 8 + j < 8 by omega]
    rcases halfword_cases a with ⟨h0, h1⟩ | ⟨h0, h1⟩
    · have h1' : a = (a &&& ~~~1#32) + BitVec.ofNat 32 0 := by rw [h1]; simp
      have := key 0 (by omega) h1' h0
      rw [← h1'] at this
      exact this
    · have := key 1 (by omega) h1.symm h0
      rw [show (a &&& ~~~1#32) + BitVec.ofNat 32 1 = a from h1] at this
      exact this

/-- The 8-bit read-modify-write, and the plain 8-bit write, likewise. -/
theorem mergeByte_exact {p : Platform} {a v : Word} {w sh : Nat} {c : Canvas} (hm : Memory.wf c.mem = true)
    (hs : p.serves a 1 .write = true) (hb : p.byteWriteOk a = true) :
    ∃ c', memWrite p a 1 (merge (readLE c.mem a 1) (pixelMask w) (v &&& pixelMask w) sh) c = .ok () c' ∧
      Merged a v w sh c c' := by
  refine ⟨_, memWrite_exact hs (fun _ => hb) c, ⟨rfl, writeLE_wf _ _ _ hm, ?_, ?_⟩⟩
  · intro b hne
    exact byteAt_writeLE_ne _ _ _ _ (by simpa [accessBytes_succ] using hne)
  · intro j hj
    have := byteAt_writeLE hm (n := 1) (by omega) (a := a)
      (v := merge (readLE c.mem a 1) (pixelMask w) (v &&& pixelMask w) sh) (k := 0) (by omega)
    simp only [Nat.mul_zero, BitVec.add_zero, BitVec.ushiftRight_zero] at this
    rw [this, BitVec.getLsbD_setWidth, getLsbD_merge _ _ _ _ _ (by omega), readLE_one, BitVec.getLsbD_setWidth]
    simp [hj, show j < 32 by omega]

/-- An 8-bit write replaces the whole byte. -/
theorem plainByte_exact {p : Platform} {a v : Word} {c : Canvas} (hm : Memory.wf c.mem = true)
    (hs : p.serves a 1 .write = true) (hb : p.byteWriteOk a = true) :
    ∃ c', memWrite p a 1 (v &&& pixelMask 8) c = .ok () c' ∧ Merged a v 8 0 c c' := by
  refine ⟨_, memWrite_exact hs (fun _ => hb) c, ⟨rfl, writeLE_wf _ _ _ hm, ?_, ?_⟩⟩
  · intro b hne
    exact byteAt_writeLE_ne _ _ _ _ (by simpa [accessBytes_succ] using hne)
  · intro j hj
    have := byteAt_writeLE hm (n := 1) (by omega) (a := a) (v := v &&& pixelMask 8) (k := 0) (by omega)
    simp only [Nat.mul_zero, BitVec.add_zero, BitVec.ushiftRight_zero] at this
    rw [this, BitVec.getLsbD_setWidth, getLsbD_and_pixelMask]
    simp [hj]

/-- What PutPix leaves when its accesses are served and honoured. -/
structure PutExact (sf : Surface) (v : Word) (x y : Nat) (c c' : Canvas) : Prop where
  draws : c'.draws = c.draws
  wf : Memory.wf c'.mem = true
  frame : ∀ b, b ∉ sf.pixelBytes x y → byteAt c'.mem b = byteAt c.mem b
  value : rawPix c'.mem sf x y = v &&& pixelMask sf.bpp
  sibling : ∀ x' y', (sf.pixAddr x' y').1 = (sf.pixAddr x y).1 → (sf.pixAddr x' y').2 ≠ (sf.pixAddr x y).2 →
    rawPix c'.mem sf x' y' = rawPix c.mem sf x' y'

/-- Three one-byte writes are one of three bytes. -/
theorem writeLE_three (m : Memory) (a v : Word) :
    writeLE (writeLE (writeLE m a 1 v) (a + 1#32) 1 (v >>> 8)) (a + 2#32) 1 (v >>> 16) = writeLE m a 3 v := by
  rw [show a + 2#32 = a + 1#32 + 1#32 by rw [BitVec.add_assoc]; rfl]
  simp only [writeLE, ← BitVec.shiftRight_add]

/-- A merge of a pixel's own bits is a write of the pixel, and leaves the other pixel of the byte. -/
theorem putExact_of_merged {sf : Surface} (hl : sf.Legal) {v : Word} {x y : Nat} {c c' : Canvas}
    (hb : sf.bpp = 8 ∨ sf.bpp = 4)
    (h : Merged (sf.pixAddr x y).1 v sf.bpp (sf.pixAddr x y).2 c c') : PutExact sf v x y c c' := by
  have hbits := h.bits
  have hsh := sf.pixAddr_snd x y
  refine ⟨h.draws, h.wf, ?_, ?_, ?_⟩
  · intro b hbn
    refine h.frame b fun e => hbn ?_
    rcases hb with hb | hb <;> simp [Surface.pixelBytes, Surface.unitBytes, hb, accessBytes_succ, e]
  · apply BitVec.eq_of_getLsbD_eq
    intro i hi
    rw [getLsbD_and_pixelMask]
    rcases hb with hb | hb
    · rw [if_neg (by omega)] at hsh
      simp only [rawPix, hb, readLE_one, BitVec.getLsbD_setWidth]
      by_cases h8 : i < 8
      · rw [hbits i h8, if_pos (by omega)]
        simp [h8, hi, hsh]
      · simp [h8, BitVec.getLsbD_of_ge _ i (show 8 ≤ i by omega)]
    · simp only [rawPix, hb, readLE_one, BitVec.getLsbD_and, BitVec.getLsbD_ushiftRight, BitVec.getLsbD_setWidth]
      rw [show (15 : Word).getLsbD i = decide (i < 4) by
        rw [show (15 : Word) = pixelMask 4 from rfl, getLsbD_pixelMask]; simp [hi]]
      by_cases h4 : i < 4
      · have : (sf.pixAddr x y).2 ≤ 4 := by rw [hsh]; split <;> omega
        rw [hbits _ (by omega), if_pos (by omega)]
        simp [h4, show (sf.pixAddr x y).2 + i < 32 by omega]
      · simp [h4]
  · intro x' y' ha hne
    have hsh' := sf.pixAddr_snd x' y'
    rcases hb with hb | hb
    · rw [if_neg (by omega)] at hsh hsh'
      exact absurd (hsh'.trans hsh.symm) hne
    · have h4 : sf.tiled = true ∧ sf.bpp = 4 := by
        rcases hl.bpp_cases with h | h | h | h | h
        · exact ⟨h.2, hb⟩
        all_goals omega
      rw [if_pos h4] at hsh hsh'
      apply BitVec.eq_of_getLsbD_eq
      intro i hi
      simp only [rawPix, hb, readLE_one, BitVec.getLsbD_and, BitVec.getLsbD_ushiftRight, BitVec.getLsbD_setWidth]
      rw [show (15 : Word).getLsbD i = decide (i < 4) by
        rw [show (15 : Word) = pixelMask 4 from rfl, getLsbD_pixelMask]; simp [hi]]
      by_cases h4 : i < 4
      · rw [ha, hbits _ (by omega), if_neg (by omega)]
      · simp [h4]

/-- PutPix with its accesses served and honoured writes the pixel and nothing else (41_pixel.md R167). -/
theorem putPix_exact {p : Platform} {sf : Surface} (hl : sf.Legal) {v : Word} {x y : Nat} {c : Canvas}
    (hm : Memory.wf c.mem = true) (h : p.writesPixel sf x y = true) :
    ∃ c', putPix p sf v x y c = .ok () c' ∧ PutExact sf v x y c c' := by
  have wide : ∀ {n : Nat}, n ≤ 4 → sf.bpp = 8 * n → sf.unitBytes = n → sf.tiled = false →
      rawPix (writeLE c.mem (sf.pixAddr x y).1 n (v &&& pixelMask sf.bpp)) sf x y =
        readLE (writeLE c.mem (sf.pixAddr x y).1 n (v &&& pixelMask sf.bpp)) (sf.pixAddr x y).1 n →
      ∀ wr, putPix p sf v x y c =
          .ok () ⟨writeLE c.mem (sf.pixAddr x y).1 n (v &&& pixelMask sf.bpp), c.draws, wr⟩ →
        ∃ c', putPix p sf v x y c = .ok () c' ∧ PutExact sf v x y c c' := by
    intro n hn hb hu ht hraw wr hput
    refine ⟨_, hput, rfl, writeLE_wf _ _ _ hm, ?_, ?_, ?_⟩
    · intro b hbn
      exact byteAt_writeLE_ne _ _ _ _ (by simpa [Surface.pixelBytes, hu] using hbn)
    · rw [hraw, readLE_writeLE hm _ _ hn, hb]
      apply BitVec.eq_of_getLsbD_eq
      intro i hi
      rw [show BitVec.ofNat 32 (2 ^ (8 * n) - 1) = pixelMask (8 * n) from rfl, getLsbD_and_pixelMask,
        getLsbD_and_pixelMask]
      simp
    · intro x' y' _ hne
      rw [sf.pixAddr_snd, sf.pixAddr_snd] at hne
      simp [ht] at hne
  unfold Platform.writesPixel at h
  rcases hl.bpp_cases with ⟨hb, ht⟩ | hb | ⟨hb, ht⟩ | ⟨hb, ht, -⟩ | ⟨hb, ht⟩ <;>
    simp only [hb, Bool.and_eq_true] at h
  · have hsh : (sf.pixAddr x y).2 + 4 ≤ 8 := by rw [sf.pixAddr_snd]; split <;> omega
    by_cases hv : sf.vram16 = true
    · rw [if_pos hv] at h
      simp only [Bool.and_eq_true] at h
      obtain ⟨c', he, hc⟩ := mergeHalfword_exact (v := v) hm hsh h.1 h.2
      refine ⟨c', ?_, putExact_of_merged hl (.inr hb) (by rw [hb]; exact hc)⟩
      simp only [putPix, hb, hv, if_true]
      exact he
    · rw [if_neg hv] at h
      simp only [Bool.and_eq_true] at h
      obtain ⟨c', he, hc⟩ := mergeByte_exact (v := v) (w := 4) (sh := (sf.pixAddr x y).2) hm h.2.1 h.2.2
      refine ⟨c', ?_, putExact_of_merged hl (.inr hb) (by rw [hb]; exact hc)⟩
      simp only [putPix, hb, hv]
      rw [if_neg (by simp), run_bind, drawRead_eq, memRead_of_serves h.1]
      exact he
  · have hsh : (sf.pixAddr x y).2 = 0 := by rw [sf.pixAddr_snd, if_neg (by omega)]
    by_cases hv : sf.vram16 = true
    · rw [if_pos hv] at h
      simp only [Bool.and_eq_true] at h
      obtain ⟨c', he, hc⟩ := mergeHalfword_exact (v := v) (w := 8) (sh := 0) hm (by omega) h.1 h.2
      refine ⟨c', ?_, putExact_of_merged hl (.inl hb) (by rw [hb, hsh]; exact hc)⟩
      simp only [putPix, hb, hv, if_true]
      exact he
    · rw [if_neg hv] at h
      simp only [Bool.and_eq_true] at h
      obtain ⟨c', he, hc⟩ := plainByte_exact (v := v) hm h.1 h.2
      refine ⟨c', ?_, putExact_of_merged hl (.inl hb) (by rw [hb, hsh]; exact hc)⟩
      simp only [putPix, hb, hv]
      exact he
  · refine wide (n := 2) (by omega) (by omega) (by simp [Surface.unitBytes, hb]) ht (by simp [rawPix, hb])
      (accessBytes (sf.pixAddr x y).1 2 ++ c.wrote) ?_
    simp only [putPix, hb]
    exact memWrite_exact h (by omega) c
  · refine wide (n := 3) (by omega) (by omega) (by simp [Surface.unitBytes, hb]) ht (by simp [rawPix, hb]) (accessBytes ((sf.pixAddr x y).1 + 2#32) 1 ++ (accessBytes ((sf.pixAddr x y).1 + 1#32) 1 ++
      (accessBytes (sf.pixAddr x y).1 1 ++ c.wrote))) ?_
    simp only [putPix, hb]
    rw [run_bind_ok (memWrite_exact h.1.1.1 (fun _ => h.1.1.2) _),
      run_bind_ok (memWrite_exact h.1.2.1 (fun _ => h.1.2.2) _), memWrite_exact h.2.1 (fun _ => h.2.2), ← writeLE_three]
  · refine wide (n := 4) (by omega) (by omega) (by simp [Surface.unitBytes, hb]) ht (by simp [rawPix, hb])
      (accessBytes (sf.pixAddr x y).1 4 ++ c.wrote) ?_
    simp only [putPix, hb]
    exact memWrite_exact h (by omega) c

/-! ### Lists of pixels -/

/-- Two pixels have different addresses and share no byte, or lie at the same address at different shifts
(41_pixel.md R164). -/
def Surface.Apart (sf : Surface) (p q : Nat × Nat) : Prop :=
  ((sf.pixAddr p.1 p.2).1 = (sf.pixAddr q.1 q.2).1 ∧ (sf.pixAddr p.1 p.2).2 ≠ (sf.pixAddr q.1 q.2).2) ∨
    ∀ a ∈ sf.pixelBytes p.1 p.2, a ∉ sf.pixelBytes q.1 q.2

/-- What PutPix on each pixel of a list leaves. -/
structure PutAllExact (sf : Surface) (v : Word) (l : List (Nat × Nat)) (c c' : Canvas) : Prop where
  draws : c'.draws = c.draws
  wf : Memory.wf c'.mem = true
  frame : ∀ b, (∀ q ∈ l, b ∉ sf.pixelBytes q.1 q.2) → byteAt c'.mem b = byteAt c.mem b
  value : ∀ q ∈ l, rawPix c'.mem sf q.1 q.2 = v &&& pixelMask sf.bpp
  others : ∀ r : Nat × Nat, (∀ q ∈ l, sf.Apart r q) → rawPix c'.mem sf r.1 r.2 = rawPix c.mem sf r.1 r.2

/-- A pixel apart from the one written reads as before. -/
theorem PutExact.apart {sf : Surface} (hl : sf.Legal) {v : Word} {x y : Nat} {c c' : Canvas}
    (h : PutExact sf v x y c c') {r : Nat × Nat} (hr : sf.Apart r (x, y)) :
    rawPix c'.mem sf r.1 r.2 = rawPix c.mem sf r.1 r.2 := by
  rcases hr with ⟨h1, h2⟩ | h1
  · exact h.sibling r.1 r.2 h1 h2
  · exact rawPix_congr hl fun a ha => h.frame a (h1 a ha)

/-- PutPix on each pixel of a list whose pixels are apart or the same, with every access served and honoured. -/
theorem putPixels_exact {p : Platform} {sf : Surface} (hl : sf.Legal) {v : Word} :
    ∀ {l : List (Nat × Nat)} {c : Canvas}, Memory.wf c.mem = true →
      (∀ q ∈ l, p.writesPixel sf q.1 q.2 = true) → (∀ q ∈ l, ∀ r ∈ l, q = r ∨ sf.Apart q r) →
      ∃ c', putPixels p sf v l c = .ok () c' ∧ PutAllExact sf v l c c' := by
  intro l
  induction l with
  | nil =>
    intro c hm _ _
    exact ⟨c, rfl, rfl, hm, fun _ _ => rfl, fun q hq => (List.not_mem_nil hq).elim, fun _ _ => rfl⟩
  | cons q rest ih =>
    intro c hm hs ha
    obtain ⟨c1, h1, e1⟩ := putPix_exact hl (v := v) hm (hs q (List.mem_cons_self ..))
    obtain ⟨c2, h2, e2⟩ := ih e1.wf (fun r hr => hs r (List.mem_cons_of_mem _ hr))
      (fun r hr r' hr' => ha r (List.mem_cons_of_mem _ hr) r' (List.mem_cons_of_mem _ hr'))
    refine ⟨c2, ?_, e2.draws.trans e1.draws, e2.wf, ?_, ?_, ?_⟩
    · rw [putPixels, forEach_cons, h1]
      exact h2
    · intro b hb
      rw [e2.frame b fun r hr => hb r (List.mem_cons_of_mem _ hr), e1.frame b (hb q (List.mem_cons_self ..))]
    · intro r hr
      by_cases hrest : r ∈ rest
      · exact e2.value r hrest
      · have hrq : r = q := by simpa [hrest] using hr
        subst hrq
        rw [e2.others r fun r' hr' => ?_, e1.value]
        rcases ha r (List.mem_cons_self ..) r' (List.mem_cons_of_mem _ hr') with h | h
        · exact absurd (h ▸ hr') hrest
        · exact h
    · intro r hr
      rw [e2.others r fun r' hr' => hr r' (List.mem_cons_of_mem _ hr'), e1.apart hl (hr q (List.mem_cons_self ..))]

/-- What ends PutPix on each pixel of a list. -/
theorem putPixels_ends (p : Platform) (sf : Surface) (v : Word) (l : List (Nat × Nat)) :
    DrawEnds (Writes (l.flatMap fun q => pixBytes p sf q.1 q.2)) Stop.isAccess (putPixels p sf v l) :=
  DrawEnds.forEach (Writes.refl _) Writes.trans fun q hq =>
    (putPix_ends p sf v q.1 q.2).mono (fun h => h.mono fun _ ha => List.mem_flatMap.2 ⟨q, hq, ha⟩) id

/-- What ends a drawing command's body: it writes only the bytes of its pixels (20_memory.md R89, R90). -/
theorem drawPixels_ends (p : Platform) (sf : Surface) (v : Word) (l : List (Nat × Nat)) :
    DrawEnds (Writes (l.flatMap fun q => pixBytes p sf q.1 q.2)) Stop.isAccess (drawPixels p sf v l) := by
  intro c
  have h := putPixels_ends p sf v l c
  unfold drawPixels
  cases hp : putPixels p sf v l c with
  | ok u c' => rw [hp] at h; exact h
  | error e c' =>
    rw [hp] at h
    cases e with
    | refuse r => exact h
    | raise cause =>
      have hf := freeBytes_writes (l.flatMap fun q => pixBytes p sf q.1 q.2) { c with draws := c'.draws }
      exact ⟨⟨hf.frame, hf.wf, h.1.draws.trans hf.draws, hf.wrote, hf.notes⟩, h.2⟩

/-- A drawing command's body that a BusError stops: every byte of its pixels holds a free value (20_memory.md R90). -/
theorem drawPixels_raise {p : Platform} {sf : Surface} {v : Word} {l : List (Nat × Nat)} {c c' : Canvas} {cause : Cause}
    (hm : Memory.wf c.mem = true) (h : drawPixels p sf v l c = .error (.raise cause) c') {q : Nat × Nat} (hq : q ∈ l)
    {a : Word} (ha : a ∈ pixBytes p sf q.1 q.2) : ∃ k, c.draws ≤ k ∧ byteAt c'.mem a = Config.freeByte k := by
  have hw := putPixels_ends p sf v l c
  have hin : a ∈ l.flatMap fun q => pixBytes p sf q.1 q.2 := List.mem_flatMap.2 ⟨q, hq, ha⟩
  unfold drawPixels at h
  cases hp : putPixels p sf v l c with
  | ok u c1 => rw [hp] at h; cases h
  | error e c1 =>
    rw [hp] at h hw
    cases e with
    | refuse r => cases h
    | raise cause' =>
      cases h
      obtain ⟨k, hk, hb⟩ := freeBytes_free _ (c := { c with draws := c1.draws }) hm hin
      exact ⟨k, hw.1.draws.trans hk, hb⟩

/-- A drawing command's body with every access served. -/
theorem drawPixels_ok {p : Platform} {sf : Surface} {v : Word} {l : List (Nat × Nat)} {c c' : Canvas}
    (h : putPixels p sf v l c = .ok () c') : drawPixels p sf v l c = .ok () c' := by
  rw [drawPixels, h]

end Sys2Proof.Machine
end

