-- ==== Sys2Proof/Laws/Raster.lean ====
section
/-! SUPPORT. Which pixels the lists of the raster commands hold (41_pixel.md R168, 42_raster.md R190 to R196). -/

namespace Sys2Proof.Machine

theorem mem_horizontalRun {a b x y n : Nat} : (a, b) ∈ horizontalRun x y n ↔ x ≤ a ∧ a < x + n ∧ b = y := by
  simp only [horizontalRun, List.mem_map, List.mem_range, Prod.mk.injEq]
  constructor
  · rintro ⟨k, hk, rfl, rfl⟩; omega
  · rintro ⟨h1, h2, rfl⟩; exact ⟨a - x, by omega, by omega, rfl⟩

theorem mem_verticalRun {a b x y n : Nat} : (a, b) ∈ verticalRun x y n ↔ a = x ∧ y ≤ b ∧ b < y + n := by
  simp only [verticalRun, List.mem_map, List.mem_range, Prod.mk.injEq]
  constructor
  · rintro ⟨k, hk, rfl, rfl⟩; omega
  · rintro ⟨rfl, h1, h2⟩; exact ⟨b - y, by omega, rfl, by omega⟩

theorem mem_rectPixels {a b x y w h : Nat} :
    (a, b) ∈ rectPixels x y w h ↔ x ≤ a ∧ a < x + w ∧ y ≤ b ∧ b < y + h := by
  simp only [rectPixels, List.mem_flatMap, List.mem_range, mem_horizontalRun]
  constructor
  · rintro ⟨r, hr, h1, h2, rfl⟩; omega
  · rintro ⟨h1, h2, h3, h4⟩; exact ⟨b - y, by omega, h1, h2, by omega⟩

/-- The outline of a rectangle is its border (42_raster.md R192). -/
theorem mem_outlinePixels {a b x y w h : Nat} (hw : 0 < w) (hh : 0 < h) :
    (a, b) ∈ outlinePixels x y w h ↔ x ≤ a ∧ a < x + w ∧ y ≤ b ∧ b < y + h ∧
      (b = y ∨ b = y + h - 1 ∨ a = x ∨ a = x + w - 1) := by
  unfold outlinePixels
  by_cases h2 : 2 ≤ h <;> by_cases h3 : 3 ≤ h <;> by_cases w2 : 2 ≤ w <;>
    simp only [h2, h3, w2, if_true, if_false, List.mem_append, mem_horizontalRun, mem_verticalRun, List.not_mem_nil,
      or_false] <;> omega

/-! ### Lines -/

/-- The nearest pixel is the only one. -/
theorem NearestMinor.unique {n d k c c' : Int} (hn : 0 < n) (h : NearestMinor n d k c) (h' : NearestMinor n d k c') :
    c = c' := by
  unfold NearestMinor at h h'
  rcases lt_trichotomy c c' with hlt | heq | hgt
  · have : n * (c + 1) ≤ n * c' := Int.mul_le_mul_of_nonneg_left hlt hn.le
    rw [Int.mul_add] at this
    simp only [Int.mul_assoc] at h h'
    omega
  · exact heq
  · have : n * (c' + 1) ≤ n * c := Int.mul_le_mul_of_nonneg_left hgt hn.le
    rw [Int.mul_add] at this
    simp only [Int.mul_assoc] at h h'
    omega

/-- On the line the minor coordinate stays between the ends. -/
theorem NearestMinor.bounds {n d k c : Int} (hn : 0 < n) (hd : 0 ≤ d) (hk : 0 ≤ k) (hkn : k ≤ n)
    (h : NearestMinor n d k c) : 0 ≤ c ∧ c ≤ d := by
  unfold NearestMinor at h
  simp only [Int.mul_assoc] at h
  have h1 : 0 ≤ d * k := Int.mul_nonneg hd hk
  have h2 : d * k ≤ d * n := Int.mul_le_mul_of_nonneg_left hkn hd
  rw [Int.mul_comm d n] at h2
  constructor
  · by_contra hc
    have : n * (c + 1) ≤ n * 0 := Int.mul_le_mul_of_nonneg_left (by omega) hn.le
    rw [Int.mul_add] at this
    omega
  · by_contra hc
    have : n * (d + 1) ≤ n * c := Int.mul_le_mul_of_nonneg_left (by omega) hn.le
    rw [Int.mul_add] at this
    omega

/-- The recurrence visits, at each step of the major axis, the nearest pixel (42_raster.md R194): D is the distance
from the switch to the next one. -/
theorem mem_bresenham {n d : Int} (hn : 0 < n) (hd : 0 ≤ d) (hdn : d ≤ n) (b0 step : Int) {a b : Nat} :
    ∀ (len k0 : Nat) (c0 : Int) (major : Nat), NearestMinor n d k0 c0 →
      ((a, b) ∈ bresenham (2 * n) (2 * d) step len major (b0 + step * c0) (2 * d * (k0 + 1) - n - 2 * n * c0) ↔
        ∃ k < len, ∃ c, a = major + k ∧ NearestMinor n d (k0 + k : Nat) c ∧ b = (b0 + step * c).toNat) := by
  intro len
  induction len with
  | zero => intro k0 c0 major _; simp [bresenham]
  | succ len ih =>
    intro k0 c0 major h
    have split : ∀ c1, NearestMinor n d (k0 + 1 : Nat) c1 →
        ((a, b) = (major, (b0 + step * c0).toNat) ∨ (a, b) ∈ bresenham (2 * n) (2 * d) step len (major + 1)
          (b0 + step * c1) (2 * d * ((k0 + 1 : Nat) + 1) - n - 2 * n * c1) ↔
        ∃ k < len + 1, ∃ c, a = major + k ∧ NearestMinor n d (k0 + k : Nat) c ∧ b = (b0 + step * c).toNat) := by
      intro c1 h1
      rw [ih (k0 + 1) c1 (major + 1) h1]
      constructor
      · rintro (h0 | ⟨k, hk, c, rfl, hc, hb⟩)
        · simp only [Prod.mk.injEq] at h0
          exact ⟨0, by omega, c0, by omega, by simpa using h, h0.2⟩
        · exact ⟨k + 1, by omega, c, by omega, by rw [show k0 + (k + 1) = k0 + 1 + k by omega]; exact hc, hb⟩
      · rintro ⟨k, hk, c, rfl, hc, hb⟩
        cases k with
        | zero =>
          left
          have : c = c0 := NearestMinor.unique hn (by simpa using hc) h
          simp [hb, this]
        | succ k =>
          right
          exact ⟨k, by omega, c, by omega, by rw [show k0 + 1 + k = k0 + (k + 1) by omega]; exact hc, hb⟩
    have h' := h
    unfold NearestMinor at h'
    simp only [bresenham, List.mem_cons]
    by_cases hD : 0 < 2 * d * (k0 + 1 : Int) - n - 2 * n * c0
    · rw [if_pos hD]
      have := split (c0 + 1) (by
        unfold NearestMinor
        push_cast
        simp only [Int.mul_assoc, Int.mul_add] at h' hD ⊢
        omega)
      convert this using 3
      · push_cast; ring_nf
    · rw [if_neg hD]
      have := split c0 (by
        unfold NearestMinor
        push_cast
        simp only [Int.mul_assoc, Int.mul_add] at h' hD ⊢
        omega)
      convert this using 3
      · push_cast; ring_nf

/-- The pixels of a line by its major axis (42_raster.md R194, R195). -/
theorem mem_steppedLine {a0 b0 a1 b1 a b : Nat} (ha : a0 < a1)
    (hd : (max b0 b1 - min b0 b1) ≤ a1 - a0) :
    (a, b) ∈ steppedLine a0 b0 a1 b1 ↔ OnSteppedLine a0 b0 a1 b1 a b := by
  have hn : (0 : Int) < (a1 : Int) - a0 := by omega
  have start : ∀ d : Int, 0 ≤ d → NearestMinor ((a1 : Int) - a0) d (0 : Nat) 0 := by
    intro d hd; unfold NearestMinor; simp; omega
  unfold steppedLine OnSteppedLine
  by_cases hb : b0 ≤ b1
  · have h1 : ¬ ((b1 : Int) - b0 < 0) := by omega
    simp only [h1, if_false]
    have := mem_bresenham (a := a) (b := b) hn (d := (b1 : Int) - b0) (by omega) (by omega) b0 1 (a1 - a0 + 1) 0 0 a0
      (start _ (by omega))
    simp only [Int.mul_zero, Int.add_zero, Int.sub_zero, Nat.cast_zero, Int.zero_add, Int.mul_one, Int.one_mul,
      Nat.zero_add] at this
    rw [this, if_pos (by omega)]
    constructor
    · rintro ⟨k, hk, c, rfl, hc, hbc⟩
      have hbound := hc.bounds hn (by clear hbc; omega) (by clear hbc; omega) (by clear hbc; omega)
      have hb' : (b : Int) = b0 + c := by rw [hbc]; exact Int.toNat_of_nonneg (by clear hbc; omega)
      clear hbc
      refine ⟨by omega, by omega, ?_⟩
      rw [show ((a0 + k : Nat) : Int) - a0 = k by omega, show (b : Int) - b0 = c by omega]
      exact hc
    · rintro ⟨h1, h2, h3⟩
      refine ⟨a - a0, by omega, (b : Int) - b0, by omega, ?_, by omega⟩
      rw [show ((a - a0 : Nat) : Int) = (a : Int) - a0 by omega]
      exact h3
  · have h1 : (b1 : Int) - b0 < 0 := by omega
    simp only [h1, if_true]
    have := mem_bresenham (a := a) (b := b) hn (d := -((b1 : Int) - b0)) (by omega) (by omega) b0 (-1) (a1 - a0 + 1) 0 0
      a0 (start _ (by omega))
    simp only [Int.mul_zero, Int.add_zero, Int.sub_zero, Nat.cast_zero, Int.zero_add, Int.mul_one, Nat.zero_add] at this
    rw [this, if_neg (by omega)]
    constructor
    · rintro ⟨k, hk, c, rfl, hc, hbc⟩
      have hbound := hc.bounds hn (by clear hbc; omega) (by clear hbc; omega) (by clear hbc; omega)
      have hb' : (b : Int) = b0 + -1 * c := by rw [hbc]; exact Int.toNat_of_nonneg (by clear hbc; omega)
      clear hbc
      refine ⟨by omega, by omega, ?_⟩
      rw [show ((a0 + k : Nat) : Int) - a0 = k by omega, show (b0 : Int) - b = c by omega,
        show (b0 : Int) - b1 = -((b1 : Int) - b0) by omega]
      exact hc
    · rintro ⟨h1, h2, h3⟩
      rw [show (b0 : Int) - b1 = -((b1 : Int) - b0) by omega] at h3
      refine ⟨a - a0, by omega, (b0 : Int) - b, by omega, ?_, by omega⟩
      rw [show ((a - a0 : Nat) : Int) = (a : Int) - a0 by omega]
      exact h3

/-- A line without a minor difference is a run along its major axis. -/
theorem onSteppedLine_flat {a0 b0 a1 a b : Int} (ha : a0 < a1) :
    OnSteppedLine a0 b0 a1 b0 a b ↔ a0 ≤ a ∧ a ≤ a1 ∧ b = b0 := by
  unfold OnSteppedLine
  rw [if_pos (le_refl _)]
  refine and_congr_right fun h1 => and_congr_right fun h2 => ?_
  have h0 : NearestMinor (a1 - a0) (b0 - b0) (a - a0) 0 := by unfold NearestMinor; simp; omega
  constructor
  · intro h
    have := NearestMinor.unique (by omega) h h0
    omega
  · rintro rfl
    simpa using h0

theorem distance_eq_abs (a b : Nat) : |(b : Int) - a| = (distance a b : Int) := by
  unfold distance
  rcases le_total a b with h | h
  · rw [abs_of_nonneg (by omega)]; omega
  · rw [abs_of_nonpos (by omega)]; omega

/-- LINE plots the pixels of the line (42_raster.md R193). -/
theorem mem_linePixels {x0 y0 x1 y1 a b : Nat} : (a, b) ∈ linePixels x0 y0 x1 y1 ↔ OnLine x0 y0 x1 y1 a b := by
  unfold linePixels OnLine
  rw [distance_eq_abs, distance_eq_abs]
  by_cases hy : y0 = y1
  · subst hy
    rw [if_pos rfl]
    by_cases hx : x0 = x1
    · subst hx; simp
    · rw [if_neg hx, if_neg (by omega), if_pos (by simp [distance]; omega), mem_horizontalRun]
      unfold distance
      split
      · rw [onSteppedLine_flat (by omega)]; omega
      · rw [onSteppedLine_flat (by omega)]; omega
  · rw [if_neg hy]
    by_cases hx : x0 = x1
    · subst hx
      rw [if_pos rfl, if_neg (by omega), if_neg (by simp [distance]), mem_verticalRun]
      unfold distance
      split
      · rw [onSteppedLine_flat (by omega)]; omega
      · rw [onSteppedLine_flat (by omega)]; omega
    · have hne : ¬ ((x0 : Int) = x1 ∧ (y0 : Int) = y1) := by omega
      rw [if_neg hx, if_neg hne]
      by_cases hlow : distance y0 y1 < distance x0 x1
      · rw [if_pos hlow, if_pos (by omega)]
        unfold distance at hlow
        unfold lineLow
        by_cases hs : x1 < x0
        · rw [if_pos hs, if_neg (by omega), mem_steppedLine hs (by omega)]
        · rw [if_neg hs, if_pos (by omega), mem_steppedLine (by omega) (by omega)]
      · rw [if_neg hlow, if_neg (by omega)]
        unfold distance at hlow
        unfold lineHigh
        have swap : ∀ l : List (Nat × Nat), (a, b) ∈ l.map (fun p => (p.2, p.1)) ↔ (b, a) ∈ l := by
          intro l
          simp only [List.mem_map, Prod.mk.injEq]
          constructor
          · rintro ⟨⟨p, q⟩, h, rfl, rfl⟩; exact h
          · intro h; exact ⟨(b, a), h, rfl, rfl⟩
        rw [swap]
        by_cases hs : y1 < y0
        · rw [if_pos hs, if_neg (by omega), mem_steppedLine hs (by omega)]
        · rw [if_neg hs, if_pos (by omega), mem_steppedLine (by omega) (by omega)]

end Sys2Proof.Machine
end

