-- ==== Sys2Proof/Laws/Command.lean ====
section
/-! SUPPORT. Of every command: which parts of the state its computation may change, and which faults it may raise. -/

namespace Sys2Proof.Machine

/-! ### Reads that stop -/

section Reads
variable {α β : Type} {e : Stop}

theorem except_bind_error_iff {x : Except Stop α} {f : α → Except Stop β} :
    (x >>= f) = .error e ↔ x = .error e ∨ ∃ a, x = .ok a ∧ f a = .error e := by
  cases x <;> simp [bind, Except.bind]

theorem except_bind_ok_iff {x : Except Stop α} {f : α → Except Stop β} {b : β} :
    (x >>= f) = .ok b ↔ ∃ a, x = .ok a ∧ f a = .ok b := by
  cases x <;> simp [bind, Except.bind]

theorem except_pure_ne_error {a : α} : (pure a : Except Stop α) ≠ .error e := by simp [pure, Except.pure]

theorem memRead_isAccess {p : Platform} {m : Memory} {a : Word} {n : Nat} (h : memRead p m a n = .error e) :
    e.isAccess := access_isAccess (memRead_error_iff.1 h)

theorem continuation_isAccess {p : Platform} {m : Memory} {d : Decoder} {k : Nat}
    (h : continuation p m d k = .error e) : e.isAccess := by
  unfold continuation inputByte at h
  split at h
  · rcases except_bind_error_iff.1 h with h | ⟨_, _, h⟩
    · exact memRead_isAccess h
    · exact absurd h except_pure_ne_error
  · cases h

/-- Decode stops only as an access stops (43_decoder.md R226). -/
theorem decodeAt_isAccess {p : Platform} {m : Memory} {d : Decoder} {pos : Nat} (h : decodeAt p m d pos = .error e) :
    e.isAccess := by
  unfold decodeAt inputByte at h
  split at h
  · cases h
  · rcases except_bind_error_iff.1 h with h | ⟨b, _, h⟩
    · exact memRead_isAccess h
    · have more : ∀ {γ : Type} {k : Nat} {f : Word → Except Stop γ}, (continuation p m d k >>= f) = .error e →
          (∀ c, f c = .error e → e.isAccess) → e.isAccess := by
        intro γ k f h hf
        rcases except_bind_error_iff.1 h with h | ⟨c, _, h⟩
        · exact continuation_isAccess h
        · exact hf c h
      split at h
      · exact absurd h except_pure_ne_error
      · split at h
        · exact more h fun _ h => absurd h except_pure_ne_error
        · split at h
          · exact more h fun _ h => more h fun _ h => absurd h except_pure_ne_error
          · exact more h fun _ h => more h fun _ h => more h fun _ h => absurd h except_pure_ne_error

theorem readHeader_isAccess {p : Platform} {m : Memory} {a : Word} (h : readHeader p m a = .error e) : e.isAccess := by
  unfold readHeader at h
  have more : ∀ {γ : Type} {a : Word} {f : Word → Except Stop γ}, (memRead p m a 1 >>= f) = .error e →
      (∀ c, f c = .error e → e.isAccess) → e.isAccess := by
    intro γ a f h hf
    rcases except_bind_error_iff.1 h with h | ⟨c, _, h⟩
    · exact memRead_isAccess h
    · exact hf c h
  exact more h fun _ h => more h fun _ h => more h fun _ h => more h fun _ h => absurd h except_pure_ne_error

end Reads

/-- The fault is one of those whose codes are listed, or the access was refused by the model. -/
def Stop.among (codes : List Nat) : Stop → Prop
  | .raise c => c.code.toNat ∈ codes
  | .refuse r => r = .readSideEffects

theorem Stop.isAccess.among {codes : List Nat} {e : Stop} (h : e.isAccess) (h6 : 6 ∈ codes) : e.among codes := by
  cases e with
  | refuse r => exact h
  | raise c => cases c <;> first | exact h6 | exact absurd h (by simp [Stop.isAccess])

theorem surfCheck_among {codes : List Nat} {sf : Surface} {e : Stop} (h : surfCheck sf = .error e) (h2 : 2 ∈ codes) :
    e.among codes := by
  obtain ⟨r, rfl, -⟩ := surfCheck_error h
  exact h2

theorem pixelCheck_among {codes : List Nat} {sf : Surface} {op : Word} {x y : Nat} {e : Stop}
    (h : pixelCheck sf op x y = .error e) (h3 : 3 ∈ codes) : e.among codes := by
  unfold pixelCheck at h
  split at h <;> cases h
  exact h3

theorem runCheckH_among {codes : List Nat} {sf : Surface} {op : Word} {x y n : Nat} {e : Stop}
    (h : runCheckH sf op x y n = .error e) (h3 : 3 ∈ codes) : e.among codes := by
  unfold runCheckH at h
  split at h <;> cases h
  exact h3

theorem runCheckV_among {codes : List Nat} {sf : Surface} {op : Word} {x y n : Nat} {e : Stop}
    (h : runCheckV sf op x y n = .error e) (h3 : 3 ∈ codes) : e.among codes := by
  unfold runCheckV at h
  split at h <;> cases h
  exact h3

theorem rectCheck_among {codes : List Nat} {sf : Surface} {x y w h : Nat} {e : Stop}
    (he : rectCheck sf x y w h = .error e) (h3 : 3 ∈ codes) : e.among codes := by
  unfold rectCheck at he
  split at he <;> cases he
  exact h3

theorem rectoutCheck_among {codes : List Nat} {sf : Surface} {x y w h : Nat} {e : Stop}
    (he : rectoutCheck sf x y w h = .error e) (h3 : 3 ∈ codes) : e.among codes := by
  unfold rectoutCheck at he
  split at he
  · exact pixelCheck_among he h3
  · split at he
    · exact runCheckV_among he h3
    · split at he
      · exact runCheckH_among he h3
      · split at he <;> cases he
        exact h3

/-- GetHeader raises CharsetAlign, CharsetRange or BusError (44_layout.md R242 to R244). -/
theorem getHeader_among {codes : List Nat} {p : Platform} {m : Memory} {cs : Vector CharsetSlot 8} {i : Fin 8}
    {cp : Word} {e : Stop} (h : getHeader p m cs i cp = .error e) (hc : 4 ∈ codes ∧ 5 ∈ codes ∧ 6 ∈ codes) :
    e.among codes := by
  unfold getHeader at h
  simp only at h
  split at h
  · cases h; exact hc.2.1
  · split at h
    · cases h; exact hc.1
    · rcases except_bind_error_iff.1 h with h | ⟨_, _, h⟩
      · exact (readHeader_isAccess h).among hc.2.2
      · split at h
        · cases h; exact hc.1
        · exact absurd h except_pure_ne_error

/-! ### What a computation keeps -/

/-- What ends a command's computation: a relation to the state it started from, and of what kind a stop is. -/
def EngineEnds {α : Type} (R : Work → Work → Prop) (Q : Stop → Prop) (e : Engine α) : Prop :=
  ∀ w, match e w with | .ok _ w' => R w w' | .error r w' => R w w' ∧ Q r

section Ends
variable {α β : Type} {R : Work → Work → Prop} {Q : Stop → Prop}

theorem EngineEnds.bind {e : Engine α} {f : α → Engine β} (trans : ∀ {w w' w''}, R w w' → R w' w'' → R w w'')
    (he : EngineEnds R Q e) (hf : ∀ a, EngineEnds R Q (f a)) : EngineEnds R Q (e >>= f) := by
  intro w
  have h := he w
  rw [run_bind]
  cases hew : e w with
  | ok a w' =>
    rw [hew] at h
    have h' := hf a w'
    simp only
    cases hfw : f a w' with
    | ok b w'' => rw [hfw] at h'; exact trans h h'
    | error r w'' => rw [hfw] at h'; exact ⟨trans h h'.1, h'.2⟩
  | error r w' => rw [hew] at h; exact h

theorem EngineEnds.pure (refl : ∀ w, R w w) (a : α) : EngineEnds R Q (Pure.pure a : Engine α) := fun w => refl w

theorem EngineEnds.theState (refl : ∀ w, R w w) : EngineEnds R Q Machine.theState := fun w => refl w

theorem EngineEnds.check (refl : ∀ w, R w w) {e : Except Stop α} (he : ∀ r, e = .error r → Q r) :
    EngineEnds R Q (Machine.check e) := by
  intro w
  cases e with
  | ok a => exact refl w
  | error r => exact ⟨refl w, he r rfl⟩

theorem EngineEnds.update {f : State → State} (hf : ∀ w : Work, R w { w with st := f w.st }) :
    EngineEnds R Q (Machine.update f) := fun w => hf w

theorem EngineEnds.draw {d : Draw α} {P : Canvas → Canvas → Prop} (hd : DrawEnds P Q d)
    (hR : ∀ (w : Work) (c : Canvas), P w.canvas c → R w (w.drawn c)) : EngineEnds R Q (Machine.draw d) := by
  intro w
  have h := hd w.canvas
  rw [run_draw]
  cases hdw : d w.canvas with
  | ok a c => rw [hdw] at h; exact hR w c h
  | error r c => rw [hdw] at h; exact ⟨hR w c h.1, h.2⟩

theorem EngineEnds.mono {e : Engine α} {R' : Work → Work → Prop} {Q' : Stop → Prop} (h : EngineEnds R Q e)
    (hR : ∀ {w w'}, R w w' → R' w w') (hQ : ∀ {r}, Q r → Q' r) : EngineEnds R' Q' e := by
  intro w
  have hw := h w
  cases he : e w with
  | ok a w' => rw [he] at hw; exact hR hw
  | error r w' => rw [he] at hw; exact ⟨hR hw.1, hQ hw.2⟩

end Ends

/-- The parts of the state a computation may change. -/
structure Footprint where
  result0 : Bool := false
  result1 : Bool := false
  layout : Bool := false
  decoder : Bool := false
  memory : Bool := false

/-- The computation has changed nothing but the parts of its footprint; it keeps memory in its form, notes each byte that
it changes as written, and takes free values only in order. -/
structure Keeps (f : Footprint) (w w' : Work) : Prop where
  latch : w'.st.blk.latch = w.st.blk.latch
  status : w'.st.blk.status = w.st.blk.status
  surf : w'.st.blk.surf = w.st.blk.surf
  args : w'.st.blk.args = w.st.blk.args
  text : w'.st.blk.text = w.st.blk.text
  cs : w'.st.blk.cs = w.st.blk.cs
  platform : w'.st.platform = w.st.platform
  host : w'.st.host = w.st.host
  schedule : w'.st.schedule = w.st.schedule
  seen : w'.st.seen = w.st.seen
  settled : w'.st.settled = w.st.settled
  pending : w'.st.pending = w.st.pending
  result0 : f.result0 = false → w'.st.blk.result0 = w.st.blk.result0
  result1 : f.result1 = false → w'.st.blk.result1 = w.st.blk.result1
  layout : f.layout = false → w'.st.blk.lay = w.st.blk.lay ∧ w'.st.blk.gl = w.st.blk.gl
  decoder : f.decoder = false → w'.st.blk.dec = w.st.blk.dec
  memory : f.memory = false → w'.st.mem = w.st.mem ∧ w'.st.draws = w.st.draws ∧ w'.wrote = w.wrote
  wf : Memory.wf w.st.mem = true → Memory.wf w'.st.mem = true
  draws : w.st.draws ≤ w'.st.draws
  notes : (∀ a ∈ w.wrote, a ∈ w'.wrote) ∧ ∀ a, a ∉ w'.wrote → byteAt w'.st.mem a = byteAt w.st.mem a

theorem Keeps.refl (f : Footprint) (w : Work) : Keeps f w w := by
  constructor <;> simp

theorem Keeps.trans {f : Footprint} {w w' w'' : Work} (h : Keeps f w w') (h' : Keeps f w' w'') : Keeps f w w'' where
  latch := h'.latch.trans h.latch
  status := h'.status.trans h.status
  surf := h'.surf.trans h.surf
  args := h'.args.trans h.args
  text := h'.text.trans h.text
  cs := h'.cs.trans h.cs
  platform := h'.platform.trans h.platform
  host := h'.host.trans h.host
  schedule := h'.schedule.trans h.schedule
  seen := h'.seen.trans h.seen
  settled := h'.settled.trans h.settled
  pending := h'.pending.trans h.pending
  result0 := fun hf => (h'.result0 hf).trans (h.result0 hf)
  result1 := fun hf => (h'.result1 hf).trans (h.result1 hf)
  layout := fun hf => ⟨(h'.layout hf).1.trans (h.layout hf).1, (h'.layout hf).2.trans (h.layout hf).2⟩
  decoder := fun hf => (h'.decoder hf).trans (h.decoder hf)
  memory := fun hf => ⟨(h'.memory hf).1.trans (h.memory hf).1, (h'.memory hf).2.1.trans (h.memory hf).2.1,
    (h'.memory hf).2.2.trans (h.memory hf).2.2⟩
  wf := fun hm => h'.wf (h.wf hm)
  draws := h.draws.trans h'.draws
  notes := ⟨fun a ha => h'.notes.1 a (h.notes.1 a ha),
    fun a ha => (h'.notes.2 a ha).trans (h.notes.2 a fun hc => ha (h'.notes.1 a hc))⟩

/-- Drawing changes memory and the count of free values. -/
theorem keeps_drawn {f : Footprint} (hf : f.memory = true) {bytes : List Word} (w : Work) (c : Canvas)
    (h : Writes bytes w.canvas c) : Keeps f w (w.drawn c) := by
  constructor <;> simp [hf]
  · exact h.wf
  · exact h.draws
  · exact h.notes

/-- What each command may change (30_encoding.md R121; the rules of the commands). -/
def footprint : Instr → Footprint
  | .nop => {}
  | .setpix | .hrun | .vrun | .fill | .fillrect | .rectout | .line | .renderGlyph => { memory := true }
  | .getpix | .decPeek => { result0 := true }
  | .mapaddr | .glyphLookup => { result0 := true, result1 := true }
  | .decStart => { decoder := true }
  | .decNext => { result0 := true, decoder := true }
  | .layoutStart | .layoutNext | .layoutExhaust => { layout := true, decoder := true }
  | .renderText => { layout := true, decoder := true, memory := true }

section Bodies
variable {α : Type} {f : Footprint} {codes : List Nat}

/-- A computation that keeps to a footprint and raises only the faults listed. -/
abbrev Behaves (f : Footprint) (codes : List Nat) (e : Engine α) : Prop := EngineEnds (Keeps f) (Stop.among codes) e

theorem Behaves.bind {β : Type} {e : Engine α} {g : α → Engine β} (he : Behaves f codes e)
    (hg : ∀ a, Behaves f codes (g a)) : Behaves f codes (e >>= g) := EngineEnds.bind Keeps.trans he hg

theorem Behaves.pure (a : α) : Behaves f codes (Pure.pure a : Engine α) := EngineEnds.pure (Keeps.refl f) a

theorem Behaves.read {g : State → Engine α} (hg : ∀ s, Behaves f codes (g s)) :
    Behaves f codes (theState >>= g) := Behaves.bind (EngineEnds.theState (Keeps.refl f)) hg

theorem Behaves.check {e : Except Stop α} (he : ∀ r, e = .error r → r.among codes) : Behaves f codes (Machine.check e) :=
  EngineEnds.check (Keeps.refl f) he

theorem behaves_setResult0 (hf : f.result0 = true) (v : Word) : Behaves f codes (update (setResult0 v)) :=
  EngineEnds.update fun w => by constructor <;> simp [hf]

theorem behaves_setResult1 (hf : f.result1 = true) (v : Word) : Behaves f codes (update (setResult1 v)) :=
  EngineEnds.update fun w => by constructor <;> simp [hf]

theorem behaves_setDecoder (hf : f.decoder = true) (d : Decoder) : Behaves f codes (update (setDecoder d)) :=
  EngineEnds.update fun w => by constructor <;> simp [hf]

theorem behaves_setLayout (hf : f.layout = true) (l : Layout) : Behaves f codes (update (setLayout l)) :=
  EngineEnds.update fun w => by constructor <;> simp [hf]

theorem behaves_setGlyph (hf : f.layout = true) (g : Glyph) : Behaves f codes (update (setGlyph g)) :=
  EngineEnds.update fun w => by constructor <;> simp [hf]

theorem behaves_draw {d : Draw α} {bytes : List Word} (hf : f.memory = true)
    (hd : DrawEnds (Writes bytes) (Stop.among codes) d) : Behaves f codes (draw d) :=
  EngineEnds.draw hd (keeps_drawn hf)

theorem behaves_drawPixels (hf : f.memory = true) (h6 : 6 ∈ codes) (p : Platform) (sf : Surface) (v : Word)
    (l : List (Nat × Nat)) : Behaves f codes (draw (drawPixels p sf v l)) :=
  behaves_draw hf ((drawPixels_ends p sf v l).mono id fun h => h.among h6)

theorem behaves_nextCode (hf : f.decoder = true) (h6 : 6 ∈ codes) : Behaves f codes nextCode :=
  Behaves.read fun _ => Behaves.bind (Behaves.check fun _ h => (decodeAt_isAccess h).among h6) fun _ =>
    Behaves.bind (behaves_setDecoder hf _) fun _ => Behaves.pure _

theorem behaves_peekCode (h6 : 6 ∈ codes) : Behaves f codes peekCode :=
  Behaves.read fun _ => Behaves.bind (Behaves.check fun _ h => (decodeAt_isAccess h).among h6) fun _ => Behaves.pure _

theorem behaves_endLayout (hf : f.layout = true) : Behaves f codes endLayout :=
  Behaves.read fun _ => Behaves.bind (behaves_setGlyph hf _) fun _ =>
    Behaves.bind (behaves_setLayout hf _) fun _ => Behaves.pure _

theorem behaves_overflow (h7 : 7 ∈ codes) (cp : Word) (b : Bool) : Behaves f codes (check (overflowCheck cp b)) :=
  Behaves.check fun r h => by
    cases b <;> simp only [overflowCheck, if_true] at h <;> cases h
    exact h7

theorem behaves_layoutStep (hl : f.layout = true) (hd : f.decoder = true)
    (hc : 4 ∈ codes ∧ 5 ∈ codes ∧ 6 ∈ codes ∧ 7 ∈ codes) : Behaves f codes layoutStep := by
  have glyph : ∀ cp i, Behaves f codes (layoutGlyph cp i) := fun cp i =>
    Behaves.read fun _ => Behaves.bind (Behaves.check fun _ h => getHeader_among h ⟨hc.1, hc.2.1, hc.2.2.1⟩) fun _ =>
      Behaves.bind (behaves_overflow hc.2.2.2 _ _) fun _ => Behaves.bind (behaves_setLayout hl _) fun _ =>
        Behaves.bind (behaves_setGlyph hl _) fun _ => Behaves.pure _
  have code : ∀ cp, Behaves f codes (layoutCode cp) := by
    intro cp
    refine Behaves.read fun s => ?_
    simp only
    split
    · exact Behaves.bind (behaves_overflow hc.2.2.2 _ _) fun _ => Behaves.bind (behaves_setLayout hl _) fun _ =>
        Behaves.bind (behaves_setGlyph hl _) fun _ => Behaves.pure _
    · split
      · exact Behaves.bind (behaves_setGlyph hl _) fun _ => Behaves.pure _
      · exact glyph cp _
  refine Behaves.read fun s => ?_
  simp only
  split
  · exact Behaves.bind (behaves_setGlyph hl _) fun _ => Behaves.pure _
  · split
    · exact behaves_endLayout hl
    · refine Behaves.bind (behaves_nextCode hd hc.2.2.1) fun cp => ?_
      split
      · exact behaves_endLayout hl
      · exact code cp

theorem behaves_layoutLoop (hl : f.layout = true) (hd : f.decoder = true)
    (hc : 4 ∈ codes ∧ 5 ∈ codes ∧ 6 ∈ codes ∧ 7 ∈ codes) : ∀ fuel, Behaves f codes (layoutLoop fuel)
  | 0 => Behaves.pure _
  | fuel + 1 => Behaves.bind (behaves_layoutStep hl hd hc) fun k => by
    cases k
    · exact Behaves.pure _
    · exact behaves_layoutLoop hl hd hc fuel
    · exact behaves_layoutLoop hl hd hc fuel

/-- The bytes of the record's pixels that lie inside the surface. -/
def recordBytes (p : Platform) (sf : Surface) (g : Glyph) : List Word :=
  ((List.range g.sizeY).flatMap fun (r : Nat) =>
    (List.range g.sizeX).map fun (c : Nat) => (g.x.toInt + c, g.y.toInt + r)).flatMap
    fun q => if sf.inBounds q.1 q.2 then pixBytes p sf q.1.toNat q.2.toNat else []

/-- How the renderer stops: as an access does, or with OutOfBounds and a pixel of the record's box that lies outside
the surface (45_render.md R290). -/
def RenderStop (sf : Surface) (g : Glyph) (e : Stop) : Prop :=
  e.isAccess ∨ ∃ r c : Nat, r < g.sizeY ∧ c < g.sizeX ∧ sf.inBounds (g.x.toInt + c) (g.y.toInt + r) = false ∧
    e = .raise (.outOfBounds (pixelInfo (g.x.toInt + c) (g.y.toInt + r)))

/-- The renderer writes only inside the record's box, whatever ends it (45_render.md R292 (a)). -/
theorem renderRecord_ends (p : Platform) (sf : Surface) (g : Glyph) (v : Word) :
    DrawEnds (Writes (recordBytes p sf g)) (RenderStop sf g) (renderRecord p sf g v) := by
  unfold renderRecord
  split
  · exact DrawEnds.pure (Writes.refl _) _
  · refine DrawEnds.forEach (Writes.refl _) Writes.trans fun r hr => ?_
    have read : ∀ a, DrawEnds (Writes (recordBytes p sf g)) (RenderStop sf g) (drawRead p a 1) :=
      fun a => (drawRead_ends p a 1 _).mono id .inl
    unfold renderRow rowBits
    refine DrawEnds.bind Writes.trans (DrawEnds.bind Writes.trans (read _) fun lo => ?_) fun row => ?_
    · split
      · exact DrawEnds.bind Writes.trans (read _) fun _ => DrawEnds.pure (Writes.refl _) _
      · exact DrawEnds.pure (Writes.refl _) _
    · refine DrawEnds.forEach (Writes.refl _) Writes.trans fun c hc => ?_
      split
      · intro cv
        unfold plotGlyphPixel
        by_cases hin : sf.inBounds (g.x.toInt + c) (g.y.toInt + r) = true
        · rw [if_pos hin]
          refine ((putPix_ends p sf v _ _).mono (fun h => h.mono fun a ha => ?_) .inl) cv
          refine List.mem_flatMap.2 ⟨(g.x.toInt + c, g.y.toInt + r), ?_, ?_⟩
          · exact List.mem_flatMap.2 ⟨r, hr, List.mem_map.2 ⟨c, hc, rfl⟩⟩
          · simp only [hin, if_true]; exact ha
        · rw [if_neg hin]
          exact ⟨Writes.refl _ _, .inr ⟨r, c, List.mem_range.1 hr, List.mem_range.1 hc, by simpa using hin, rfl⟩⟩
      · exact DrawEnds.pure (Writes.refl _) _

theorem RenderStop.among {sf : Surface} {g : Glyph} {e : Stop} (h : RenderStop sf g e) (h3 : 3 ∈ codes) (h6 : 6 ∈ codes) :
    e.among codes := by
  rcases h with h | ⟨r, c, -, -, -, rfl⟩
  · exact h.among h6
  · exact h3

theorem behaves_renderCurrent (hf : f.memory = true) (h3 : 3 ∈ codes) (h6 : 6 ∈ codes) :
    Behaves f codes renderCurrent :=
  Behaves.read fun _ => behaves_draw hf ((renderRecord_ends _ _ _ _).mono id fun h => h.among h3 h6)

theorem behaves_renderLoop (hl : f.layout = true) (hd : f.decoder = true) (hm : f.memory = true)
    (hc : 4 ∈ codes ∧ 5 ∈ codes ∧ 6 ∈ codes ∧ 7 ∈ codes) (h3 : 3 ∈ codes) : ∀ fuel, Behaves f codes (renderLoop fuel)
  | 0 => Behaves.pure _
  | fuel + 1 => Behaves.bind (behaves_layoutStep hl hd hc) fun k => by
    cases k
    · exact Behaves.pure _
    · exact behaves_renderLoop hl hd hm hc h3 fuel
    · exact Behaves.bind (behaves_renderCurrent hm h3 hc.2.2.1) fun _ => behaves_renderLoop hl hd hm hc h3 fuel

end Bodies

/-- Every command keeps to its footprint and raises only the faults that 60_exceptions.md R300 gives it. -/
theorem bodyOf_behaves (i : Instr) : Behaves (footprint i) (mayRaise i) (bodyOf i) := by
  have surface : ∀ {α : Type} {f : Footprint} {codes : List Nat} {g : State → Engine α}, 2 ∈ codes →
      (∀ s, Behaves f codes (g s)) → Behaves f codes (theState >>= fun s => check (surfCheck s.blk.surf) >>= fun _ => g s) :=
    fun h2 hg => Behaves.read fun s => Behaves.bind (Behaves.check fun _ h => surfCheck_among h h2) fun _ => hg s
  have two : ∀ i : Instr, i ∈ surfaceCommands → 2 ∈ mayRaise i := by decide
  cases i with
  | nop => exact Behaves.pure _
  | setpix =>
    exact surface (two _ (by decide)) fun s =>
      Behaves.bind (Behaves.check fun _ h => pixelCheck_among h (by decide)) fun _ =>
        behaves_draw rfl ((putPix_ends _ _ _ _ _).mono id fun h => h.among (by decide))
  | getpix =>
    refine surface (two _ (by decide)) fun s => ?_
    refine Behaves.bind (Behaves.check fun _ h => pixelCheck_among h (by decide)) fun _ => ?_
    refine Behaves.bind (Behaves.check fun r h => ?_) fun _ => behaves_setResult0 rfl _
    have hr : r.isAccess := by
      unfold getPix at h
      simp only at h
      split at h
      · exact memRead_isAccess h
      · rcases except_bind_error_iff.1 h with h | ⟨_, _, h⟩
        · exact memRead_isAccess h
        · rcases except_bind_error_iff.1 h with h | ⟨_, _, h⟩
          · exact memRead_isAccess h
          · rcases except_bind_error_iff.1 h with h | ⟨_, _, h⟩
            · exact memRead_isAccess h
            · exact absurd h except_pure_ne_error
      · exact memRead_isAccess h
      · exact memRead_isAccess h
      · rcases except_bind_error_iff.1 h with h | ⟨_, _, h⟩
        · exact memRead_isAccess h
        · exact absurd h except_pure_ne_error
    exact hr.among (by decide)
  | hrun =>
    exact surface (two _ (by decide)) fun s =>
      Behaves.bind (Behaves.check fun _ h => runCheckH_among h (by decide)) fun _ =>
        behaves_drawPixels rfl (by decide) _ _ _ _
  | vrun =>
    exact surface (two _ (by decide)) fun s =>
      Behaves.bind (Behaves.check fun _ h => runCheckV_among h (by decide)) fun _ =>
        behaves_drawPixels rfl (by decide) _ _ _ _
  | mapaddr =>
    exact surface (two _ (by decide)) fun s =>
      Behaves.bind (Behaves.check fun _ h => pixelCheck_among h (by decide)) fun _ =>
        Behaves.bind (behaves_setResult0 rfl _) fun _ => behaves_setResult1 rfl _
  | fill => exact surface (two _ (by decide)) fun s => behaves_drawPixels rfl (by decide) _ _ _ _
  | fillrect =>
    exact surface (two _ (by decide)) fun s =>
      Behaves.bind (Behaves.check fun _ h => rectCheck_among h (by decide)) fun _ =>
        behaves_drawPixels rfl (by decide) _ _ _ _
  | rectout =>
    exact surface (two _ (by decide)) fun s =>
      Behaves.bind (Behaves.check fun _ h => rectoutCheck_among h (by decide)) fun _ =>
        behaves_drawPixels rfl (by decide) _ _ _ _
  | line =>
    exact surface (two _ (by decide)) fun s =>
      Behaves.bind (Behaves.check fun _ h => pixelCheck_among h (by decide)) fun _ =>
        Behaves.bind (Behaves.check fun _ h => pixelCheck_among h (by decide)) fun _ =>
          behaves_drawPixels rfl (by decide) _ _ _ _
  | decStart => exact Behaves.read fun s => behaves_setDecoder rfl _
  | decNext => exact Behaves.bind (behaves_nextCode rfl (by decide)) fun _ => behaves_setResult0 rfl _
  | decPeek => exact Behaves.bind (behaves_peekCode (by decide)) fun _ => behaves_setResult0 rfl _
  | glyphLookup =>
    refine Behaves.read fun s => ?_
    simp only
    split
    · exact Behaves.bind (behaves_setResult0 rfl _) fun _ => behaves_setResult1 rfl _
    · exact Behaves.bind (Behaves.check fun _ h => getHeader_among h (by decide)) fun _ =>
        Behaves.bind (behaves_setResult0 rfl _) fun _ => behaves_setResult1 rfl _
  | layoutStart =>
    exact Behaves.read fun s => Behaves.bind (behaves_setDecoder rfl _) fun _ =>
      Behaves.bind (behaves_setLayout rfl _) fun _ => behaves_setGlyph rfl _
  | layoutNext => exact Behaves.bind (behaves_layoutStep rfl rfl (by decide)) fun _ => Behaves.pure _
  | layoutExhaust => exact Behaves.read fun s => behaves_layoutLoop rfl rfl (by decide) _
  | renderGlyph => exact surface (two _ (by decide)) fun s => behaves_renderCurrent rfl (by decide) (by decide)
  | renderText =>
    exact surface (two _ (by decide)) fun s => behaves_renderLoop rfl rfl rfl (by decide) (by decide) _

/-- Each arm of `exec` is the frame of a command around its computation. -/
theorem exec_eq (i : Instr) (s : State) : exec i s = finish (bodyOf i) s := by cases i <;> rfl

/-- What a command that answers a next state has done: it came to its end, or it raised one of its faults; either way it
kept to its footprint. -/
theorem exec_next {i : Instr} {s t : State} (h : exec i s = .next t) :
    ∃ w, Keeps (footprint i) { st := s, wrote := [] } w ∧
      (t = complete w.st ∨ ∃ c : Cause, c.code.toNat ∈ mayRaise i ∧ t = raiseFault c w.st) := by
  rw [exec_eq, finish_next_iff] at h
  have hb := bodyOf_behaves i { st := s, wrote := [] }
  rcases h with ⟨w, hw, rfl⟩ | ⟨c, w, hw, rfl⟩
  · rw [hw] at hb
    exact ⟨w, hb, .inl rfl⟩
  · rw [hw] at hb
    exact ⟨w, hb.1, .inr ⟨c, hb.2, rfl⟩⟩

end Sys2Proof.Machine
end

