-- ==== Sys2Proof/Laws/Drawing.lean ====
section
/-! SUPPORT. What stops a drawing command: the first access of its pixels, in their order, that does not take place. -/

namespace Sys2Proof.Machine

/-! ### The first access that stops -/

/-- How an access ends that does not take place. -/
def Access.stop (p : Platform) (q : Access) : Option Stop :=
  match access p q.addr q.bytes q.kind with
  | .ok _ => none
  | .error e => some e

/-- How a list of accesses ends, made in order. -/
def firstStop (p : Platform) (l : List Access) : Option Stop := l.findSome? (Access.stop p)

/-- How a computation on a canvas stops. -/
def stopOf {α : Type} : EStateM.Result Stop Canvas α → Option Stop
  | .ok _ _ => none
  | .error e _ => some e

section Stops
variable {p : Platform} {α β : Type}

theorem Access.stop_none_iff {q : Access} : q.stop p = none ↔ p.serves q.addr q.bytes q.kind = true := by
  rw [← access_ok_iff]
  unfold Access.stop
  cases access p q.addr q.bytes q.kind <;> simp

theorem firstStop_none_iff {l : List Access} :
    firstStop p l = none ↔ ∀ q ∈ l, p.serves q.addr q.bytes q.kind = true := by
  simp [firstStop, Access.stop_none_iff]

/-- Without read side effects an access is served exactly when the platform admits it. -/
theorem serves_of_plain (hp : p.readEffects = []) (a : Word) (n : Nat) (k : AccessKind) :
    p.serves a n k = p.admits a n k := by
  simp [Platform.serves, Platform.touchesReadEffects, hp]

/-- Without read side effects a list of accesses ends with the BusError of the first one that the platform refuses. -/
theorem firstStop_some (hp : p.readEffects = []) {l : List Access} {e : Stop} (h : firstStop p l = some e) :
    ∃ a, e = .raise (.busError a) ∧ p.firstRefused l a := by
  obtain ⟨before, q, rest, hl, hq, hb⟩ := List.findSome?_eq_some_iff.1 h
  have hr : p.admits q.addr q.bytes q.kind = false ∧ e = .raise (.busError q.addr) := by
    unfold Access.stop at hq
    split at hq <;> cases hq
    next ha =>
      rcases access_error ha with h | ⟨-, h, -⟩
      · exact h
      · simp [Platform.touchesReadEffects, hp] at h
  exact ⟨q.addr, hr.2, before, q, rest, hl, rfl, fun c hc => Access.stop_none_iff.1 (hb c hc), hr.1⟩

theorem stopOf_bind (x : Draw α) (f : α → Draw β) (c : Canvas) :
    stopOf ((x >>= f) c) = match x c with | .ok a c' => stopOf (f a c') | .error e _ => some e := by
  rw [run_bind]
  cases x c <;> rfl

theorem stopOf_memWrite (a v : Word) (n : Nat) (c : Canvas) :
    stopOf (memWrite p a n v c) = Access.stop p ⟨a, n, .write⟩ := by
  unfold Access.stop
  cases h : access p a n .write with
  | error e => rw [memWrite_of_error h]; rfl
  | ok u => rw [memWrite_of_serves (access_ok_iff.1 h)]; rfl

theorem stopOf_drawRead (a : Word) (n : Nat) (c : Canvas) :
    stopOf (drawRead p a n c) = Access.stop p ⟨a, n, .read⟩ := by
  unfold Access.stop
  rw [drawRead_eq]
  cases h : access p a n .read with
  | error e => rw [memRead_error_iff.2 h]; rfl
  | ok u => rw [memRead_of_serves (access_ok_iff.1 h)]; rfl

/-- What stops the first part stops the whole; else the rest decides, wherever it starts. -/
theorem stopOf_bind_of {x : Draw α} {f : α → Draw β} {q : Access} {o : Option Stop}
    (hx : ∀ c, stopOf (x c) = q.stop p) (hf : ∀ a c, stopOf (f a c) = o) (c : Canvas) :
    stopOf ((x >>= f) c) = (match q.stop p with | none => o | some e => some e) := by
  have h := hx c
  rw [stopOf_bind]
  cases hc : x c <;> rw [hc] at h <;> rw [← h]
  · exact hf _ _
  · rfl

/-- PutPix stops where the first of its accesses does that does not take place (41_pixel.md R167, 20_memory.md R82). -/
theorem putPix_stop (sf : Surface) (v : Word) (x y : Nat) (c : Canvas) :
    stopOf (putPix p sf v x y c) = firstStop p (sf.putAccesses x y) := by
  have one : ∀ q : Access, firstStop p [q] = q.stop p := fun q => by
    simp only [firstStop, List.findSome?_cons, List.findSome?_nil]; cases q.stop p <;> rfl
  have more : ∀ (q q' : Access) (l : List Access), firstStop p (q :: q' :: l) =
      match q.stop p with | none => firstStop p (q' :: l) | some e => some e := fun q q' l => by
    simp only [firstStop, List.findSome?_cons]; cases q.stop p <;> rfl
  have half : ∀ (a mask v : Word) (sh : Nat) (c : Canvas), stopOf (mergeHalfword p a mask v sh c) =
      firstStop p [⟨a &&& 0xFFFFFFFE, 2, .read⟩, ⟨a &&& 0xFFFFFFFE, 2, .write⟩] := fun a mask v sh c => by
    rw [more, one]
    exact stopOf_bind_of (stopOf_drawRead _ _) (fun _ => stopOf_memWrite _ _ _) c
  unfold putPix Surface.putAccesses Surface.bpp
  generalize sf.fmt = fmt
  match fmt with
  | 0 =>
    cases sf.vram16
    · simp only [Bool.false_eq_true, if_false, more, one]
      exact stopOf_bind_of (stopOf_drawRead _ _) (fun _ => stopOf_memWrite _ _ _) c
    · exact half _ _ _ _ _
  | 1 =>
    cases sf.vram16
    · exact (stopOf_memWrite _ _ _ _).trans (one _).symm
    · exact half _ _ _ _ _
  | 2 => exact (stopOf_memWrite _ _ _ _).trans (one _).symm
  | 3 =>
    simp only [more, one]
    exact stopOf_bind_of (stopOf_memWrite _ _ _)
      (fun _ => stopOf_bind_of (stopOf_memWrite _ _ _) fun _ => stopOf_memWrite _ _ _) c
  | _ + 4 => exact (stopOf_memWrite _ _ _ _).trans (one _).symm

/-- A drawing command's body stops where the first access of its pixels does, in their order, that does not take place
(20_memory.md R82). -/
theorem drawPixels_stop (sf : Surface) (v : Word) (l : List (Nat × Nat)) (c : Canvas) :
    stopOf (drawPixels p sf v l c) = l.findSome? fun q => firstStop p (sf.putAccesses q.1 q.2) := by
  have all : ∀ (l : List (Nat × Nat)) (c : Canvas),
      stopOf (putPixels p sf v l c) = l.findSome? fun q => firstStop p (sf.putAccesses q.1 q.2) := by
    intro l
    induction l with
    | nil => intro c; rfl
    | cons q rest ih =>
      intro c
      have h := putPix_stop (p := p) sf v q.1 q.2 c
      rw [putPixels, forEach_cons, List.findSome?_cons, ← h]
      cases putPix p sf v q.1 q.2 c with
      | ok u c' => exact ih c'
      | error e c' => rfl
  rw [← all l c, drawPixels]
  cases putPixels p sf v l c with
  | ok u c' => rfl
  | error e c' => cases e <;> rfl

end Stops

/-! ### The pixels of a drawing command, in order -/

/-- The pixels a drawing command writes, in the order it comes to them. -/
def drawnList (i : Instr) (s : State) : List (Nat × Nat) :=
  let g := s.blk.args
  match i with
  | .setpix => [(g.x0, g.y0)]
  | .hrun => horizontalRun g.x0 g.y0 g.x1
  | .vrun => verticalRun g.x0 g.y0 g.x1
  | .fill => rectPixels 0 0 s.blk.surf.pixelWidth s.blk.surf.pixelHeight
  | .fillrect => rectPixels g.x0 g.y0 g.x1 g.y1
  | .rectout => rectoutPixels g.x0 g.y0 g.x1 g.y1
  | .line => linePixels g.x0 g.y0 g.x1 g.y1
  | .nop | .getpix | .mapaddr | .decStart | .decNext | .decPeek | .glyphLookup | .layoutStart | .layoutNext => []
  | .layoutExhaust | .renderGlyph | .renderText => []

theorem mem_drawnList {i : Instr} {s : State} {a b : Nat} : (a, b) ∈ drawnList i s ↔ drawnSet i s a b := by
  cases i <;> simp only [drawnList, drawnSet, List.not_mem_nil]
  · simp
  · exact mem_horizontalRun
  · exact mem_verticalRun
  · simp [mem_rectPixels, Surface.Inside]
  · exact mem_rectPixels
  · unfold rectoutPixels
    by_cases hw : s.blk.args.x1 = 0 <;> by_cases hh : s.blk.args.y1 = 0
    · simp [hw, hh]
    · simp [hw, hh, mem_verticalRun, Nat.pos_of_ne_zero hh]
    · simp [hw, hh, mem_horizontalRun, Nat.pos_of_ne_zero hw]
    · simp [hw, hh, mem_outlinePixels (Nat.pos_of_ne_zero hw) (Nat.pos_of_ne_zero hh), Nat.pos_of_ne_zero hw,
        Nat.pos_of_ne_zero hh]
  · exact mem_linePixels

/-- Row by row, and ascending in a row. -/
def RowOrder (q q' : Nat × Nat) : Prop := q.2 < q'.2 ∨ (q.2 = q'.2 ∧ q.1 < q'.1)

theorem horizontalRun_sorted (x y n : Nat) : (horizontalRun x y n).Pairwise RowOrder :=
  List.pairwise_map.2 (List.pairwise_lt_range.imp fun h => .inr ⟨rfl, by simpa using h⟩)

theorem verticalRun_sorted (x y n : Nat) : (verticalRun x y n).Pairwise RowOrder :=
  List.pairwise_map.2 (List.pairwise_lt_range.imp fun h => .inl (by simpa using h))

theorem rectPixels_sorted (x y w h : Nat) : (rectPixels x y w h).Pairwise RowOrder := by
  refine List.pairwise_flatMap.2 ⟨fun r _ => horizontalRun_sorted _ _ _, List.pairwise_lt_range.imp fun hr q hq q' hq' => ?_⟩
  have h1 := (mem_horizontalRun (a := q.1) (b := q.2)).1 hq
  have h2 := (mem_horizontalRun (a := q'.1) (b := q'.2)).1 hq'
  exact .inl (by omega)

/-- A line of the recurrence ascends along its major axis (42_raster.md R194, R195). -/
theorem bresenham_sorted (twoMajor twoMinor step : Int) : ∀ (n major : Nat) (minor d : Int),
    (bresenham twoMajor twoMinor step n major minor d).Pairwise (fun q q' => q.1 < q'.1) ∧
      ∀ q ∈ bresenham twoMajor twoMinor step n major minor d, major ≤ q.1 := by
  intro n
  induction n with
  | zero => intro major minor d; simp [bresenham]
  | succ n ih =>
    intro major minor d
    rw [bresenham]
    have rest : ∀ l : List (Nat × Nat), l.Pairwise (fun q q' => q.1 < q'.1) → (∀ q ∈ l, major + 1 ≤ q.1) →
        ((major, minor.toNat) :: l).Pairwise (fun q q' => q.1 < q'.1) ∧
          ∀ q ∈ (major, minor.toNat) :: l, major ≤ q.1 := by
      intro l h1 h2
      refine ⟨List.pairwise_cons.2 ⟨fun q hq => Nat.lt_of_succ_le (h2 q hq), h1⟩, fun q hq => ?_⟩
      rcases List.mem_cons.1 hq with rfl | hq
      · exact le_refl _
      · exact Nat.le_of_succ_le (h2 q hq)
    split <;> exact rest _ (ih ..).1 (ih ..).2

theorem steppedLine_sorted (a0 b0 a1 b1 : Nat) :
    (steppedLine a0 b0 a1 b1).Pairwise (fun q q' => q.1 < q'.1) := (bresenham_sorted ..).1

/-- LINE ascends along its longer axis, y where both are equally long (42_raster.md R193 to R195). -/
theorem linePixels_sorted (x0 y0 x1 y1 : Nat) : (linePixels x0 y0 x1 y1).Pairwise fun q q' =>
    if distance y0 y1 < distance x0 x1 then q.1 < q'.1 else q.2 < q'.2 := by
  unfold linePixels
  by_cases hy : y0 = y1
  · rw [if_pos hy]
    by_cases hx : x0 = x1
    · rw [if_pos hx]; exact List.pairwise_singleton _ _
    · rw [if_neg hx]
      refine (horizontalRun_sorted ..).imp_of_mem fun {q q'} hq hq' h => ?_
      have h1 := (mem_horizontalRun (a := q.1) (b := q.2)).1 hq
      have h2 := (mem_horizontalRun (a := q'.1) (b := q'.2)).1 hq'
      rw [if_pos (by simp only [distance]; omega)]
      unfold RowOrder at h
      omega
  · rw [if_neg hy]
    by_cases hx : x0 = x1
    · rw [if_pos hx]
      refine (verticalRun_sorted ..).imp_of_mem fun {q q'} hq hq' h => ?_
      have h1 := (mem_verticalRun (a := q.1) (b := q.2)).1 hq
      have h2 := (mem_verticalRun (a := q'.1) (b := q'.2)).1 hq'
      rw [if_neg (by simp only [distance]; omega)]
      unfold RowOrder at h
      omega
    · rw [if_neg hx]
      by_cases hl : distance y0 y1 < distance x0 x1
      · simp only [if_pos hl]
        unfold lineLow
        split <;> exact steppedLine_sorted ..
      · simp only [if_neg hl]
        unfold lineHigh
        refine List.pairwise_map.2 ?_
        split <;> exact steppedLine_sorted ..

/-- The outline of a rectangle, side by side (42_raster.md R192). -/
theorem outlinePixels_sorted {s : State} (hwh : 0 < s.blk.args.x1 ∧ 0 < s.blk.args.y1) :
    (outlinePixels s.blk.args.x0 s.blk.args.y0 s.blk.args.x1 s.blk.args.y1).Pairwise fun q q' =>
      drawnBefore .rectout s q.1 q.2 q'.1 q'.2 := by
  simp only [drawnBefore, if_pos hwh, outlinePixels]
  generalize s.blk.args.x0 = x
  generalize s.blk.args.y0 = y
  generalize s.blk.args.x1 = w at hwh ⊢
  generalize s.blk.args.y1 = h at hwh ⊢
  have across : ∀ {x' y' n : Nat} {q : Nat × Nat}, q ∈ horizontalRun x' y' n → q.2 = y' ∧ x' ≤ q.1 ∧ q.1 < x' + n :=
    fun {x' y' n q} hq => by have := (mem_horizontalRun (a := q.1) (b := q.2)).1 hq; omega
  have down : ∀ {x' y' n : Nat} {q : Nat × Nat}, q ∈ verticalRun x' y' n → q.1 = x' ∧ y' ≤ q.2 ∧ q.2 < y' + n :=
    fun {x' y' n q} hq => by have := (mem_verticalRun (a := q.1) (b := q.2)).1 hq; omega
  have one : ∀ {l : List (Nat × Nat)} {side : Nat × Nat → Nat} (k : Nat), l.Pairwise RowOrder → (∀ q ∈ l, side q = k) →
      l.Pairwise fun q q' => side q < side q' ∨ (side q = side q' ∧ RowOrder q q') := fun k hl hk =>
    hl.imp_of_mem fun hq hq' h => .inr ⟨(hk _ hq).trans (hk _ hq').symm, h⟩
  let side (q : Nat × Nat) : Nat := if q.2 = y then 0 else if q.2 = y + h - 1 then 1 else if q.1 = x then 2 else 3
  have top : ∀ q ∈ horizontalRun x y w, side q = 0 := fun q hq => by
    have := across hq; simp only [side]; rw [if_pos this.1]
  have bottom : ∀ q ∈ if 2 ≤ h then horizontalRun x (y + h - 1) w else [], side q = 1 := fun q hq => by
    split at hq
    · have := across hq; simp only [side]; rw [if_neg (by omega), if_pos this.1]
    · cases hq
  have left : ∀ q ∈ verticalRun x (y + 1) (h - 2), side q = 2 := fun q hq => by
    have := down hq; simp only [side]; rw [if_neg (by omega), if_neg (by omega), if_pos this.1]
  have right : ∀ q ∈ if 2 ≤ w then verticalRun (x + w - 1) (y + 1) (h - 2) else [], side q = 3 := fun q hq => by
    split at hq
    · have := down hq; simp only [side]; rw [if_neg (by omega), if_neg (by omega), if_neg (by omega)]
    · cases hq
  have sides : ∀ q ∈ if 3 ≤ h then verticalRun x (y + 1) (h - 2) ++
      (if 2 ≤ w then verticalRun (x + w - 1) (y + 1) (h - 2) else []) else [], side q = 2 ∨ side q = 3 := fun q hq => by
    split at hq
    · exact (List.mem_append.1 hq).imp (left q) (right q)
    · cases hq
  refine List.pairwise_append.2 ⟨List.pairwise_append.2 ⟨one (side := side) 0 (horizontalRun_sorted ..) top, ?_, ?_⟩, ?_, ?_⟩
  · refine one (side := side) 1 ?_ bottom
    split
    · exact horizontalRun_sorted ..
    · exact List.Pairwise.nil
  · exact fun q hq q' hq' => .inl (show side q < side q' by rw [top q hq, bottom q' hq']; decide)
  · split
    · refine List.pairwise_append.2 ⟨one (side := side) 2 (verticalRun_sorted ..) left, one (side := side) 3 ?_ right, ?_⟩
      · split
        · exact verticalRun_sorted ..
        · exact List.Pairwise.nil
      · exact fun q hq q' hq' => .inl (show side q < side q' by rw [left q hq, right q' hq']; decide)
    · exact List.Pairwise.nil
  · refine fun q hq q' hq' => .inl (show side q < side q' from ?_)
    have h1 : side q = 0 ∨ side q = 1 := (List.mem_append.1 hq).imp (top q) (bottom q)
    have h2 := sides q' hq'
    omega

/-- A drawing command comes to its pixels in the order that `drawnBefore` says. -/
theorem drawnList_sorted (i : Instr) (s : State) :
    (drawnList i s).Pairwise fun q q' => drawnBefore i s q.1 q.2 q'.1 q'.2 := by
  have row : ∀ {l : List (Nat × Nat)} {j : Instr}, l.Pairwise RowOrder →
      (∀ q q', RowOrder q q' → drawnBefore j s q.1 q.2 q'.1 q'.2) →
      l.Pairwise fun q q' => drawnBefore j s q.1 q.2 q'.1 q'.2 := fun h hj => h.imp fun {q q'} h => hj q q' h
  cases i <;> simp only [drawnList, List.Pairwise.nil]
  · exact List.pairwise_singleton _ _
  · exact row (horizontalRun_sorted ..) fun _ _ h => h
  · exact row (verticalRun_sorted ..) fun _ _ h => h
  · exact row (rectPixels_sorted ..) fun _ _ h => h
  · exact row (rectPixels_sorted ..) fun _ _ h => h
  · unfold rectoutPixels
    by_cases hwh : 0 < s.blk.args.x1 ∧ 0 < s.blk.args.y1
    · rw [if_neg (by omega), if_neg (by omega), if_neg (by omega)]
      exact outlinePixels_sorted hwh
    · have flat : ∀ q q', RowOrder q q' → drawnBefore .rectout s q.1 q.2 q'.1 q'.2 := fun q q' h => by
        simp only [drawnBefore]; rw [if_neg hwh]; exact h
      split
      · exact List.pairwise_singleton _ _
      · split
        · exact row (verticalRun_sorted ..) flat
        · split
          · exact row (horizontalRun_sorted ..) flat
          · omega
  · have e := distance_eq_abs s.blk.args.x0 s.blk.args.x1
    have e' := distance_eq_abs s.blk.args.y0 s.blk.args.y1
    simp only [drawnBefore, e, e', Nat.cast_lt]
    exact linePixels_sorted _ _ _ _

/-- A surface's pixel is in bounds as R161 says. -/
theorem inBounds_iff {sf : Surface} {x y : Nat} : sf.inBounds x y = true ↔ sf.Inside x y := by
  simp [Surface.inBounds, Surface.Inside]

/-- A run, a rectangle or LINE, its checks passed, draws the pixels of its list (41_pixel.md R172, R173; 42_raster.md R190
to R193). -/
theorem drawing_run {i : Instr} {s : State} (hi : i ∈ [.hrun, .vrun, .fill, .fillrect, .rectout, .line])
    (hs : surfCheck s.blk.surf = .ok ()) (hb : ¬ badArguments i s) :
    bodyOf i { st := s, wrote := [] } =
      draw (drawPixels s.platform s.blk.surf s.blk.args.value (drawnList i s)) { st := s, wrote := [] } := by
  have pixel : ∀ {op : Word} {x y : Nat}, s.blk.surf.Inside x y → pixelCheck s.blk.surf op x y = .ok () :=
    fun h => if_pos (inBounds_iff.2 h)
  have start : ∀ {f : State → Engine Unit}, (theState >>= fun s => check (surfCheck s.blk.surf) >>= fun _ => f s)
      { st := s, wrote := [] } = f s { st := s, wrote := [] } := fun {f} => by
    rw [run_bind, run_theState]; dsimp only; rw [run_bind, hs]; rfl
  have checked : ∀ {e : Except Stop Unit} {f : Unit → Engine Unit}, e = .ok () →
      (check e >>= f) { st := s, wrote := [] } = f () { st := s, wrote := [] } := fun he => by rw [he]; rfl
  cases i <;> simp only [List.mem_cons, reduceCtorEq, List.not_mem_nil, or_false, or_self] at hi <;>
    simp only [badArguments] at hb
  · have h := not_not.1 hb
    exact start.trans (checked (if_pos ⟨h.1.1, h.1.2, h.2⟩))
  · have h := not_not.1 hb
    exact start.trans (checked (if_pos ⟨h.1.1, h.1.2, h.2⟩))
  · exact start
  · refine start.trans (checked (if_pos ?_))
    by_cases hh : s.blk.args.y1 = 0
    · exact .inl hh
    · exact .inr (not_not.1 fun h => hb ⟨Nat.pos_of_ne_zero hh, h⟩)
  · refine start.trans (checked ?_)
    unfold rectoutCheck
    by_cases hw : s.blk.args.x1 = 0 <;> by_cases hh : s.blk.args.y1 = 0
    · rw [if_pos ⟨hw, hh⟩]
      exact pixel (not_not.1 fun h => hb (.inl ⟨hw, hh, h⟩))
    · rw [if_neg fun h => hh h.2, if_pos hw]
      have h := not_not.1 fun h => hb (.inr (.inl ⟨hw, Nat.pos_of_ne_zero hh, h⟩))
      exact if_pos ⟨h.1.1, h.1.2, h.2⟩
    · rw [if_neg fun h => hw h.1, if_neg hw, if_pos hh]
      have h := not_not.1 fun h => hb (.inr (.inr (.inl ⟨Nat.pos_of_ne_zero hw, hh, h⟩)))
      exact if_pos ⟨h.1.1, h.1.2, h.2⟩
    · rw [if_neg fun h => hw h.1, if_neg hw, if_neg hh]
      exact if_pos (not_not.1 fun h => hb (.inr (.inr (.inr ⟨Nat.pos_of_ne_zero hw, Nat.pos_of_ne_zero hh, h⟩))))
  · rw [not_or, not_not, not_not] at hb
    exact start.trans ((checked (pixel hb.1)).trans (checked (pixel hb.2)))

/-- The order of the pixels is strict. -/
theorem drawnBefore_asymm {i : Instr} {s : State} {a b a' b' : Nat} (h : drawnBefore i s a b a' b') :
    ¬ drawnBefore i s a' b' a b := by
  cases i <;> simp only [drawnBefore] at h ⊢ <;> try omega
  · by_cases hwh : 0 < s.blk.args.x1 ∧ 0 < s.blk.args.y1
    · rw [if_pos hwh] at h ⊢; omega
    · rw [if_neg hwh] at h ⊢; omega
  · split at h <;> rename_i hl <;> simp only [hl, if_true, if_false] <;> omega

end Sys2Proof.Machine
end

