-- ==== Sys2Proof/Laws/Host.lean ====
section
/-! SUPPORT. Everything a move of the host and a reset can do, and the two kinds of steps. -/

namespace Sys2Proof.Machine

/-! ### Reset -/

theorem finalWork_keeps (i : Instr) (s : State) :
    Keeps (footprint i) { st := s, wrote := [] } (finalWork (bodyOf i) s) := by
  have h := bodyOf_behaves i { st := s, wrote := [] }
  unfold finalWork
  cases he : bodyOf i { st := s, wrote := [] } with
  | ok a w => rw [he] at h; exact h
  | error r w => rw [he] at h; exact h.1

/-- Everything the abandonment of a command does (70_reset_and_hazards.md R342): its bytes take free values, and
nothing else changes. -/
theorem abandon_bytes (i : Instr) (s : State) :
    ∃ m n, abandon (bodyOf i) s = { s with mem := m, draws := n } ∧ s.draws ≤ n ∧
      (Memory.wf s.mem = true → Memory.wf m = true) ∧
      (∀ a, a ∉ bytesWritten i s → byteAt m a = byteAt s.mem a) ∧
      (Memory.wf s.mem = true → ∀ a ∈ bytesWritten i s, ∃ k, s.draws ≤ k ∧ byteAt m a = Config.freeByte k) := by
  let c : Canvas := { mem := s.mem, draws := (finalWork (bodyOf i) s.plain).st.draws, wrote := [] }
  have hw := freeBytes_writes (bytesWritten i s) c
  have hd : s.draws ≤ c.draws := (finalWork_keeps i s.plain).draws
  refine ⟨(freeBytes (bytesWritten i s) c).mem, (freeBytes (bytesWritten i s) c).draws, rfl, hd.trans hw.draws, hw.wf,
    hw.frame, fun hm a ha => ?_⟩
  obtain ⟨k, hk, h⟩ := freeBytes_free (bytesWritten i s) (c := c) hm ha
  exact ⟨k, hd.trans hk, h⟩

/-- Everything a soft reset does (70_reset_and_hazards.md R341, R342): the block is reset, and the bytes of a command in
flight take free values. -/
theorem softReset_cases (s : State) :
    softReset s = resetBlock s ∧ (s.blk.latch = none ∨ ∃ w r, s.blk.latch = some w ∧ decode w = .illegal r) ∨
      ∃ w i, s.blk.latch = some w ∧ decode w = .command i ∧ softReset s = resetBlock (abandon (bodyOf i) s) := by
  unfold softReset
  split
  · next h => exact .inl ⟨rfl, .inl h⟩
  · next w h =>
    split
    · next r hr => exact .inl ⟨rfl, .inr ⟨w, r, h, hr⟩⟩
    · next i hi => exact .inr ⟨w, i, h, hi, rfl⟩

theorem softReset_blk (s : State) : (softReset s).blk = .reset := by
  rcases softReset_cases s with ⟨h, -⟩ | ⟨w, i, -, -, h⟩ <;> rw [h] <;> rfl

theorem softReset_settled (s : State) : (softReset s).settled = s.settled := by
  rcases softReset_cases s with ⟨h, -⟩ | ⟨w, i, -, -, h⟩ <;> rw [h] <;> rfl

theorem softReset_pending (s : State) : (softReset s).pending = { s.pending with registers := false } := by
  rcases softReset_cases s with ⟨h, -⟩ | ⟨w, i, -, -, h⟩ <;> rw [h] <;> rfl

theorem softReset_wf {s : State} (hm : Memory.wf s.mem = true) : Memory.wf (softReset s).mem = true := by
  rcases softReset_cases s with ⟨h, -⟩ | ⟨w, i, -, -, h⟩ <;> rw [h]
  · exact hm
  · obtain ⟨m, n, e, -, hw, -⟩ := abandon_bytes i s
    rw [e]
    exact hw hm

/-! ### The host's moves -/

/-- Everything a host read does: it is remembered, and a STATUS read with BUSY = 0 settles the last command, after which
no result is pending (70_reset_and_hazards.md R347). -/
theorem hostRead_eq (offset : Nat) (s : State) :
    hostRead offset s = { s with
      seen := .register offset (s.readValue offset) :: s.seen
      settled := s.settled || (decide (regAt offset = some .status) && !s.blk.busy)
      pending := if regAt offset = some .status ∧ s.blk.busy = false then .none else s.pending } := by
  unfold hostRead
  cases hb : s.blk.busy <;> by_cases hr : regAt offset = some .status <;> simp [hr, remember]

/-- A host load of bytes in which no result is pending returns the bytes of memory. -/
theorem loadBytes_exact {s : State} {a : Word} {n : Nat} (h : ∀ c ∈ accessBytes a n, c ∉ s.pending.bytes) :
    s.loadBytes a n = (List.range n).map fun j => byteAt s.mem (a + BitVec.ofNat 32 j) := by
  refine List.map_congr_left fun j hj => ?_
  have : a + BitVec.ofNat 32 j ∉ s.pending.bytes := h _ (List.mem_map_of_mem hj)
  simp [State.loadByte, this]

theorem hostMemory_next {a : Word} {n : Nat} {f : State → State} {s t : State} (h : hostMemory a n f s = .next t) :
    t = f s ∧ (∀ c ∈ accessBytes a n, s.platform.inWindow c = false) ∧ ∀ c ∈ accessBytes a n, s.mayUse c = false := by
  unfold hostMemory at h
  split at h
  · cases h
  · next hw =>
    split at h
    · cases h
    · next hu =>
      cases h
      simp only [List.any_eq_true, not_exists, not_and, Bool.not_eq_true] at hw hu
      exact ⟨rfl, hw, hu⟩

/-- Everything a host write to the register window does (10_state.md R31 to R37): nothing, a soft reset, or with
BUSY = 0 a fault cleared, a command issued, or a register written. -/
theorem hostWrite_next {offset : Nat} {v : Word} {s t : State} (h : hostWrite offset v s = .next t) :
    t = s ∨ t = softReset s ∨
      (s.blk.busy = false ∧ (t = clearFault s ∨ t = issueCommand v s ∨ ∃ r, t = { s with blk := s.blk.writeReg v r })) := by
  unfold hostWrite at h
  generalize regAt offset = reg at h
  have busy : ∀ {u : State}, (if s.blk.busy = true then Host.Outcome.refused Refusal.hostWriteWhileBusy
      else .next u : Host.Outcome State Fault Refusal) = .next t → s.blk.busy = false ∧ t = u := by
    intro u h
    split at h
    · cases h
    · next hb => cases h; exact ⟨by simpa using hb, rfl⟩
  split at h
  · cases h
    unfold writeCtrl
    split
    · exact .inr (.inl rfl)
    · exact .inl rfl
  · obtain ⟨hb, rfl⟩ := busy h
    split
    · exact .inr (.inr ⟨hb, .inl rfl⟩)
    · exact .inl rfl
  · obtain ⟨hb, rfl⟩ := busy h
    exact .inr (.inr ⟨hb, .inr (.inl rfl)⟩)
  · next r _ _ _ => obtain ⟨hb, rfl⟩ := busy h; exact .inr (.inr ⟨hb, .inr (.inr ⟨r, rfl⟩)⟩)
  · cases h; exact .inl rfl

theorem clearFault_mem (s : State) : (clearFault s).mem = s.mem := by unfold clearFault; split <;> rfl
theorem issueCommand_mem (w : Word) (s : State) : (issueCommand w s).mem = s.mem := by
  unfold issueCommand; split <;> rfl

/-- Everything a move of the host does to the block: nothing, a reset, or with BUSY = 0 a fault cleared, a command
issued, or a register written. And every move keeps memory in its form. -/
theorem hostMove_next {move : HostMove} {s t : State} (h : hostMove move s = .next t) :
    (t.blk = s.blk ∨ t.blk = .reset ∨
      (s.blk.busy = false ∧ (t.blk = (clearFault s).blk ∨ (∃ v, t.blk = (issueCommand v s).blk) ∨
        ∃ v r, t.blk = s.blk.writeReg v r))) ∧ (Memory.wf s.mem = true → Memory.wf t.mem = true) := by
  unfold hostMove at h
  split at h
  · split at h
    · cases h
    · split at h
      · rcases hostWrite_next h with rfl | rfl | ⟨hb, rfl | rfl | ⟨r, rfl⟩⟩
        · exact ⟨.inl rfl, id⟩
        · exact ⟨.inr (.inl (softReset_blk s)), softReset_wf⟩
        · exact ⟨.inr (.inr ⟨hb, .inl rfl⟩), by rw [clearFault_mem]; exact id⟩
        · exact ⟨.inr (.inr ⟨hb, .inr (.inl ⟨_, rfl⟩)⟩), by rw [issueCommand_mem]; exact id⟩
        · exact ⟨.inr (.inr ⟨hb, .inr (.inr ⟨_, r, rfl⟩)⟩), id⟩
      · cases h
  · split at h
    · cases h
    · split at h
      · cases h
        rw [hostRead_eq]
        exact ⟨.inl rfl, id⟩
      · cases h
  · cases h
    rw [hostRead_eq]
    dsimp only
    split <;> exact ⟨.inl rfl, id⟩
  · rw [(hostMemory_next h).1]; exact ⟨.inl rfl, fun hm => storeBytes_wf _ _ hm⟩
  · rw [(hostMemory_next h).1]; exact ⟨.inl rfl, id⟩
  · cases h; exact ⟨.inr (.inl rfl), id⟩
  · cases h; exact ⟨.inl rfl, id⟩

/-! ### Steps -/

/-- A command that answers a next state has changed only bytes that it wrote, and these are its results in memory; a
command that writes no memory has none (70_reset_and_hazards.md R347). -/
theorem exec_resultBytes {i : Instr} {s t : State} (h : exec i s = .next t) :
    (∀ a, a ∉ resultBytes i s → byteAt t.mem a = byteAt s.mem a) ∧
      ((footprint i).memory = false → resultBytes i s = []) := by
  have hk := finalWork_keeps i s
  refine ⟨fun a ha => ?_, fun hf => (hk.memory hf).2.2⟩
  have hm : t.mem = (finalWork (bodyOf i) s).st.mem := by
    rw [exec_eq, finish_next_iff] at h
    rcases h with ⟨w, hw, rfl⟩ | ⟨c, w, hw, rfl⟩ <;> simp [finalWork, hw]
  rw [hm]
  exact hk.notes.2 a ha

/-- Everything the engine's execution of a command does beside `exec`: the bytes it wrote are pending. -/
theorem runCommand_next {i : Instr} {s t : State} (h : runCommand i s = .next t) :
    ∃ u, exec i s = .next u ∧
      t = { u with pending := { u.pending with bytes := resultBytes i s ++ u.pending.bytes } } := by
  unfold runCommand at h
  split at h
  · next u hu => cases h; exact ⟨u, hu, rfl⟩
  · cases h
  · cases h

/-- A command leaves what is pending as it was. -/
theorem exec_pending {i : Instr} {s t : State} (h : exec i s = .next t) : t.pending = s.pending := by
  obtain ⟨w, hk, rfl | ⟨c, -, rfl⟩⟩ := exec_next h
  · exact hk.pending
  · exact hk.pending

/-- Everything a step can be: an idle turn, the engine executing the latched word, or a move of the host. -/
theorem step_cases (s : State) :
    (step s = .next s.nextTurn) ∨
    (∃ w, s.turn = .engine ∧ s.blk.latch = some w ∧ step s = runWord w s.nextTurn) ∨
    ∃ move rest, s.turn = .host ∧ s.host = move :: rest ∧ step s = hostMove move { s.nextTurn with host := rest } := by
  unfold step
  cases ht : s.turn with
  | engine =>
    dsimp only
    cases hl : s.blk.latch with
    | none => left; simp [engineStep, hl]
    | some w => right; left; exact ⟨w, rfl, rfl, by simp [engineStep, hl]⟩
  | host =>
    dsimp only
    cases hh : s.host with
    | nil => left; simp [hostStep, hh]
    | cons move rest => right; right; exact ⟨move, rest, rfl, rfl, by simp [hostStep, hh]⟩

end Sys2Proof.Machine
end

