-- ==== Sys2Proof/Laws/PerInstr.lean ====
section
/-! SUPPORT. Per command: its word decodes to it, and is well formed (30_encoding.md R120, R123, R125). -/

namespace Sys2Proof.Laws.RoundTrip

/-- The word of a command is well formed and decodes to the command, also as the opcode table lays it out. -/
def Statement (i : Instr) : Prop :=
  i.commandWord.wellFormed = true ∧ decode (encode i) = .command i ∧ decodeTableWord 32 (encode i).toNat = some i

theorem nop : Statement .nop := ⟨by decide, by decide, by decide⟩
theorem setpix : Statement .setpix := ⟨by decide, by decide, by decide⟩
theorem getpix : Statement .getpix := ⟨by decide, by decide, by decide⟩
theorem hrun : Statement .hrun := ⟨by decide, by decide, by decide⟩
theorem vrun : Statement .vrun := ⟨by decide, by decide, by decide⟩
theorem mapaddr : Statement .mapaddr := ⟨by decide, by decide, by decide⟩
theorem fill : Statement .fill := ⟨by decide, by decide, by decide⟩
theorem fillrect : Statement .fillrect := ⟨by decide, by decide, by decide⟩
theorem rectout : Statement .rectout := ⟨by decide, by decide, by decide⟩
theorem line : Statement .line := ⟨by decide, by decide, by decide⟩
theorem decStart : Statement .decStart := ⟨by decide, by decide, by decide⟩
theorem decNext : Statement .decNext := ⟨by decide, by decide, by decide⟩
theorem decPeek : Statement .decPeek := ⟨by decide, by decide, by decide⟩
theorem glyphLookup : Statement .glyphLookup := ⟨by decide, by decide, by decide⟩
theorem layoutStart : Statement .layoutStart := ⟨by decide, by decide, by decide⟩
theorem layoutNext : Statement .layoutNext := ⟨by decide, by decide, by decide⟩
theorem layoutExhaust : Statement .layoutExhaust := ⟨by decide, by decide, by decide⟩
theorem renderGlyph : Statement .renderGlyph := ⟨by decide, by decide, by decide⟩
theorem renderText : Statement .renderText := ⟨by decide, by decide, by decide⟩

end Sys2Proof.Laws.RoundTrip
end

