-- ==== Sys2Proof/Laws/Text.lean ====
section
/-! SUPPORT. The decoder, the charset table and the layout's arithmetic: what each operation answers, in the numbers
that the statements use, and on which bytes of memory it depends. -/

namespace Sys2Proof.Machine

/-! ### Fields and narrowing -/

theorem hdrSizeX_eq (h : Word) : hdrSizeX h = h.toNat % 16 := by simp [hdrSizeX]

theorem hdrSizeY_eq (h : Word) : hdrSizeY h = h.toNat / 16 % 16 := by
  simp [hdrSizeY, BitVec.extractLsb'_toNat, Nat.shiftRight_eq_div_pow]

theorem hdrOffsetY_eq (h : Word) : hdrOffsetY h = h.toNat / 256 % 16 := by
  simp [hdrOffsetY, BitVec.extractLsb'_toNat, Nat.shiftRight_eq_div_pow]

theorem hdrDataOffset_eq (h : Word) : hdrDataOffset h = h.toNat / 65536 := by
  have := h.isLt
  simp [hdrDataOffset, BitVec.extractLsb'_toNat, Nat.shiftRight_eq_div_pow]
  omega

theorem hdrRowBytes_eq (h : Word) : hdrRowBytes h = if 8 < h.toNat % 16 then 2 else 1 := by
  simp [hdrRowBytes, hdrWide, hdrSizeX_eq]

theorem hdrSizeX_lt (h : Word) : hdrSizeX h < 16 := by rw [hdrSizeX_eq]; omega
theorem hdrSizeY_lt (h : Word) : hdrSizeY h < 16 := by rw [hdrSizeY_eq]; omega
theorem hdrOffsetY_lt (h : Word) : hdrOffsetY h < 16 := by rw [hdrOffsetY_eq]; omega

theorem int32_iff {v : Int} : int32 v = true ↔ IsInt32 v := by
  simp only [int32, IsInt32, Bool.and_eq_true, decide_eq_true_eq]
  omega

theorem toInt_wordOfInt {v : Int} (h : IsInt32 v) : (wordOfInt v).toInt = v := by
  obtain ⟨h1, h2⟩ := h
  rw [wordOfInt, BitVec.toInt_ofInt, Int.bmod_eq_of_le] <;> omega

theorem isInt32_toInt (w : Word) : IsInt32 w.toInt := by
  have h1 := BitVec.le_toInt w
  have h2 := BitVec.toInt_lt (x := w)
  constructor <;> simpa using by assumption

theorem wordOfInt_toInt (w : Word) : wordOfInt w.toInt = w := BitVec.ofInt_toInt

theorem lt_clampNat_iff {v : Int} {hi c : Nat} : c < clampNat v hi ↔ c < hi ∧ (c : Int) < v := by
  unfold clampNat; omega

theorem clampNat_le (v : Int) (hi : Nat) : clampNat v hi ≤ hi := by unfold clampNat; omega

/-! ### The decoder -/

/-- A disjoint or is a sum: high bits and low bits put together. -/
theorem toNat_shift_or {a b : Word} {n : Nat} (hb : b.toNat < 2 ^ n) (ha : a.toNat * 2 ^ n < 2 ^ 32) :
    ((a <<< n) ||| b).toNat = a.toNat * 2 ^ n + b.toNat := by
  rw [BitVec.toNat_or, BitVec.toNat_shiftLeft, Nat.shiftLeft_eq, Nat.mod_eq_of_lt ha, ← Nat.shiftLeft_eq,
    Nat.shiftLeft_add_eq_or_of_lt hb]

/-- The low `n` bits of a byte, as a word. -/
theorem toNat_low_bits (b : Byte) {n : Nat} (hn : n ≤ 8) :
    (b.setWidth 32 &&& BitVec.ofNat 32 (2 ^ n - 1)).toNat = b.toNat % 2 ^ n := by
  have : 2 ^ n ≤ 2 ^ 8 := Nat.pow_le_pow_right (by omega) hn
  have hb := b.isLt
  rw [BitVec.toNat_and, BitVec.toNat_ofNat, Nat.mod_eq_of_lt (a := 2 ^ n - 1) (by omega),
    Nat.and_two_pow_sub_one_eq_mod, BitVec.toNat_setWidth, Nat.mod_eq_of_lt (a := b.toNat) (by omega)]

theorem code_two {b : Byte} {c1 : Word} (l1 : c1.toNat < 64) :
    ((b.setWidth 32 &&& 0x1F) <<< 6 ||| c1 : Word) = BitVec.ofNat 32 (b.toNat % 32 * 64 + c1.toNat) := by
  apply BitVec.eq_of_toNat_eq
  have h : (b.setWidth 32 &&& 0x1F : Word).toNat = b.toNat % 32 := toNat_low_bits b (n := 5) (by omega)
  rw [toNat_shift_or (by omega) (by omega)]
  simp only [BitVec.toNat_ofNat]
  omega

theorem code_three {b : Byte} {c1 c2 : Word} (l1 : c1.toNat < 64) (l2 : c2.toNat < 64) :
    ((b.setWidth 32 &&& 0x0F) <<< 12 ||| c1 <<< 6 ||| c2 : Word) =
      BitVec.ofNat 32 (b.toNat % 16 * 4096 + c1.toNat * 64 + c2.toNat) := by
  apply BitVec.eq_of_toNat_eq
  have h : (b.setWidth 32 &&& 0x0F : Word).toNat = b.toNat % 16 := toNat_low_bits b (n := 4) (by omega)
  have h2 := toNat_shift_or (a := c1) (b := c2) (n := 6) (by omega) (by omega)
  rw [BitVec.or_assoc, toNat_shift_or (by omega) (by omega)]
  simp only [BitVec.toNat_ofNat]
  omega

theorem code_four {b : Byte} {c1 c2 c3 : Word} (l1 : c1.toNat < 64) (l2 : c2.toNat < 64) (l3 : c3.toNat < 64) :
    ((b.setWidth 32 &&& 0x07) <<< 18 ||| c1 <<< 12 ||| c2 <<< 6 ||| c3 : Word) =
      BitVec.ofNat 32 (b.toNat % 8 * 262144 + c1.toNat * 4096 + c2.toNat * 64 + c3.toNat) := by
  apply BitVec.eq_of_toNat_eq
  have h : (b.setWidth 32 &&& 0x07 : Word).toNat = b.toNat % 8 := toNat_low_bits b (n := 3) (by omega)
  have h3 := toNat_shift_or (a := c2) (b := c3) (n := 6) (by omega) (by omega)
  have h2 := toNat_shift_or (a := c1) (b := c2 <<< 6 ||| c3) (n := 12) (by omega) (by omega)
  rw [BitVec.or_assoc, BitVec.or_assoc, toNat_shift_or (by omega) (by omega)]
  simp only [BitVec.toNat_ofNat]
  omega

section Decoder
variable {p : Platform} {m m' : Memory} {d : Decoder} {k pos : Nat}

theorem inputByte_of_serves (h : p.serves (d.base + BitVec.ofNat 32 k) 1 .read = true) :
    inputByte p m d k = .ok ((byteAt m (d.base + BitVec.ofNat 32 k)).setWidth 32) := by
  rw [inputByte, memRead_of_serves h, readLE_one]

theorem continuation_of_serves (h : k < d.len.toNat → p.serves (d.base + BitVec.ofNat 32 k) 1 .read = true) :
    continuation p m d k =
      .ok (if k < d.len.toNat then (byteAt m (d.base + BitVec.ofNat 32 k)).setWidth 32 &&& 0x3F else 0) := by
  unfold continuation
  split
  · next hk => rw [inputByte_of_serves (h hk)]; rfl
  · rfl

/-- At and beyond the end of the input there is the code point -1, of no bytes (43_decoder.md R221). -/
theorem decodeAt_end (h : d.len.toNat ≤ pos) : decodeAt p m d pos = .ok (eofCode, 0) := by
  simp [decodeAt, h]

/-- Decoding depends on no byte but those of the input from `pos` on (43_decoder.md R220). -/
theorem decodeAt_congr (h : ∀ k, pos ≤ k → k < d.len.toNat →
    byteAt m' (d.base + BitVec.ofNat 32 k) = byteAt m (d.base + BitVec.ofNat 32 k)) :
    decodeAt p m' d pos = decodeAt p m d pos := by
  have hb : ∀ k, pos ≤ k → k < d.len.toNat → inputByte p m' d k = inputByte p m d k := by
    intro k h1 h2
    refine memRead_congr fun c hc => ?_
    simp only [accessBytes, List.range_one, List.map_cons, List.map_nil, List.mem_singleton] at hc
    subst hc
    simpa using h k h1 h2
  have hc : ∀ k, pos ≤ k → continuation p m' d k = continuation p m d k := by
    intro k h1
    unfold continuation
    split
    · next h2 => rw [hb k h1 h2]
    · rfl
  unfold decodeAt
  split
  · rfl
  · next hp => rw [hb pos le_rfl (by omega), hc (pos + 1) (by omega), hc (pos + 2) (by omega), hc (pos + 3) (by omega)]

/-- Decode's value on readable input (43_decoder.md R221). -/
theorem decodeAt_eq {s : State} (hp : s.blk.dec.pos.toNat < s.blk.dec.len.toNat) (hs : s.servesNextCode) :
    decodeAt s.platform s.mem s.blk.dec s.blk.dec.pos.toNat = .ok (BitVec.ofNat 32 s.codeHere.1, s.codeHere.2) := by
  have h0 := inputByte_of_serves (m := s.mem) (hs _ le_rfl (by omega) hp)
  have hc : ∀ j, 1 ≤ j → j ≤ 3 → ∃ c : Word, c.toNat = s.inputAt (s.blk.dec.pos.toNat + j) % 64 ∧
      continuation s.platform s.mem s.blk.dec (s.blk.dec.pos.toNat + j) = .ok c := by
    intro j h1 h3
    refine ⟨_, ?_, continuation_of_serves fun hk => hs _ (by omega) (by omega) hk⟩
    unfold State.inputAt
    split
    · have : (0x3F : Word) = BitVec.ofNat 32 (2 ^ 6 - 1) := rfl
      rw [this, BitVec.toNat_and, BitVec.toNat_ofNat, Nat.mod_eq_of_lt (a := 2 ^ 6 - 1) (by omega),
        Nat.and_two_pow_sub_one_eq_mod, BitVec.toNat_setWidth]
      omega
    · rfl
  obtain ⟨c1, v1, e1⟩ := hc 1 (by omega) (by omega)
  obtain ⟨c2, v2, e2⟩ := hc 2 (by omega) (by omega)
  obtain ⟨c3, v3, e3⟩ := hc 3 (by omega) (by omega)
  have l1 : c1.toNat < 64 := by omega
  have l2 : c2.toNat < 64 := by omega
  have l3 : c3.toNat < 64 := by omega
  have b0 : s.inputAt s.blk.dec.pos.toNat = (byteAt s.mem (s.blk.dec.base + BitVec.ofNat 32 s.blk.dec.pos.toNat)).toNat :=
    if_pos hp
  generalize byteAt s.mem (s.blk.dec.base + BitVec.ofNat 32 s.blk.dec.pos.toNat) = b at h0 b0
  have hb := b.isLt
  unfold decodeAt State.codeHere
  rw [if_neg (by omega), h0]
  simp only [b0, bind, Except.bind, e1, e2, e3, pure, Except.pure, ← v1, ← v2, ← v3, BitVec.toNat_setWidth]
  rw [Nat.mod_eq_of_lt (a := b.toNat) (by omega)]
  split
  · congr 2
    exact BitVec.eq_of_toNat_eq (by simp)
  split
  · congr 2
    exact code_two l1
  split
  · congr 2
    exact code_three l1 l2
  · congr 2
    exact code_four l1 l2 l3

end Decoder

/-- `nextCode` on readable input: the code point, and the decoder moved past it (43_decoder.md R222). -/
theorem nextCode_run {w : Work} (hp : w.st.blk.dec.pos.toNat < w.st.blk.dec.len.toNat) (hs : w.st.servesNextCode) :
    nextCode w = .ok (BitVec.ofNat 32 w.st.codeHere.1) { w with st := setDecoder w.st.decoderAfter w.st } := by
  simp only [nextCode, run_bind, run_theState, decodeAt_eq hp hs, run_check_ok, run_update, run_pure]
  rfl

/-- `nextCode` at the end of the input: the code point -1, and the decoder moves to where it is. -/
theorem nextCode_end {w : Work} (h : w.st.blk.dec.pos.toNat = w.st.blk.dec.len.toNat) : nextCode w = .ok eofCode w := by
  have hd : w.st.blk.dec.advance 0 = w.st.blk.dec := by
    have : BitVec.ofNat 32 (min (w.st.blk.dec.pos.toNat + 0) w.st.blk.dec.len.toNat) = w.st.blk.dec.pos := by
      rw [← h, Nat.add_zero, Nat.min_self, BitVec.ofNat_toNat, BitVec.setWidth_eq]
    rw [Decoder.advance, this]
  simp only [nextCode, run_bind, run_theState, decodeAt_end h.ge, run_check_ok, run_update, run_pure, hd]
  rfl

/-- A code point takes one to four bytes, and lies below 2^21 (43_decoder.md R221, R226). -/
theorem codeHere_bounds (s : State) : 1 ≤ s.codeHere.2 ∧ s.codeHere.2 ≤ 4 ∧ s.codeHere.1 < 2 ^ 21 := by
  have h : s.inputAt s.blk.dec.pos.toNat < 256 := by
    unfold State.inputAt
    split
    · exact (byteAt _ _).isLt
    · omega
  unfold State.codeHere
  simp only
  split
  · omega
  split
  · omega
  split <;> omega

/-! ### The charset table -/

theorem covers_iff {c : CharsetSlot} {cp : Word} : c.covers cp = true ↔ SlotHolds c cp.toInt := by
  simp [CharsetSlot.covers, CharsetSlot.hasData, CharsetSlot.enabled, SlotHolds, and_assoc]

theorem find_first_eight {f : Fin 8 → Bool} {i : Fin 8} :
    allSlots.find? f = some i ↔ f i = true ∧ ∀ j < i, f j = false := by
  have h : allSlots = List.finRange 8 := by decide
  rw [h, List.find?_eq_some_iff_getElem]
  constructor
  · rintro ⟨hf, k, hk, rfl, hj⟩
    refine ⟨hf, fun j hj' => ?_⟩
    simp only [List.length_finRange] at hk
    simp only [List.getElem_finRange, Fin.lt_def, Fin.val_cast] at hj'
    simpa using hj j.val hj'
  · rintro ⟨hf, hj⟩
    refine ⟨hf, i.val, by simp, by simp, fun j hj' => ?_⟩
    have := hj ⟨j, by omega⟩ hj'
    simpa using this

/-- FindCharset answers the first slot that holds the code point (44_layout.md R240). -/
theorem findCharset_some_iff {s : State} {cp : Word} {i : Fin 8} :
    findCharset s.blk.cs cp = some i ↔ s.firstSlot cp.toInt i := by
  unfold findCharset State.firstSlot
  split
  · simp; omega
  · rw [find_first_eight]
    simp only [covers_iff, ← Bool.not_eq_true]
    constructor
    · rintro ⟨h, h'⟩; exact ⟨by omega, h, h'⟩
    · rintro ⟨_, h, h'⟩; exact ⟨h, h'⟩

/-- FindCharset answers none for a code point that is negative or in no slot (44_layout.md R240). -/
theorem findCharset_none_iff {cs : Vector CharsetSlot 8} {cp : Word} :
    findCharset cs cp = none ↔ cp.toInt < 0 ∨ ∀ i : Fin 8, ¬ SlotHolds (cs.get i) cp.toInt := by
  have all : ∀ i : Fin 8, i ∈ allSlots := by decide
  unfold findCharset
  split
  · next h => simp [h]
  · next h => simp [h, all, ← covers_iff]

/-- Of the composed bytes of a header: they are one little-endian read of four bytes (44_layout.md R242). -/
theorem readHeader_of_serves {p : Platform} {m : Memory} {a : Word}
    (h : ∀ k < 4, p.serves (a + BitVec.ofNat 32 k) 1 .read = true) : readHeader p m a = .ok (readLE m a 4) := by
  have h0 := h 0 (by omega)
  have h1 := h 1 (by omega)
  have h2 := h 2 (by omega)
  have h3 := h 3 (by omega)
  simp only [BitVec.add_zero] at h0 h1 h2 h3
  simp only [readHeader, memRead_of_serves h0, memRead_of_serves h1, memRead_of_serves h2, memRead_of_serves h3, bind,
    Except.bind, pure, Except.pure, Except.ok.injEq]
  have e2 : a + 1#32 + 1#32 = a + 2#32 := by rw [BitVec.add_assoc]; rfl
  have e3 : a + 2#32 + 1#32 = a + 3#32 := by rw [BitVec.add_assoc]; rfl
  simp only [readLE, e2, e3]
  apply BitVec.eq_of_getLsbD_eq
  intro i hi
  simp only [BitVec.getLsbD_or, BitVec.getLsbD_shiftLeft, BitVec.getLsbD_setWidth, BitVec.getLsbD_zero, hi,
    decide_true, Bool.true_and, Bool.or_false, Bool.and_false]
  have shrink : ∀ b : Byte, ∀ j, 8 ≤ j → b.getLsbD j = false := fun b j hj => BitVec.getLsbD_of_ge b j hj
  rcases Nat.lt_or_ge i 8 with c | c
  · simp [c, show i < 16 by omega, show i < 24 by omega]
  rcases Nat.lt_or_ge i 16 with c' | c'
  · simp [show ¬ i < 8 by omega, c', show i < 24 by omega, shrink _ i c, show i - 8 < 32 by omega,
      show i - 8 < 8 by omega]
  rcases Nat.lt_or_ge i 24 with c'' | c''
  · simp [show ¬ i < 8 by omega, show ¬ i < 16 by omega, c'', shrink _ i c, shrink _ (i - 8) (by omega),
      show i - 8 < 32 by omega, show ¬ i - 8 < 8 by omega, Nat.sub_sub,
      show i - 16 < 8 by omega, show i - 16 < 32 by omega]
  · simp [show ¬ i < 8 by omega, show ¬ i < 16 by omega, show ¬ i < 24 by omega, shrink _ i c,
      shrink _ (i - 8) (by omega), shrink _ (i - 16) (by omega), show i - 8 < 32 by omega, show ¬ i - 8 < 8 by omega,
      Nat.sub_sub, show ¬ i - 16 < 8 by omega, show i - 16 < 32 by omega, show i - 24 < 32 by omega,
      show i - 24 < 8 by omega]

/-- GetHeader of a sound glyph answers its header (44_layout.md R242 to R244). -/
theorem getHeader_of_sound {s : State} {i : Fin 8} {cp h : Word} (hs : SoundGlyph s i cp h) :
    getHeader s.platform s.mem s.blk.cs i cp = .ok h := by
  unfold getHeader
  have h1 := hs.even
  have h2 := hs.headerInside
  have h3 := hs.rowsInside
  simp only [readHeader_of_serves hs.served, ← hs.header, h1, bind, Except.bind, pure, Except.pure]
  rw [if_neg (by omega), if_neg (by omega), if_neg (by omega)]

/-- GetHeader depends on no byte but those of the slot's blob (44_layout.md R242, R243). -/
theorem getHeader_congr {p : Platform} {m m' : Memory} {cs : Vector CharsetSlot 8} {i : Fin 8} {cp : Word}
    (hmin : (cs.get i).min.toInt ≤ cp.toInt)
    (h : ∀ k, k < (cs.get i).len.toNat →
      byteAt m' ((cs.get i).base + BitVec.ofNat 32 k) = byteAt m ((cs.get i).base + BitVec.ofNat 32 k)) :
    getHeader p m' cs i cp = getHeader p m cs i cp := by
  unfold getHeader
  simp only
  split
  · rfl
  split
  · rfl
  next hlen =>
    have hn : 0 ≤ headerOffset (cs.get i) cp := by unfold headerOffset; omega
    obtain ⟨n, hn⟩ := Int.eq_ofNat_of_zero_le hn
    have hb : ∀ k < 4, byteAt m' ((cs.get i).base + wordOfInt (headerOffset (cs.get i) cp) + BitVec.ofNat 32 k) =
        byteAt m ((cs.get i).base + wordOfInt (headerOffset (cs.get i) cp) + BitVec.ofNat 32 k) := by
      intro k hk
      have : wordOfInt (headerOffset (cs.get i) cp) = BitVec.ofNat 32 n := by rw [hn]; exact BitVec.ofInt_natCast 32 n
      rw [this, BitVec.add_assoc, ← BitVec.ofNat_add]
      exact h _ (by omega)
    have hr : ∀ k < 4, memRead p m' ((cs.get i).base + wordOfInt (headerOffset (cs.get i) cp) + BitVec.ofNat 32 k) 1 =
        memRead p m ((cs.get i).base + wordOfInt (headerOffset (cs.get i) cp) + BitVec.ofNat 32 k) 1 := by
      intro k hk
      refine memRead_congr fun c hc => ?_
      simp only [accessBytes, List.range_one, List.map_cons, List.map_nil, List.mem_singleton] at hc
      subst hc
      simpa using hb k hk
    have r0 := hr 0 (by omega)
    have r1 := hr 1 (by omega)
    have r2 := hr 2 (by omega)
    have r3 := hr 3 (by omega)
    simp only [BitVec.add_zero] at r0 r1 r2 r3
    have : readHeader p m' ((cs.get i).base + wordOfInt (headerOffset (cs.get i) cp)) =
        readHeader p m ((cs.get i).base + wordOfInt (headerOffset (cs.get i) cp)) := by
      unfold readHeader
      rw [r0, r1, r2, r3]
    rw [this]

/-! ### The layout step -/

theorem place_eq (l : Layout) (h : Word) (cls : AlignClass) (cx : Int) :
    place l h cls cx = glyphSpot l cls (h.toNat % 16) cx := by
  cases cls <;> simp [place, glyphSpot, hdrSizeX_eq]

theorem wraps_iff {s : State} {h : Word} {cls : AlignClass} :
    wraps s.blk.lay h (place s.blk.lay h cls s.blk.lay.x.toInt).1 = true ↔ s.wrapsAt cls h := by
  simp [wraps, State.wrapsAt, place_eq, hdrSizeX_eq, and_assoc]

/-- `Placement.fits` is R256 on the placement that is kept (44_layout.md R256). -/
theorem fits_clipped_iff {l : Layout} {h : Word} {cls : AlignClass} {cx cy : Int} :
    (clipped l h (glyphSpot l cls (h.toNat % 16) cx).1 (glyphSpot l cls (h.toNat % 16) cx).2 cy).fits h = true ↔
      GlyphFits l cls h cx cy := by
  have clamp : ∀ (v : Int) (n : Nat), ((clampNat v n : Nat) : Int) = min (max v 0) n := by
    intro v n; unfold clampNat; omega
  simp only [Placement.fits, clipped, GlyphFits, Bool.and_eq_true, int32_iff, clamp, hdrSizeX_eq, hdrSizeY_eq,
    hdrOffsetY_eq, and_assoc]
  push_cast
  rfl

/-- A layout step when no layout is active (44_layout.md R272, step 1). -/
theorem layoutStep_inactive {w : Work} (h : w.st.blk.lay.active = false) :
    layoutStep w = .ok .eof { w with st := setGlyph (eofRecord w.st.blk.lay) w.st } := by
  unfold layoutStep
  rw [run_bind, run_theState]
  simp only [h, if_true, run_bind, run_update, run_pure]

theorem endLayout_run (w : Work) :
    endLayout w = .ok .eof
      ⟨setLayout { w.st.blk.lay with done := true } (setGlyph (eofRecord w.st.blk.lay) w.st), w.wrote⟩ := by
  simp only [endLayout, run_bind, run_theState, run_update, run_pure]

/-- A layout step at the vertical clip, or at the end of the input (44_layout.md R272, steps 1 and 2). -/
theorem layoutStep_end {w : Work} (h : w.st.blk.lay.active = true)
    (he : w.st.blk.lay.maxY.toInt ≤ w.st.blk.lay.y.toInt ∨ w.st.blk.dec.pos.toNat = w.st.blk.dec.len.toNat) :
    layoutStep w = .ok .eof
      ⟨setLayout { w.st.blk.lay with done := true } (setGlyph (eofRecord w.st.blk.lay) w.st), w.wrote⟩ := by
  unfold layoutStep
  rw [run_bind, run_theState]
  dsimp only
  rw [if_neg (by simp [h])]
  split
  · exact endLayout_run w
  · next hy =>
    rw [run_bind, nextCode_end (he.resolve_left hy)]
    simp only [if_true]
    exact endLayout_run w

/-- A layout step at a code point takes it and goes on with steps 3 to 7 (44_layout.md R272). -/
theorem layoutStep_code {w : Work} {cp : Nat} (h : AtCode w.st cp) :
    layoutStep w = layoutCode (BitVec.ofNat 32 cp) { w with st := setDecoder w.st.decoderAfter w.st } := by
  have hb := (codeHere_bounds w.st).2.2
  have hne : BitVec.ofNat 32 cp ≠ eofCode := by
    intro he
    have := congrArg BitVec.toNat he
    rw [h.code] at hb
    rw [BitVec.toNat_ofNat, Nat.mod_eq_of_lt (by omega)] at this
    simp [eofCode] at this
    omega
  have hy := h.above
  unfold layoutStep
  rw [run_bind, run_theState]
  simp only [h.active, Bool.true_eq_false, if_false]
  rw [if_neg (by omega), run_bind, nextCode_run h.more h.served, h.code]
  simp only [hne, if_false]

/-- Steps 3 to 7 of a special code point whose new cursor is i32 (44_layout.md R246, R247). -/
theorem layoutCode_special {w : Work} {cp : Word} {x y : Int}
    (h : specialMove w.st.platform w.st.blk.lay cp = some (x, y)) (hx : IsInt32 x) (hy : IsInt32 y) :
    layoutCode cp w = .ok .unprintable
      ⟨setGlyph (unprintableRecord cp w.st.blk.lay (wordOfInt x))
        (setLayout { w.st.blk.lay with x := wordOfInt x, y := wordOfInt y } w.st), w.wrote⟩ := by
  unfold layoutCode
  rw [run_bind, run_theState]
  simp only [h, run_bind, int32_iff.2 hx, int32_iff.2 hy, Bool.and_self, overflowCheck, if_true, run_check_ok,
    run_update, run_pure]

/-- Steps 3 to 7 of a special code point whose new cursor is no i32: Overflow (44_layout.md R256). -/
theorem layoutCode_special_overflow {w : Work} {cp : Word} {x y : Int}
    (h : specialMove w.st.platform w.st.blk.lay cp = some (x, y)) (hxy : ¬ (IsInt32 x ∧ IsInt32 y)) :
    layoutCode cp w = .error (.raise (.overflow cp)) w := by
  have : (int32 x && int32 y) = false := by
    rw [← Bool.not_eq_true, Bool.and_eq_true, int32_iff, int32_iff]; exact hxy
  unfold layoutCode
  rw [run_bind, run_theState]
  simp [h, run_bind, this, overflowCheck]

/-- Steps 3 to 7 of a code point that is not special and in no slot (44_layout.md R257). -/
theorem layoutCode_unknown {w : Work} {cp : Word} (h : specialMove w.st.platform w.st.blk.lay cp = none)
    (hc : findCharset w.st.blk.cs cp = none) :
    layoutCode cp w = .ok .unprintable
      ⟨setGlyph (unprintableRecord cp w.st.blk.lay w.st.blk.lay.x) w.st, w.wrote⟩ := by
  unfold layoutCode
  rw [run_bind, run_theState]
  simp [h, hc, run_bind]

theorem layoutCode_glyph {w : Work} {cp : Word} {i : Fin 8}
    (h : specialMove w.st.platform w.st.blk.lay cp = none) (hc : findCharset w.st.blk.cs cp = some i) :
    layoutCode cp w = layoutGlyph cp i w := by
  unfold layoutCode
  rw [run_bind, run_theState]
  simp [h, hc]

/-- Steps 4 to 7 of a sound glyph whose quantities are i32 (44_layout.md R250 to R255, R262). -/
theorem layoutGlyph_fits {w : Work} {cp h : Word} {i : Fin 8} (hs : SoundGlyph w.st i cp h)
    (hf : (placeGlyph w.st.blk.lay h (w.st.platform.alignClass cp)).fits h = true) :
    let g := placeGlyph w.st.blk.lay h (w.st.platform.alignClass cp)
    layoutGlyph cp i w = .ok .drawable
      ⟨setGlyph (drawableRecord cp i (w.st.blk.cs.get i).base h (w.st.platform.alignClass cp) g)
        (setLayout (Layout.cover { w.st.blk.lay with x := wordOfInt g.nx, y := wordOfInt g.cy } g) w.st), w.wrote⟩ := by
  simp only [layoutGlyph, run_bind, run_theState, getHeader_of_sound hs, run_check_ok, hf, overflowCheck, if_true,
    run_update, run_pure]

/-- Steps 4 to 7 of a sound glyph of which a quantity is no i32: Overflow (44_layout.md R256). -/
theorem layoutGlyph_overflow {w : Work} {cp h : Word} {i : Fin 8} (hs : SoundGlyph w.st i cp h)
    (hf : (placeGlyph w.st.blk.lay h (w.st.platform.alignClass cp)).fits h = false) :
    layoutGlyph cp i w = .error (.raise (.overflow cp)) w := by
  simp [layoutGlyph, run_bind, getHeader_of_sound hs, hf, overflowCheck]

/-- Where a glyph is placed: at the cursor, or at the initial x of the next line when it wraps (44_layout.md R253). -/
theorem placeGlyph_eq (s : State) (h : Word) (cls : AlignClass) :
    (¬ s.wrapsAt cls h → placeGlyph s.blk.lay h cls =
      clipped s.blk.lay h (glyphSpot s.blk.lay cls (h.toNat % 16) s.blk.lay.x.toInt).1
        (glyphSpot s.blk.lay cls (h.toNat % 16) s.blk.lay.x.toInt).2 s.blk.lay.y.toInt) ∧
    (s.wrapsAt cls h → placeGlyph s.blk.lay h cls =
      clipped s.blk.lay h (glyphSpot s.blk.lay cls (h.toNat % 16) s.blk.lay.xInit.toInt).1
        (glyphSpot s.blk.lay cls (h.toNat % 16) s.blk.lay.xInit.toInt).2
        (s.blk.lay.y.toInt + s.blk.lay.lineH.toNat)) := by
  constructor
  · intro hw
    rw [placeGlyph, if_neg (by rw [wraps_iff]; exact hw), place_eq]
  · intro hw
    rw [placeGlyph, if_pos (wraps_iff.2 hw), place_eq]

/-- A code point is special exactly when it is not plain (44_layout.md R246). -/
theorem specialMove_none_iff {s : State} {l : Layout} {cp : Nat} (hcp : cp < 2 ^ 32) :
    specialMove s.platform l (BitVec.ofNat 32 cp) = none ↔ s.plainCode cp := by
  have six : spaceAdvance s.platform (BitVec.ofNat 32 cp) = none ↔ ∀ k : Fin 6, (s.platform.space6.get k).cp.toNat ≠ cp := by
    simp only [spaceAdvance, Option.map_eq_none_iff, List.find?_eq_none, beq_iff_eq, Vector.mem_toList_iff]
    constructor
    · intro h k hk
      refine h _ (Vector.getElem_mem k.isLt) ?_
      apply BitVec.eq_of_toNat_eq
      rw [BitVec.toNat_ofNat, Nat.mod_eq_of_lt hcp]
      exact hk
    · intro h e he hk
      obtain ⟨j, hj, rfl⟩ := Vector.getElem_of_mem he
      refine h ⟨j, hj⟩ ?_
      have := congrArg BitVec.toNat hk
      rwa [BitVec.toNat_ofNat, Nat.mod_eq_of_lt hcp] at this
  have step : ∀ (c : Word) (v : Int × Int) (r : Option (Int × Int)),
      (if BitVec.ofNat 32 cp = c then some v else r) = none ↔ cp ≠ c.toNat ∧ r = none := by
    intro c v r
    have eq : BitVec.ofNat 32 cp = c ↔ cp = c.toNat := by
      rw [← BitVec.toNat_inj, BitVec.toNat_ofNat, Nat.mod_eq_of_lt hcp]
    by_cases h : cp = c.toNat
    · rw [if_pos (eq.2 h)]; simp [h]
    · rw [if_neg (by rwa [eq])]; simp [h]
  unfold specialMove
  dsimp only
  rw [step, step, step, step, step, State.plainCode, ← six]
  have : (0x20 : Word).toNat = 0x20 ∧ (0xA0 : Word).toNat = 0xA0 ∧ (0x09 : Word).toNat = 0x09 ∧
      (0x0A : Word).toNat = 0x0A ∧ (0xAD : Word).toNat = 0xAD ∧ (0x3000 : Word).toNat = 0x3000 := by decide
  obtain ⟨h1, h2, h3, h4, h5, h6⟩ := this
  rw [h1, h2, h3, h4, h5]
  cases spaceAdvance s.platform (BitVec.ofNat 32 cp) with
  | some v => simp
  | none =>
    dsimp only
    rw [step, h6]
    simp only [List.mem_cons, List.not_mem_nil, or_false, not_or, and_true]
    tauto

end Sys2Proof.Machine
end

