-- ==== Sys2Proof/Laws/Render.lean ====
section
/-! SUPPORT. The renderer's rows, and the loops of LAYOUT_EXHAUST and RENDER_TEXT turn by turn. -/

namespace Sys2Proof.Machine

theorem drawRead_of_serves {p : Platform} {a : Word} {n : Nat} (h : p.serves a n .read = true) (c : Canvas) :
    drawRead p a n c = .ok (readLE c.mem a n) c := by simp [drawRead, memRead_of_serves h]

/-- A row that can be read answers its bits, least significant first, in memory as it is (45_render.md R290). -/
theorem rowBits_of_serves {p : Platform} {g : Glyph} {r : Nat} (c : Canvas)
    (h : ∀ k < g.rowBytes, p.serves (g.data + BitVec.ofNat 32 (r * g.rowBytes + k)) 1 .read = true) :
    ∃ row, rowBits p g r c = .ok row c ∧ ∀ j, row.getLsbD j = g.bitAt c.mem r j := by
  unfold rowBits
  have r0 : p.serves (g.data + BitVec.ofNat 32 (r * g.rowBytes)) 1 .read = true := by
    have := h 0 (by unfold Glyph.rowBytes; split <;> omega)
    simpa using this
  rw [run_bind, drawRead_of_serves r0]
  dsimp only
  cases hw : g.wide with
  | false =>
    have hb : g.rowBytes = 1 := by simp [Glyph.rowBytes, hw]
    refine ⟨_, rfl, fun j => ?_⟩
    unfold Glyph.bitAt
    rw [readLE_one, hb]
    by_cases hj : j < 8
    · simp [hj, Nat.div_eq_of_lt hj, Nat.mod_eq_of_lt hj, show j < 32 by omega]
    · simp [hj, BitVec.getLsbD_of_ge _ _ (Nat.le_of_not_lt hj)]
  | true =>
    have hb : g.rowBytes = 2 := by simp [Glyph.rowBytes, hw]
    have e1 : g.data + BitVec.ofNat 32 (r * g.rowBytes) + 1#32 = g.data + BitVec.ofNat 32 (r * g.rowBytes + 1) := by
      rw [BitVec.add_assoc, ← BitVec.ofNat_add]
    have r1 : p.serves (g.data + BitVec.ofNat 32 (r * g.rowBytes) + 1#32) 1 .read = true := by
      rw [e1]; exact h 1 (by omega)
    simp only [if_true]
    rw [run_bind, drawRead_of_serves r1]
    refine ⟨_, rfl, fun j => ?_⟩
    unfold Glyph.bitAt
    rw [readLE_one, readLE_one, e1, hb]
    rcases Nat.lt_or_ge j 8 with hj | hj
    · simp [hj, Nat.div_eq_of_lt hj, Nat.mod_eq_of_lt hj, show j < 32 by omega, show j < 16 by omega]
    rcases Nat.lt_or_ge j 16 with hj' | hj'
    · have hd : j / 8 = 1 := by omega
      have hm : j % 8 = j - 8 := by omega
      simp [hd, hm, hj', show ¬ j < 8 by omega, show j < 32 by omega,
        BitVec.getLsbD_of_ge _ _ hj]
    · simp [show ¬ j < 16 by omega, BitVec.getLsbD_of_ge _ _ hj,
        BitVec.getLsbD_of_ge _ _ (show 8 ≤ j - 8 by omega)]

/-! ### The loops -/

/-- One turn of the loop of LAYOUT_EXHAUST (44_layout.md R274). -/
theorem layoutLoop_succ (fuel : Nat) (w : Work) :
    layoutLoop (fuel + 1) w =
      match layoutStep w with
      | .ok .eof w' => .ok () w'
      | .ok .unprintable w' => layoutLoop fuel w'
      | .ok .drawable w' => layoutLoop fuel w'
      | .error r w' => .error r w' := by
  rw [layoutLoop, run_bind]
  cases layoutStep w with
  | error r w' => rfl
  | ok k w' => cases k <;> rfl

/-- One turn of the loop of RENDER_TEXT (45_render.md R291). -/
theorem renderLoop_succ (fuel : Nat) (w : Work) :
    renderLoop (fuel + 1) w =
      match layoutStep w with
      | .ok .eof w' => .ok () w'
      | .ok .unprintable w' => renderLoop fuel w'
      | .ok .drawable w' =>
        match renderCurrent w' with
        | .ok _ w'' => renderLoop fuel w''
        | .error r w'' => .error r w''
      | .error r w' => .error r w' := by
  rw [renderLoop, run_bind]
  cases layoutStep w with
  | error r w' => rfl
  | ok k w' =>
    cases k
    · rfl
    · rfl
    · dsimp only
      rw [run_bind]
      cases renderCurrent w' <;> rfl

theorem renderCurrent_run (w : Work) :
    renderCurrent w = draw (renderRecord w.st.platform w.st.blk.surf w.st.blk.gl w.st.blk.args.value) w := by
  rw [renderCurrent, run_bind, run_theState]

end Sys2Proof.Machine
end

