-- ==== Sys2Proof/Laws/Watch.lean ====
section
/-! SUPPORT. What a computation that writes no memory reads: watched, it is refused at each byte it reads, and it depends
on no byte at which it is not refused (Footprint.lean, `uses`). -/

namespace Sys2Proof.Machine

/-- A read that, watched at a byte, is refused there or answers as before, and that depends only on the bytes at which,
watched, it is refused. -/
structure Watched {α : Type} (r : Platform → Memory → Except Stop α) : Prop where
  follows : ∀ {p m x} (a : Word), r p m = .ok x →
    r (p.watching a) m = .ok x ∨ ∃ e, r (p.watching a) m = .error (.refuse e)
  agrees : ∀ {p m m'}, (∀ a, (∃ e, r (p.watching a) m = .error (.refuse e)) → byteAt m' a = byteAt m a) →
    (∀ e, r p m ≠ .error (.refuse e)) → r p m' = r p m

section Reads
variable {α β : Type}

theorem Watched.const (x : Except Stop α) : Watched fun _ _ => x := ⟨fun _ h => .inl h, fun _ _ => rfl⟩

theorem Watched.bind {r : Platform → Memory → Except Stop α} {f : α → Platform → Memory → Except Stop β}
    (hr : Watched r) (hf : ∀ x, Watched (f x)) : Watched fun p m => r p m >>= fun x => f x p m where
  follows {p m y} a h := by
    obtain ⟨x, hx, hy⟩ := except_bind_ok_iff.1 h
    rcases hr.follows a hx with h1 | ⟨e, h1⟩
    · rw [h1]; exact (hf x).follows a hy
    · exact .inr ⟨e, by rw [h1]; rfl⟩
  agrees {p m m'} h hn := by
    have hr' : r p m' = r p m := hr.agrees (fun a ⟨e, he⟩ => h a ⟨e, by rw [he]; rfl⟩) fun e he => hn e (by rw [he]; rfl)
    simp only [hr']
    cases hx : r p m with
    | error e => rfl
    | ok x =>
      refine (hf x).agrees (fun a ⟨e, he⟩ => h a ?_) fun e he => hn e (by rw [hx]; exact he)
      rcases hr.follows a hx with h1 | ⟨e', h1⟩
      · exact ⟨e, by rw [h1]; exact he⟩
      · exact ⟨e', by rw [h1]; rfl⟩

/-- Watched at a byte, an access of the platform that is no access to the register window is refused exactly when it
touches the byte. -/
theorem access_watching {p : Platform} {a b : Word} {n : Nat} {k : AccessKind}
    (hw : (accessBytes b n).any p.inWindow = false) :
    access (p.watching a) b n k = if a ∈ accessBytes b n then .error (.refuse .readSideEffects) else .ok () := by
  have hadm : (p.watching a).admits b n k = true := by
    have : ((accessBytes b n).any (p.watching a).inWindow) = false := hw
    rw [Platform.admits, this]
    rfl
  have htouch : (p.watching a).touchesReadEffects b n = decide (a ∈ accessBytes b n) := by
    simp only [Platform.touchesReadEffects, Platform.watching, List.any_cons, List.any_nil, Bool.or_false, Span.has]
    rw [Bool.eq_iff_iff, decide_eq_true_iff, List.any_eq_true]
    constructor
    · rintro ⟨c, hc, h⟩
      have : c = a := by
        have : (c - a).toNat < 1 := by simpa using h
        bv_omega
      exact this ▸ hc
    · exact fun h => ⟨a, h, by simp⟩
  unfold access
  rw [if_pos hadm, htouch]
  by_cases h : a ∈ accessBytes b n <;> simp [h]

theorem watched_memRead (b : Word) (n : Nat) : Watched fun p m => memRead p m b n where
  follows {p m x} a h := by
    obtain ⟨hs, rfl⟩ := memRead_ok_iff.1 h
    have hw : (accessBytes b n).any p.inWindow = false := by
      have : p.admits b n .read = true := by
        simp only [Platform.serves, Bool.and_eq_true] at hs; exact hs.1
      simp only [Platform.admits, Bool.and_eq_true, Bool.not_eq_true'] at this
      exact this.1
    have := access_watching (a := a) (k := .read) hw
    unfold memRead
    rw [this]
    by_cases hm : a ∈ accessBytes b n
    · rw [if_pos hm]; exact .inr ⟨_, rfl⟩
    · rw [if_neg hm]; exact .inl rfl
  agrees {p m m'} h hn := by
    cases hx : memRead p m b n with
    | error e => rw [memRead_error_iff.2 (memRead_error_iff.1 hx)]
    | ok x =>
      rw [← hx]
      have hw : (accessBytes b n).any p.inWindow = false := by
        have hs := (memRead_ok_iff.1 hx).1
        have : p.admits b n .read = true := by
          simp only [Platform.serves, Bool.and_eq_true] at hs; exact hs.1
        simp only [Platform.admits, Bool.and_eq_true, Bool.not_eq_true'] at this
        exact this.1
      refine memRead_congr fun c hc => h c ⟨.readSideEffects, memRead_error_iff.2 ?_⟩
      rw [access_watching hw, if_pos hc]

theorem watched_continuation (d : Decoder) (k : Nat) : Watched fun p m => continuation p m d k := by
  unfold continuation inputByte
  split
  · exact (watched_memRead _ 1).bind fun _ => .const _
  · exact .const _

/-- Decode reads the bytes of the code point, and depends on no other (43_decoder.md R221). -/
theorem watched_decodeAt (d : Decoder) (pos : Nat) : Watched fun p m => decodeAt p m d pos := by
  unfold decodeAt inputByte
  split
  · exact .const _
  · refine (watched_memRead _ 1).bind fun b => ?_
    split
    · exact .const _
    · split
      · exact (watched_continuation d _).bind fun _ => .const _
      · split
        · exact (watched_continuation d _).bind fun _ => (watched_continuation d _).bind fun _ => .const _
        · exact (watched_continuation d _).bind fun _ => (watched_continuation d _).bind fun _ =>
            (watched_continuation d _).bind fun _ => .const _

/-- GetHeader reads the header's bytes, and depends on no other (44_layout.md R242). -/
theorem watched_getHeader (cs : Vector CharsetSlot 8) (i : Fin 8) (cp : Word) :
    Watched fun p m => getHeader p m cs i cp := by
  unfold getHeader readHeader
  simp only
  split
  · exact .const _
  · split
    · exact .const _
    · refine Watched.bind ?_ fun h => ?_
      · exact (watched_memRead _ 1).bind fun _ => (watched_memRead _ 1).bind fun _ =>
          (watched_memRead _ 1).bind fun _ => (watched_memRead _ 1).bind fun _ => .const _
      · split <;> exact .const _

/-- GetPix reads the pixel's bytes, and depends on no other (41_pixel.md R165). -/
theorem watched_getPix (sf : Surface) (x y : Nat) : Watched fun p m => getPix p m sf x y := by
  unfold getPix
  simp only
  split
  · exact watched_memRead _ 4
  · exact (watched_memRead _ 1).bind fun _ => (watched_memRead _ 1).bind fun _ => (watched_memRead _ 1).bind fun _ => .const _
  · exact watched_memRead _ 2
  · exact watched_memRead _ 1
  · exact (watched_memRead _ 1).bind fun _ => .const _

end Reads

/-! ### Computations of commands -/

/-- The state of the computation on the platform watched at a byte. -/
def Work.watching (w : Work) (a : Word) : Work := { w with st := w.st.watching a }

/-- The state of the computation with other memory. -/
def Work.withMem (w : Work) (m : Memory) : Work := { w with st := { w.st with mem := m } }

/-- The same of a computation that writes no memory. -/
structure EngineWatched {α : Type} (e : Engine α) : Prop where
  mem : ∀ {w x u}, e w = .ok x u → u.st.mem = w.st.mem
  follows : ∀ {w x u} (a : Word), e w = .ok x u →
    e (w.watching a) = .ok x (u.watching a) ∨ ∃ r u', e (w.watching a) = .error (.refuse r) u'
  agreesOk : ∀ {w x u} {m : Memory},
    (∀ a, (∃ r u', e (w.watching a) = .error (.refuse r) u') → byteAt m a = byteAt w.st.mem a) →
    e w = .ok x u → e (w.withMem m) = .ok x (u.withMem m)
  agreesRaise : ∀ {w c u} {m : Memory},
    (∀ a, (∃ r u', e (w.watching a) = .error (.refuse r) u') → byteAt m a = byteAt w.st.mem a) →
    e w = .error (.raise c) u → e (w.withMem m) = .error (.raise c) (u.withMem m)

section Engines
variable {α β : Type}

theorem EngineWatched.bind {e : Engine α} {f : α → Engine β} (he : EngineWatched e) (hf : ∀ x, EngineWatched (f x)) :
    EngineWatched (e >>= f) := by
  have first : ∀ {w : Work} {m : Memory}, (∀ a, (∃ r u', (e >>= f) (w.watching a) = .error (.refuse r) u') →
      byteAt m a = byteAt w.st.mem a) →
      ∀ a, (∃ r u', e (w.watching a) = .error (.refuse r) u') → byteAt m a = byteAt w.st.mem a :=
    fun h a ⟨r, u', hr⟩ => h a ⟨r, u', run_bind_error hr⟩
  have second : ∀ {w : Work} {m : Memory} {x : α} {u : Work}, (∀ a, (∃ r u', (e >>= f) (w.watching a) =
      .error (.refuse r) u') → byteAt m a = byteAt w.st.mem a) → e w = .ok x u →
      ∀ a, (∃ r u', f x (u.watching a) = .error (.refuse r) u') → byteAt m a = byteAt u.st.mem a := by
    intro w m x u h hx a ⟨r, u', hr⟩
    rw [he.mem hx]
    rcases he.follows a hx with h1 | ⟨r', u'', h1⟩
    · exact h a ⟨r, u', by rw [run_bind_ok h1]; exact hr⟩
    · exact h a ⟨r', u'', run_bind_error h1⟩
  refine ⟨fun {w y u} h => ?_, fun {w y u} a h => ?_, fun {w y u m} h ho => ?_, fun {w c u m} h ho => ?_⟩
  · obtain ⟨x, v, hx, hy⟩ := bind_ok_iff.1 h
    exact ((hf x).mem hy).trans (he.mem hx)
  · obtain ⟨x, v, hx, hy⟩ := bind_ok_iff.1 h
    rcases he.follows a hx with h1 | ⟨r, u', h1⟩
    · rw [run_bind_ok h1]; exact (hf x).follows a hy
    · exact .inr ⟨r, u', run_bind_error h1⟩
  · obtain ⟨x, v, hx, hy⟩ := bind_ok_iff.1 ho
    rw [run_bind_ok (he.agreesOk (first h) hx)]
    exact (hf x).agreesOk (second h hx) hy
  · rcases bind_error_iff.1 ho with hx | ⟨x, v, hx, hy⟩
    · exact run_bind_error (he.agreesRaise (first h) hx)
    · rw [run_bind_ok (he.agreesOk (first h) hx)]
      exact (hf x).agreesRaise (second h hx) hy

theorem EngineWatched.pure (x : α) : EngineWatched (Pure.pure x : Engine α) where
  mem h := by cases h; rfl
  follows a h := by cases h; exact .inl rfl
  agreesOk _ h := by cases h; rfl
  agreesRaise _ h := by cases h

/-- A change of the block that depends only on the block and on the parameters other than those of memory. -/
theorem EngineWatched.update {f : State → State} (hm : ∀ s, (f s).mem = s.mem)
    (hw : ∀ s a, f (s.watching a) = (f s).watching a) (hc : ∀ s m, f { s with mem := m } = { f s with mem := m }) :
    EngineWatched (update f) where
  mem h := by cases h; exact hm _
  follows a h := by
    cases h
    exact .inl (by simp only [Machine.update, Work.watching, hw])
  agreesOk {w x u m} _ h := by
    cases h
    exact congrArg (fun s => EStateM.Result.ok () { w with st := s }) (hc w.st m)
  agreesRaise _ h := by cases h

/-- What a computation does that starts by looking at the state: `g` at the state it starts in. -/
theorem EngineWatched.look {g : State → Engine α}
    (h : ∀ s, EngineWatched (g s)) (hw : ∀ s a, g (s.watching a) = g s) (hc : ∀ s m, g { s with mem := m } = g s) :
    EngineWatched (theState >>= g) := by
  have run : ∀ w : Work, (theState >>= g) w = g w.st w := fun w => rfl
  have runW : ∀ (w : Work) (a : Word), (theState >>= g) (w.watching a) = g w.st (w.watching a) := fun w a => by
    rw [run]; exact congrArg (fun e => e (w.watching a)) (hw w.st a)
  have runM : ∀ (w : Work) (m : Memory), (theState >>= g) (w.withMem m) = g w.st (w.withMem m) := fun w m => by
    rw [run]; exact congrArg (fun e => e (w.withMem m)) (hc w.st m)
  refine ⟨fun {w x u} ho => (h w.st).mem ho, fun {w x u} a ho => ?_, fun {w x u m} hb ho => ?_, fun {w c u m} hb ho => ?_⟩
  · rw [runW]; exact (h w.st).follows a ho
  · rw [runM]
    exact (h w.st).agreesOk (fun a ⟨r, u', hr⟩ => hb a ⟨r, u', by rw [runW]; exact hr⟩) ho
  · rw [runM]
    exact (h w.st).agreesRaise (fun a ⟨r, u', hr⟩ => hb a ⟨r, u', by rw [runW]; exact hr⟩) ho

/-- A read of memory at the state's own platform: it depends on the block through `r` alone. -/
theorem EngineWatched.read {r : Block → Platform → Memory → Except Stop α} (hr : ∀ b, Watched (r b)) :
    EngineWatched (theState >>= fun s => check (r s.blk s.platform s.mem)) := by
  have run : ∀ w : Work, (theState >>= fun s => check (r s.blk s.platform s.mem)) w =
    check (r w.st.blk w.st.platform w.st.mem) w := fun w => rfl
  have back : ∀ {w : Work} {a : Word} {e : Refusal}, r w.st.blk (w.st.platform.watching a) w.st.mem = .error (.refuse e) →
      ∃ q u', (theState >>= fun s => check (r s.blk s.platform s.mem)) (w.watching a) = .error (.refuse q) u' :=
    fun {w a e} h => ⟨e, w.watching a, by rw [run]; exact check_error_iff.2 ⟨h, rfl⟩⟩
  refine ⟨fun {w x u} ho => ?_, fun {w x u} a ho => ?_, fun {w x u m} hb ho => ?_, fun {w c u m} hb ho => ?_⟩
  · rw [run] at ho
    rw [(check_ok_iff.1 ho).2]
  · rw [run] at ho
    obtain ⟨h, rfl⟩ := check_ok_iff.1 ho
    rcases (hr _).follows a h with h1 | ⟨e, h1⟩
    · exact .inl (by rw [run]; exact check_ok_iff.2 ⟨h1, rfl⟩)
    · exact .inr (back h1)
  · rw [run] at ho ⊢
    obtain ⟨h, rfl⟩ := check_ok_iff.1 ho
    refine check_ok_iff.2 ⟨?_, rfl⟩
    exact ((hr _).agrees (fun a ⟨e, he⟩ => hb a (back he)) fun e he => by rw [h] at he; cases he).trans h
  · rw [run] at ho ⊢
    obtain ⟨h, rfl⟩ := check_error_iff.1 ho
    refine check_error_iff.2 ⟨?_, rfl⟩
    exact ((hr _).agrees (fun a ⟨e, he⟩ => hb a (back he)) fun e he => by rw [h] at he; cases he).trans h

/-- The same, followed by what does not look at memory again. -/
theorem EngineWatched.readThen {r : Block → Platform → Memory → Except Stop α} {k : State → α → Engine β}
    (hr : ∀ b, Watched (r b)) (hk : ∀ s x, EngineWatched (k s x)) (hw : ∀ s a x, k (s.watching a) x = k s x)
    (hc : ∀ s m x, k { s with mem := m } x = k s x) :
    EngineWatched (theState >>= fun s => check (r s.blk s.platform s.mem) >>= k s) := by
  have e : (theState >>= fun s => check (r s.blk s.platform s.mem) >>= k s) =
      (theState >>= fun s => check (r s.blk s.platform s.mem)) >>= fun x => theState >>= fun s => k s x := by
    funext w
    have hl : (theState >>= fun s => check (r s.blk s.platform s.mem)) w =
      check (r w.st.blk w.st.platform w.st.mem) w := rfl
    rw [run_bind (theState >>= fun s => check (r s.blk s.platform s.mem)), hl]
    show (check (r w.st.blk w.st.platform w.st.mem) >>= k w.st) w = _
    rw [run_bind]
    cases r w.st.blk w.st.platform w.st.mem <;> rfl
  rw [e]
  exact (EngineWatched.read hr).bind fun x => .look (fun s => hk s x) (fun s a => hw s a x) fun s m => hc s m x

end Engines

/-- DecNext reads the bytes of the code point at the decoder's position, and depends on no other. -/
theorem watched_nextCode : EngineWatched nextCode :=
  .readThen (r := fun b p m => decodeAt p m b.dec b.dec.pos.toNat) (fun _ => watched_decodeAt _ _)
    (k := fun s x => update (setDecoder (s.blk.dec.advance x.2)) >>= fun _ => pure x.1)
    (fun s x => (EngineWatched.update (f := setDecoder (s.blk.dec.advance x.2)) (fun _ => rfl) (fun _ _ => rfl)
      fun _ _ => rfl).bind fun _ => .pure _)
    (fun _ _ _ => rfl) fun _ _ _ => rfl

end Sys2Proof.Machine
end

