-- ==== Sys2Proof/Tests/Slice0.lean ====
section
/-! SUPPORT. Decode tests, smoke tests of well-formedness, one-step tests whose expected values are those of
spec/95_test_vectors.md (each test names its vector), and for every statement with hypotheses a state that meets all
of them. -/

namespace Sys2Proof.Tests

set_option Elab.async false

open Sys2Proof.Machine

/-! ### Small states -/

/-- The example parameters of 95_test_vectors.md: SPACE6 with (U+2002, 6), ALIGN_CLASS with U+FF01 to U+FF03; every
access admitted, every byte write honoured. -/
def examplePlatform : Platform :=
  { blockBase := 0x04000000, refusals := [], byteWriteBad := [], readEffects := [],
    space6 := #v[⟨0x2002, 6⟩, ⟨0x2003, 7⟩, ⟨0x2004, 8⟩, ⟨0x2005, 9⟩, ⟨0x2006, 10⟩, ⟨0x2007, 11⟩],
    alignRanges := [⟨0xFF01, 0xFF01, .fwRight⟩, ⟨0xFF02, 0xFF02, .fwCenter⟩, ⟨0xFF03, 0xFF03, .fwLeft⟩] }

/-- The block after reset, on the example platform. -/
def idle : State :=
  { blk := .reset, mem := [], platform := examplePlatform, draws := 0, host := [], schedule := [], seen := [],
    settled := false, pending := .none }

/-- Two 16-bit fields, the first one low (30_encoding.md R127). -/
def pack (a b : Nat) : Word := BitVec.ofNat 32 (b * 65536 + a)

/-- `surface` of 30_encoding.md R127. -/
def onSurface (cfg base : Word) (w h pitch : Nat) (s : State) : State :=
  { s with blk := { s.blk with surf := { base := base, cfg := cfg, size := pack w h, pitch := pack pitch 0 } } }

/-- ARG_P0, ARG_P1 and ARG_VALUE. -/
def withArgs (x0 y0 x1 y1 : Nat) (v : Word) (s : State) : State :=
  { s with blk := { s.blk with args := { p0 := pack x0 y0, p1 := pack x1 y1, value := v } } }

/-- Bytes of memory. -/
def withBytes (a : Word) (bytes : List Byte) (s : State) : State := { s with mem := storeBytes s.mem a bytes }

/-- A latched command word. -/
def latched (w : Word) (s : State) : State :=
  { s with blk := { s.blk with latch := some w }, pending := { s.pending with registers := true } }

/-- Results that no STATUS read has followed: those in the registers, and these bytes of memory. -/
def unread (bytes : List Word) (s : State) : State := { s with pending := { registers := true, bytes := bytes } }

/-- The decoder over `len` bytes at `base`. -/
def withText (base len pos : Word) (s : State) : State :=
  { s with blk := { s.blk with dec := { base := base, len := len, pos := pos } } }

/-- A charset slot. -/
def withSlot (i : Fin 8) (base len min max : Word) (s : State) : State :=
  { s with blk := s.blk.setSlot i { base := base, len := len, min := min, max := max, ctrl := 1 } }

/-- The state after a command that answers a next state. -/
def after (i : Instr) (s : State) : State :=
  match exec i s with
  | .next t => t
  | .fault _ => s
  | .refused _ => s

/-- The outcome is a next state with the property. -/
def nextHas (o : Host.Outcome State Fault Refusal) (p : State → Bool) : Bool :=
  match o with
  | .next t => p t
  | .fault _ => false
  | .refused _ => false

/-- STATUS and FAULT_INFO. -/
def faultWords (s : State) : Word × Word := (s.blk.statusWord, s.blk.status.info)

/-- The bytes of memory that are not 0, as (offset from a base, byte). -/
def bytesFrom (base : Nat) (s : State) : List (Nat × Byte) := s.mem.map fun c => (c.1 - base, c.2)

/-! ### Decoding: every command's word, from 30_encoding.md R120 and R123 -/

theorem test_decode_nop : decode (0#24 ++ 0x00#8) = .command .nop := by decide
theorem test_decode_setpix : decode (0#24 ++ 0x01#8) = .command .setpix := by decide
theorem test_decode_getpix : decode (0#24 ++ 0x02#8) = .command .getpix := by decide
theorem test_decode_hrun : decode (0#24 ++ 0x03#8) = .command .hrun := by decide
theorem test_decode_vrun : decode (0#24 ++ 0x04#8) = .command .vrun := by decide
theorem test_decode_mapaddr : decode (0#24 ++ 0x05#8) = .command .mapaddr := by decide
theorem test_decode_fill : decode (0#24 ++ 0x08#8) = .command .fill := by decide
theorem test_decode_fillrect : decode (0#24 ++ 0x09#8) = .command .fillrect := by decide
theorem test_decode_rectout : decode (0#24 ++ 0x0A#8) = .command .rectout := by decide
theorem test_decode_line : decode (0#24 ++ 0x0B#8) = .command .line := by decide
theorem test_decode_decStart : decode (0#24 ++ 0x10#8) = .command .decStart := by decide
theorem test_decode_decNext : decode (0#24 ++ 0x11#8) = .command .decNext := by decide
theorem test_decode_decPeek : decode (0#24 ++ 0x12#8) = .command .decPeek := by decide
theorem test_decode_glyphLookup : decode (0#24 ++ 0x18#8) = .command .glyphLookup := by decide
theorem test_decode_layoutStart : decode (0#24 ++ 0x20#8) = .command .layoutStart := by decide
theorem test_decode_layoutNext : decode (0#24 ++ 0x21#8) = .command .layoutNext := by decide
theorem test_decode_layoutExhaust : decode (0#24 ++ 0x22#8) = .command .layoutExhaust := by decide
theorem test_decode_renderGlyph : decode (0#24 ++ 0x28#8) = .command .renderGlyph := by decide
theorem test_decode_renderText : decode (0#24 ++ 0x29#8) = .command .renderText := by decide
/-- C-3, C-4, C-5. -/
theorem test_decode_illegal : decode 0x00000006 = .illegal .unassignedOpcode ∧
    decode 0x00000101 = .illegal .reservedBitsSet ∧ decode 0x00000130 = .illegal .reservedBitsSet := by decide

/-- The table's words, run as the first command after reset. -/
theorem test_table_word : decodeTableWord 32 0x29 = some .renderText ∧ decodeTableWord 32 0x2A = none := by decide

/-! ### Well-formedness refuses ill-formed terms -/

theorem test_wf_word : ({ opcode := 0x29, rsvd := 0 } : CommandWord).wellFormed = true := by decide
theorem test_wf_reserved_bits : ({ opcode := 0x01, rsvd := 1 } : CommandWord).wellFormed = false := by decide
theorem test_wf_unassigned_opcode : ({ opcode := 0x07, rsvd := 0 } : CommandWord).wellFormed = false := by decide
theorem test_wf_platform : examplePlatform.wellFormed = true := by decide
theorem test_wf_space_twice :
    { examplePlatform with space6 := examplePlatform.space6.set 1 ⟨0x2002, 7⟩ }.wellFormed = false := by decide
theorem test_wf_space_special :
    { examplePlatform with space6 := examplePlatform.space6.set 5 ⟨0x3000, 7⟩ }.wellFormed = false := by decide

/-! ### Commands -/

/-- C-2. -/
theorem test_nop : nextHas (step (idle.withFetchWord 32 0)) (fun t => decide (t = unread [] idle)) = true := by
  decide +kernel

/-- The linear 8-bit surface of 95_test_vectors.md 2.3: 8 by 4 at 0x03000000, pitch 8. -/
def board : State := onSurface 0x10 0x03000000 8 4 8 idle

/-- The linear VRAM16 8-bit surface of W8, with the bytes 34 12. -/
def vram : State := withBytes 0x06000000 [0x34, 0x12] (onSurface 0x12 0x06000000 8 2 8 idle)

/-- W8: the other half of the halfword stays. -/
theorem test_setpix_vram16 :
    nextHas (exec .setpix (withArgs 1 0 0 0 0xAB vram)) (fun t => bytesFrom 0x06000000 t == [(0, 0x34), (1, 0xAB)]) = true := by
  decide +kernel

/-- The linear 24-bit surface of P-4. -/
def deep : State := withBytes 0x02000025 [0x11, 0x22, 0x33] (onSurface 0x30 0x02000001 10 10 10 idle)

/-- P-5. -/
theorem test_setpix_24 :
    nextHas (exec .setpix (withArgs 2 1 0 0 0xAABBCCDD deep))
      (fun t => bytesFrom 0x02000025 t == [(0, 0xDD), (1, 0xCC), (2, 0xBB)]) = true := by decide +kernel

/-- P-4. -/
theorem test_getpix_24 :
    nextHas (exec .getpix (withArgs 2 1 0 0 0 deep)) (fun t => t.blk.result0 == 0x00332211) = true := by decide +kernel

/-- The tiled 4bpp VRAM16 surface of P-1. -/
def tiles : State := withBytes 0x06000000 [0x7A, 0x5B] (onSurface 0x03 0x06000000 2 1 2 idle)

/-- P-1, at (1, 0): the high nibble. -/
theorem test_getpix_nibble :
    nextHas (exec .getpix (withArgs 1 0 0 0 0 tiles)) (fun t => t.blk.result0 == 0x7) = true := by decide +kernel

/-- P-13. -/
theorem test_hrun_vram16 :
    nextHas (exec .hrun (withArgs 1 0 4 0 0xEE
        (withBytes 0x06000000 [0x10, 0x11, 0x12, 0x13, 0x14, 0x15, 0x16, 0x17] (onSurface 0x12 0x06000000 8 1 8 idle))))
      (fun t => t.mem.map Prod.snd == [0x10, 0xEE, 0xEE, 0xEE, 0xEE, 0x15, 0x16, 0x17]) = true := by decide +kernel

/-- P-8. -/
theorem test_hrun_too_long :
    nextHas (exec .hrun (withArgs 6 0 3 0 1 board)) (fun t => faultWords t == (0x302, 0x03) && t.mem == []) = true := by
  decide +kernel

/-- P-11: Y1 is ignored. -/
theorem test_vrun :
    nextHas (exec .vrun (withArgs 0 2 2 9 4 board)) (fun t => bytesFrom 0x03000000 t == [(0x10, 4), (0x18, 4)]) = true := by
  decide +kernel

/-- M-1. -/
theorem test_mapaddr_tiled :
    nextHas (exec .mapaddr (withArgs 13 9 0 0 0 (onSurface 0x03 0x06000000 30 20 32 idle)))
      (fun t => (t.blk.result0, t.blk.result1) == (0x06000426, 0x00010404)) = true := by decide +kernel

/-- M-15: the address wraps. -/
theorem test_mapaddr_wraps :
    nextHas (exec .mapaddr (withArgs 3 3 0 0 0 (onSurface 0x40 0xFFFFFFF0 4 4 4 idle)))
      (fun t => (t.blk.result0, t.blk.result1) == (0x0000002C, 0x00002000)) = true := by decide +kernel

/-- R-1: the padding keeps its bytes. -/
theorem test_fill_padding :
    nextHas (exec .fill (withArgs 0 0 0 0 9
        (withBytes 0x03000000 (List.replicate 12 0xAA) (onSurface 0x10 0x03000000 4 2 6 idle))))
      (fun t => t.mem.map Prod.snd == [9, 9, 9, 9, 0xAA, 0xAA, 9, 9, 9, 9, 0xAA, 0xAA]) = true := by decide +kernel

/-- R-4. -/
theorem test_fillrect :
    nextHas (exec .fillrect (withArgs 1 1 2 2 3 board))
      (fun t => bytesFrom 0x03000000 t == [(0x09, 3), (0x0A, 3), (0x11, 3), (0x12, 3)]) = true := by decide +kernel

/-- R-5: with h = 0 nothing is checked. -/
theorem test_fillrect_empty :
    nextHas (exec .fillrect (withArgs 100 100 5 0 3 board)) (fun t => decide (t = withArgs 100 100 5 0 3 board)) = true := by
  decide +kernel

/-- R-9. -/
theorem test_rectout :
    nextHas (exec .rectout (withArgs 1 1 4 3 7 board))
      (fun t => t.mem.map (fun c => c.1 - 0x03000000) == [9, 10, 11, 12, 17, 20, 25, 26, 27, 28]) = true := by
  decide +kernel

/-- R-12: a horizontal run when h = 0. -/
theorem test_rectout_run :
    nextHas (exec .rectout (withArgs 0 1 3 0 7 board)) (fun t => bytesFrom 0x03000000 t == [(8, 7), (9, 7), (10, 7)]) = true := by
  decide +kernel

/-- L-8: swapped endpoints, falling minor axis. -/
theorem test_line_low :
    nextHas (exec .line (withArgs 7 0 0 3 1 board))
      (fun t => t.mem.map (fun c => c.1 - 0x03000000) == [6, 7, 12, 13, 18, 19, 24, 25]) = true := by decide +kernel

/-- L-13: D = 0 does not step. -/
theorem test_line_tie :
    nextHas (exec .line (withArgs 0 0 6 1 1 board))
      (fun t => t.mem.map (fun c => c.1 - 0x03000000) == [0, 1, 2, 3, 12, 13, 14]) = true := by decide +kernel

/-- D-16. -/
theorem test_decStart :
    nextHas (exec .decStart { idle with blk := { idle.blk with text := { idle.blk.text with base := 0x02000000, len := 3 } } })
      (fun t => t.blk.dec == { base := 0x02000000, len := 3, pos := 0 }) = true := by decide +kernel

/-- D-11: a lead byte F8, and bytes that are no continuations. -/
theorem test_decNext_malformed :
    nextHas (exec .decNext (withText 0x02000000 5 0 (withBytes 0x02000000 [0xF8, 0x41, 0x42, 0x43, 0x44] idle)))
      (fun t => (t.blk.result0, t.blk.dec.pos) == (0x00001083, 4)) = true := by decide +kernel

/-- D-15: a BusError on a continuation byte moves nothing. -/
theorem test_decNext_busError :
    nextHas (exec .decNext { withText 0x02000000 3 1 (withBytes 0x02000000 [0x41, 0xC3, 0xA9] idle) with
        platform := { examplePlatform with refusals := [⟨⟨0x02000002, 1⟩, none, none⟩] } })
      (fun t => faultWords t == (0x602, 0x02000002) && t.blk.dec.pos == 1 && t.blk.result0 == 0) = true := by
  decide +kernel

/-- W3. -/
theorem test_decPeek :
    nextHas (exec .decPeek (withText 0x02000000 2 0 (withBytes 0x02000000 [0xC3, 0xA9] idle)))
      (fun t => (t.blk.result0, t.blk.dec.pos) == (0xE9, 0)) = true := by decide +kernel

/-- Fixture F-HI. -/
def hi : State :=
  withSlot 0 0x08001000 12 0x48 0x48 (withSlot 1 0x08001010 12 0x69 0x69 (withSlot 2 0x08001020 12 0x21 0x21
    (withBytes 0x08001000 [0x85, 0, 4, 0, 0x11, 0x11, 0x11, 0x1F, 0x11, 0x11, 0x11, 0]
      (withBytes 0x08001010 [0x85, 0, 4, 0, 4, 0, 6, 4, 4, 4, 0x0E, 0]
        (withBytes 0x08001020 [0x85, 0, 4, 0, 4, 4, 4, 4, 4, 0, 4, 0] idle)))))

/-- G-1. -/
theorem test_glyphLookup :
    nextHas (exec .glyphLookup (withArgs 0 0 0 0 0x21 hi)) (fun t => (t.blk.result0, t.blk.result1) == (0x00040085, 5)) = true := by
  decide +kernel

/-- G-4. -/
theorem test_glyphLookup_negative :
    nextHas (exec .glyphLookup (withArgs 0 0 0 0 0xFFFFFFFF hi)) (fun t => (t.blk.result0, t.blk.result1) == (0, 0)) = true := by
  decide +kernel

/-- Text at 0x02000000 and `layoutcfg` of 30_encoding.md R127. -/
def withLayout (text : List Byte) (start max cfg0 cfg1 : Word) (s : State) : State :=
  withBytes 0x02000000 text
    { s with blk := { s.blk with text :=
      { base := 0x02000000, len := BitVec.ofNat 32 text.length, ltStart := start, ltMax := max, ltCfg0 := cfg0,
        ltCfg1 := cfg1 } } }

/-- Fixture F-CFG: L = (0, 4). -/
theorem test_layoutStart :
    nextHas (exec .layoutStart (withLayout [0x48] 0 0x00180010 0x080C0003 0 hi))
      (fun t => (t.blk.lay.x, t.blk.lay.y, t.blk.lay.flagsWord) == (0, 4, 1)) = true := by decide +kernel

/-- W4, step 2: the wrap. -/
theorem test_layoutNext_wraps :
    nextHas (exec .layoutNext (after .layoutNext (after .layoutStart
        (withLayout [0x48, 0x48, 0x48] 0 0x0028000A 0x080C0003 0x100 hi))))
      (fun t => (t.blk.gl.x, t.blk.gl.y, t.blk.gl.nextX, t.blk.gl.info, t.blk.lay.bbMaxY) == (0, 16, 6, 0x185, 24)) = true := by
  decide +kernel

/-- Y-5: clipped to 3 by 6. -/
theorem test_layoutNext_clips :
    nextHas (exec .layoutNext (after .layoutStart (withLayout [0x48] 8 0x000A000B 0x080C0003 0 hi)))
      (fun t => (t.blk.gl.x, t.blk.gl.info, t.blk.lay.bbMaxX, t.blk.lay.bbMaxY) == (8, 0xD63, 11, 10)) = true := by
  decide +kernel

/-- W5: the box of DOC's end-to-end scenario. -/
theorem test_layoutExhaust :
    nextHas (exec .layoutExhaust (after .layoutStart (withLayout [0x48, 0x69, 0x0A, 0x21] 0 0x00180010 0x080C0003 0 hi)))
      (fun t => (t.blk.lay.bbMinX, t.blk.lay.bbMinY, t.blk.lay.bbMaxX, t.blk.lay.bbMaxY) == (0, 4, 11, 24) &&
        t.blk.lay.flagsWord == 7 && t.blk.gl.info == 0x1000) = true := by decide +kernel

/-- Y-7: CharsetRange, the code point consumed. -/
theorem test_layoutExhaust_range :
    nextHas (exec .layoutExhaust (after .layoutStart
        (withSlot 0 0x08001000 8 0x48 0x48 (withLayout [0x48] 0 0x00180010 0x080C0003 0 hi))))
      (fun t => faultWords t == (0x402, 0x48) && t.blk.dec.pos == 1 && t.blk.lay.y == 4) = true := by decide +kernel

/-- V-1: the 17 pixels of 'H'. -/
theorem test_renderGlyph :
    nextHas (exec .renderGlyph (after .layoutNext (after .layoutStart
        (onSurface 0x10 0x02010000 16 24 16 (withArgs 0 0 0 0 1 (withLayout [0x48] 0 0x00180010 0x080C0003 0 hi))))))
      (fun t => (t.mem.filter fun c => 0x02010000 ≤ c.1 && c.1 < 0x02010180).map (fun c => c.1 - 0x02010000) ==
        [64, 68, 80, 84, 96, 100, 112, 113, 114, 115, 116, 128, 132, 144, 148, 160, 164]) = true := by decide +kernel

/-- V-3: OutOfBounds at the glyph pixel (10, 4), after the pixel (6, 4). -/
theorem test_renderText_outside :
    nextHas (exec .renderText (after .layoutStart
        (onSurface 0x10 0x02010000 8 8 8 (withArgs 0 0 0 0 1 (withLayout [0x20, 0x20, 0x48] 0 0x00640064 0x080C0003 0 hi)))))
      (fun t => faultWords t == (0x302, 0x0004000A) && byteAt t.mem (0x02010000 + 38) == 1 && t.blk.gl.info == 0x185 &&
        t.blk.lay.flagsWord == 3) = true := by decide +kernel

/-- C-3, C-4: an illegal word raises IllegalCommand with the word. -/
theorem test_illegal :
    nextHas (step (idle.withFetchWord 32 0x101)) (fun t => decide (t = (unread [] idle).faulted 1 0x101)) = true := by
  decide +kernel

/-- C-8. -/
theorem test_fault_clear :
    nextHas (hostMove (.write 0x008 4 2) (idle.faulted 1 6)) (fun t => decide (t = idle)) = true := by decide +kernel

/-- C-6: a CMD write while FAULT = 1 is dropped. -/
theorem test_command_dropped :
    nextHas (hostMove (.write 0x010 4 0) (idle.faulted 1 6)) (fun t => decide (t = idle.faulted 1 6)) = true := by
  decide +kernel

/-- R340, D39: hardware reset with a command in flight leaves memory. -/
theorem test_hardware_reset_busy :
    nextHas (hostMove .hardwareReset (latched 1 vram)) (fun t => decide (t.blk = .reset ∧ t.mem = vram.mem)) = true := by
  decide +kernel

/-- R32: a reserved offset reads 0 and ignores writes while BUSY = 1 too. -/
theorem test_reserved_busy :
    nextHas (hostMove (.read 0x01C 4) (latched 8 board)) (fun t => decide (t.seen = [.register 0x01C 0])) = true ∧
      nextHas (hostMove (.write 0x1FC 4 5) (latched 8 board)) (fun t => decide (t = latched 8 board)) = true := by
  decide +kernel

/-- The model stops with a race. -/
def races (o : Host.Outcome State Fault Refusal) : Bool :=
  match o with
  | .next _ => false
  | .fault f => f == .hostRace
  | .refused _ => false

/-- R93: the whole unit of a read-modify-write is used, its write refused or not. -/
theorem test_race_rmw :
    (let s := latched 1 (withArgs 1 0 0 0 0 { vram with platform :=
        { examplePlatform with refusals := [⟨⟨0x06000000, 2⟩, none, some .write⟩] } })
     races (hostMove (.load 0x06000000 1) s) && races (hostMove (.load 0x06000001 1) s) &&
       nextHas (hostMove (.load 0x06000002 1) s) fun _ => true) = true := by decide +kernel

/-- R355: a run ends at a STATUS read that returns BUSY = 0, and not before. -/
theorem test_run_ends :
    (issueCommand 0 idle).ended = false ∧ (complete (issueCommand 0 idle)).ended = false ∧
      (hostRead 0x008 (issueCommand 0 idle)).ended = false ∧
      (hostRead 0x008 (complete (issueCommand 0 idle))).ended = true := by decide +kernel

/-- A command's word, issued and executed, with no STATUS read after it. -/
def executed (w : Nat) (s : State) : State :=
  match step (s.withFetchWord 32 w) with
  | .next t => t
  | .fault _ => s
  | .refused _ => s

/-- R347: the results of a command are pending, in the registers and in the bytes it wrote and no others, until a STATUS
read returns BUSY = 0. -/
theorem test_results_pending :
    (executed 2 (withArgs 1 0 0 0 0 vram)).pending = { registers := true, bytes := [] } ∧
      (executed 1 (withArgs 1 0 0 0 0xAB vram)).pending = { registers := true, bytes := [0x06000000, 0x06000001] } ∧
      (hostRead 0x008 (executed 1 (withArgs 1 0 0 0 0xAB vram))).pending = .none := by decide +kernel

/-- R347: RESULT0 reads as any value before that STATUS read, and as GETPIX left it after; a register that holds no result
reads as ever. -/
theorem test_result_read (s : State) (hb : s.blk.busy = false) (hp : s.pending.registers = true) :
    (s.readValue 0x014 = Config.freeWord s.seen.length ∧ s.readValue 0x038 = s.blk.args.value) ∧
      (hostRead 0x014 (hostRead 0x008 (executed 2 (withArgs 1 0 0 0 0 vram)))).seen =
        [.register 0x014 0x12, .register 0x008 0] := by
  refine ⟨?_, by decide +kernel⟩
  simp [State.readValue, hb, hp, show regAt 0x014 = some .result0 by decide, show regAt 0x038 = some .argValue by decide,
    Reg.holdsResult, Block.readReg]

/-- R347: a byte that SETPIX wrote loads as any value before that STATUS read, unless the host has stored to it; and as
SETPIX left it after. -/
theorem test_result_load (s : State) (a : Word) (h : s.pending.bytes = [a]) :
    s.loadBytes a 2 = [Config.freeLoad s.seen.length 0, byteAt s.mem (a + 1)] ∧
      (storeMemory a [7] s).pending.bytes = [] ∧
      nextHas (hostMove (.load 0x06000000 2) (hostRead 0x008 (executed 1 (withArgs 1 0 0 0 0xAB vram))))
        (fun t => t.seen == [.memory 0x06000000 [0x34, 0xAB], .register 0x008 0]) = true := by
  refine ⟨?_, ?_, by decide +kernel⟩
  · simp [State.loadBytes, State.loadByte, List.range_succ, h]
  · simp [storeMemory, Pending.overwrite, h, accessBytes, List.range_succ]

/-! ### Witnesses: for each statement with hypotheses, states that meet all of them together -/

theorem nextHas_iff {o : Host.Outcome State Fault Refusal} {p : State → Bool} :
    nextHas o p = true ↔ ∃ t, o = .next t ∧ p t = true := by
  cases o <;> simp [nextHas]

/-- The outcome is a refusal. -/
def isRefusal (o : Host.Outcome State Fault Refusal) : Bool :=
  match o with
  | .next _ => false
  | .fault _ => false
  | .refused _ => true

theorem isRefusal_iff {o : Host.Outcome State Fault Refusal} : isRefusal o = true ↔ ∃ r, o = .refused r := by
  cases o <;> simp [isRefusal]

theorem all_false {l : List Word} {p : Word → Bool} (h : l.all (fun c => p c == false) = true) : ∀ c ∈ l, p c = false := by
  simpa using h

theorem witness_IllegalWordsRaiseIllegalCommand :
    (latched 0x101 idle).turn = .engine ∧ (latched 0x101 idle).blk.latch = some 0x101 ∧
      (0x101 : Word).extractLsb' 8 24 ≠ 0 ∧
      (latched 0x2A idle).turn = .engine ∧ (latched 0x2A idle).blk.latch = some 0x2A ∧
      (0x2A : Word).extractLsb' 0 8 ∉ ([0x00, 0x01, 0x02, 0x03, 0x04, 0x05, 0x08, 0x09, 0x0A, 0x0B, 0x10, 0x11, 0x12,
        0x18, 0x20, 0x21, 0x22, 0x28, 0x29] : List Byte) := by decide +kernel

theorem witness_StepRunsTheAgentsMove :
    ((latched 0x29 idle).turn = .engine ∧ (latched 0x29 idle).blk.latch = some 0x29 ∧ decode 0x29 = .command .renderText ∧
      nextHas (exec .renderText (latched 0x29 idle)) (fun _ => true) = true) ∧
    (let s := latched 1 (withArgs 1 0 0 0 0xAB vram)
     s.turn = .engine ∧ s.blk.latch = some 1 ∧ decode 1 = .command .setpix ∧
       nextHas (exec .setpix s) (fun t => byteAt t.mem 0x06000001 != byteAt s.mem 0x06000001) = true) ∧
    (let s := latched 2 { vram with platform := { examplePlatform with readEffects := [⟨0x06000000, 1⟩] } }
     s.turn = .engine ∧ s.blk.latch = some 2 ∧ decode 2 = .command .getpix ∧ isRefusal (exec .getpix s) = true) ∧
    ({ idle with host := [.wait] }.turn = .host ∧ { idle with host := [.wait] }.host = .wait :: []) ∧
    ({ idle with schedule := [.engine] }.turn = .engine ∧ { idle with schedule := [.engine] }.blk.latch = none) ∧
    idle.turn = .host ∧ idle.host = [] := by decide +kernel

theorem witness_LatchedCommandGetsItsTurn :
    ({ latched 0 idle with schedule := [.host, .host] }.host = [] ∧
      { latched 0 idle with schedule := [.host, .host] }.blk.latch ≠ none) ∧
    (let s := { latched 0 idle with schedule := [.host, .host], host := [.wait, .hardwareReset] }
     s.platform.readEffects = [] ∧ s.host = .wait :: [.hardwareReset]) := by decide +kernel

theorem witness_CommandsLeaveTheHostsRegisters :
    (∃ t, exec .nop (latched 0 idle) = .next t ∧ decide (t.blk.status.fault = false) = true) ∧
      (∃ t, exec .setpix (latched 1 idle) = .next t ∧ decide (t.blk.status.fault = true) = true) ∧
      (latched 1 idle).platform.readEffects = [] :=
  ⟨nextHas_iff.1 (by decide +kernel), nextHas_iff.1 (by decide +kernel), rfl⟩

theorem witness_HardwareResetValues :
    board.blk.latch = none ∧
      (∃ t, hostMove .hardwareReset (unread [0x03000000] board) = .next t ∧ decide (t.pending.bytes = [0x03000000]) = true) ∧
      { idle with schedule := [.engine] }.blk = State.reset.blk ∧ { idle with schedule := [.engine] }.turn = .engine :=
  ⟨by decide +kernel, nextHas_iff.1 (by decide +kernel), rfl, by decide +kernel⟩

/-- No command, an illegal word, and a command in flight. -/
theorem witness_SoftReset :
    (0x3 : Word).getLsbD 0 = true ∧ board.blk.latch = none ∧
      ((latched 0x101 board).blk.latch = some 0x101 ∧ decode 0x101 = .illegal .reservedBitsSet) ∧
      Memory.wf vram.mem = true ∧
      (latched 1 vram).blk.latch = some 1 ∧ decode 1 = .command .setpix ∧
      (∃ t, hostMove (.write 0x004 4 0x3) (latched 1 vram) = .next t ∧ true = true) ∧
      bytesWritten .setpix (latched 1 vram) = [0x06000000, 0x06000001] :=
  ⟨by decide, by decide +kernel, by decide +kernel, by decide +kernel, by decide +kernel, by decide,
    (nextHas_iff (p := fun _ => true)).1 (by decide +kernel), by decide +kernel⟩

/-- The first offset of the window, STATUS, the first and the last that holds a result, and the last offset; with results
pending and with none. -/
theorem witness_ReadOnlyRegistersShowTheState :
    idle.blk.latch = none ∧ idle.pending = .none ∧ (unread [] idle).blk.latch = none ∧
      (unread [] idle).pending.registers = true ∧
      ∀ offset ∈ [0x000, 0x008, 0x014, 0x0A8, 0x1FC], offset < 0x200 ∧ offset % 4 = 0 := by decide +kernel

/-- The first and the last read/write register, the one of CS_CTRL[7], and, for the second clause, ID, a reserved offset
and the last word of the window. -/
theorem witness_WrittenRegistersReadBack :
    (0x020, 0xFFFFFFFF) ∈ writableRegs ∧ (0x1F0, 0x00000001) ∈ writableRegs ∧ idle.blk.latch = none ∧
      ∀ offset ∈ [0x000, 0x01C, 0x1FC], offset < 0x200 ∧ offset % 4 = 0 ∧ offset ∉ [0x004, 0x008, 0x010] ∧
        ∀ mask, (offset, mask) ∉ writableRegs := by
  refine ⟨by decide +kernel, by decide +kernel, by decide +kernel, fun offset ho => ?_⟩
  have hw : ∀ o ∈ [0x000, 0x01C, 0x1FC], o < 0x200 ∧ o % 4 = 0 ∧ o ∉ [0x004, 0x008, 0x010] ∧
      o ∉ writableRegs.map Prod.fst := by decide +kernel
  obtain ⟨h1, h2, h3, h4⟩ := hw offset ho
  exact ⟨h1, h2, h3, fun mask hm => h4 (List.mem_map_of_mem (f := Prod.fst) hm)⟩

theorem inv_idle : idle.Inv := ⟨by constructor <;> decide +kernel, by decide +kernel, by decide +kernel, by decide +kernel⟩

theorem witness_ReservedSpaceAndAccessWidth :
    reservedOffset 0x01C ∧ reservedOffset 0x05C ∧ reservedOffset 0x0FC ∧ reservedOffset 0x114 ∧ reservedOffset 0x1FC ∧
      idle.blk.latch = none ∧ idle.Inv ∧ (0x1FE < 0x200 ∧ ¬ (4 = 4 ∧ 0x1FE % 4 = 0)) ∧ (0 < 0x200 ∧ ¬ (2 = 4 ∧ 0 % 4 = 0)) :=
  ⟨⟨rfl, .inl rfl⟩, ⟨rfl, .inr (.inr (.inl ⟨by decide, by decide⟩))⟩,
    ⟨rfl, .inr (.inr (.inr (.inr (.inl ⟨by decide, by decide⟩))))⟩,
    ⟨rfl, .inr (.inr (.inr (.inr (.inr ⟨0, by decide, by decide, by decide⟩))))⟩,
    ⟨rfl, .inr (.inr (.inr (.inr (.inr ⟨7, by decide, by decide, by decide⟩))))⟩,
    rfl, inv_idle, by decide, by decide⟩

theorem witness_CommandWriteLatchesOrIsDropped :
    (idle.blk.latch = none ∧ idle.blk.status.fault = false) ∧
      ((idle.faulted 1 6).blk.latch = none ∧ (idle.faulted 1 6).blk.status.fault = true) ∧
      (latched 8 board).blk.latch ≠ none := by decide +kernel

theorem witness_NopClearsBusyOnly :
    (idle.faulted 1 6).blk.latch = none ∧ (idle.faulted 1 6).blk.status.fault = true := by decide +kernel

theorem witness_FaultIsClearedByStatusWrite :
    ((idle.faulted 1 6).blk.latch = none ∧ (0x2 : Word).getLsbD 1 = true ∧ (idle.faulted 1 6).blk.status.fault = true) ∧
      ((0x1 : Word).getLsbD 1 = false ∧ (0x1 : Word).getLsbD 0 = true) ∧ idle.blk.latch = none ∧
      idle.blk.status.fault = false := by decide +kernel

/-- The first register and the last; and both cases of `wait`. -/
theorem witness_HostRulesWhileBusy :
    (latched 8 board).blk.latch ≠ none ∧ idle.blk.latch = none ∧ (0x2 : Word).getLsbD 0 = false ∧
      ∀ offset ∈ [0x000, 0x010, 0x1F0],
        offset < 0x200 ∧ offset % 4 = 0 ∧ ¬ reservedOffset offset ∧ offset ≠ 0x004 ∧ offset ≠ 0x008 := by
  simp only [reservedOffset]
  decide +kernel

/-- SETPIX of the right half of a halfword in flight. -/
def setpixBusy : State := latched 1 (withArgs 1 0 0 0 0 vram)

theorem decode_only {w v : Word} {i j : Instr} (hw : decode w = .command i) (h : some w = some v)
    (hv : decode v = .command j) : i = j := by
  obtain rfl := Option.some.inj h
  simpa [hw] using hv

/-- BUSY = 0, at the last byte of the address space and the first; a byte that a command wrote, and after which no STATUS
read has returned BUSY = 0, with one that it did not; the byte after the one unit that SETPIX uses; an
illegal word in the latch; and an access of which the last byte is the window's first. -/
theorem witness_HostStoresAndLoads :
    (Memory.wf vram.mem = true ∧ ([1, 2] : List Byte).length ≤ 2 ^ 32 ∧
      (∀ c ∈ accessBytes 0xFFFFFFFF ([1, 2] : List Byte).length, 0x200 ≤ (c - vram.platform.blockBase).toNat) ∧
      ∀ w i, vram.blk.latch = some w → decode w = .command i →
        ∀ c ∈ accessBytes 0xFFFFFFFF ([1, 2] : List Byte).length, uses i vram c = false) ∧
    (let s := unread [0x06000001] vram
     s.blk.latch = none ∧ 0x06000001 ∈ s.pending.bytes ∧ 0x06000002 ∉ s.pending.bytes ∧
       0x06000001 ∈ accessBytes 0x06000001 2 ∧ 0x06000002 ∈ accessBytes 0x06000001 2) ∧
    (Memory.wf setpixBusy.mem = true ∧ setpixBusy.blk.latch = some 1 ∧
      ∀ w i, setpixBusy.blk.latch = some w → decode w = .command i →
        ∀ c ∈ accessBytes 0x06000002 ([1, 2] : List Byte).length, uses i setpixBusy c = false) ∧
    ((latched 0x101 board).blk.latch = some 0x101 ∧
      ∀ w i, (latched 0x101 board).blk.latch = some w → decode w = .command i →
        ∀ c ∈ accessBytes 0x03000000 ([1, 2] : List Byte).length, uses i (latched 0x101 board) c = false) ∧
    ∃ j < ([1, 2] : List Byte).length, (0x03FFFFFF + BitVec.ofNat 32 j - vram.platform.blockBase).toNat < 0x200 := by
  refine ⟨⟨by decide +kernel, by decide, fun c hc => ?_, fun w i h => ?_⟩, by decide +kernel, ⟨by decide +kernel, rfl, fun w i h hd => ?_⟩,
    ⟨rfl, fun w i h hd => ?_⟩, 1, by decide, by decide +kernel⟩
  · have := (all_false (p := vram.platform.inWindow) (by decide +kernel)) c hc
    simpa [Platform.inWindow] using this
  · exact absurd h (by simp [show vram.blk.latch = none by decide +kernel])
  · obtain rfl := decode_only (w := 1) (i := .setpix) (by decide) h hd
    exact all_false (by decide +kernel)
  · obtain rfl : 0x101 = w := Option.some.inj h
    exact absurd hd (by rw [show decode 0x101 = .illegal .reservedBitsSet by decide]; simp)

/-- Both bytes of the halfword that SETPIX works in, and none beside them; the first and the last byte of a code point of
two bytes; and the text that LAYOUT_NEXT reads. -/
theorem witness_HostRaceStops :
    (setpixBusy.blk.latch = some 1 ∧ decode 1 = .command .setpix ∧
      (∀ b ∈ accessBytes 0x06000001 1, setpixBusy.platform.inWindow b = false) ∧
      0x06000001 ∈ accessBytes 0x06000001 1 ∧ uses .setpix setpixBusy 0x06000001 = true) ∧
    (surfCheck setpixBusy.blk.surf = .ok () ∧ ¬ badArguments .setpix setpixBusy ∧
      (∀ b ∈ pixBytes setpixBusy.platform setpixBusy.blk.surf setpixBusy.blk.args.x0 setpixBusy.blk.args.y0,
        setpixBusy.platform.inWindow b = false) ∧
      pixBytes setpixBusy.platform setpixBusy.blk.surf setpixBusy.blk.args.x0 setpixBusy.blk.args.y0 =
        [0x06000000, 0x06000001] ∧
      uses .setpix setpixBusy 0x06000000 = true ∧ uses .setpix setpixBusy 0x06000002 = false) ∧
    (let s := withText 0x02000000 3 0 (withBytes 0x02000000 [0xC3, 0xA9, 0x41] idle)
     (∀ q ∈ s.codeAccesses, s.platform.inWindow q.addr = false) ∧
       s.codeAccesses = [⟨0x02000000, 1, .read⟩, ⟨0x02000001, 1, .read⟩] ∧ uses .decNext s 0x02000001 = true ∧
       uses .decPeek s 0x02000002 = false) ∧
    (let s := after .layoutStart (withLayout [0x48] 0 0x00180010 0x080C0003 0 hi)
     uses .layoutNext s 0x02000000 = true ∧ uses .layoutNext s 0x08001003 = true ∧ uses .layoutNext s 0x08001004 = false ∧
       ∃ r ∈ readRegions .layoutNext s, r.has 0x08001003 = true) := by
  refine ⟨⟨rfl, by decide, all_false (by decide +kernel), by decide +kernel, by decide +kernel⟩,
    ⟨by decide +kernel, ?_, all_false (by decide +kernel), by decide +kernel, by decide +kernel, by decide +kernel⟩,
    by decide +kernel, by decide +kernel⟩
  simp only [badArguments, Surface.Inside]
  decide +kernel

theorem witness_StepsKeepTheInvariant :
    (latched 0x20 idle).Inv ∧ ∃ t, step (latched 0x20 idle) = .next t ∧ decide (t.blk.lay.active = true) = true :=
  ⟨⟨by constructor <;> decide +kernel, by decide +kernel, by decide +kernel, by decide +kernel⟩, nextHas_iff.1 (by decide +kernel)⟩

theorem witness_LayoutAndDecoderHaveTheirOwnWriters :
    (∃ t, exec .decNext (withText 0 1 0 idle) = .next t ∧ decide (t.blk.dec.pos = 1) = true) ∧
      .decNext ∉ [Instr.layoutStart, .layoutNext, .layoutExhaust, .renderText] ∧
      (∃ t, exec .setpix (withArgs 1 0 0 0 0xAB vram) = .next t ∧ decide (t.blk.status.fault = false) = true) ∧
      .setpix ∉ [Instr.decStart, .layoutStart, .decNext, .layoutNext, .layoutExhaust, .renderText] ∧
      ∃ t, hostMove (.write 0x024 4 0x10) idle = .next t ∧ decide (t.blk.surf.cfg = 0x10) = true :=
  ⟨nextHas_iff.1 (by decide +kernel), by decide, nextHas_iff.1 (by decide +kernel), by decide,
    nextHas_iff.1 (by decide +kernel)⟩

theorem witness_ResultsAndMemoryHaveTheirOwnWriters :
    (∃ t, exec .setpix (withArgs 1 0 0 0 0xAB vram) = .next t ∧ decide (t.mem ≠ vram.mem) = true) ∧
      .setpix ∉ [Instr.getpix, .mapaddr, .decNext, .decPeek, .glyphLookup] ∧
      (∃ t, exec .getpix (withArgs 1 0 0 0 0 vram) = .next t ∧ decide (t.blk.result0 = 0x12) = true) ∧
      .getpix ∉ [Instr.mapaddr, .glyphLookup] ∧ .getpix ∈ [Instr.nop, .getpix, .mapaddr] :=
  ⟨nextHas_iff.1 (by decide +kernel), by decide, nextHas_iff.1 (by decide +kernel), by decide, by decide⟩

theorem witness_FaultsEachCommandRaises :
    ∃ t, exec .hrun (withArgs 6 0 3 0 1 board) = .next t ∧ decide (t.blk.status.code = 3) = true :=
  nextHas_iff.1 (by decide +kernel)

/-- BadSurface, OutOfBounds of an argument check, and CharsetRange of a layout step. -/
theorem witness_FaultsArePrecise :
    (idle.blk.status.fault = false ∧
      ∃ t, exec .fill idle = .next t ∧ (t.blk.status.fault && t.blk.status.code == 2) = true) ∧
    (board.blk.status.fault = false ∧
      ∃ t, exec .hrun (withArgs 6 0 3 0 1 board) = .next t ∧ (t.blk.status.fault && t.blk.status.code == 3) = true) ∧
    ((after .layoutStart (withSlot 0 0x08001000 8 0x48 0x48 (withLayout [0x48] 0 0x00180010 0x080C0003 0 hi))).blk.status.fault
        = false ∧
      ∃ t, exec .layoutNext (after .layoutStart (withSlot 0 0x08001000 8 0x48 0x48
        (withLayout [0x48] 0 0x00180010 0x080C0003 0 hi))) = .next t ∧ (t.blk.status.fault && t.blk.status.code == 4) = true) :=
  ⟨⟨by decide +kernel, (nextHas_iff (p := fun t => t.blk.status.fault && t.blk.status.code == 2)).1 (by decide +kernel)⟩,
    ⟨by decide +kernel, (nextHas_iff (p := fun t => t.blk.status.fault && t.blk.status.code == 3)).1 (by decide +kernel)⟩,
    ⟨by decide +kernel, (nextHas_iff (p := fun t => t.blk.status.fault && t.blk.status.code == 4)).1 (by decide +kernel)⟩⟩

/-- The memory that differs in the byte beside the pixel: in no byte of the regions, and in none that GETPIX uses. -/
theorem witness_CommandsReadOnlyTheirRegions :
    (∀ a, (∃ r ∈ readRegions .getpix (withArgs 1 0 0 0 0 vram), r.has a = true) →
      byteAt [(0x06000001, 0x12)] a = byteAt (withArgs 1 0 0 0 0 vram).mem a) ∧
    (∀ a, uses .getpix (withArgs 1 0 0 0 0 vram) a = true →
      byteAt [(0x06000001, 0x12)] a = byteAt (withArgs 1 0 0 0 0 vram).mem a) ∧
    ∃ t, exec .getpix (withArgs 1 0 0 0 0 vram) = .next t ∧ decide (t.blk.result0 = 0x12) = true := by
  have hm : (withArgs 1 0 0 0 0 vram).mem = [(0x06000000, 0x34), (0x06000001, 0x12)] := by decide +kernel
  have hb : ∀ a : Word, a ≠ 0x06000000 → byteAt [(0x06000001, 0x12)] a = byteAt (withArgs 1 0 0 0 0 vram).mem a := by
    intro a ha
    have : (0x06000000 : Nat) ≠ a.toNat := fun h => ha (BitVec.eq_of_toNat_eq h.symm)
    rw [hm]
    simp [byteAt, memGet, this]
  refine ⟨fun a ha => hb a ?_, fun a ha => hb a ?_, nextHas_iff.1 (by decide +kernel)⟩
  · rintro rfl
    exact absurd ha (by decide +kernel)
  · rintro rfl
    exact absurd ha (by decide +kernel)

/-! #### Surfaces and drawing -/

/-- A linear 8-bit surface of 2 by 2 pixels at 0x03000000. -/
def dot : State := onSurface 0x10 0x03000000 2 2 2 idle

/-- One surface for each clause: illegal, too narrow a pitch, misaligned, and legal with a BusError. -/
theorem witness_SurfaceChecksComeFirst :
    Instr.fill ∈ surfaceCommands ∧
    (let f := (onSurface 0x32 0 4 4 4 idle).blk.surf
     ¬ ((f.cfg.toNat % 2 = 0 ∧ (f.cfg.toNat / 16 % 8 = 1 ∨ f.cfg.toNat / 16 % 8 = 2 ∨ f.cfg.toNat / 16 % 8 = 3 ∨
        f.cfg.toNat / 16 % 8 = 4) ∧ ¬ (f.cfg.toNat / 2 % 2 = 1 ∧ f.cfg.toNat / 16 % 8 = 3)) ∨
        (f.cfg.toNat % 2 = 1 ∧ (f.cfg.toNat / 16 % 8 = 0 ∨ f.cfg.toNat / 16 % 8 = 1)))) ∧
    (let f := (onSurface 0x10 0 5 4 4 idle).blk.surf
     f.cfg.toNat % 2 = 0 ∧ f.cfg.toNat / 16 % 8 = 1 ∧ f.cfg.toNat / 2 % 2 = 0 ∧
       ¬ f.size.toNat % 65536 ≤ f.pitch.toNat % 65536) ∧
    (let f := (onSurface 0x40 2 4 4 4 idle).blk.surf
     f.cfg.toNat % 2 = 0 ∧ f.cfg.toNat / 16 % 8 = 4 ∧ f.cfg.toNat / 2 % 2 = 0 ∧
       f.size.toNat % 65536 ≤ f.pitch.toNat % 65536 ∧ ¬ f.base.toNat % 4 = 0) ∧
    (let f := dot.blk.surf
     f.cfg.toNat % 2 = 0 ∧ f.cfg.toNat / 16 % 8 = 1 ∧ f.cfg.toNat / 2 % 2 = 0 ∧
       f.size.toNat % 65536 ≤ f.pitch.toNat % 65536) ∧
    ∃ t, exec .fill { dot with platform := { examplePlatform with refusals := [⟨⟨0x03000003, 1⟩, none, none⟩] } } = .next t ∧
      decide (t.blk.status.code = 6) = true :=
  ⟨by decide, by decide +kernel, by decide +kernel, by decide +kernel, by decide +kernel, nextHas_iff.1 (by decide +kernel)⟩

/-- A bad argument for each command that checks one, at the first value out of bounds, and a good one. -/
theorem witness_ArgumentChecks :
    surfCheck dot.blk.surf = .ok () ∧
    badArguments .setpix (withArgs 2 0 0 0 0 dot) ∧ badArguments .getpix (withArgs 0 2 0 0 0 dot) ∧
    badArguments .mapaddr (withArgs 2 1 0 0 0 dot) ∧ badArguments .hrun (withArgs 2 0 0 0 0 dot) ∧
    badArguments .hrun (withArgs 1 0 2 0 0 dot) ∧ badArguments .vrun (withArgs 0 1 2 0 0 dot) ∧
    badArguments .fillrect (withArgs 2 0 0 1 0 dot) ∧ ¬ badArguments .fillrect (withArgs 2 9 9 0 0 dot) ∧
    badArguments .rectout (withArgs 2 0 0 0 0 dot) ∧ badArguments .rectout (withArgs 0 1 0 2 0 dot) ∧
    badArguments .rectout (withArgs 1 0 2 0 0 dot) ∧ badArguments .rectout (withArgs 1 0 2 1 0 dot) ∧
    badArguments .line (withArgs 0 0 2 0 0 dot) ∧ badArguments .line (withArgs 2 0 0 0 0 dot) ∧
    ¬ badArguments .hrun (withArgs 1 1 1 0 0 dot) ∧
    ∃ t, exec .hrun (withArgs 1 1 1 0 0
        { dot with platform := { examplePlatform with refusals := [⟨⟨0x03000003, 1⟩, none, none⟩] } }) = .next t ∧
      decide (t.blk.status.code = 6) = true := by
  refine ⟨by decide +kernel, ?_, ?_, ?_, ?_, ?_, ?_, ?_, ?_, ?_, ?_, ?_, ?_, ?_, ?_, ?_, nextHas_iff.1 (by decide +kernel)⟩ <;>
    (simp only [badArguments, Surface.Inside]; decide +kernel)

/-- M-1 and M-15's surfaces at their last pixels. -/
theorem witness_MapaddrGivesAddressAndFlags :
    (surfCheck (onSurface 0x03 0x06000000 30 20 32 idle).blk.surf = .ok () ∧
      (withArgs 239 159 0 0 0 idle).blk.args.x0 < 8 * 30 ∧ (withArgs 239 159 0 0 0 idle).blk.args.y0 < 8 * 20) ∧
    surfCheck (onSurface 0x40 0xFFFFFFF0 4 4 4 idle).blk.surf = .ok () ∧
      (withArgs 3 3 0 0 0 idle).blk.args.x0 < 1 * 4 := by decide +kernel

theorem dot_fits : dot.blk.surf.Fits := by
  intro x y h
  have hall : ∀ x < 2, ∀ y < 2, dot.blk.surf.offset x y + dot.blk.surf.unitBytes ≤ 2 ^ 32 := by decide +kernel
  exact hall x h.1 y h.2

theorem witness_MapperIsInjective :
    surfCheck dot.blk.surf = .ok () ∧ dot.blk.surf.Fits ∧ dot.blk.surf.Inside 0 0 ∧ dot.blk.surf.Inside 1 1 ∧
      (dot.blk.surf.pixAddr 0 0).1 ≠ (dot.blk.surf.pixAddr 1 1).1 :=
  ⟨by decide +kernel, dot_fits, by simp only [Surface.Inside]; decide +kernel,
    by simp only [Surface.Inside]; decide +kernel, by decide +kernel⟩

/-- A surface on which offsets pass 2^32, at its first and its last pixel. -/
theorem witness_MapperIsInjectiveOnEverySurface :
    let f := (onSurface 0x40 0 1 65535 32768 idle).blk.surf
    surfCheck f = .ok () ∧ f.Inside 0 0 ∧ f.Inside 0 65534 ∧ f.pixAddr 0 65534 = f.pixAddr 0 65534 :=
  ⟨by decide +kernel, by simp only [Surface.Inside]; decide +kernel, by simp only [Surface.Inside]; decide +kernel, rfl⟩

theorem witness_NoByteWritesUnderVram16 : vram.blk.surf.vram16 = true := by decide +kernel

theorem canDraw_dot {s : State} {set : Nat → Nat → Prop} (hs : s.blk.surf = dot.blk.surf) (hp : s.platform = examplePlatform)
    (hm : Memory.wf s.mem = true) (hset : ∀ x y, set x y → x < 2 ∧ y < 2) : CanDraw s set where
  legal := by rw [hs]; decide +kernel
  fits := hs ▸ dot_fits
  mem := hm
  served x y h := by
    have hall : ∀ x < 2, ∀ y < 2, examplePlatform.writesPixel dot.blk.surf x y = true := by decide +kernel
    rw [hs, hp]
    exact hall x (hset x y h).1 y (hset x y h).2

/-- SETPIX at a corner, HRUN of both lengths 0 and 2, VRUN of length 2. -/
theorem witness_PixelCommandsDrawTheirPixels :
    (CanDraw (withArgs 1 1 0 0 7 dot) (drawnSet .setpix (withArgs 1 1 0 0 7 dot)) ∧
      ¬ badArguments .setpix (withArgs 1 1 0 0 7 dot)) ∧
    (CanDraw (withArgs 1 1 0 0 7 dot) (drawnSet .hrun (withArgs 1 1 0 0 7 dot)) ∧
      ¬ badArguments .hrun (withArgs 1 1 0 0 7 dot)) ∧
    (CanDraw (withArgs 0 1 2 0 7 dot) (drawnSet .hrun (withArgs 0 1 2 0 7 dot)) ∧
      ¬ badArguments .hrun (withArgs 0 1 2 0 7 dot)) ∧
    CanDraw (withArgs 1 0 2 0 7 dot) (drawnSet .vrun (withArgs 1 0 2 0 7 dot)) ∧
      ¬ badArguments .vrun (withArgs 1 0 2 0 7 dot) := by
  refine ⟨⟨canDraw_dot rfl rfl rfl ?_, ?_⟩, ⟨canDraw_dot rfl rfl rfl ?_, ?_⟩, ⟨canDraw_dot rfl rfl rfl ?_, ?_⟩,
    canDraw_dot rfl rfl rfl ?_, ?_⟩
  · rintro x y ⟨rfl, rfl⟩; decide +kernel
  · simp only [badArguments, Surface.Inside]; decide +kernel
  · rintro x y ⟨h1, h2, rfl⟩
    exact ⟨lt_of_lt_of_le h2 (by decide +kernel), by decide +kernel⟩
  · simp only [badArguments, Surface.Inside]; decide +kernel
  · rintro x y ⟨h1, h2, rfl⟩
    exact ⟨lt_of_lt_of_le h2 (by decide +kernel), by decide +kernel⟩
  · simp only [badArguments, Surface.Inside]; decide +kernel
  · rintro x y ⟨rfl, h1, h2⟩
    exact ⟨by decide +kernel, lt_of_lt_of_le h2 (by decide +kernel)⟩
  · simp only [badArguments, Surface.Inside]; decide +kernel

/-- The platform where no 8-bit write is honoured. -/
def noByteWrites : Platform := { examplePlatform with byteWriteBad := [⟨0, 2 ^ 32⟩] }

/-- An odd byte at which 8-bit writes are not honoured; and, where none is, FILL in 8 bits, and SETPIX in 24 bits and in a
nibble of a tile. -/
theorem witness_UnhonouredByteWriteFreesTheHalfword :
    (let s := withArgs 1 0 0 0 7 { dot with platform := { examplePlatform with byteWriteBad := [⟨0x03000001, 1⟩] } }
     Memory.wf s.mem = true ∧ surfCheck s.blk.surf = .ok () ∧ s.blk.surf.tiled = false ∧ s.blk.surf.fmt = 1 ∧
       s.blk.surf.vram16 = false ∧ ¬ badArguments .setpix s ∧
       s.platform.serves 0x03000001 1 .write = true ∧ s.platform.byteWriteOk 0x03000001 = false) ∧
    (let s := { dot with platform := noByteWrites }
     surfCheck s.blk.surf = .ok () ∧ s.blk.surf.vram16 = false ∧ s.blk.surf.fmt = 1 ∧ ¬ badArguments .fill s ∧
       ∀ x y, drawnSet .fill s x y → ∀ a ∈ s.blk.surf.pixelBytes x y,
         s.platform.byteWriteOk a = false ∧ s.platform.serves a 1 .write = true) ∧
    ∀ s ∈ [withArgs 2 1 0 0 7 { deep with platform := noByteWrites },
      withArgs 15 7 0 0 7 (onSurface 0x01 0x03000001 2 1 2 { idle with platform := noByteWrites })],
      Memory.wf s.mem = true ∧ surfCheck s.blk.surf = .ok () ∧ s.blk.surf.vram16 = false ∧ s.blk.surf.fmt ≠ 2 ∧
        s.blk.surf.fmt ≠ 4 ∧ ¬ badArguments .setpix s ∧
        ∀ x y, drawnSet .setpix s x y → ∀ a ∈ s.blk.surf.pixelBytes x y,
          s.platform.byteWriteOk a = false ∧ s.platform.serves a 1 .write = true ∧
            (s.blk.surf.fmt = 0 → s.platform.serves a 1 .read = true) := by
  refine ⟨?_, ⟨by decide +kernel, by decide +kernel, by decide +kernel, id, fun x y h a ha => ?_⟩, fun s hs => ?_⟩
  · simp only [badArguments, Surface.Inside]
    decide +kernel
  · have hall : ∀ x < 2, ∀ y < 2, (dot.blk.surf.pixelBytes x y).all fun a =>
        !noByteWrites.byteWriteOk a && noByteWrites.serves a 1 .write := by decide +kernel
    simpa using List.all_eq_true.1 (hall x h.1 y h.2) a ha
  · have hall : ∀ s ∈ [withArgs 2 1 0 0 7 { deep with platform := noByteWrites },
        withArgs 15 7 0 0 7 (onSurface 0x01 0x03000001 2 1 2 { idle with platform := noByteWrites })],
        Memory.wf s.mem = true ∧ surfCheck s.blk.surf = .ok () ∧ s.blk.surf.vram16 = false ∧ s.blk.surf.fmt ≠ 2 ∧
          s.blk.surf.fmt ≠ 4 ∧ (s.blk.args.x0 < s.blk.surf.pixelWidth ∧ s.blk.args.y0 < s.blk.surf.pixelHeight) ∧
          ((s.blk.surf.pixelBytes s.blk.args.x0 s.blk.args.y0).all fun a => !s.platform.byteWriteOk a &&
            s.platform.serves a 1 .write && s.platform.serves a 1 .read) = true := by decide +kernel
    obtain ⟨h1, h2, h3, h4, h5, h6, h7⟩ := hall s hs
    refine ⟨h1, h2, h3, h4, h5, fun h => h h6, ?_⟩
    rintro x y ⟨rfl, rfl⟩ a ha
    have := List.all_eq_true.1 h7 a ha
    simp only [Bool.and_eq_true, Bool.not_eq_true'] at this
    exact ⟨this.1.1, this.1.2, fun _ => this.2⟩

/-- One surface for each format, 4bpp at an even and at an odd x. -/
theorem witness_GetpixReadsThePixel :
    ∀ s ∈ [withArgs 0 0 0 0 0 tiles, withArgs 15 7 0 0 0 tiles, withArgs 1 1 0 0 0 dot,
      withArgs 3 3 0 0 0 (onSurface 0x20 0x03000000 4 4 4 idle), withArgs 9 9 0 0 0 deep,
      withArgs 3 3 0 0 0 (onSurface 0x40 0xFFFFFFF0 4 4 4 idle)],
      surfCheck s.blk.surf = .ok () ∧ (s.blk.args.x0 < s.blk.surf.pixelWidth ∧ s.blk.args.y0 < s.blk.surf.pixelHeight) ∧
        s.platform.readsPixel s.blk.surf s.blk.args.x0 s.blk.args.y0 = true := by decide +kernel

theorem firstSlot_of {s : State} {cp : Int} {i : Fin 8} (h : 0 ≤ cp ∧
    ((s.blk.cs.get i).ctrl.getLsbD 0 = true ∧ 0 < (s.blk.cs.get i).len.toNat ∧ (s.blk.cs.get i).min.toInt ≤ cp ∧
      cp ≤ (s.blk.cs.get i).max.toInt) ∧
    ∀ j < i, ¬ ((s.blk.cs.get j).ctrl.getLsbD 0 = true ∧ 0 < (s.blk.cs.get j).len.toNat ∧ (s.blk.cs.get j).min.toInt ≤ cp ∧
      cp ≤ (s.blk.cs.get j).max.toInt)) : s.firstSlot cp i := h

/-- A layout of `bytes`, after LAYOUT_START, with max (16, 24) and the configuration F-CFG. -/
def laying (bytes : List Byte) : State := after .layoutStart (withLayout bytes 0 0x00180010 0x080C0003 0 hi)

/-- The example platform with the accesses to `n` bytes at `a` refused. -/
def refusing (a : Word) (n : Nat) : Platform := { examplePlatform with refusals := [⟨⟨a, n⟩, none, none⟩] }

/-- GETPIX of an 8-bit pixel and of the last byte of a 24-bit one; the last byte of a code point; the last byte of a
header; an access whose last byte is the window's first; and, with read side effects at a byte, the first accesses of
SETPIX and of DEC_NEXT. -/
theorem witness_RefusedReadsAreBusErrors :
    (let s := withArgs 1 1 0 0 0 { dot with platform := refusing 0x03000003 1 }
     surfCheck s.blk.surf = .ok () ∧ ¬ badArguments .getpix s ∧
       s.platform.firstRefused (s.blk.surf.getAccesses s.blk.args.x0 s.blk.args.y0) 0x03000003) ∧
    (let s := withArgs 2 1 0 0 0 { deep with platform := refusing 0x02000027 1 }
     surfCheck s.blk.surf = .ok () ∧ ¬ badArguments .getpix s ∧
       s.platform.firstRefused (s.blk.surf.getAccesses s.blk.args.x0 s.blk.args.y0) 0x02000027) ∧
    (let s := { laying [0xC3, 0xA9] with platform := refusing 0x02000001 1 }
     s.blk.lay.active = true ∧ s.blk.lay.y.toInt < s.blk.lay.maxY.toInt ∧
       s.platform.firstRefused s.codeAccesses 0x02000001) ∧
    (let s := withArgs 0 0 0 0 0x48 { hi with platform := refusing 0x08001003 1 }
     s.firstSlot s.blk.args.value.toInt 0 ∧ (s.blk.cs.get 0).base.toNat % 2 = 0 ∧
       4 * (s.blk.args.value.toInt - (s.blk.cs.get 0).min.toInt) + 4 ≤ (s.blk.cs.get 0).len.toNat ∧
       s.platform.firstRefused (headerAccesses (s.blk.cs.get 0) s.blk.args.value.toInt) 0x08001003) ∧
    (∃ j < 4, (0x03FFFFFD + BitVec.ofNat 32 j - examplePlatform.blockBase).toNat < 0x200) ∧
    (let s := withArgs 1 1 0 0 0 { dot with platform := { examplePlatform with readEffects := [⟨0x03000003, 1⟩] } }
     let q : Access := ⟨0x03000003, 1, .write⟩
     surfCheck s.blk.surf = .ok () ∧ ¬ badArguments .setpix s ∧
       s.blk.surf.putAccesses s.blk.args.x0 s.blk.args.y0 = [q] ∧ s.platform.admits q.addr q.bytes q.kind = true ∧
       ∃ r ∈ s.platform.readEffects, ∃ j < q.bytes, (q.addr + BitVec.ofNat 32 j - r.base).toNat < r.size) ∧
    (let s := { laying [0xC3, 0xA9] with platform := { examplePlatform with readEffects := [⟨0x02000000, 1⟩] } }
     let q : Access := ⟨0x02000000, 1, .read⟩
     s.codeAccesses = [q, ⟨0x02000001, 1, .read⟩] ∧ s.platform.admits q.addr q.bytes q.kind = true ∧
       ∃ r ∈ s.platform.readEffects, ∃ j < q.bytes, (q.addr + BitVec.ofNat 32 j - r.base).toNat < r.size) := by
  simp only [badArguments, Surface.Inside]
  refine ⟨⟨by decide +kernel, by decide +kernel, [], ⟨0x03000003, 1, .read⟩, [], by decide +kernel⟩,
    ⟨by decide +kernel, by decide +kernel, [⟨0x02000025, 1, .read⟩, ⟨0x02000026, 1, .read⟩], ⟨0x02000027, 1, .read⟩, [],
      by decide +kernel⟩,
    ⟨by decide +kernel, by decide +kernel, [⟨0x02000000, 1, .read⟩], ⟨0x02000001, 1, .read⟩, [], by decide +kernel⟩,
    ⟨firstSlot_of (by decide +kernel), by decide +kernel, by decide +kernel,
      [⟨0x08001000, 1, .read⟩, ⟨0x08001001, 1, .read⟩, ⟨0x08001002, 1, .read⟩], ⟨0x08001003, 1, .read⟩, [],
      by decide +kernel⟩, ⟨3, by decide, by decide +kernel⟩,
    ⟨by decide +kernel, by decide +kernel, by decide +kernel, by decide +kernel, _, .head _, 0, by decide, by decide +kernel⟩,
    by decide +kernel, by decide +kernel, _, .head _, 0, by decide, by decide +kernel⟩

/-- FILL; FILLRECT with h = 0 and of the whole surface; and the four cases of RECTOUT. -/
theorem witness_RectangleCommandsDrawTheirPixels :
    (CanDraw dot (drawnSet .fill dot) ∧ ¬ badArguments .fill dot) ∧
    (CanDraw (withArgs 9 9 9 0 7 dot) (drawnSet .fillrect (withArgs 9 9 9 0 7 dot)) ∧
      ¬ badArguments .fillrect (withArgs 9 9 9 0 7 dot)) ∧
    (CanDraw (withArgs 0 0 2 2 7 dot) (drawnSet .fillrect (withArgs 0 0 2 2 7 dot)) ∧
      ¬ badArguments .fillrect (withArgs 0 0 2 2 7 dot)) ∧
    (∀ q ∈ [(1, 1, 0, 0), (1, 0, 0, 2), (0, 1, 2, 0), (0, 0, 2, 2)],
      CanDraw (withArgs q.1 q.2.1 q.2.2.1 q.2.2.2 7 dot) (drawnSet .rectout (withArgs q.1 q.2.1 q.2.2.1 q.2.2.2 7 dot)) ∧
        ¬ badArguments .rectout (withArgs q.1 q.2.1 q.2.2.1 q.2.2.2 7 dot)) := by
  refine ⟨⟨canDraw_dot rfl rfl rfl fun x y h => h, id⟩, ⟨canDraw_dot rfl rfl rfl ?_, ?_⟩, ⟨canDraw_dot rfl rfl rfl ?_, ?_⟩, ?_⟩
  · rintro x y ⟨_, _, h1, h2⟩
    exact absurd (lt_of_le_of_lt h1 h2) (by decide +kernel)
  · simp only [badArguments]; decide +kernel
  · rintro x y ⟨_, h1, _, h2⟩
    exact ⟨lt_of_lt_of_le h1 (by decide +kernel), lt_of_lt_of_le h2 (by decide +kernel)⟩
  · simp only [badArguments]; decide +kernel
  · have hb : ∀ q ∈ [(1, 1, 0, 0), (1, 0, 0, 2), (0, 1, 2, 0), (0, 0, 2, 2)],
        (withArgs q.1 q.2.1 q.2.2.1 q.2.2.2 7 dot).blk.args.x0 = q.1 ∧ (withArgs q.1 q.2.1 q.2.2.1 q.2.2.2 7 dot).blk.args.y0 = q.2.1 ∧
        (withArgs q.1 q.2.1 q.2.2.1 q.2.2.2 7 dot).blk.args.x1 = q.2.2.1 ∧
        (withArgs q.1 q.2.1 q.2.2.1 q.2.2.2 7 dot).blk.args.y1 = q.2.2.2 ∧ q.1 < 2 ∧ q.2.1 < 2 ∧
        q.1 + q.2.2.1 ≤ 2 ∧ q.2.1 + q.2.2.2 ≤ 2 := by decide +kernel
    have hw : (withArgs 0 0 0 0 7 dot).blk.surf.pixelWidth = 2 ∧ (withArgs 0 0 0 0 7 dot).blk.surf.pixelHeight = 2 := by
      decide +kernel
    intro q hq
    obtain ⟨e1, e2, e3, e4, h1, h2, h3, h4⟩ := hb q hq
    have hw1 : (withArgs q.1 q.2.1 q.2.2.1 q.2.2.2 7 dot).blk.surf.pixelWidth = 2 := hw.1
    have hw2 : (withArgs q.1 q.2.1 q.2.2.1 q.2.2.2 7 dot).blk.surf.pixelHeight = 2 := hw.2
    refine ⟨canDraw_dot rfl rfl rfl fun x y h => ?_, ?_⟩
    · simp only [drawnSet, e1, e2, e3, e4] at h
      omega
    · simp only [badArguments, Surface.Inside, e1, e2, e3, e4, hw1, hw2]
      omega

/-- The diagonal. -/
theorem witness_LineDrawsTheNearestPixels :
    CanDraw (withArgs 1 1 0 0 7 dot) (drawnSet .line (withArgs 1 1 0 0 7 dot)) ∧
      ¬ badArguments .line (withArgs 1 1 0 0 7 dot) := by
  refine ⟨canDraw_dot rfl rfl rfl fun x y h => ?_, ?_⟩
  · have h' : (x, y) ∈ linePixels 1 1 0 0 := mem_linePixels.2 h
    have hl : ∀ p ∈ linePixels 1 1 0 0, p.1 < 2 ∧ p.2 < 2 := by decide +kernel
    exact hl _ h'
  · simp only [badArguments, Surface.Inside]; decide +kernel

/-- SETPIX of a 24-bit pixel at its second byte, and of a halfword at the write that its read comes before; the last pixel
of HRUN, VRUN, FILL, FILLRECT, RECTOUT and LINE, refused and admitted; and FILL. -/
theorem witness_BusErrorFreesTheDrawnBytes :
    (let s := withArgs 2 1 0 0 7 { deep with platform := refusing 0x02000026 1 }
     let q : Access := ⟨0x02000026, 1, .write⟩
     let before : List Access := [⟨0x02000025, 1, .write⟩]
     Memory.wf s.mem = true ∧ surfCheck s.blk.surf = .ok () ∧ ¬ badArguments .setpix s ∧ s.blk.surf.fmt = 3 ∧
       s.blk.surf.putAccesses s.blk.args.x0 s.blk.args.y0 = before ++ q :: [⟨0x02000027, 1, .write⟩] ∧
       (∀ c ∈ before, s.platform.serves c.addr c.bytes c.kind = true ∧
         (c.kind = .write → s.platform.byteWriteOk c.addr = true)) ∧
       s.platform.admits q.addr q.bytes q.kind = false) ∧
    (let s := withArgs 1 0 0 0 7 { vram with platform :=
       { examplePlatform with refusals := [⟨⟨0x06000000, 2⟩, none, some .write⟩] } }
     let q : Access := ⟨0x06000000, 2, .write⟩
     let before : List Access := [⟨0x06000000, 2, .read⟩]
     surfCheck s.blk.surf = .ok () ∧ ¬ badArguments .setpix s ∧ s.blk.surf.fmt ≠ 3 ∧
       s.blk.surf.putAccesses s.blk.args.x0 s.blk.args.y0 = before ++ q :: [] ∧
       (∀ c ∈ before, s.platform.serves c.addr c.bytes c.kind = true ∧
         (c.kind = .write → s.platform.byteWriteOk c.addr = true)) ∧
       s.platform.admits q.addr q.bytes q.kind = false) ∧
    (∀ c ∈ [(Instr.hrun, withArgs 0 1 2 0 7 dot), (.vrun, withArgs 1 0 2 0 7 dot), (.fill, dot),
        (.fillrect, withArgs 0 0 2 2 7 dot), (.rectout, withArgs 0 0 2 2 7 dot), (.line, withArgs 0 0 1 1 7 dot)],
      surfCheck c.2.blk.surf = .ok () ∧ ¬ badArguments c.1 c.2 ∧ drawnSet c.1 c.2 1 1 ∧
        ⟨0x03000003, 1, .write⟩ ∈ c.2.blk.surf.putAccesses 1 1 ∧ c.2.platform = examplePlatform ∧
        examplePlatform.readEffects = [] ∧ (refusing 0x03000003 1).readEffects = [] ∧
        (refusing 0x03000003 1).admits 0x03000003 1 .write = false ∧
        ∀ x < 2, ∀ y < 2, ∀ q ∈ c.2.blk.surf.putAccesses x y, examplePlatform.admits q.addr q.bytes q.kind = true) ∧
    (let s := { dot with platform := refusing 0x03000003 1 }
     Memory.wf s.mem = true ∧ s.blk.status.fault = false ∧
       ∃ t, exec .fill s = .next t ∧ (t.blk.status.fault && t.blk.status.code == 6) = true) := by
  refine ⟨?_, ?_, fun c hc => ?_, ?_⟩
  · simp only [badArguments, Surface.Inside]; decide +kernel
  · simp only [badArguments, Surface.Inside]; decide +kernel
  · fin_cases hc <;> (simp only [badArguments, drawnSet, OnLine, OnSteppedLine, NearestMinor, Surface.Inside]; decide +kernel)
  exact ⟨rfl, rfl, (nextHas_iff (p := fun t => t.blk.status.fault && t.blk.status.code == 6)).1 (by decide +kernel)⟩

/-- 8-bit writes not honoured anywhere. -/
theorem witness_DrawingStaysInItsBytes :
    Instr.fill ∈ [Instr.setpix, .hrun, .vrun, .fill, .fillrect, .rectout, .line] ∧
      ∃ t, exec .fill { dot with platform := { examplePlatform with byteWriteBad := [⟨0, 2 ^ 32⟩] } } = .next t ∧
        decide (t.draws = 8) = true :=
  ⟨by decide, nextHas_iff.1 (by decide +kernel)⟩

/-! #### Text -/

/-- Text of `bytes` at 0x02000000, at position `pos`. -/
def reading (bytes : List Byte) (pos : Nat) (s : State) : State :=
  withBytes 0x02000000 bytes (withText 0x02000000 (BitVec.ofNat 32 bytes.length) (BitVec.ofNat 32 pos) s)

theorem servesNextCode_of {s : State} (h : ∀ k < s.blk.dec.len.toNat,
    s.platform.serves (s.blk.dec.base + BitVec.ofNat 32 k) 1 .read = true) : s.servesNextCode :=
  fun k _ _ hk => h k hk

theorem servesText_of {s : State} (h : ∀ k < s.blk.dec.len.toNat,
    s.platform.serves (s.blk.dec.base + BitVec.ofNat 32 k) 1 .read = true) : s.servesText :=
  fun k _ hk => h k hk

/-- Before the end, on malformed bytes too, and at the end. -/
theorem witness_DecNextReadsACodePoint :
    ((reading [0xC3] 0 idle).blk.dec.pos.toNat < (reading [0xC3] 0 idle).blk.dec.len.toNat ∧
      (reading [0xC3] 0 idle).servesNextCode) ∧
    ((reading [0x41, 0xFF, 0x80, 0x80, 0x80] 1 idle).blk.dec.pos.toNat < (reading [0x41, 0xFF, 0x80, 0x80, 0x80] 1 idle).blk.dec.len.toNat ∧
      (reading [0x41, 0xFF, 0x80, 0x80, 0x80] 1 idle).servesNextCode) ∧
    (reading [0x41] 1 idle).blk.dec.pos.toNat = (reading [0x41] 1 idle).blk.dec.len.toNat :=
  ⟨⟨by decide +kernel, servesNextCode_of (by decide +kernel)⟩, ⟨by decide +kernel, servesNextCode_of (by decide +kernel)⟩,
    by decide +kernel⟩

theorem witness_DecPeekAgreesWithDecNext : (reading [0x41] 1 idle).servesNextCode ∧ (reading [0xC3, 0xA9] 0 idle).servesNextCode :=
  ⟨servesNextCode_of (by decide +kernel), servesNextCode_of (by decide +kernel)⟩

/-- The last code point of each length and the first of the next. -/
theorem witness_DecNextReadsUtf8 :
    ∀ cp ∈ [0x00, 0x7F, 0x80, 0x7FF, 0x800, 0xFFFF, 0x10000, 0x1FFFFF],
      cp < 2 ^ 21 ∧ (reading (utf8Bytes cp) 0 idle).servesNextCode ∧
        (reading (utf8Bytes cp) 0 idle).blk.dec.pos.toNat + (utf8Bytes cp).length ≤ (reading (utf8Bytes cp) 0 idle).blk.dec.len.toNat ∧
        ∀ (k : Nat) (hk : k < (utf8Bytes cp).length), byteAt (reading (utf8Bytes cp) 0 idle).mem
          ((reading (utf8Bytes cp) 0 idle).blk.dec.base +
            BitVec.ofNat 32 ((reading (utf8Bytes cp) 0 idle).blk.dec.pos.toNat + k)) = (utf8Bytes cp)[k] := by
  intro cp hcp
  have h1 : ∀ cp ∈ [0x00, 0x7F, 0x80, 0x7FF, 0x800, 0xFFFF, 0x10000, 0x1FFFFF], cp < 2 ^ 21 ∧
      (∀ k < (reading (utf8Bytes cp) 0 idle).blk.dec.len.toNat, (reading (utf8Bytes cp) 0 idle).platform.serves
        ((reading (utf8Bytes cp) 0 idle).blk.dec.base + BitVec.ofNat 32 k) 1 .read = true) ∧
      (reading (utf8Bytes cp) 0 idle).blk.dec.pos.toNat + (utf8Bytes cp).length ≤ (reading (utf8Bytes cp) 0 idle).blk.dec.len.toNat ∧
      ∀ k : Fin (utf8Bytes cp).length, byteAt (reading (utf8Bytes cp) 0 idle).mem
        ((reading (utf8Bytes cp) 0 idle).blk.dec.base +
          BitVec.ofNat 32 ((reading (utf8Bytes cp) 0 idle).blk.dec.pos.toNat + k)) = (utf8Bytes cp)[k] := by decide +kernel
  obtain ⟨a, b, c, d⟩ := h1 cp hcp
  exact ⟨a, servesNextCode_of b, c, fun k hk => d ⟨k, hk⟩⟩

theorem soundGlyph_of {s : State} {i : Fin 8} {cp h : Word} (h1 : (s.blk.cs.get i).base.toNat % 2 = 0)
    (h2 : headerOffset (s.blk.cs.get i) cp + 4 ≤ (s.blk.cs.get i).len.toNat)
    (h3 : ∀ k < 4, s.platform.serves
      ((s.blk.cs.get i).base + wordOfInt (headerOffset (s.blk.cs.get i) cp) + BitVec.ofNat 32 k) 1 .read = true)
    (h4 : h = readLE s.mem ((s.blk.cs.get i).base + wordOfInt (headerOffset (s.blk.cs.get i) cp)) 4)
    (h5 : hdrDataOffset h + hdrSizeY h * hdrRowBytes h ≤ (s.blk.cs.get i).len.toNat) : SoundGlyph s i cp h :=
  ⟨h1, h2, h3, h4, h5⟩

/-- The ends of the range that is always NORMAL, the first code points outside it, which no range of the parameter holds,
and one in the parameter's first and in its second range; a negative code point, one that no slot covers, and '!' in
slot 2. -/
theorem witness_GlyphLookupFindsTheFirstSlot :
    (∀ cp ∈ [0x21, 0x7E], 0x21 ≤ cp ∧ cp ≤ 0x7E) ∧
    (∀ cp ∈ [0x20, 0x7F], ¬ (0x21 ≤ cp ∧ cp ≤ 0x7E) ∧
      ∀ q ∈ examplePlatform.alignRanges, ¬ (q.first.toNat ≤ cp ∧ cp ≤ q.last.toNat)) ∧
    (examplePlatform.alignRanges = [] ++ ⟨0xFF01, 0xFF01, .fwRight⟩ :: examplePlatform.alignRanges.tail ∧
      examplePlatform.alignRanges = [⟨0xFF01, 0xFF01, .fwRight⟩] ++ ⟨0xFF02, 0xFF02, .fwCenter⟩ :: examplePlatform.alignRanges.tail.tail ∧
      ∀ q ∈ [(⟨0xFF01, 0xFF01, .fwRight⟩ : AlignRange)], ¬ (q.first.toNat ≤ 0xFF02 ∧ 0xFF02 ≤ q.last.toNat)) ∧
    (withArgs 0 0 0 0 0xFFFFFFFF hi).blk.args.value.toInt < 0 ∧
    (∀ i : Fin 8, ¬ SlotHolds ((withArgs 0 0 0 0 0x41 hi).blk.cs.get i) (withArgs 0 0 0 0 0x41 hi).blk.args.value.toInt) ∧
    (withArgs 0 0 0 0 0x21 hi).firstSlot (withArgs 0 0 0 0 0x21 hi).blk.args.value.toInt 2 ∧
      SoundGlyph (withArgs 0 0 0 0 0x21 hi) 2 (withArgs 0 0 0 0 0x21 hi).blk.args.value 0x00040085 := by
  refine ⟨by decide, by decide +kernel, by decide +kernel, by decide +kernel, fun i => ?_, firstSlot_of (by decide +kernel),
    soundGlyph_of (by decide +kernel) (by decide +kernel) (by decide +kernel) (by decide +kernel) (by decide +kernel)⟩
  simp only [SlotHolds]
  revert i
  decide +kernel

/-- The same with the cursor at (x, y). -/
def layingAt (bytes : List Byte) (x y : Word) : State :=
  { laying bytes with blk := { (laying bytes).blk with lay := { (laying bytes).blk.lay with x := x, y := y } } }

/-- No layout active; the cursor at the vertical clip; the input at its end. -/
theorem witness_LayoutNextEnds :
    idle.blk.lay.active = false ∧
    ((layingAt [0x48] 0 24).blk.lay.active = true ∧ (layingAt [0x48] 0 24).blk.lay.maxY.toInt ≤ (layingAt [0x48] 0 24).blk.lay.y.toInt) ∧
    (laying []).blk.lay.active = true ∧ (laying []).blk.dec.pos.toNat = (laying []).blk.dec.len.toNat := by decide +kernel

theorem atCode_of {s : State} {cp : Nat} (h : s.blk.lay.active = true ∧ s.blk.lay.y.toInt < s.blk.lay.maxY.toInt ∧
    s.blk.dec.pos.toNat < s.blk.dec.len.toNat ∧ (∀ k < s.blk.dec.len.toNat,
      s.platform.serves (s.blk.dec.base + BitVec.ofNat 32 k) 1 .read = true) ∧ s.codeHere.1 = cp) : AtCode s cp :=
  ⟨h.1, h.2.1, h.2.2.1, servesNextCode_of h.2.2.2.1, h.2.2.2.2⟩

/-- Each row of the table of special code points, the tab at a tab stop, and a space that leaves the i32 range. -/
theorem witness_SpecialCodePointsMoveTheCursor :
    (AtCode (layingAt [0x20] 5 4) 0x20 ∧ (layingAt [0x20] 5 4).platform.wellFormed = true ∧
      (8 : Int) = (layingAt [0x20] 5 4).blk.lay.x.toInt + (layingAt [0x20] 5 4).blk.lay.spaceW.toNat ∧ IsInt32 8 ∧ IsInt32 4) ∧
    (AtCode (layingAt [0xC2, 0xA0] 5 4) 0xA0 ∧
      (8 : Int) = (layingAt [0xC2, 0xA0] 5 4).blk.lay.x.toInt + (layingAt [0xC2, 0xA0] 5 4).blk.lay.spaceW.toNat) ∧
    (AtCode (layingAt [0x09] 16 4) 0x09 ∧ (32 : Int) % 16 = 0 ∧ (layingAt [0x09] 16 4).blk.lay.x.toInt < 32 ∧
      (32 : Int) ≤ (layingAt [0x09] 16 4).blk.lay.x.toInt + 16) ∧
    (AtCode (layingAt [0x0A] 5 4) 0x0A ∧
      (16 : Int) = (layingAt [0x0A] 5 4).blk.lay.y.toInt + (layingAt [0x0A] 5 4).blk.lay.lineH.toNat) ∧
    AtCode (layingAt [0xC2, 0xAD] 5 4) 0xAD ∧
    (AtCode (layingAt [0xE2, 0x80, 0x82] 5 4) 0x2002 ∧
      0x2002 = ((layingAt [0xE2, 0x80, 0x82] 5 4).platform.space6.get 0).cp.toNat) ∧
    AtCode (layingAt [0xE3, 0x80, 0x80] 5 4) 0x3000 ∧
    (AtCode (layingAt [0x20] 0x7FFFFFFF 4) 0x20 ∧
      (2147483650 : Int) = (layingAt [0x20] 0x7FFFFFFF 4).blk.lay.x.toInt + (layingAt [0x20] 0x7FFFFFFF 4).blk.lay.spaceW.toNat ∧
      ¬ IsInt32 2147483650) := by
  refine ⟨⟨atCode_of ?_, ?_, ?_, ?_, ?_⟩, ⟨atCode_of ?_, ?_⟩, ⟨atCode_of ?_, ?_, ?_, ?_⟩, ⟨atCode_of ?_, ?_⟩, atCode_of ?_,
    ⟨atCode_of ?_, ?_⟩, atCode_of ?_, atCode_of ?_, ?_, ?_⟩ <;> first | decide +kernel | (simp only [IsInt32]; decide)

theorem plainCode_of {s : State} {cp : Nat} (h : cp ∉ [0x09, 0x0A, 0x20, 0xA0, 0xAD, 0x3000] ∧
    ∀ k : Fin 6, (s.platform.space6.get k).cp.toNat ≠ cp) : s.plainCode cp := h

/-- What the statement on unsound charsets asks of the state before the fault: GLYPH_LOOKUP, or LAYOUT_NEXT, at 'H'
with slot 0 the first that holds it. -/
def UnsoundAt (s : State) : Prop :=
  (withArgs 0 0 0 0 0x48 s).firstSlot 0x48 0 ∧ (withArgs 0 0 0 0 0x48 s).blk.args.value.toNat = 0x48 ∧
    AtCode s 0x48 ∧ s.plainCode 0x48

theorem unsoundAt_of {s : State} (h1 : s.blk.lay.active = true ∧ s.blk.lay.y.toInt < s.blk.lay.maxY.toInt ∧
    s.blk.dec.pos.toNat < s.blk.dec.len.toNat ∧ (∀ k < s.blk.dec.len.toNat,
      s.platform.serves (s.blk.dec.base + BitVec.ofNat 32 k) 1 .read = true) ∧ s.codeHere.1 = 0x48)
    (hp : s.platform.space6 = examplePlatform.space6)
    (h2 : (s.blk.cs.get 0).ctrl.getLsbD 0 = true ∧ 0 < (s.blk.cs.get 0).len.toNat ∧ (s.blk.cs.get 0).min.toInt ≤ 0x48 ∧
      0x48 ≤ (s.blk.cs.get 0).max.toInt) : UnsoundAt s := by
  refine ⟨⟨by decide, h2, fun j hj => absurd hj (by omega)⟩, by rw [show (withArgs 0 0 0 0 0x48 s).blk.args.value = 0x48 from rfl]; rfl, atCode_of h1, plainCode_of ⟨by decide, ?_⟩⟩
  rw [hp]
  decide +kernel

/-- 'H' in slot 0: an odd base; a blob one byte shorter than the header; the header's last byte refused; and a blob a
byte shorter than the rows. -/
theorem witness_UnsoundCharsetsFault :
    (let s := withSlot 0 0x08001001 12 0x48 0x48 (laying [0x48])
     UnsoundAt s ∧ (s.blk.cs.get 0).base.toNat % 2 = 1) ∧
    (let s := withSlot 0 0x08001000 3 0x48 0x48 (laying [0x48])
     UnsoundAt s ∧ (s.blk.cs.get 0).base.toNat % 2 = 0 ∧
       (s.blk.cs.get 0).len.toNat < 4 * ((0x48 : Nat) - (s.blk.cs.get 0).min.toInt) + 4) ∧
    (let s := { laying [0x48] with platform := refusing 0x08001003 1 }
     UnsoundAt s ∧ (s.blk.cs.get 0).base.toNat % 2 = 0 ∧
       4 * ((0x48 : Nat) - (s.blk.cs.get 0).min.toInt) + 4 ≤ (s.blk.cs.get 0).len.toNat ∧
       s.platform.firstRefused (headerAccesses (s.blk.cs.get 0) (0x48 : Nat)) 0x08001003) ∧
    (let s := withSlot 0 0x08001000 11 0x48 0x48 (laying [0x48])
     UnsoundAt s ∧ (s.blk.cs.get 0).base.toNat % 2 = 0 ∧
       4 * ((0x48 : Nat) - (s.blk.cs.get 0).min.toInt) + 4 ≤ (s.blk.cs.get 0).len.toNat ∧
       (∀ k < 4, s.platform.serves ((s.blk.cs.get 0).base +
         BitVec.ofInt 32 (4 * ((0x48 : Nat) - (s.blk.cs.get 0).min.toInt)) + BitVec.ofNat 32 k) 1 .read = true) ∧
       (let h := (readLE s.mem ((s.blk.cs.get 0).base +
          BitVec.ofInt 32 (4 * ((0x48 : Nat) - (s.blk.cs.get 0).min.toInt))) 4).toNat
        (s.blk.cs.get 0).len.toNat < h / 65536 + h / 16 % 16 * (if 8 < h % 16 then 2 else 1))) :=
  ⟨⟨unsoundAt_of (by decide +kernel) rfl (by decide +kernel), by decide +kernel⟩,
    ⟨unsoundAt_of (by decide +kernel) rfl (by decide +kernel), by decide +kernel, by decide +kernel⟩,
    ⟨unsoundAt_of (by decide +kernel) rfl (by decide +kernel), by decide +kernel, by decide +kernel,
      [⟨0x08001000, 1, .read⟩, ⟨0x08001001, 1, .read⟩, ⟨0x08001002, 1, .read⟩], ⟨0x08001003, 1, .read⟩, [],
      by decide +kernel⟩,
    ⟨unsoundAt_of (by decide +kernel) rfl (by decide +kernel), by decide +kernel, by decide +kernel, by decide +kernel,
      by decide +kernel⟩⟩

/-- Y-9: 'Q'. -/
theorem witness_UnknownCodePointsAreUnprintable :
    AtCode (laying [0x51]) 0x51 ∧ (laying [0x51]).plainCode 0x51 ∧
      ∀ i : Fin 8, ¬ SlotHolds ((laying [0x51]).blk.cs.get i) 0x51 := by
  refine ⟨atCode_of (by decide +kernel), plainCode_of (by decide +kernel), fun i => ?_⟩
  simp only [SlotHolds]
  revert i
  decide +kernel

/-- 'H' at the cursor (x, y) with WRAP = 1 and the vertical clip at `maxY`. -/
def wrapping (x y maxY : Word) : State :=
  { layingAt [0x48] x y with blk := { (layingAt [0x48] x y).blk with lay :=
    { (layingAt [0x48] x y).blk.lay with wrap := true, maxY := maxY } } }

/-- What the statement on drawable glyphs asks of the state, for 'H' in slot 0. -/
def DrawableAt (s : State) : Prop :=
  AtCode s 0x48 ∧ s.plainCode 0x48 ∧ s.firstSlot 0x48 0 ∧ SoundGlyph s 0 0x48 0x00040085

theorem drawableAt_of {s : State} (h1 : s.blk.lay.active = true ∧ s.blk.lay.y.toInt < s.blk.lay.maxY.toInt ∧
    s.blk.dec.pos.toNat < s.blk.dec.len.toNat ∧ (∀ k < s.blk.dec.len.toNat,
      s.platform.serves (s.blk.dec.base + BitVec.ofNat 32 k) 1 .read = true) ∧ s.codeHere.1 = 0x48)
    (hp : s.platform = hi.platform) (hc : s.blk.cs = hi.blk.cs)
    (hm : readLE s.mem 0x08001000 4 = 0x00040085) : DrawableAt s := by
  refine ⟨atCode_of h1, plainCode_of ⟨by decide, ?_⟩, firstSlot_of ?_, soundGlyph_of ?_ ?_ ?_ ?_ ?_⟩
  · rw [hp]; decide +kernel
  · rw [hc]; decide +kernel
  · rw [hc]; decide +kernel
  · rw [hc]; decide +kernel
  · rw [hc, hp]; decide +kernel
  · rw [hc]; exact hm.symm
  · rw [hc]; decide +kernel

/-- At the last x where 'H' fits, at the first where it wraps, and both with a quantity outside the i32 range. -/
theorem witness_DrawableGlyphsAreLaidOut :
    (DrawableAt (wrapping 11 4 24) ∧ ¬ (wrapping 11 4 24).wrapsAt .normal 0x00040085 ∧
      GlyphFits (wrapping 11 4 24).blk.lay .normal 0x00040085 11 4) ∧
    (DrawableAt (wrapping 12 4 24) ∧ (wrapping 12 4 24).wrapsAt .normal 0x00040085 ∧
      GlyphFits (wrapping 12 4 24).blk.lay .normal 0x00040085 0 16) ∧
    (DrawableAt (wrapping 0x80000000 4 24) ∧ ¬ (wrapping 0x80000000 4 24).wrapsAt .normal 0x00040085 ∧
      GlyphFits (wrapping 0x80000000 4 24).blk.lay .normal 0x00040085 (-2147483648) 4) ∧
    (DrawableAt (wrapping 12 0x7FFFFFF8 0x7FFFFFFF) ∧ (wrapping 12 0x7FFFFFF8 0x7FFFFFFF).wrapsAt .normal 0x00040085 ∧
      ¬ GlyphFits (wrapping 12 0x7FFFFFF8 0x7FFFFFFF).blk.lay .normal 0x00040085 0 2147483652) := by
  refine ⟨⟨drawableAt_of (by decide +kernel) (by decide +kernel) (by decide +kernel) (by decide +kernel), ?_, ?_⟩,
    ⟨drawableAt_of (by decide +kernel) (by decide +kernel) (by decide +kernel) (by decide +kernel), ?_, ?_⟩,
    ⟨drawableAt_of (by decide +kernel) (by decide +kernel) (by decide +kernel) (by decide +kernel), ?_, ?_⟩,
    drawableAt_of (by decide +kernel) (by decide +kernel) (by decide +kernel) (by decide +kernel), ?_, ?_⟩ <;>
    (simp only [State.wrapsAt, GlyphFits, IsInt32]; decide +kernel)

theorem inv_laying : (laying [0x48]).Inv := ⟨by constructor <;> decide +kernel, by decide +kernel, by decide +kernel, by decide +kernel⟩

theorem witness_LayoutOnlyGoesForward :
    (laying [0x48]).Inv ∧ (laying [0x48]).blk.status.fault = false ∧
      (∃ t, exec .layoutNext (laying [0x48]) = .next t ∧ decide (t.blk.status.fault = false ∧ t.blk.gl.eof = false) = true) ∧
      ∃ t, exec .layoutExhaust (laying [0x48]) = .next t ∧ decide (t.blk.gl.eof = true) = true :=
  ⟨inv_laying, by decide +kernel, nextHas_iff.1 (by decide +kernel), nextHas_iff.1 (by decide +kernel)⟩

/-- `laying` on a platform that refuses, or has read side effects at, the first byte of the input. -/
def disturbed (refusals : List AdmitRule) (effects : List Span) : State :=
  { laying [0x48] with platform := { examplePlatform with refusals := refusals, readEffects := effects } }

/-- A refused step; a step that faults; one that ends the layout; and one that goes on. -/
theorem witness_LayoutExhaustRepeatsLayoutNext :
    ((disturbed [] [⟨0x02000000, 1⟩]).Inv ∧ ∃ r, exec .layoutNext (disturbed [] [⟨0x02000000, 1⟩]) = .refused r) ∧
    ((disturbed [⟨⟨0x02000000, 1⟩, none, none⟩] []).Inv ∧
      ∃ t, exec .layoutNext (disturbed [⟨⟨0x02000000, 1⟩, none, none⟩] []) = .next t ∧ decide (t.blk.status.fault = true) = true) ∧
    (idle.Inv ∧ ∃ t, exec .layoutNext idle = .next t ∧ decide (t.blk.gl.eof = true) = true) ∧
    ((laying [0x48]).Inv ∧ (laying [0x48]).blk.status.fault = false ∧ ∃ t, exec .layoutNext (laying [0x48]) = .next t ∧
      decide (t.blk.status.fault = false ∧ t.blk.gl.eof = false) = true) :=
  ⟨⟨⟨by constructor <;> decide +kernel, by decide +kernel, by decide +kernel, by decide +kernel⟩, isRefusal_iff.1 (by decide +kernel)⟩,
    ⟨⟨by constructor <;> decide +kernel, by decide +kernel, by decide +kernel, by decide +kernel⟩, nextHas_iff.1 (by decide +kernel)⟩,
    ⟨inv_idle, nextHas_iff.1 (by decide +kernel)⟩, inv_laying, by decide +kernel, nextHas_iff.1 (by decide +kernel)⟩

/-- Only slot 0, 'H'. -/
def oneSlot : State :=
  withSlot 0 0x08001000 12 0x48 0x48 (withBytes 0x08001000 [0x85, 0, 4, 0, 0x11, 0x11, 0x11, 0x1F, 0x11, 0x11, 0x11, 0] idle)

/-- "H" on the 2 by 2 surface, with the layout's limits at its edges. -/
def smallText : State :=
  onSurface 0x10 0x03000000 2 2 2 (after .layoutStart (withLayout [0x48] 0 0x00020002 0x00000003 0 oneSlot))

theorem smallText_sound : smallText.soundCharsets := by
  intro cp i h
  have hcs : ∀ j : Fin 8, j ≠ 0 → (smallText.blk.cs.get j).hasData = false := by decide +kernel
  have h0 : (smallText.blk.cs.get 0).min.toInt = 0x48 ∧ (smallText.blk.cs.get 0).max.toInt = 0x48 := by decide +kernel
  simp only [findCharset] at h
  split at h
  · exact absurd h (by simp)
  · have hc := List.find?_some h
    simp only [CharsetSlot.covers, Bool.and_eq_true, decide_eq_true_eq] at hc
    obtain ⟨⟨hd, h1⟩, h2⟩ := hc
    have hi : i = 0 := by
      by_contra hne
      rw [hcs i hne] at hd
      exact absurd hd (by decide)
    subst hi
    have hcp : cp = 0x48 := by
      apply BitVec.eq_of_toInt_eq
      have : (0x48 : Word).toInt = 0x48 := by decide
      omega
    subst hcp
    exact ⟨0x00040085, soundGlyph_of (by decide +kernel) (by decide +kernel) (by decide +kernel) (by decide +kernel)
      (by decide +kernel)⟩

theorem inv_smallText : smallText.Inv := ⟨by constructor <;> decide +kernel, by decide +kernel, by decide +kernel, by decide +kernel⟩

theorem far_smallText : smallText.farFromOverflow := by
  simp only [State.farFromOverflow]
  decide +kernel

theorem witness_LayoutExhaustComesToEof :
    smallText.Inv ∧ smallText.servesText ∧ smallText.soundCharsets ∧ smallText.farFromOverflow :=
  ⟨inv_smallText, servesText_of (by decide +kernel), smallText_sound, far_smallText⟩

/-- A record of one set bit at (1, 0) of the 2 by 2 surface. -/
def oneBit : State :=
  withBytes 0x08001004 [0x11] { dot with blk := { dot.blk with gl :=
    { cp := 0x48, x := 1, y := 0, nextX := 3, info := 0x111, data := 0x08001004, hdr := 0x00040011 } } }

theorem glyphPixel_oneBit {a b : Int} (h : GlyphPixel oneBit.blk.gl oneBit.mem a b) : a = 1 ∧ b = 0 := by
  obtain ⟨r, c, hr, hc, -, ha, hb⟩ := h
  have h1 : oneBit.blk.gl.sizeX = 1 ∧ oneBit.blk.gl.sizeY = 1 ∧ oneBit.blk.gl.x.toInt = 1 ∧ oneBit.blk.gl.y.toInt = 0 := by
    decide +kernel
  omega

/-- An EOF record and an unprintable one; and the record of one bit. -/
theorem witness_RenderGlyphDrawsTheSetBits :
    (surfCheck dot.blk.surf = .ok () ∧ dot.blk.gl.hasData = false) ∧
    (surfCheck (after .layoutNext dot).blk.surf = .ok () ∧ (after .layoutNext dot).blk.gl.eof = true) ∧
    oneBit.blk.gl.eof = false ∧ oneBit.blk.gl.hasData = true ∧ CanRender oneBit ∧
      GlyphPixel oneBit.blk.gl oneBit.mem 1 0 := by
  refine ⟨by decide +kernel, by decide +kernel, by decide +kernel, by decide +kernel, ⟨?_, ?_, ?_, ?_⟩, ?_⟩
  · refine canDraw_dot rfl rfl (by decide +kernel) fun x y h => ?_
    have := glyphPixel_oneBit h
    omega
  · intro a b h
    obtain ⟨rfl, rfl⟩ := glyphPixel_oneBit h
    decide +kernel
  · intro r k hr hk
    have h1 : oneBit.blk.gl.sizeY = 1 ∧ oneBit.blk.gl.rowBytes = 1 := by decide +kernel
    obtain rfl : r = 0 := by omega
    obtain rfl : k = 0 := by omega
    decide +kernel
  · intro r k a b hr hk h
    have h1 : oneBit.blk.gl.sizeY = 1 ∧ oneBit.blk.gl.rowBytes = 1 := by decide +kernel
    obtain rfl : r = 0 := by omega
    obtain rfl : k = 0 := by omega
    have h2 := glyphPixel_oneBit h
    obtain rfl : a = 1 := by omega
    obtain rfl : b = 0 := by omega
    decide +kernel
  · exact ⟨0, 0, by decide +kernel, by decide +kernel, by decide +kernel, by decide +kernel, by decide +kernel⟩

/-- The byte with two set bits. -/
def twoBitsMem : Memory := setByte [] 0x08001004 0x03

/-- A record of two set bits, at (x, 0) and (x + 1, 0). -/
def twoBits (x : Word) (p : Platform) : State :=
  { dot with
    platform := p
    mem := twoBitsMem
    blk := { dot.blk with gl :=
      { cp := 0x48, x := x, y := 0, nextX := 3, info := 0x112, data := 0x08001004, hdr := 0x00040012 } } }

theorem twoBits_rowBytes (x : Word) (p : Platform) : (twoBits x p).blk.gl.rowBytes = 1 := by
  show (twoBits 0 examplePlatform).blk.gl.rowBytes = 1
  decide +kernel

theorem glyphPixelBefore_twoBits {x : Word} {p : Platform} {a b : Int}
    (h : GlyphPixelBefore (twoBits x p).blk.gl (twoBits x p).mem 0 1 a b) : a = x.toInt ∧ b = 0 := by
  obtain ⟨r, c, -, -, hlt, -, ha, hb⟩ := h
  have hx : (twoBits x p).blk.gl.x = x := rfl
  have hy : (twoBits x p).blk.gl.y.toInt = 0 := rfl
  rw [hx] at ha
  rw [hy] at hb
  omega

/-- Before the second bit there is only the first, at (x, 0). -/
theorem canRenderBefore_twoBits {x : Word} {p : Platform} (hx : x.toInt = 0 ∨ x.toInt = 1)
    (hw : p.writesPixel dot.blk.surf x.toInt.toNat 0 = true) (hr : p.serves 0x08001004 1 .read = true) :
    CanRenderBefore (twoBits x p) 0 1 1 := by
  have hs : (twoBits x p).blk.surf = dot.blk.surf := rfl
  have hpl : (twoBits x p).platform = p := rfl
  have hrb := twoBits_rowBytes x p
  have hd : (twoBits x p).blk.gl.data = 0x08001004 := rfl
  have hdim : dot.blk.surf.pixelWidth = 2 ∧ dot.blk.surf.pixelHeight = 2 := by decide +kernel
  refine ⟨⟨by rw [hs]; decide +kernel, hs ▸ dot_fits,
    show Memory.wf twoBitsMem = true by decide +kernel, fun a b h => ?_⟩, fun a b h => ?_, ?_, ?_⟩
  · have := glyphPixelBefore_twoBits h
    rw [hs, hpl, show a = x.toInt.toNat by omega, show b = 0 by omega]
    exact hw
  · have := glyphPixelBefore_twoBits h
    rw [hs, hdim.1, hdim.2]
    omega
  · intro r' k hk h
    rw [hrb] at hk
    rw [hrb, hd, hpl, show r' * 1 + k = 0 by omega]
    exact hr
  · intro r' k a b hr' hk h
    have := glyphPixelBefore_twoBits h
    rw [hrb] at hk
    have hall : ∀ a < 2, (0x08001004 : Word) ∉ dot.blk.surf.pixelBytes a 0 := by decide +kernel
    rw [hrb, hd, hs, show r' * 1 + k = 0 by omega, show b = 0 by omega]
    exact hall a (by omega)

/-- The 24-bit surface with a record of one set bit, at (2, 1). -/
def deepBit : State :=
  { deep with
    platform := refusing 0x02000026 1
    mem := setByte [] 0x08001004 0x11
    blk := { deep.blk with
      args := { deep.blk.args with value := 0xAABBCCDD }
      gl := { cp := 0x48, x := 2, y := 1, nextX := 3, info := 0x111, data := 0x08001004, hdr := 0x00040011 } } }

theorem deep_fits : deep.blk.surf.Fits := by
  intro x y h
  have hall : ∀ x < 10, ∀ y < 10, deep.blk.surf.offset x y + deep.blk.surf.unitBytes ≤ 2 ^ 32 := by decide +kernel
  exact hall x h.1 y h.2

/-- R90, R303: the first byte of a 24-bit glyph pixel whose second byte the platform refuses stays. -/
theorem test_renderGlyph_partial :
    nextHas (exec .renderGlyph deepBit) (fun t => faultWords t == (0x602, 0x02000026) &&
      bytesFrom 0x02000025 t == [(0, 0xDD), (0x06000FDF, 0x11)]) = true := by decide +kernel

/-- The first row byte refused; the second of two bits outside the surface; the second of two bits refused; the second
byte of a 24-bit pixel refused; and a record of which one pixel lies outside. -/
theorem witness_RenderGlyphStaysInTheBox :
    (let s := twoBits 1 (refusing 0x08001004 1)
     s.blk.gl.eof = false ∧ s.blk.gl.hasData = true ∧ 0 < s.blk.gl.sizeY ∧ 0 < s.blk.gl.rowBytes ∧
       CanRenderBefore s 0 0 0 ∧ s.platform.admits (s.blk.gl.data + BitVec.ofNat 32 (0 * s.blk.gl.rowBytes + 0)) 1 .read = false) ∧
    (let s := twoBits 1 examplePlatform
     1 < s.blk.gl.sizeX ∧ s.blk.gl.bitAt s.mem 0 1 = true ∧ CanRenderBefore s 0 1 s.blk.gl.rowBytes ∧
       s.blk.surf.inBounds (s.blk.gl.x.toInt + 1) s.blk.gl.y.toInt = false) ∧
    (let s := twoBits 0 (refusing 0x03000001 1)
     let q : Access := ⟨0x03000001, 1, .write⟩
     1 < s.blk.gl.sizeX ∧ s.blk.gl.bitAt s.mem 0 1 = true ∧ CanRenderBefore s 0 1 s.blk.gl.rowBytes ∧
       s.blk.surf.inBounds (s.blk.gl.x.toInt + 1) s.blk.gl.y.toInt = true ∧
       s.blk.surf.putAccesses (s.blk.gl.x.toInt + 1).toNat s.blk.gl.y.toInt.toNat = [] ++ q :: [] ∧
       s.platform.admits q.addr q.bytes q.kind = false) ∧
    (let s := deepBit
     let q : Access := ⟨0x02000026, 1, .write⟩
     let before : List Access := [⟨0x02000025, 1, .write⟩]
     s.blk.gl.eof = false ∧ s.blk.gl.hasData = true ∧ 0 < s.blk.gl.sizeY ∧ 0 < s.blk.gl.sizeX ∧
       s.blk.gl.bitAt s.mem 0 0 = true ∧ CanRenderBefore s 0 0 s.blk.gl.rowBytes ∧
       s.blk.surf.inBounds s.blk.gl.x.toInt s.blk.gl.y.toInt = true ∧
       s.blk.surf.putAccesses s.blk.gl.x.toInt.toNat s.blk.gl.y.toInt.toNat = before ++ q :: [⟨0x02000027, 1, .write⟩] ∧
       (∀ e ∈ before, s.platform.serves e.addr e.bytes e.kind = true ∧
         (e.kind = .write → s.platform.byteWriteOk e.addr = true)) ∧
       s.platform.admits q.addr q.bytes q.kind = false) ∧
    (let s := twoBits 1 examplePlatform
     s.blk.status.fault = false ∧
       ∃ t, exec .renderGlyph s = .next t ∧ decide (t.blk.status.fault = true ∧ t.blk.status.code = 3) = true) := by
  have none_before : ∀ {g m a b}, ¬ GlyphPixelBefore g m 0 0 a b := by
    rintro g m a b ⟨r, c, -, -, hlt, -⟩
    omega
  refine ⟨⟨rfl, by decide +kernel, by decide +kernel, by decide +kernel, ?_, by decide +kernel⟩,
    ⟨by decide +kernel, by decide +kernel, ?_, by decide +kernel⟩,
    ⟨by decide +kernel, by decide +kernel, ?_, by decide +kernel, by decide +kernel, by decide +kernel⟩,
    ⟨rfl, by decide +kernel, by decide +kernel, by decide +kernel, by decide +kernel, ?_, by decide +kernel,
      by decide +kernel, by decide +kernel, by decide +kernel⟩,
    rfl, nextHas_iff.1 (by decide +kernel)⟩
  · exact ⟨⟨by decide +kernel, dot_fits, by decide +kernel, fun a b h => absurd h none_before⟩,
      fun a b h => absurd h none_before, fun r' k _ h => by omega, fun r' k a b _ _ h => absurd h none_before⟩
  · rw [twoBits_rowBytes]
    exact canRenderBefore_twoBits (.inr (by decide)) (by decide +kernel) (by decide +kernel)
  · rw [twoBits_rowBytes]
    exact canRenderBefore_twoBits (.inl (by decide)) (by decide +kernel) (by decide +kernel)
  · refine ⟨⟨by decide +kernel, deep_fits, by decide +kernel, fun a b h => absurd h none_before⟩,
      fun a b h => absurd h none_before, fun r' k hk h => ?_, fun r' k a b _ _ h => absurd h none_before⟩
    have hrb : deepBit.blk.gl.rowBytes = 1 := by decide +kernel
    rw [hrb] at hk h ⊢
    rw [show r' * 1 + k = 0 by omega]
    decide +kernel

/-- A step that is refused, one that faults, one that ends, one without a record to draw, and one whose record is drawn;
with a render that is refused, one that faults and one that goes on. -/
theorem witness_RenderTextRepeatsLayoutAndRender :
    (let s := { smallText with platform := { examplePlatform with readEffects := [⟨0x02000000, 1⟩] } }
     s.Inv ∧ s.blk.status.fault = false ∧ surfCheck s.blk.surf = .ok () ∧ ∃ r, exec .layoutNext s = .refused r) ∧
    (let s := { smallText with platform := { examplePlatform with refusals := [⟨⟨0x02000000, 1⟩, none, none⟩] } }
     s.Inv ∧ surfCheck s.blk.surf = .ok () ∧ ∃ t, exec .layoutNext s = .next t ∧ decide (t.blk.status.fault = true) = true) ∧
    (dot.Inv ∧ surfCheck dot.blk.surf = .ok () ∧ ∃ t, exec .layoutNext dot = .next t ∧ decide (t.blk.gl.eof = true) = true) ∧
    (let s := { smallText with mem := setByte smallText.mem 0x02000000 0x20 }
     s.Inv ∧ surfCheck s.blk.surf = .ok () ∧ ∃ t, exec .layoutNext s = .next t ∧
       decide (t.blk.status.fault = false ∧ t.blk.gl.eof = false ∧ t.blk.gl.hasData = false) = true) ∧
    (smallText.Inv ∧ surfCheck smallText.blk.surf = .ok () ∧ (∃ t, exec .layoutNext smallText = .next t ∧
       decide (t.blk.status.fault = false ∧ t.blk.gl.eof = false ∧ t.blk.gl.hasData = true) = true) ∧
     ∃ u, exec .renderGlyph (after .layoutNext smallText) = .next u ∧ decide (u.blk.status.fault = false) = true) ∧
    (let s := { smallText with platform := { examplePlatform with refusals := [⟨⟨0x03000000, 4⟩, none, none⟩] } }
     s.Inv ∧ ∃ u, exec .renderGlyph (after .layoutNext s) = .next u ∧ decide (u.blk.status.fault = true) = true) ∧
    (let s := { smallText with platform := { examplePlatform with readEffects := [⟨0x08001004, 1⟩] } }
     s.Inv ∧ ∃ r, exec .renderGlyph (after .layoutNext s) = .refused r) :=
  ⟨⟨⟨by constructor <;> decide +kernel, by decide +kernel, by decide +kernel, by decide +kernel⟩, by decide +kernel, by decide +kernel,
      isRefusal_iff.1 (by decide +kernel)⟩,
    ⟨⟨by constructor <;> decide +kernel, by decide +kernel, by decide +kernel, by decide +kernel⟩, by decide +kernel, nextHas_iff.1 (by decide +kernel)⟩,
    ⟨⟨by constructor <;> decide +kernel, by decide +kernel, by decide +kernel, by decide +kernel⟩, by decide +kernel, nextHas_iff.1 (by decide +kernel)⟩,
    ⟨⟨by constructor <;> decide +kernel, by decide +kernel, by decide +kernel, by decide +kernel⟩, by decide +kernel, nextHas_iff.1 (by decide +kernel)⟩,
    ⟨inv_smallText, by decide +kernel, nextHas_iff.1 (by decide +kernel), nextHas_iff.1 (by decide +kernel)⟩,
    ⟨⟨by constructor <;> decide +kernel, by decide +kernel, by decide +kernel, by decide +kernel⟩, nextHas_iff.1 (by decide +kernel)⟩,
    ⟨⟨by constructor <;> decide +kernel, by decide +kernel, by decide +kernel, by decide +kernel⟩, isRefusal_iff.1 (by decide +kernel)⟩⟩

theorem witness_RenderTextComesToEof : smallText.Inv ∧ CanRenderText smallText where
  left := inv_smallText
  right :=
    { legal := by decide +kernel
      mem := by decide +kernel
      writes := fun x y h => by
        have hall : ∀ x < 2, ∀ y < 2, smallText.platform.writesPixel smallText.blk.surf x y = true := by decide +kernel
        exact hall x h.1 y h.2
      limitX := by decide +kernel
      limitY := by decide +kernel
      startX := by decide +kernel
      startY := by decide +kernel
      text := servesText_of (by decide +kernel)
      textApart := fun k x y _ hk h => by
        have hall : ∀ k < smallText.blk.dec.len.toNat, ∀ x < 2, ∀ y < 2, smallText.blk.dec.base + BitVec.ofNat 32 k ∉
          pixBytes smallText.platform smallText.blk.surf x y := by decide +kernel
        exact hall k hk x h.1 y h.2
      blobs := fun i k hk => by
        have hall : ∀ i : Fin 8, ∀ k < (smallText.blk.cs.get i).len.toNat,
          smallText.platform.serves ((smallText.blk.cs.get i).base + BitVec.ofNat 32 k) 1 .read = true := by decide +kernel
        exact hall i k hk
      blobsApart := fun i k x y hk h => by
        have hall : ∀ i : Fin 8, ∀ k < (smallText.blk.cs.get i).len.toNat, ∀ x < 2, ∀ y < 2,
          (smallText.blk.cs.get i).base + BitVec.ofNat 32 k ∉ pixBytes smallText.platform smallText.blk.surf x y := by
          decide +kernel
        exact hall i k hk x h.1 y h.2
      sound := smallText_sound
      far := far_smallText }

end Sys2Proof.Tests
end

section
/-! SUPPORT. A step case by case, in terms of the agent whose turn it is, and O5 from it. -/

namespace Sys2Proof.Machine

/-! ### A step, by the agent whose turn it is -/

theorem step_of_engine_turn {s : State} (ht : s.turn = .engine) : step s = engineStep s.nextTurn := by
  simp [step, ht]

theorem step_of_host_turn {s : State} (ht : s.turn = .host) : step s = hostStep s.nextTurn := by
  simp [step, ht]

theorem step_of_command {s : State} {w : Word} {i : Instr} (ht : s.turn = .engine) (hl : s.blk.latch = some w)
    (hd : decode w = .command i) : step s = runCommand i s.nextTurn := by
  simp [step_of_engine_turn ht, engineStep, hl, runWord, hd]

theorem step_of_host_move {s : State} {move : HostMove} {rest : List HostMove} (ht : s.turn = .host)
    (hh : s.host = move :: rest) : step s = hostMove move { s.nextTurn with host := rest } := by
  simp [step_of_host_turn ht, hostStep, hh]

/-- An agent with nothing to do lets its turn pass (log 24). -/
theorem step_of_idle_turn {s : State} (h : (s.turn = .engine ∧ s.blk.latch = none) ∨ (s.turn = .host ∧ s.host = [])) :
    step s = .next s.nextTurn := by
  rcases h with ⟨ht, hl⟩ | ⟨ht, hh⟩
  · simp [step_of_engine_turn ht, engineStep, hl]
  · simp [step_of_host_turn ht, hostStep, hh]

/-! ### What `runCommand` answers, from what `exec` answers -/

theorem runCommand_of_next {i : Instr} {s t : State} (h : exec i s = .next t) :
    runCommand i s = .next { t with pending := { t.pending with bytes := resultBytes i s ++ t.pending.bytes } } := by
  simp [runCommand, h]

theorem runCommand_of_refused {i : Instr} {s : State} {r : Refusal} (h : exec i s = .refused r) :
    runCommand i s = .refused r := by
  simp [runCommand, h]

/-- The commands without memory in their footprint: those that draw nothing. -/
theorem footprint_memory_false_iff (i : Instr) :
    (footprint i).memory = false ↔ i ∈ ([.nop, .getpix, .mapaddr, .decStart, .decNext, .decPeek, .glyphLookup,
      .layoutStart, .layoutNext, .layoutExhaust] : List Instr) := by
  cases i <;> decide

/-- Settles O5: a step is unfolded by the agent whose turn it is, and the bytes a command changes are among its results
because every body notes the bytes it writes (`exec_resultBytes`). -/
theorem stepRunsTheAgentsMove : Obligations.StepRunsTheAgentsMove := by
  unfold Obligations.StepRunsTheAgentsMove
  refine ⟨fun s w i ht hl hd => ⟨fun t hx => ?_, fun r hx => ?_⟩, fun s move rest => step_of_host_move,
    fun s => step_of_idle_turn⟩
  · obtain ⟨frame, silent⟩ := exec_resultBytes hx
    refine ⟨?_, fun a => not_imp_comm.1 (frame a), fun hi => silent ((footprint_memory_false_iff i).2 hi)⟩
    rw [step_of_command ht hl hd]
    exact runCommand_of_next hx
  · rw [step_of_command ht hl hd]
    exact runCommand_of_refused hx

end Sys2Proof.Machine
end

section
/-! SUPPORT. Where a computation ends when it is run in a given state, and everything a layout step can do: the
reasoning that O7 and O20 share. -/

namespace Sys2Proof.Machine

/-! ### Where a computation ends -/

/-- Run in `s`, the computation ends in a state that meets `P`, and if it stops, with a stop that meets `Q`. Unlike
`EngineEnds`, this speaks of one state, so that a body may use what it has read from it. -/
def EndsIn {α : Type} (P : State → Prop) (Q : Stop → Prop) (e : Engine α) (s : State) : Prop :=
  ∀ l, match e { st := s, wrote := l } with | .ok _ w => P w.st | .error r w => P w.st ∧ Q r

section EndsIn
variable {α β : Type} {P : State → Prop} {Q : Stop → Prop} {s : State}

theorem EndsIn.pure (hs : P s) (a : α) : EndsIn P Q (Pure.pure a : Engine α) s := fun _ => hs

theorem EndsIn.read {g : State → Engine α} (hg : EndsIn P Q (g s) s) : EndsIn P Q (theState >>= g) s := hg

theorem EndsIn.update {f : State → State} (hf : P (f s)) : EndsIn P Q (Machine.update f) s := fun _ => hf

theorem EndsIn.update_bind {f : State → State} {g : Unit → Engine α} (hg : EndsIn P Q (g ()) (f s)) :
    EndsIn P Q (Machine.update f >>= g) s := hg

theorem EndsIn.check_bind {e : Except Stop α} {g : α → Engine β} (hs : P s) (he : ∀ r, e = .error r → Q r)
    (hg : ∀ a, e = .ok a → EndsIn P Q (g a) s) : EndsIn P Q (check e >>= g) s := by
  cases e with
  | ok a => exact hg a rfl
  | error r => exact fun _ => ⟨hs, he r rfl⟩

theorem EndsIn.bind {e : Engine α} {g : α → Engine β} (he : EndsIn P Q e s)
    (hg : ∀ a t, P t → EndsIn P Q (g a) t) : EndsIn P Q (e >>= g) s := by
  intro l
  have h := he l
  rw [run_bind]
  cases hr : e { st := s, wrote := l } with
  | ok a w => rw [hr] at h; exact hg a w.st h w.wrote
  | error r w => rw [hr] at h; exact h

theorem EndsIn.draw {d : Draw α} (hd : DrawEnds (fun _ _ => True) Q d) (hs : ∀ m n, P { s with mem := m, draws := n }) :
    EndsIn P Q (Machine.draw d) s := by
  intro l
  have h := hd (Work.canvas { st := s, wrote := l })
  rw [run_draw]
  cases hr : d (Work.canvas { st := s, wrote := l }) with
  | ok a c => exact hs c.mem c.draws
  | error r c => rw [hr] at h; exact ⟨hs c.mem c.draws, h.2⟩

theorem EndsIn.finalWork {e : Engine Unit} (h : EndsIn P Q e s) : P (finalWork e s).st := by
  have h := h []
  unfold Machine.finalWork
  cases hr : e { st := s, wrote := [] } with
  | ok a w => rw [hr] at h; exact h
  | error r w => rw [hr] at h; exact h.1

/-- DecNext, and what follows it: it stops as Decode does, or moves the decoder on (43_decoder.md R222). -/
theorem EndsIn.nextCode_bind {g : Word → Engine α} (hs : P s)
    (hr : ∀ r, decodeAt s.platform s.mem s.blk.dec s.blk.dec.pos.toNat = .error r → Q r)
    (hg : ∀ cp n, EndsIn P Q (g cp) (setDecoder (s.blk.dec.advance n) s)) : EndsIn P Q (nextCode >>= g) s := by
  intro l
  rw [run_bind]
  simp only [nextCode, run_bind, run_theState]
  cases hd : decodeAt s.platform s.mem s.blk.dec s.blk.dec.pos.toNat with
  | error r => exact ⟨hs, hr r hd⟩
  | ok x => exact hg x.1 x.2 l

end EndsIn

/-! ### Everything a layout step can do -/

/-- The changes that a layout step is made of (44_layout.md R272): the decoder moves on, the layout ends, the cursor
moves over a special code point, an unknown code point is recorded, or a glyph whose quantities are i32 is placed. -/
inductive LayoutMove (s : State) : State → Prop
  | take (n : Nat) : LayoutMove s (setDecoder (s.blk.dec.advance n) s)
  | inactive : LayoutMove s (setGlyph (eofRecord s.blk.lay) s)
  | ending (active : s.blk.lay.active = true) :
    LayoutMove s (setLayout { s.blk.lay with done := true } (setGlyph (eofRecord s.blk.lay) s))
  | special (cp x y : Word) :
    LayoutMove s (setGlyph (unprintableRecord cp s.blk.lay x) (setLayout { s.blk.lay with x := x, y := y } s))
  | unknown (cp : Word) : LayoutMove s (setGlyph (unprintableRecord cp s.blk.lay s.blk.lay.x) s)
  | glyph (active : s.blk.lay.active = true) (cp : Word) (i : Fin 8) (base h : Word) (cls : AlignClass) (g : Placement)
    (fits : g.fits h = true) :
    LayoutMove s (setGlyph (drawableRecord cp i base h cls g)
      (setLayout (Layout.cover { s.blk.lay with x := wordOfInt g.nx, y := wordOfInt g.cy } g) s))

/-- How a layout step can stop: as Decode does, as GetHeader does, or with Overflow (44_layout.md R272). -/
inductive LayoutStop (s : State) : Stop → Prop
  | decode {d pos r} (h : decodeAt s.platform s.mem d pos = .error r) : LayoutStop s r
  | header {i cp r} (h : getHeader s.platform s.mem s.blk.cs i cp = .error r) : LayoutStop s r
  | overflow (cp : Word) : LayoutStop s (.raise (.overflow cp))

theorem overflowCheck_error {cp : Word} {b : Bool} {r : Stop} (h : overflowCheck cp b = .error r) :
    r = .raise (.overflow cp) := by
  cases b <;> cases h
  rfl

theorem overflowCheck_ok {cp : Word} {b : Bool} {u : Unit} (h : overflowCheck cp b = .ok u) : b = true := by
  cases b
  · cases h
  · rfl

section LayoutStep
variable {P : State → Prop} {Q : Stop → Prop} (hP : ∀ s t, P s → LayoutMove s t → P t)
  (hQ : ∀ s r, P s → LayoutStop s r → Q r)
include hP

theorem endLayout_endsIn {s : State} (hs : P s) (ha : s.blk.lay.active = true) : EndsIn P Q endLayout s :=
  fun _ => hP _ _ hs (.ending ha)

include hQ

theorem layoutGlyph_endsIn {s : State} (hs : P s) (ha : s.blk.lay.active = true) (cp : Word) (i : Fin 8) :
    EndsIn P Q (layoutGlyph cp i) s := by
  refine .read (.check_bind hs (fun r hr => hQ s r hs (.header hr)) fun h _ => ?_)
  refine .check_bind hs (fun r hr => overflowCheck_error hr ▸ hQ s _ hs (.overflow cp)) fun _ hf => ?_
  exact .update_bind (.update_bind (.pure (hP _ _ hs (.glyph ha _ _ _ _ _ _ (overflowCheck_ok hf))) _))

theorem layoutCode_endsIn {s : State} (hs : P s) (ha : s.blk.lay.active = true) (cp : Word) :
    EndsIn P Q (layoutCode cp) s := by
  refine .read ?_
  dsimp only
  split
  · refine .check_bind hs (fun r hr => overflowCheck_error hr ▸ hQ s _ hs (.overflow cp)) fun _ _ => ?_
    exact .update_bind (.update_bind (.pure (hP _ _ hs (.special cp _ _)) _))
  · split
    · exact .update_bind (.pure (hP _ _ hs (.unknown cp)) _)
    · exact layoutGlyph_endsIn hP hQ hs ha cp _

/-- What every change of a layout step keeps, the step keeps, and it stops only as `LayoutStop` says. -/
theorem layoutStep_endsIn {s : State} (hs : P s) : EndsIn P Q layoutStep s := by
  refine .read ?_
  dsimp only
  split
  · exact .update_bind (.pure (hP _ _ hs .inactive) _)
  · next ha =>
    have ha : s.blk.lay.active = true := by simpa using ha
    split
    · exact endLayout_endsIn hP hs ha
    · refine .nextCode_bind hs (fun r hr => hQ s r hs (.decode hr)) fun cp n => ?_
      have taken := hP _ _ hs (.take n)
      split
      · exact endLayout_endsIn hP taken ha
      · exact layoutCode_endsIn hP hQ taken ha cp

theorem layoutLoop_endsIn : ∀ (fuel : Nat) {s : State}, P s → EndsIn P Q (layoutLoop fuel) s
  | 0, _, hs => .pure hs _
  | fuel + 1, _, hs => .bind (layoutStep_endsIn hP hQ hs) fun k t ht => by
    cases k with
    | eof => exact .pure ht _
    | unprintable | drawable => exact layoutLoop_endsIn fuel ht

theorem renderLoop_endsIn (hR : ∀ s, P s → EndsIn P Q renderCurrent s) :
    ∀ (fuel : Nat) {s : State}, P s → EndsIn P Q (renderLoop fuel) s
  | 0, _, hs => .pure hs _
  | fuel + 1, _, hs => .bind (layoutStep_endsIn hP hQ hs) fun k t ht => by
    cases k with
    | eof => exact .pure ht _
    | unprintable => exact renderLoop_endsIn hR fuel ht
    | drawable => exact .bind (hR t ht) fun _ u hu => renderLoop_endsIn hR fuel hu

end LayoutStep

end Sys2Proof.Machine
end

section
/-! SUPPORT. The invariant: the part of it that commands write, the rest of it under the host's moves, and O20. -/

namespace Sys2Proof.Machine

/-! ### The parts of the invariant that commands write -/

/-- What `Block.Inv` says of L.* (10_state.md R51, R52; D33, D34). -/
structure Layout.Inv (l : Layout) : Prop where
  boxActive : l.bbValid = true → l.active = true
  doneActive : l.done = true → l.active = true
  noBox : l.bbValid = false → l.bbMinX = 0#32 ∧ l.bbMinY = 0#32 ∧ l.bbMaxX = 0#32 ∧ l.bbMaxY = 0#32
  box : l.bbValid = true → l.bbMinX.toInt < l.bbMaxX.toInt ∧ l.bbMinY.toInt < l.bbMaxY.toInt

/-- What `Block.Inv` says of GL_* (10_state.md R54). -/
structure Glyph.Inv (g : Glyph) : Prop where
  glInfo : g.info &&& 0xFFF88000#32 = 0#32
  noData : g.hasData = false → g.data = 0#32 ∧ g.hdr = 0#32
  eofCode : g.eof = true → g.cp = 0xFFFFFFFF#32 ∧ g.hasData = false

/-- What `Block.Inv` says of the registers that only commands and resets write. -/
structure Block.TextInv (b : Block) : Prop where
  decoder : b.dec.pos.toNat ≤ b.dec.len.toNat
  lay : b.lay.Inv
  gl : b.gl.Inv

theorem Block.Inv.text {b : Block} (h : b.Inv) : b.TextInv :=
  ⟨h.decoder, ⟨h.boxActive, h.doneActive, h.noBox, h.box⟩, ⟨h.glInfo, h.noData, h.eofCode⟩⟩

/-- The invariant, with the fault bits and the text part made good after a change that leaves the host's registers as
they were. -/
theorem Block.Inv.changed {b b' : Block} (h : b.Inv) (noFault : b'.status.fault = false → b'.status = .clear)
    (faulted : b'.status.fault = true → b'.latch = none ∧ 1 ≤ b'.status.code.toNat ∧ b'.status.code.toNat ≤ 7)
    (surf : b'.surf = b.surf) (text : b'.text = b.text) (cs : b'.cs = b.cs) (ht : b'.TextInv) : b'.Inv where
  noFault := noFault
  faulted := faulted
  decoder := ht.decoder
  surfCfg := surf ▸ h.surfCfg
  surfPitch := surf ▸ h.surfPitch
  ltCfg1 := text ▸ h.ltCfg1
  csCtrl := cs ▸ h.csCtrl
  glInfo := ht.gl.glInfo
  noData := ht.gl.noData
  eofCode := ht.gl.eofCode
  boxActive := ht.lay.boxActive
  doneActive := ht.lay.doneActive
  noBox := ht.lay.noBox
  box := ht.lay.box

/-! ### Records and layouts that commands leave -/

/-- A record without data, and with EOF only beside the code point -1. -/
theorem Glyph.Inv.of_noData {g : Glyph} (hi : g.info &&& 0xFFF88000#32 = 0#32) (hn : g.hasData = false)
    (hd : g.data = 0#32) (hh : g.hdr = 0#32) (he : g.eof = true → g.cp = 0xFFFFFFFF#32) : g.Inv :=
  ⟨hi, fun _ => ⟨hd, hh⟩, fun h => ⟨he h, hn⟩⟩

theorem Glyph.Inv.reset : Glyph.reset.Inv :=
  .of_noData (by decide) (by decide) rfl rfl (by decide)

theorem eofRecord_inv (l : Layout) : (eofRecord l).Inv :=
  have bits : eofInfo &&& 0xFFF88000#32 = 0#32 ∧ eofInfo.getLsbD 8 = false := by decide
  .of_noData bits.1 bits.2 rfl rfl fun _ => rfl

theorem unprintableRecord_inv (cp : Word) (l : Layout) (x : Word) : (unprintableRecord cp l x).Inv :=
  have bits : (0 : Word) &&& 0xFFF88000#32 = 0#32 ∧ (0 : Word).getLsbD 8 = false ∧ (0 : Word).getLsbD 12 ≠ true := by
    decide
  .of_noData bits.1 bits.2.1 rfl rfl fun h => absurd h bits.2.2

/-- Of the bits of a drawable record's GL_INFO: HAS_DATA is set, EOF is not, and the reserved bits are 0. -/
theorem drawableInfo_bits (i : Fin 8) (cls : AlignClass) (tx ty w : Bool) (sx sy : Nat) :
    (drawableInfo i cls tx ty w sx sy).getLsbD 8 = true ∧ (drawableInfo i cls tx ty w sx sy).getLsbD 12 = false ∧
      drawableInfo i cls tx ty w sx sy &&& 0xFFF88000#32 = 0#32 := by
  refine ⟨?_, ?_, BitVec.eq_of_getLsbD_eq fun k hk => ?_⟩
  · unfold drawableInfo
    simp only [BitVec.getLsbD_append]
    simp [bit]
  · unfold drawableInfo
    simp only [BitVec.getLsbD_append]
    simp
  · rw [BitVec.getLsbD_and]
    unfold drawableInfo
    simp only [BitVec.getLsbD_append]
    interval_cases k <;> simp

theorem drawableRecord_inv (cp : Word) (i : Fin 8) (base h : Word) (cls : AlignClass) (g : Placement) :
    (drawableRecord cp i base h cls g).Inv := by
  obtain ⟨data, eof, reserved⟩ := drawableInfo_bits i cls g.truncX g.truncY (hdrWide h) g.csx g.csy
  exact ⟨reserved, fun hn => absurd (data.symm.trans hn) (by decide), fun he => absurd (eof.symm.trans he) (by decide)⟩

theorem Layout.Inv.start (t : TextRegs) : (Layout.start t).Inv :=
  ⟨fun _ => rfl, fun _ => rfl, fun _ => ⟨rfl, rfl, rfl, rfl⟩, fun h => by cases h⟩

/-- The invariant says nothing of the cursor. -/
theorem Layout.Inv.moved {l : Layout} (h : l.Inv) (x y : Word) : Layout.Inv { l with x := x, y := y } :=
  ⟨h.boxActive, h.doneActive, h.noBox, h.box⟩

theorem Layout.Inv.ended {l : Layout} (h : l.Inv) (ha : l.active = true) : Layout.Inv { l with done := true } :=
  ⟨h.boxActive, fun _ => ha, h.noBox, h.box⟩

/-- A glyph with something left of it after clipping makes a box that is not empty (44_layout.md R255). -/
theorem Layout.Inv.cover {l : Layout} (h : l.Inv) (ha : l.active = true) {g : Placement} {hdr : Word}
    (hf : g.fits hdr = true) : (l.cover g).Inv := by
  simp only [Placement.fits, Bool.and_eq_true, int32_iff] at hf
  obtain ⟨⟨⟨⟨⟨⟨-, -⟩, hgx⟩, hgy⟩, -⟩, hx⟩, hy⟩ := hf
  unfold Layout.cover
  split
  · exact h
  · next hne =>
    obtain ⟨hcx, hcy⟩ := not_or.1 hne
    split
    · next hv =>
      have minX := isInt32_toInt l.bbMinX
      have minY := isInt32_toInt l.bbMinY
      have maxX := isInt32_toInt l.bbMaxX
      have maxY := isInt32_toInt l.bbMaxY
      refine ⟨fun _ => ha, fun _ => ha, fun hv' => absurd (hv.symm.trans hv') (by decide), fun _ => ?_⟩
      dsimp only
      unfold IsInt32 at hgx hgy hx hy minX minY maxX maxY
      rw [toInt_wordOfInt, toInt_wordOfInt, toInt_wordOfInt, toInt_wordOfInt]
      · omega
      all_goals unfold IsInt32; omega
    · refine ⟨fun _ => ha, fun _ => ha, fun hv' => (by cases hv'), fun _ => ?_⟩
      dsimp only
      rw [toInt_wordOfInt hgx, toInt_wordOfInt hgy, toInt_wordOfInt hx, toInt_wordOfInt hy]
      omega

theorem Decoder.advance_pos_le (d : Decoder) (n : Nat) : (d.advance n).pos.toNat ≤ (d.advance n).len.toNat := by
  have h : min (d.pos.toNat + n) d.len.toNat < 2 ^ 32 := lt_of_le_of_lt (min_le_right _ _) d.len.isLt
  simp only [Decoder.advance, BitVec.toNat_ofNat, Nat.mod_eq_of_lt h]
  exact min_le_right _ _

/-- Every change of a layout step keeps the text part of the invariant. -/
theorem LayoutMove.textInv {s t : State} (hs : s.blk.TextInv) (h : LayoutMove s t) : t.blk.TextInv := by
  cases h with
  | take n => exact ⟨s.blk.dec.advance_pos_le n, hs.lay, hs.gl⟩
  | inactive => exact ⟨hs.decoder, hs.lay, eofRecord_inv _⟩
  | ending ha => exact ⟨hs.decoder, hs.lay.ended ha, eofRecord_inv _⟩
  | special cp x y => exact ⟨hs.decoder, hs.lay.moved x y, unprintableRecord_inv ..⟩
  | unknown cp => exact ⟨hs.decoder, hs.lay, unprintableRecord_inv ..⟩
  | glyph ha cp i base h cls g hf =>
    have moved := hs.lay.moved (wordOfInt g.nx) (wordOfInt g.cy)
    exact ⟨hs.decoder, moved.cover ha hf, drawableRecord_inv ..⟩

/-! ### Commands keep the invariant -/

/-- A command that may change neither the layout nor the decoder keeps the text part of the invariant. -/
theorem Keeps.textInv {f : Footprint} {w w' : Work} (h : Keeps f w w') (hl : f.layout = false) (hd : f.decoder = false)
    (hw : w.st.blk.TextInv) : w'.st.blk.TextInv := by
  obtain ⟨lay, gl⟩ := h.layout hl
  exact ⟨h.decoder hd ▸ hw.decoder, lay ▸ hw.lay, gl ▸ hw.gl⟩

theorem renderCurrent_textInv {s : State} (hs : s.blk.TextInv) :
    EndsIn (fun t => t.blk.TextInv) (fun _ => True) renderCurrent s :=
  .read (.draw ((renderRecord_ends _ _ _ _).mono (fun _ => trivial) fun _ => trivial) fun _ _ => hs)

/-- Wherever a command ends, the text part of the invariant holds. -/
theorem finalWork_textInv (i : Instr) {s : State} (hs : s.blk.TextInv) :
    (finalWork (bodyOf i) s).st.blk.TextInv := by
  have other : (footprint i).layout = false → (footprint i).decoder = false →
      (finalWork (bodyOf i) s).st.blk.TextInv := fun hl hd => (finalWork_keeps i s).textInv hl hd hs
  have ends : ∀ {e : Engine Unit}, EndsIn (fun t => t.blk.TextInv) (fun _ => True) e s →
      (finalWork e s).st.blk.TextInv := EndsIn.finalWork
  have moves : ∀ s t : State, s.blk.TextInv → LayoutMove s t → t.blk.TextInv := fun _ _ => LayoutMove.textInv
  have stops : ∀ (s : State) (r : Stop), s.blk.TextInv → LayoutStop s r → True := fun _ _ _ _ => trivial
  cases i with
  | decStart => exact ⟨Nat.zero_le _, hs.lay, hs.gl⟩
  | decNext =>
    exact ends (.nextCode_bind hs (fun _ _ => trivial) fun _ n =>
      .update ⟨Decoder.advance_pos_le _ n, hs.lay, hs.gl⟩)
  | layoutStart => exact ⟨Nat.zero_le _, .start _, .reset⟩
  | layoutNext => exact ends (.bind (layoutStep_endsIn moves stops hs) fun _ _ ht => .pure ht _)
  | layoutExhaust => exact ends (.read (layoutLoop_endsIn moves stops _ hs))
  | renderText =>
    exact ends (.read (.check_bind hs (fun _ _ => trivial) fun _ _ =>
      renderLoop_endsIn moves stops (fun _ => renderCurrent_textInv) _ hs))
  | nop | setpix | getpix | hrun | vrun | mapaddr | fill | fillrect | rectout | line | decPeek | glyphLookup
  | renderGlyph => exact other rfl rfl

/-- What a command that answers a next state leaves is the state its computation ended in, completed or with a fault. -/
theorem exec_next_final {i : Instr} {s t : State} (h : exec i s = .next t) :
    t = complete (finalWork (bodyOf i) s).st ∨ ∃ c, t = raiseFault c (finalWork (bodyOf i) s).st := by
  rw [exec_eq, finish_next_iff] at h
  rcases h with ⟨w, hw, rfl⟩ | ⟨c, w, hw, rfl⟩
  · exact .inl (by simp [finalWork, hw])
  · exact .inr ⟨c, by simp [finalWork, hw]⟩

theorem Cause.code_bounds (c : Cause) : 1 ≤ c.code.toNat ∧ c.code.toNat ≤ 7 := by cases c <;> simp [Cause.code]

theorem raiseFault_inv {b : Block} {s : State} (h : b.Inv) (c : Cause) (surf : s.blk.surf = b.surf)
    (text : s.blk.text = b.text) (cs : s.blk.cs = b.cs) (ht : s.blk.TextInv) : (raiseFault c s).blk.Inv :=
  h.changed (fun hf => by cases hf) (fun _ => ⟨rfl, c.code_bounds⟩) surf text cs ⟨ht.decoder, ht.lay, ht.gl⟩

theorem exec_blk_inv {i : Instr} {s t : State} (hs : s.blk.Inv) (h : exec i s = .next t) : t.blk.Inv := by
  have hk := finalWork_keeps i s
  have ht := finalWork_textInv i hs.text
  have hst : (finalWork (bodyOf i) s).st.blk.status = s.blk.status := hk.status
  rcases exec_next_final h with rfl | ⟨c, rfl⟩
  · exact hs.changed (fun hf => hst.trans (hs.noFault (hst ▸ hf)))
      (fun hf => ⟨rfl, hst ▸ (hs.faulted (hst ▸ hf)).2⟩) hk.surf hk.text hk.cs ⟨ht.decoder, ht.lay, ht.gl⟩
  · exact raiseFault_inv hs c hk.surf hk.text hk.cs ht

/-- With a command in flight its results are pending, so that nothing is settled. -/
theorem State.Inv.not_settled {s : State} (hs : s.Inv) (hl : s.blk.latch ≠ none) : s.settled = false := by
  rw [Bool.eq_false_iff]
  intro hset
  have hp := hs.inFlight hl
  rw [hs.settled hset] at hp
  cases hp

/-- Everything of a state that the invariant speaks of, with the latch empty. -/
theorem State.Inv.of_idle {t : State} (blk : t.blk.Inv) (mem : Memory.wf t.mem = true) (idle : t.blk.latch = none)
    (settled : t.settled = true → t.pending = .none) : t.Inv :=
  ⟨blk, mem, fun h => absurd idle h, settled⟩

theorem runCommand_inv {i : Instr} {s t : State} (hs : s.Inv) (hl : s.blk.latch ≠ none)
    (h : runCommand i s = .next t) : t.Inv := by
  obtain ⟨u, hu, rfl⟩ := runCommand_next h
  have blk := exec_blk_inv hs.blk hu
  have unsettled : s.settled ≠ true := by simp [hs.not_settled hl]
  obtain ⟨w, hk, rfl | ⟨c, -, rfl⟩⟩ := exec_next hu
  all_goals exact .of_idle blk (hk.wf hs.mem) rfl fun hset => absurd (hk.settled.symm.trans hset) unsettled

/-- The engine's execution of the latched word keeps the invariant. -/
theorem runWord_inv {w : Word} {s t : State} (hs : s.Inv) (hl : s.blk.latch ≠ none) (h : runWord w s = .next t) :
    t.Inv := by
  unfold runWord at h
  split at h
  · exact runCommand_inv hs hl h
  · cases h
    exact .of_idle (raiseFault_inv hs.blk _ rfl rfl rfl hs.blk.text) hs.mem rfl hs.settled

/-! ### The host's moves keep the invariant -/

theorem Block.Inv.reset : Block.reset.Inv := by constructor <;> decide +kernel

theorem and_mask_reserved (v mask : Word) : v &&& mask &&& ~~~mask = 0#32 := by
  rw [BitVec.and_assoc, BitVec.and_not_self]
  exact BitVec.and_zero

/-- A register that the host writes is none of the latch, the fault bits, Dc.*, L.*, GL_* and the results. -/
theorem writeReg_frame (b : Block) (v : Word) (r : Reg) :
    (b.writeReg v r).latch = b.latch ∧ (b.writeReg v r).status = b.status ∧ (b.writeReg v r).dec = b.dec ∧
      (b.writeReg v r).lay = b.lay ∧ (b.writeReg v r).gl = b.gl := by
  cases r <;> exact ⟨rfl, rfl, rfl, rfl, rfl⟩

theorem setSlot_get (b : Block) (i j : Fin 8) (c : CharsetSlot) :
    (b.setSlot i c).cs.get j = if i = j then c else b.cs.get j := by
  simp [Block.setSlot, Vector.get_eq_getElem, Vector.getElem_set, Fin.ext_iff]

theorem setSlot_reserved {b : Block} (h : b.Inv) {i : Fin 8} {c : CharsetSlot} (hc : c.ctrl &&& ~~~csCtrlMask = 0#32)
    (j : Fin 8) : ((b.setSlot i c).cs.get j).ctrl &&& ~~~csCtrlMask = 0#32 := by
  rw [setSlot_get]
  split
  · exact hc
  · exact h.csCtrl j

theorem Block.Inv.writeReg {b : Block} (h : b.Inv) (v : Word) (r : Reg) : (b.writeReg v r).Inv := by
  cases r with
  | surfCfg => exact { h with surfCfg := and_mask_reserved v surfCfgMask }
  | surfPitch => exact { h with surfPitch := and_mask_reserved v surfPitchMask }
  | ltCfg1 => exact { h with ltCfg1 := and_mask_reserved v ltCfg1Mask }
  | csBase i | csLen i | csMin i | csMax i => exact { h with csCtrl := setSlot_reserved h (h.csCtrl i) }
  | csCtrl i => exact { h with csCtrl := setSlot_reserved h (and_mask_reserved v csCtrlMask) }
  | _ => exact { h with }

theorem softReset_inv {s : State} (hs : s.Inv) : (softReset s).Inv := by
  refine .of_idle (softReset_blk s ▸ .reset) (softReset_wf hs.mem) (by rw [softReset_blk]; rfl) fun h => ?_
  rw [softReset_settled] at h
  rw [softReset_pending, hs.settled h]
  rfl

theorem clearFault_inv {s : State} (hs : s.Inv) : (clearFault s).Inv := by
  unfold clearFault
  split
  · exact ⟨{ hs.blk with noFault := fun _ => rfl, faulted := fun h => by cases h }, hs.mem, hs.inFlight, hs.settled⟩
  · exact hs

theorem issueCommand_inv {s : State} (hs : s.Inv) (w : Word) : (issueCommand w s).Inv := by
  unfold issueCommand
  split
  · exact ⟨hs.blk, hs.mem, hs.inFlight, fun h => by cases h⟩
  · next hf =>
    exact ⟨{ hs.blk with faulted := fun h => absurd h hf }, hs.mem, fun _ => rfl, fun h => by cases h⟩

theorem hostWrite_inv {offset : Nat} {v : Word} {s t : State} (hs : s.Inv) (h : hostWrite offset v s = .next t) :
    t.Inv := by
  rcases hostWrite_next h with rfl | rfl | ⟨-, rfl | rfl | ⟨r, rfl⟩⟩
  · exact hs
  · exact softReset_inv hs
  · exact clearFault_inv hs
  · exact issueCommand_inv hs v
  · exact ⟨hs.blk.writeReg v r, hs.mem, (writeReg_frame s.blk v r).1 ▸ hs.inFlight, hs.settled⟩

/-- A STATUS read that settles the last command finds BUSY = 0, so that no command is in flight. -/
theorem hostRead_inv {s : State} (hs : s.Inv) (offset : Nat) : (hostRead offset s).Inv := by
  unfold hostRead
  dsimp only
  split
  · next h => exact ⟨hs.blk, hs.mem, fun hl => absurd (by simpa [Block.busy] using h.2) hl, fun _ => rfl⟩
  · exact ⟨hs.blk, hs.mem, hs.inFlight, hs.settled⟩

theorem storeMemory_inv {s : State} (hs : s.Inv) (a : Word) (bytes : List Byte) : (storeMemory a bytes s).Inv :=
  ⟨hs.blk, storeBytes_wf _ _ hs.mem, hs.inFlight, fun h => by rw [storeMemory_pending, hs.settled h, none_overwrite]⟩

theorem hostMove_inv {move : HostMove} {s t : State} (hs : s.Inv) (h : hostMove move s = .next t) : t.Inv := by
  cases move with
  | write offset width v =>
    dsimp only [hostMove] at h
    split at h
    · cases h
    · split at h
      · exact hostWrite_inv hs h
      · cases h
  | read offset width =>
    dsimp only [hostMove] at h
    split at h
    · cases h
    · split at h
      · cases h; exact hostRead_inv hs offset
      · cases h
  | wait =>
    cases h
    have hr := hostRead_inv hs 0x008
    split
    · exact ⟨hr.blk, hr.mem, hr.inFlight, hr.settled⟩
    · exact hr
  | store a bytes => rw [(hostMemory_next h).1]; exact storeMemory_inv hs a bytes
  | load a n => rw [(hostMemory_next h).1]; exact ⟨hs.blk, hs.mem, hs.inFlight, hs.settled⟩
  | hardwareReset =>
    cases h
    exact .of_idle .reset hs.mem rfl fun h => by rw [resetBlock_pending, hs.settled h]; rfl
  | readmit refusals => cases h; exact ⟨hs.blk, hs.mem, hs.inFlight, hs.settled⟩

/-- Settles O20: commands keep the text part of the invariant because every change of a layout step does, and no
register that the host writes is in that part. -/
theorem stepsKeepTheInvariant : Obligations.StepsKeepTheInvariant := by
  unfold Obligations.StepsKeepTheInvariant
  intro s t hs h
  have passed : s.nextTurn.Inv := ⟨hs.blk, hs.mem, hs.inFlight, hs.settled⟩
  rcases step_cases s with he | ⟨w, -, hl, he⟩ | ⟨move, rest, -, -, he⟩
  · rw [he] at h
    cases h
    exact passed
  · exact runWord_inv passed (by simp [hl]) (he ▸ h)
  · exact hostMove_inv (s := { s.nextTurn with host := rest }) ⟨hs.blk, hs.mem, hs.inFlight, hs.settled⟩ (he ▸ h)

end Sys2Proof.Machine
end

section
/-! SUPPORT. What commands leave alone, and what they write: O7, O21 and O22. A command is refused only for a region
with read side effects: where there is none, every access that does not take place raises BusError, so every command
ends. -/

namespace Sys2Proof.Machine

/-! ### Stops that raise a fault -/

/-- The stop is a fault that a command raises, and no refusal of the model. -/
def Stop.isRaise (r : Stop) : Prop := ∃ c, r = .raise c

/-- A check or a read that is not refused. -/
def Raises {α : Type} (x : Except Stop α) : Prop := ∀ r, x = .error r → r.isRaise

section Checks
variable {α β : Type}

theorem Raises.ok (a : α) : Raises (.ok a) := fun _ h => by cases h

theorem Raises.raise (c : Cause) : Raises (.error (.raise c) : Except Stop α) := fun _ h => by cases h; exact ⟨c, rfl⟩

theorem Raises.bind {x : Except Stop α} {f : α → Except Stop β} (hx : Raises x) (hf : ∀ a, Raises (f a)) :
    Raises (x >>= f) := fun r h => by
  rcases except_bind_error_iff.1 h with h | ⟨a, -, h⟩
  · exact hx r h
  · exact hf a r h

/-- Every argument check answers that all is well or raises a fault. -/
theorem raises_check {q : Prop} [Decidable q] {c : Cause} : Raises (if q then .ok () else .error (.raise c)) := by
  split
  · exact .ok _
  · exact .raise c

theorem raises_surfCheck {sf : Surface} : Raises (surfCheck sf) := fun _ h => by
  obtain ⟨n, rfl, -⟩ := surfCheck_error h
  exact ⟨_, rfl⟩

theorem raises_pixelCheck {sf : Surface} {op : Word} {x y : Nat} : Raises (pixelCheck sf op x y) := raises_check

theorem raises_rectoutCheck {sf : Surface} {x y w h : Nat} : Raises (rectoutCheck sf x y w h) := by
  unfold rectoutCheck
  split
  · exact raises_pixelCheck
  · split
    · exact raises_check
    · split <;> exact raises_check

end Checks

/-- A drawing that is not refused. -/
abbrev DrawRaises {α : Type} (d : Draw α) : Prop := DrawEnds (fun _ _ => True) Stop.isRaise d

theorem DrawRaises.pure {α : Type} (a : α) : DrawRaises (Pure.pure a : Draw α) := DrawEnds.pure (fun _ => trivial) a

theorem DrawRaises.bind {α β : Type} {d : Draw α} {f : α → Draw β} (hd : DrawRaises d) (hf : ∀ a, DrawRaises (f a)) :
    DrawRaises (d >>= f) := DrawEnds.bind (fun _ _ => trivial) hd hf

theorem DrawRaises.forEach {α : Type} {f : α → Draw Unit} (hf : ∀ a, DrawRaises (f a)) (l : List α) :
    DrawRaises (Machine.forEach f l) := DrawEnds.forEach (fun _ => trivial) (fun _ _ => trivial) fun a _ => hf a

/-! ### Accesses where no region has read side effects -/

section Plain
variable {p : Platform} {m : Memory} (hp : p.readEffects = [])
include hp

theorem raises_access {a : Word} {n : Nat} {k : AccessKind} : Raises (access p a n k) := fun _ h => by
  rcases access_error h with ⟨-, rfl⟩ | ⟨-, touches, -⟩
  · exact ⟨_, rfl⟩
  · simp [Platform.touchesReadEffects, hp] at touches

theorem raises_memRead {a : Word} {n : Nat} : Raises (memRead p m a n) := fun r h =>
  raises_access hp r (memRead_error_iff.1 h)

theorem raises_continuation {d : Decoder} {k : Nat} : Raises (continuation p m d k) := by
  unfold continuation
  split
  · exact .bind (raises_memRead hp) fun _ => .ok _
  · exact .ok _

theorem raises_decodeAt {d : Decoder} {pos : Nat} : Raises (decodeAt p m d pos) := by
  have more : ∀ {k}, Raises (continuation p m d k) := raises_continuation hp
  unfold decodeAt
  split
  · exact .ok _
  · refine .bind (raises_memRead hp) fun b => ?_
    split
    · exact .ok _
    · split
      · exact .bind more fun _ => .ok _
      · split
        · exact .bind more fun _ => .bind more fun _ => .ok _
        · exact .bind more fun _ => .bind more fun _ => .bind more fun _ => .ok _

theorem raises_readHeader {a : Word} : Raises (readHeader p m a) :=
  have byte : ∀ {a}, Raises (memRead p m a 1) := raises_memRead hp
  .bind byte fun _ => .bind byte fun _ => .bind byte fun _ => .bind byte fun _ => .ok _

theorem raises_getHeader {cs : Vector CharsetSlot 8} {i : Fin 8} {cp : Word} : Raises (getHeader p m cs i cp) := by
  unfold getHeader
  dsimp only
  split
  · exact .raise _
  · split
    · exact .raise _
    · refine .bind (raises_readHeader hp) fun h => ?_
      split
      · exact .raise _
      · exact .ok _

theorem raises_getPix {sf : Surface} {x y : Nat} : Raises (getPix p m sf x y) := by
  have read : ∀ {a n}, Raises (memRead p m a n) := raises_memRead hp
  unfold getPix
  dsimp only
  split
  · exact read
  · exact .bind read fun _ => .bind read fun _ => .bind read fun _ => .ok _
  · exact read
  · exact read
  · exact .bind read fun _ => .ok _

/-- A drawing that stops only as the first of some accesses does is not refused. -/
theorem drawRaises_of_firstStop {d : Draw Unit}
    (h : ∀ c r, stopOf (d c) = some r → ∃ l, firstStop p l = some r) : DrawRaises d := by
  intro c
  have hc := h c
  cases hd : d c with
  | ok u c' => trivial
  | error r c' =>
    obtain ⟨l, hl⟩ := hc r (by rw [hd]; rfl)
    obtain ⟨a, rfl, -⟩ := firstStop_some hp hl
    exact ⟨trivial, _, rfl⟩

theorem drawRaises_putPix {sf : Surface} {v : Word} {x y : Nat} : DrawRaises (putPix p sf v x y) :=
  drawRaises_of_firstStop hp fun c _ h => ⟨_, (putPix_stop sf v x y c).symm.trans h⟩

theorem drawRaises_drawPixels {sf : Surface} {v : Word} {l : List (Nat × Nat)} : DrawRaises (drawPixels p sf v l) :=
  drawRaises_of_firstStop hp fun c _ h => by
    obtain ⟨q, -, hq⟩ := List.exists_of_findSome?_eq_some ((drawPixels_stop sf v l c).symm.trans h)
    exact ⟨_, hq⟩

theorem drawRaises_drawRead {a : Word} {n : Nat} : DrawRaises (drawRead p a n) := by
  intro c
  rw [drawRead_eq]
  cases h : memRead p c.mem a n with
  | ok v => trivial
  | error r => exact ⟨trivial, raises_memRead hp r h⟩

theorem drawRaises_plotGlyphPixel {sf : Surface} {v : Word} {x y : Int} :
    DrawRaises (plotGlyphPixel p sf v x y) := by
  by_cases hin : sf.inBounds x y = true
  · have : plotGlyphPixel p sf v x y = putPix p sf v x.toNat y.toNat := funext fun c => if_pos hin
    exact this ▸ drawRaises_putPix hp
  · intro c
    rw [plotGlyphPixel, if_neg hin]
    exact ⟨trivial, _, rfl⟩

theorem drawRaises_rowBits {g : Glyph} {r : Nat} : DrawRaises (rowBits p g r) := by
  refine .bind (drawRaises_drawRead hp) fun lo => ?_
  split
  · exact .bind (drawRaises_drawRead hp) fun _ => .pure _
  · exact .pure _

theorem drawRaises_renderRecord {sf : Surface} {g : Glyph} {v : Word} : DrawRaises (renderRecord p sf g v) := by
  unfold renderRecord
  split
  · exact .pure _
  · refine .forEach (fun r => .bind (drawRaises_rowBits hp) fun row => .forEach (fun c => ?_) _) _
    split
    · exact drawRaises_plotGlyphPixel hp
    · exact .pure _

end Plain

/-! ### Where no region has read side effects, no command is refused -/

/-- No region has read side effects. -/
def State.quiet (s : State) : Prop := s.platform.readEffects = []

theorem LayoutMove.quiet {s t : State} (hs : s.quiet) (h : LayoutMove s t) : t.quiet := by
  cases h <;> exact hs

theorem LayoutStop.isRaise {s : State} {r : Stop} (hs : s.quiet) (h : LayoutStop s r) : r.isRaise := by
  cases h with
  | decode h => exact raises_decodeAt hs r h
  | header h => exact raises_getHeader hs r h
  | overflow cp => exact ⟨_, rfl⟩

/-- A command that checks the surface first. -/
theorem surface_quiet {g : State → Engine Unit} {s : State} (hs : s.quiet)
    (hg : EndsIn State.quiet Stop.isRaise (g s) s) :
    EndsIn State.quiet Stop.isRaise (theState >>= fun s => check (surfCheck s.blk.surf) >>= fun _ => g s) s :=
  .read (.check_bind hs raises_surfCheck fun _ _ => hg)

/-- A check of the arguments, and then the drawing. -/
theorem checkedDraw_quiet {s : State} (hs : s.quiet) {x : Except Stop Unit} (hx : Raises x) {d : Draw Unit}
    (hd : DrawRaises d) :
    EndsIn State.quiet Stop.isRaise (check x >>= fun _ => draw d) s :=
  .check_bind hs hx fun _ _ => .draw hd fun _ _ => hs

theorem renderCurrent_quiet (s : State) (hs : s.quiet) : EndsIn State.quiet Stop.isRaise renderCurrent s :=
  .read (.draw (drawRaises_renderRecord hs) fun _ _ => hs)

/-- Where no region has read side effects, whatever stops a command is a fault. -/
theorem bodyOf_quiet (i : Instr) {s : State} (hs : s.quiet) : EndsIn State.quiet Stop.isRaise (bodyOf i) s := by
  have moves : ∀ s t : State, s.quiet → LayoutMove s t → t.quiet := fun _ _ => LayoutMove.quiet
  have stops : ∀ (s : State) (r : Stop), s.quiet → LayoutStop s r → r.isRaise := fun _ _ => LayoutStop.isRaise
  cases i with
  | nop => exact .pure hs _
  | setpix => exact surface_quiet hs (checkedDraw_quiet hs raises_pixelCheck (drawRaises_putPix hs))
  | getpix =>
    exact surface_quiet hs (.check_bind hs raises_pixelCheck fun _ _ =>
      .check_bind hs (raises_getPix hs) fun _ _ => .update hs)
  | mapaddr =>
    exact surface_quiet hs (.check_bind hs raises_pixelCheck fun _ _ => .update_bind (.update hs))
  | fill => exact surface_quiet hs (.draw (drawRaises_drawPixels hs) fun _ _ => hs)
  | hrun | vrun | fillrect => exact surface_quiet hs (checkedDraw_quiet hs raises_check (drawRaises_drawPixels hs))
  | rectout => exact surface_quiet hs (checkedDraw_quiet hs raises_rectoutCheck (drawRaises_drawPixels hs))
  | line =>
    exact surface_quiet hs (.check_bind hs raises_pixelCheck fun _ _ =>
      checkedDraw_quiet hs raises_pixelCheck (drawRaises_drawPixels hs))
  | decStart => exact .read (.update hs)
  | decNext => exact .nextCode_bind hs (raises_decodeAt hs) fun _ _ => .update hs
  | decPeek =>
    exact .bind (.read (.check_bind hs (raises_decodeAt hs) fun _ _ => .pure hs _)) fun _ _ ht => .update ht
  | glyphLookup =>
    refine .read ?_
    dsimp only
    split
    · exact .update_bind (.update hs)
    · exact .check_bind hs (raises_getHeader hs) fun _ _ => .update_bind (.update hs)
  | layoutStart => exact .read (.update_bind (.update_bind (.update hs)))
  | layoutNext => exact .bind (layoutStep_endsIn moves stops hs) fun _ _ ht => .pure ht _
  | layoutExhaust => exact .read (layoutLoop_endsIn moves stops _ hs)
  | renderGlyph => exact surface_quiet hs (renderCurrent_quiet s hs)
  | renderText => exact surface_quiet hs (renderLoop_endsIn moves stops renderCurrent_quiet _ hs)

theorem exec_next_of_quiet (i : Instr) {s : State} (hs : s.quiet) : ∃ t, exec i s = .next t := by
  have h := bodyOf_quiet i hs []
  rw [exec_eq]
  cases hr : bodyOf i { st := s, wrote := [] } with
  | ok u w => exact ⟨_, finish_ok hr⟩
  | error r w =>
    rw [hr] at h
    obtain ⟨-, c, rfl⟩ := h
    exact ⟨_, finish_raise hr⟩

/-- A command is refused only for a region with read side effects (log 21). -/
theorem exec_refused {i : Instr} {s : State} {r : Refusal} (h : exec i s = .refused r) : r = .readSideEffects := by
  have hb := bodyOf_behaves i { st := s, wrote := [] }
  rw [exec_eq] at h
  cases hr : bodyOf i { st := s, wrote := [] } with
  | ok u w => rw [finish_ok hr] at h; cases h
  | error q w =>
    rw [hr] at hb
    cases q with
    | raise c => rw [finish_raise hr] at h; cases h
    | refuse q => rw [finish_refuse hr] at h; cases h; exact hb.2

/-- Settles O7: `Keeps` leaves the host's registers alone whatever a body does, and where no region has read side
effects every stop is a fault (`bodyOf_quiet`). -/
theorem commandsLeaveTheHostsRegisters : Obligations.CommandsLeaveTheHostsRegisters := by
  unfold Obligations.CommandsLeaveTheHostsRegisters
  refine fun i s => ⟨fun f => exec_eq i s ▸ finish_ne_fault, fun r => exec_refused, exec_next_of_quiet i, fun t h => ?_⟩
  obtain ⟨w, hk, rfl | ⟨c, -, rfl⟩⟩ := exec_next h
  all_goals exact ⟨rfl, hk.surf, hk.args, hk.text, hk.cs, hk.platform, hk.host, hk.schedule, hk.seen, hk.settled,
    hk.pending⟩

/-! ### The writers of L.*, GL_*, Dc.*, the results and memory -/

/-- A command leaves the parts outside its footprint as they were, whether it completes or faults. -/
theorem exec_frame {i : Instr} {s t : State} (h : exec i s = .next t) :
    ((footprint i).layout = false → t.blk.lay = s.blk.lay ∧ t.blk.gl = s.blk.gl) ∧
      ((footprint i).decoder = false → t.blk.dec = s.blk.dec) ∧
      ((footprint i).result0 = false → t.blk.result0 = s.blk.result0) ∧
      ((footprint i).result1 = false → t.blk.result1 = s.blk.result1) ∧
      ((footprint i).memory = false → t.mem = s.mem ∧ t.draws = s.draws) := by
  obtain ⟨w, hk, rfl | ⟨c, -, rfl⟩⟩ := exec_next h
  all_goals exact ⟨hk.layout, hk.decoder, hk.result0, hk.result1, fun hf => ⟨(hk.memory hf).1, (hk.memory hf).2.1⟩⟩

theorem footprint_layout_false_iff (i : Instr) : (footprint i).layout = false ↔
    i ∉ ([.layoutStart, .layoutNext, .layoutExhaust, .renderText] : List Instr) := by cases i <;> decide

theorem footprint_decoder_false_iff (i : Instr) : (footprint i).decoder = false ↔
    i ∉ ([.decStart, .layoutStart, .decNext, .layoutNext, .layoutExhaust, .renderText] : List Instr) := by
  cases i <;> decide

theorem footprint_result0_false_iff (i : Instr) : (footprint i).result0 = false ↔
    i ∉ ([.getpix, .mapaddr, .decNext, .decPeek, .glyphLookup] : List Instr) := by cases i <;> decide

theorem footprint_result1_false_iff (i : Instr) : (footprint i).result1 = false ↔
    i ∉ ([.mapaddr, .glyphLookup] : List Instr) := by cases i <;> decide

/-- Settles O21: the footprints of the commands for `exec`; of the host's moves only a reset touches these registers. -/
theorem layoutAndDecoderHaveTheirOwnWriters : Obligations.LayoutAndDecoderHaveTheirOwnWriters := by
  unfold Obligations.LayoutAndDecoderHaveTheirOwnWriters
  refine ⟨fun i s t h => ?_, fun m s t h => ?_⟩
  · obtain ⟨layout, decoder, -⟩ := exec_frame h
    exact ⟨fun hi => layout ((footprint_layout_false_iff i).2 hi),
      fun hi => decoder ((footprint_decoder_false_iff i).2 hi)⟩
  · rcases (hostMove_next h).1 with e | e | ⟨-, e | ⟨v, e⟩ | ⟨v, r, e⟩⟩
    · exact .inl (by rw [e]; exact ⟨rfl, rfl, rfl⟩)
    · exact .inr e
    · refine .inl ?_
      rw [e, clearFault]
      split <;> exact ⟨rfl, rfl, rfl⟩
    · refine .inl ?_
      rw [e, issueCommand]
      split <;> exact ⟨rfl, rfl, rfl⟩
    · obtain ⟨-, -, dec, lay, gl⟩ := writeReg_frame s.blk v r
      exact .inl (by rw [e]; exact ⟨lay, gl, dec⟩)

/-- Settles O22: outside its footprint a command changes nothing (`exec_frame`). -/
theorem resultsAndMemoryHaveTheirOwnWriters : Obligations.ResultsAndMemoryHaveTheirOwnWriters := by
  unfold Obligations.ResultsAndMemoryHaveTheirOwnWriters
  intro i s t h
  obtain ⟨-, -, result0, result1, memory⟩ := exec_frame h
  exact ⟨fun hi => result0 ((footprint_result0_false_iff i).2 hi),
    fun hi => result1 ((footprint_result1_false_iff i).2 hi), fun hi => memory ((footprint_memory_false_iff i).2 hi)⟩

end Sys2Proof.Machine
end

section
/-! SUPPORT. The register window: which register each offset names, what a read and a write of it do, and O10 to O13. -/

namespace Sys2Proof.Machine

/-! ### The register map -/

/-- The offset of a register (10_state.md R31). -/
def Reg.offset : Reg → Nat
  | .csBase i => 0x100 + 0x20 * i
  | .csLen i => 0x104 + 0x20 * i
  | .csMin i => 0x108 + 0x20 * i
  | .csMax i => 0x10C + 0x20 * i
  | .csCtrl i => 0x110 + 0x20 * i
  | r => ((fixedRegs.find? fun row => row.2 == r).map Prod.fst).getD 0

/-- The bits of a read/write register that are not reserved; `none` for every other register (10_state.md R31, R40, R42,
R50, R55). -/
def Reg.mask : Reg → Option Word
  | .surfCfg => some surfCfgMask
  | .surfPitch => some surfPitchMask
  | .ltCfg1 => some ltCfg1Mask
  | .csCtrl _ => some csCtrlMask
  | .surfBase | .surfSize | .argP0 | .argP1 | .argValue | .textBase | .textLen | .ltStart | .ltMax | .ltCfg0 =>
    some 0xFFFFFFFF#32
  | .csBase _ | .csLen _ | .csMin _ | .csMax _ => some 0xFFFFFFFF#32
  | .id | .ctrl | .status | .faultInfo | .cmd | .result0 | .result1 | .decPos | .lsX | .lsY | .lsXinit => none
  | .bbMinX | .bbMinY | .bbMaxX | .bbMaxY | .lsFlags => none
  | .glCp | .glX | .glY | .glNextX | .glInfo | .glData | .glHdr => none

theorem regAt_lt {o : Nat} {r : Reg} (h : regAt o = some r) : o < 0x200 := by
  by_contra ho
  rw [regAt, if_neg (by omega), if_neg ho] at h
  cases h

/-- No two offsets name one register. -/
theorem offset_of_regAt {o : Nat} {r : Reg} (h : regAt o = some r) : r.offset = o := by
  have all : ∀ o < 0x200, (regAt o).all (fun r => r.offset == o) = true := by decide +kernel
  simpa [h] using all o (regAt_lt h)

/-- The offsets of the statement's table are those of the read/write registers, with their masks. -/
theorem regAt_of_writable {o : Nat} {m : Word} (h : (o, m) ∈ writableRegs) :
    o < 0x200 ∧ o % 4 = 0 ∧ ∃ r, regAt o = some r ∧ r.mask = some m := by
  have all : ∀ q ∈ writableRegs, q.1 < 0x200 ∧ q.1 % 4 = 0 ∧ (regAt q.1).bind Reg.mask = some q.2 := by decide +kernel
  obtain ⟨lt, aligned, hb⟩ := all _ h
  exact ⟨lt, aligned, Option.bind_eq_some_iff.1 hb⟩

theorem mask_none_of_not_writable {o : Nat} {r : Reg} (h : regAt o = some r) (hn : ∀ m, (o, m) ∉ writableRegs) :
    r.mask = none := by
  have all : ∀ o < 0x200, ((regAt o).bind Reg.mask).all (fun m => writableRegs.contains (o, m)) = true := by
    decide +kernel
  have hr := all o (regAt_lt h)
  rw [h] at hr
  cases hm : r.mask with
  | none => rfl
  | some m => exact absurd (by simpa [hm] using hr) (hn m)

theorem regAt_of_reserved {o : Nat} (h : reservedOffset o) : o < 0x200 ∧ o % 4 = 0 ∧ regAt o = none := by
  have ho : o < 0x200 := by
    obtain ⟨-, h | h | h | h | h | ⟨i, hi, h⟩⟩ := h <;> omega
  have all : ∀ o < 0x200, reservedOffset o → regAt o = none := by unfold reservedOffset; decide +kernel
  exact ⟨ho, h.1, all o ho h⟩

theorem readOffset_of_regAt {b : Block} {o : Nat} {r : Reg} (h : regAt o = some r) : b.readOffset o = b.readReg r := by
  rw [Block.readOffset, h]

/-! ### A register written and read -/

@[simp] theorem and_allOnes_word (v : Word) : v &&& 0xFFFFFFFF#32 = v := BitVec.and_allOnes

/-- A register that is written reads the value written, cut to the bits that are not reserved. -/
theorem readReg_writeReg_same {b : Block} {v m : Word} {r : Reg} (h : r.mask = some m) :
    (b.writeReg v r).readReg r = v &&& m := by
  cases r <;> simp [Reg.mask] at h <;> subst h <;>
    simp [Block.writeReg, Block.readReg, setSlot_get]

/-- Every other register reads as before: it lies in another field, or in another slot. -/
theorem readReg_writeReg_other {b : Block} {v : Word} {r q : Reg} (h : q ≠ r) :
    (b.writeReg v r).readReg q = b.readReg q := by
  cases r with
  | csBase i | csLen i | csMin i | csMax i | csCtrl i =>
    cases q with
    | csBase j | csLen j | csMin j | csMax j | csCtrl j =>
      simp only [Block.writeReg, Block.readReg, setSlot_get]
      split
      · next e => subst e; first | rfl | exact absurd rfl h
      · rfl
    | _ => rfl
  | _ => cases q <;> first | rfl | exact absurd rfl h

/-- The reserved bits of a register ignore a write. -/
theorem writeReg_mask {b : Block} {v m : Word} {r : Reg} (h : r.mask = some m) :
    b.writeReg (v &&& m) r = b.writeReg v r := by
  cases r <;> simp [Reg.mask] at h <;> subst h <;> simp [Block.writeReg, BitVec.and_assoc]

/-- A write to a register that the host may only read changes nothing. -/
theorem writeReg_readOnly {b : Block} {v : Word} {r : Reg} (h : r.mask = none) : b.writeReg v r = b := by
  cases r <;> simp [Reg.mask] at h <;> rfl

/-- While the invariant holds, the reserved bits of a read/write register are 0. -/
theorem readReg_reserved {b : Block} (h : b.Inv) {r : Reg} {m : Word} (hm : r.mask = some m) :
    b.readReg r &&& ~~~m = 0#32 := by
  cases r with
  | surfCfg => cases hm; exact h.surfCfg
  | surfPitch => cases hm; exact h.surfPitch
  | ltCfg1 => cases hm; exact h.ltCfg1
  | csCtrl i => cases hm; exact h.csCtrl i
  | _ => simp [Reg.mask] at hm <;> subst hm <;> simp

/-! ### Accesses to the window -/

theorem hostMove_write {o : Nat} (ho : o < 0x200) (ha : o % 4 = 0) (v : Word) (s : State) :
    hostMove (.write o 4 v) s = hostWrite o v s := by
  simp [hostMove, wordAccess, ha, Nat.not_le.2 ho]

theorem hostMove_read {o : Nat} (ho : o < 0x200) (ha : o % 4 = 0) (s : State) :
    hostMove (.read o 4) s = .next (hostRead o s) := by
  simp [hostMove, wordAccess, ha, Nat.not_le.2 ho]

/-- A write to a register other than CTRL, STATUS and CMD (70_reset_and_hazards.md R345). -/
theorem hostWrite_reg {o : Nat} {r : Reg} (h : regAt o = some r) (hr : r ∉ [Reg.ctrl, .status, .cmd]) (v : Word)
    (s : State) : hostWrite o v s =
      if s.blk.busy then .refused .hostWriteWhileBusy else .next { s with blk := s.blk.writeReg v r } := by
  unfold hostWrite
  rw [h]
  cases r <;> simp at hr ⊢

theorem mask_some_ne {r : Reg} {m : Word} (h : r.mask = some m) : r ∉ [Reg.ctrl, .status, .cmd] := by
  cases r <;> simp [Reg.mask] at h ⊢

theorem busy_false_iff {b : Block} : b.busy = false ↔ b.latch = none := by simp [Block.busy]

/-- Settles O11: by the register map, a write reaches `writeReg`, which changes what its own register reads and no
other. -/
theorem writtenRegistersReadBack : Obligations.WrittenRegistersReadBack := by
  unfold Obligations.WrittenRegistersReadBack
  refine ⟨fun s o m v hw hl => ?_, fun s o v ho ha hl hn hw => ?_⟩
  · obtain ⟨ho, ha, r, hr, hm⟩ := regAt_of_writable hw
    obtain ⟨latch, status, dec, lay, gl⟩ := writeReg_frame s.blk v r
    refine ⟨s.blk.writeReg v r, ?_, ?_, fun q hq hne => ?_, latch.trans hl, status, lay, dec, gl⟩
    · rw [hostMove_write ho ha, hostWrite_reg hr (mask_some_ne hm), busy_false_iff.2 hl]
      rfl
    · rw [readOffset_of_regAt hr, readReg_writeReg_same hm]
    · cases hq : regAt q with
      | none => simp only [Block.readOffset, hq]
      | some r' =>
        have : r' ≠ r := fun e => hne ((offset_of_regAt hq).symm.trans (e ▸ offset_of_regAt hr))
        rw [readOffset_of_regAt hq, readOffset_of_regAt hq, readReg_writeReg_other this]
  · rw [hostMove_write ho ha]
    cases hr : regAt o with
    | none => simp only [hostWrite, hr]
    | some r =>
      have hne : r ∉ [Reg.ctrl, .status, .cmd] := by
        rintro hm
        have := offset_of_regAt hr
        simp only [List.mem_cons, List.not_mem_nil, or_false] at hm
        rcases hm with rfl | rfl | rfl <;> subst this <;> exact hn (by decide)
      rw [hostWrite_reg hr hne, busy_false_iff.2 hl, writeReg_readOnly (mask_none_of_not_writable hr hw)]
      rfl

/-! ### Words that the block assembles -/

/-- Fields side by side are a sum. -/
theorem toNat_append_add {m n : Nat} (x : BitVec m) (y : BitVec n) : (x ++ y).toNat = x.toNat * 2 ^ n + y.toNat := by
  rw [BitVec.toNat_append, ← Nat.shiftLeft_add_eq_or_of_lt y.isLt, Nat.shiftLeft_eq]

theorem toNat_bit (b : Bool) : (bit b).toNat = b.toNat := BitVec.toNat_ofBool b

/-- STATUS (10_state.md R35). -/
theorem statusWord_toNat (b : Block) :
    b.statusWord.toNat = b.busy.toNat + 2 * b.status.fault.toNat + b.status.code.toNat * 2 ^ 8 := by
  unfold Block.statusWord
  simp only [toNat_append_add, toNat_bit]
  simp
  omega

/-- LS_FLAGS (10_state.md R51). -/
theorem flagsWord_toNat (l : Layout) :
    l.flagsWord.toNat = l.active.toNat + 2 * l.bbValid.toNat + 4 * l.done.toNat := by
  unfold Layout.flagsWord
  simp only [toNat_append_add, toNat_bit]
  simp
  omega

theorem statusWord_reserved (b : Block) : b.statusWord &&& 0xFFFF00FC = 0 := by
  refine BitVec.eq_of_getLsbD_eq fun k hk => ?_
  rw [BitVec.getLsbD_and]
  unfold Block.statusWord
  simp only [BitVec.getLsbD_append]
  interval_cases k <;> simp

theorem flagsWord_reserved (l : Layout) : l.flagsWord &&& 0xFFFFFFF8 = 0 := by
  refine BitVec.eq_of_getLsbD_eq fun k hk => ?_
  rw [BitVec.getLsbD_and]
  unfold Layout.flagsWord
  simp only [BitVec.getLsbD_append]
  interval_cases k <;> simp

/-! ### Reads -/

/-- The offsets of the registers that hold results of commands (70_reset_and_hazards.md R347). -/
def resultOffsets : List Nat :=
  [0x014, 0x018, 0x060, 0x064, 0x068, 0x06C, 0x070, 0x074, 0x078, 0x07C, 0x080, 0x090, 0x094, 0x098, 0x09C, 0x0A0,
    0x0A4, 0x0A8]

theorem mem_resultOffsets_iff {o : Nat} : o ∈ resultOffsets ↔ ∃ r, regAt o = some r ∧ r.holdsResult = true := by
  have listed : ∀ o ∈ resultOffsets, (regAt o).any Reg.holdsResult = true := by decide +kernel
  have all : ∀ o < 0x200, (regAt o).any Reg.holdsResult = true → o ∈ resultOffsets := by decide +kernel
  refine ⟨fun h => (Option.any_eq_true _ _).1 (listed o h), fun ⟨r, h, hr⟩ => all o (regAt_lt h) ?_⟩
  rw [h]
  exact hr

theorem regAt_status_iff {o : Nat} : regAt o = some .status ↔ o = 0x008 :=
  ⟨fun h => (offset_of_regAt h).symm, fun h => h ▸ rfl⟩

/-- What a read returns while BUSY = 0 (70_reset_and_hazards.md R347). -/
theorem readValue_of_idle {s : State} (hb : s.blk.busy = false) (o : Nat) :
    s.readValue o = if s.pending.registers = true ∧ o ∈ resultOffsets then Config.freeWord s.seen.length
      else s.blk.readOffset o := by
  unfold State.readValue Block.readOffset
  simp only [mem_resultOffsets_iff, hb, Bool.false_or, Bool.and_eq_true]
  cases regAt o with
  | none => simp
  | some r => cases r <;> simp [Reg.holdsResult, Block.readReg]

/-- Settles O10: a read answers the register's value, or a free value while it holds a pending result; what each
register's value is follows from the register map and the sums of the flag words. -/
theorem readOnlyRegistersShowTheState : Obligations.ReadOnlyRegistersShowTheState := by
  unfold Obligations.ReadOnlyRegistersShowTheState
  refine ⟨fun s o hl ho ha => ?_, fun b => ?_⟩
  · intro results
    have hb := busy_false_iff.2 hl
    rw [hostMove_read ho ha, hostRead_eq, readValue_of_idle hb]
    simp [hb, regAt_status_iff, results, resultOffsets, Bool.or_comm]
  · refine ⟨rfl, rfl, rfl, ?_, rfl, rfl, rfl, rfl, rfl, rfl, rfl, rfl, rfl, rfl, rfl, ?_, rfl, rfl, rfl, rfl, rfl, rfl,
      rfl⟩
    · rw [show b.readOffset 0x008 = b.statusWord from rfl, statusWord_toNat, Block.busy]
      cases b.latch <;> cases b.status.fault <;> simp
    · rw [show b.readOffset 0x080 = b.lay.flagsWord from rfl, flagsWord_toNat]
      cases b.lay.active <;> cases b.lay.bbValid <;> cases b.lay.done <;> rfl

/-! ### Reserved offsets, reserved bits and narrow accesses -/

/-- A reserved offset reads 0 and ignores writes, whatever BUSY is (10_state.md R32). -/
theorem reserved_access {o : Nat} (h : reservedOffset o) (v : Word) (s : State) :
    s.blk.readOffset o = 0 ∧
      hostMove (.read o 4) s = .next { s with seen := .register o 0 :: s.seen } ∧
      hostMove (.write o 4 v) s = .next s := by
  obtain ⟨ho, ha, hr⟩ := regAt_of_reserved h
  rw [hostMove_read ho ha, hostMove_write ho ha, hostRead_eq]
  simp [Block.readOffset, State.readValue, hostWrite, hr]

/-- Only the bits of a register that are not reserved decide what a write does. -/
theorem hostWrite_mask {o : Nat} {m : Word}
    (h : (o, m) ∈ writableRegs ∨ (o = 0x004 ∧ m = 0x1) ∨ (o = 0x008 ∧ m = 0x2)) (v : Word) (s : State) :
    hostMove (.write o 4 v) s = hostMove (.write o 4 (v &&& m)) s := by
  rcases h with h | ⟨rfl, rfl⟩ | ⟨rfl, rfl⟩
  · obtain ⟨ho, ha, r, hr, hm⟩ := regAt_of_writable h
    have hne := mask_some_ne hm
    rw [hostMove_write ho ha, hostMove_write ho ha, hostWrite_reg hr hne, hostWrite_reg hr hne, writeReg_mask hm]
  · have ctrl : ∀ v, hostMove (.write 0x004 4 v) s = .next (if v.getLsbD 0 then softReset s else s) := fun _ => rfl
    have bit : (v &&& 0x1).getLsbD 0 = v.getLsbD 0 := by simp
    rw [ctrl, ctrl, bit]
  · have status : ∀ v, hostMove (.write 0x008 4 v) s = if s.blk.busy then .refused .hostWriteWhileBusy
        else .next (if v.getLsbD 1 then clearFault s else s) := fun _ => rfl
    have bit : (v &&& 0x2).getLsbD 1 = v.getLsbD 1 := by simp
    rw [status, status, bit]

/-- Settles O12: the register map has nothing at a reserved offset; a register keeps only the bits of its mask; the flag
words are put together with 0 in their reserved bits. -/
theorem reservedSpaceAndAccessWidth : Obligations.ReservedSpaceAndAccessWidth := by
  unfold Obligations.ReservedSpaceAndAccessWidth
  refine ⟨fun s o v h => reserved_access h v s, fun s o m v h => hostWrite_mask h v s, fun s hs => ⟨fun o m h => ?_,
    statusWord_reserved s.blk, flagsWord_reserved s.blk.lay, hs.blk.glInfo⟩, fun s o width v ho hn => ?_⟩
  · obtain ⟨-, -, r, hr, hm⟩ := regAt_of_writable h
    rw [readOffset_of_regAt hr]
    exact readReg_reserved hs.blk hm
  · have narrow : wordAccess o width = false := by simpa [wordAccess] using hn
    simp [hostMove, narrow, Nat.not_le.2 ho]

/-! ### The command register -/

/-- Settles O13: a CMD write is `issueCommand` unless a command is in flight. -/
theorem commandWriteLatchesOrIsDropped : Obligations.CommandWriteLatchesOrIsDropped := by
  unfold Obligations.CommandWriteLatchesOrIsDropped
  intro s w
  have move : hostMove (.write 0x010 4 w) s =
      if s.blk.busy then .refused .hostWriteWhileBusy else .next (issueCommand w s) := rfl
  refine ⟨rfl, fun hl hf => ⟨_, ?_, rfl, rfl⟩, fun hl hf => ?_, fun hl => ?_⟩
  · simp [move, busy_false_iff.2 hl, issueCommand, hf]
  · simp [move, busy_false_iff.2 hl, issueCommand, hf]
  · rw [move, if_pos (by simpa [Block.busy, Option.isSome_iff_ne_none] using hl)]

end Sys2Proof.Machine
end

section
/-! SUPPORT. The host's stores and loads (20_memory.md R93; logs 12, 22, 30), and O16. -/

namespace Sys2Proof.Machine

theorem inWindow_iff {p : Platform} {a : Word} : p.inWindow a = true ↔ (a - p.blockBase).toNat < 0x200 :=
  decide_eq_true_iff

theorem add_mem_accessBytes (a : Word) {j n : Nat} (h : j < n) : a + BitVec.ofNat 32 j ∈ accessBytes a n :=
  List.mem_map.2 ⟨j, List.mem_range.2 h, rfl⟩

/-! ### What a host access answers -/

section HostMemory
variable {a : Word} {n : Nat} {f : State → State} {s : State}

theorem hostMemory_of_window (h : ∃ c ∈ accessBytes a n, s.platform.inWindow c = true) :
    hostMemory a n f s = .refused .narrowRegisterAccess := if_pos (List.any_eq_true.2 h)

theorem hostMemory_outside (hw : ∀ c ∈ accessBytes a n, s.platform.inWindow c = false) :
    hostMemory a n f s = if (accessBytes a n).any s.mayUse then .fault .hostRace else .next (f s) :=
  if_neg (by simpa using hw)

theorem hostMemory_of_race (hw : ∀ c ∈ accessBytes a n, s.platform.inWindow c = false)
    (hu : ∃ c ∈ accessBytes a n, s.mayUse c = true) : hostMemory a n f s = .fault .hostRace := by
  rw [hostMemory_outside hw, if_pos (List.any_eq_true.2 hu)]

theorem hostMemory_of_apart (hw : ∀ c ∈ accessBytes a n, s.platform.inWindow c = false)
    (hu : ∀ c ∈ accessBytes a n, s.mayUse c = false) : hostMemory a n f s = .next (f s) := by
  rw [hostMemory_outside hw, if_neg (by simpa using hu)]

end HostMemory

theorem mayUse_of_command {s : State} {w : Word} {i : Instr} (hl : s.blk.latch = some w) (hd : decode w = .command i)
    (c : Word) : s.mayUse c = uses i s c := by simp [State.mayUse, hl, hd]

/-- Only a command in flight uses bytes. -/
theorem mayUse_false {s : State} {c : Word}
    (h : ∀ w i, s.blk.latch = some w → decode w = .command i → uses i s c = false) : s.mayUse c = false := by
  unfold State.mayUse
  split
  · rfl
  · next w hl =>
    split
    · rfl
    · next i hd => exact h w i hl hd

/-- Bytes stored are read back, as long as the last does not come around to the first (20_memory.md R81). -/
theorem byteAt_storeBytes (bs : List Byte) : ∀ {m : Memory} {a : Word} {k : Nat}, Memory.wf m = true →
    bs.length ≤ 2 ^ 32 → (hk : k < bs.length) → byteAt (storeBytes m a bs) (a + BitVec.ofNat 32 k) = bs[k] := by
  induction bs with
  | nil => intro m a k _ _ hk; cases hk
  | cons b rest ih =>
    intro m a k hm hn hk
    rw [List.length_cons] at hn hk
    rw [storeBytes]
    cases k with
    | zero =>
      have first : a ∉ accessBytes (a + 1#32) rest.length := by
        rw [mem_accessBytes]
        have : (a - (a + 1#32)).toNat = 2 ^ 32 - 1 := by bv_omega
        omega
      rw [BitVec.add_zero, byteAt_storeBytes_ne _ _ _ first, byteAt_setByte hm, if_pos rfl]
      rfl
    | succ k =>
      have next : a + BitVec.ofNat 32 (k + 1) = a + 1#32 + BitVec.ofNat 32 k := by
        rw [Nat.add_comm k, BitVec.ofNat_add, BitVec.add_assoc]
      rw [next, ih (setByte_wf hm a b) (by omega) (by omega)]
      rfl

theorem mem_overwrite_bytes {p : Pending} {l : List Word} {c : Word} :
    c ∈ (p.overwrite l).bytes ↔ c ∈ p.bytes ∧ c ∉ l := by simp [Pending.overwrite]

/-- Settles O16: an access that touches neither the register window nor a byte in use is its effect, and the effect of a
store is `storeBytes`, with its bytes no longer pending. -/
theorem hostStoresAndLoads : Obligations.HostStoresAndLoads := by
  unfold Obligations.HostStoresAndLoads
  refine ⟨fun s a bytes ⟨j, hj, hw⟩ => ?_, fun s a bytes hm hn hw hu => ?_⟩
  · have touched : ∃ c ∈ accessBytes a bytes.length, s.platform.inWindow c = true :=
      ⟨_, add_mem_accessBytes a hj, inWindow_iff.2 hw⟩
    exact ⟨hostMemory_of_window touched, hostMemory_of_window touched⟩
  · have outside : ∀ c ∈ accessBytes a bytes.length, s.platform.inWindow c = false := fun c hc => by
      rw [← Bool.not_eq_true, inWindow_iff]
      exact Nat.not_lt.2 (hw c hc)
    have unused : ∀ c ∈ accessBytes a bytes.length, s.mayUse c = false :=
      fun c hc => mayUse_false fun w i hl hd => hu w i hl hd c hc
    refine ⟨⟨_, _, hostMemory_of_apart outside unused, rfl, fun c => mem_overwrite_bytes,
      fun k hk => byteAt_storeBytes bytes hm hn hk, fun c hc => byteAt_storeBytes_ne bytes _ _ hc⟩, ?_⟩
    have loaded : s.loadBytes a bytes.length = (List.range bytes.length).map fun k =>
        if a + BitVec.ofNat 32 k ∈ s.pending.bytes then Config.freeLoad s.seen.length k
        else byteAt s.mem (a + BitVec.ofNat 32 k) := by
      simp [State.loadBytes, State.loadByte]
    rw [← loaded]
    exact hostMemory_of_apart outside unused

end Sys2Proof.Machine
end

section
/-! SUPPORT. A drawing command is two checks and one drawing: what it answers from what its drawing does, and O42. -/

namespace Sys2Proof.Machine

/-! ### Two checks and one drawing -/

/-- The commands that draw pixels from the registers alone (41_pixel.md R170, R172, R173; 42_raster.md R190 to R193). -/
def drawingCommands : List Instr := [.setpix, .hrun, .vrun, .fill, .fillrect, .rectout, .line]

/-- The check that a drawing command makes after SurfCheck (41_pixel.md R169, R170; 42_raster.md R191 to R193). -/
def argumentCheck (i : Instr) (s : State) : Except Stop Unit :=
  let sf := s.blk.surf
  let g := s.blk.args
  match i with
  | .setpix => pixelCheck sf 0x01 g.x0 g.y0
  | .hrun => runCheckH sf 0x03 g.x0 g.y0 g.x1
  | .vrun => runCheckV sf 0x04 g.x0 g.y0 g.x1
  | .fillrect => rectCheck sf g.x0 g.y0 g.x1 g.y1
  | .rectout => rectoutCheck sf g.x0 g.y0 g.x1 g.y1
  | .line => pixelCheck sf 0x0B g.x0 g.y0 >>= fun _ => pixelCheck sf 0x0B g.x1 g.y1
  | _ => .ok ()

/-- What a drawing command draws: SETPIX its pixel, any other the pixels of its list. -/
def drawingOf (i : Instr) (s : State) : Draw Unit :=
  if i = .setpix then putPix s.platform s.blk.surf s.blk.args.value s.blk.args.x0 s.blk.args.y0
  else drawPixels s.platform s.blk.surf s.blk.args.value (drawnList i s)

/-- Checks one after the other are one check. -/
theorem check_bind_assoc {α β γ : Type} (x : Except Stop α) (f : α → Except Stop β) (g : β → Engine γ) :
    (check (x >>= f) >>= g) = (check x >>= fun a => check (f a) >>= g) := by
  cases x <;> rfl

theorem drawing_body {i : Instr} (hi : i ∈ drawingCommands) (w : Work) :
    bodyOf i w = (check (surfCheck w.st.blk.surf) >>= fun _ => check (argumentCheck i w.st) >>= fun _ =>
      draw (drawingOf i w.st)) w := by
  cases i with
  | setpix | hrun | vrun | fill | fillrect | rectout => rfl
  | line =>
    simp only [argumentCheck, check_bind_assoc]
    rfl
  | _ => exact absurd hi (by decide)

theorem argumentCheck_among {i : Instr} {s : State} {e : Stop} (h : argumentCheck i s = .error e) : e.among [3] := by
  cases i with
  | setpix => exact pixelCheck_among h (by decide)
  | hrun => exact runCheckH_among h (by decide)
  | vrun => exact runCheckV_among h (by decide)
  | fillrect => exact rectCheck_among h (by decide)
  | rectout => exact rectoutCheck_among h (by decide)
  | line =>
    rcases except_bind_error_iff.1 h with h | ⟨_, -, h⟩
    · exact pixelCheck_among h (by decide)
    · exact pixelCheck_among h (by decide)
  | _ => cases h

/-- A drawing command whose checks are passed is its drawing: SETPIX here, the others by `drawing_run`. -/
theorem drawing_checked {i : Instr} {s : State} (hi : i ∈ drawingCommands) (hs : surfCheck s.blk.surf = .ok ())
    (hb : ¬ badArguments i s) :
    bodyOf i { st := s, wrote := [] } = draw (drawingOf i s) { st := s, wrote := [] } := by
  by_cases hset : i = .setpix
  · subst hset
    have inside : argumentCheck .setpix s = .ok () := if_pos (inBounds_iff.2 (not_not.1 hb))
    rw [drawing_body hi]
    dsimp only
    rw [hs, inside]
    rfl
  · rw [drawing_run (List.mem_of_ne_of_mem hset hi) hs hb, drawingOf, if_neg hset]

/-! ### What its drawing does -/

/-- What a command draws on when it starts. -/
def State.canvas (s : State) : Canvas := { mem := s.mem, draws := s.draws, wrote := [] }

/-- The state after drawing. -/
def State.drawn (s : State) (c : Canvas) : State := { s with mem := c.mem, draws := c.draws }

/-- The bytes in which the pixels of a drawing command are written. -/
def drawnBytes (i : Instr) (s : State) : List Word :=
  (drawnList i s).flatMap fun q => pixBytes s.platform s.blk.surf q.1 q.2

theorem mem_drawnBytes {i : Instr} {s : State} {a : Word} :
    a ∈ drawnBytes i s ↔ ∃ x y, drawnSet i s x y ∧ a ∈ pixBytes s.platform s.blk.surf x y := by
  simp only [drawnBytes, List.mem_flatMap, Prod.exists, mem_drawnList]

theorem not_mem_drawnBytes {i : Instr} {s : State} {a : Word}
    (h : ∀ x y, drawnSet i s x y → a ∉ pixBytes s.platform s.blk.surf x y) : a ∉ drawnBytes i s := fun ha => by
  obtain ⟨x, y, hxy, hin⟩ := mem_drawnBytes.1 ha
  exact h x y hxy hin

/-- A drawing writes only the bytes of its pixels, whatever ends it. -/
theorem drawingOf_ends (i : Instr) (s : State) :
    DrawEnds (Writes (drawnBytes i s)) Stop.isAccess (drawingOf i s) := by
  unfold drawingOf
  split
  · next hset =>
    subst hset
    exact (putPix_ends _ _ _ _ _).mono (fun h => h.mono fun a ha => mem_drawnBytes.2 ⟨_, _, ⟨rfl, rfl⟩, ha⟩) id
  · exact drawPixels_ends _ _ _ _

/-- A drawing stops where the first access of its pixels does, in their order, that does not take place
(20_memory.md R82). -/
theorem drawingOf_stop (i : Instr) (s : State) (c : Canvas) :
    stopOf (drawingOf i s c) =
      (drawnList i s).findSome? fun q => firstStop s.platform (s.blk.surf.putAccesses q.1 q.2) := by
  unfold drawingOf
  split
  · next hset =>
    subst hset
    rw [putPix_stop, drawnList, List.findSome?_singleton]
  · exact drawPixels_stop _ _ _ _

/-- PutPix on each pixel of the list, undisturbed, is the drawing. -/
theorem drawingOf_of_putPixels {i : Instr} {s : State} {c c' : Canvas}
    (h : putPixels s.platform s.blk.surf s.blk.args.value (drawnList i s) c = .ok () c') :
    drawingOf i s c = .ok () c' := by
  unfold drawingOf
  split
  · next hset =>
    subst hset
    obtain ⟨_, _, hput, hrest⟩ := bind_ok_iff.1 h
    cases hrest
    exact hput
  · exact drawPixels_ok h

/-! ### What the command answers -/

section Answers
variable {i : Instr} {s : State} {c : Canvas} (hi : i ∈ drawingCommands) (hs : surfCheck s.blk.surf = .ok ())
  (hb : ¬ badArguments i s)
include hi hs hb

theorem exec_drawing_ok (h : drawingOf i s s.canvas = .ok () c) : exec i s = .next (complete (s.drawn c)) := by
  rw [exec_eq]
  exact finish_ok ((drawing_checked hi hs hb).trans (draw_ok_iff.2 ⟨c, h, rfl⟩))

theorem exec_drawing_raise {cause : Cause} (h : drawingOf i s s.canvas = .error (.raise cause) c) :
    exec i s = .next (raiseFault cause (s.drawn c)) := by
  rw [exec_eq]
  exact finish_raise ((drawing_checked hi hs hb).trans (draw_error_iff.2 ⟨c, h, rfl⟩))

theorem exec_drawing_refuse {r : Refusal} (h : drawingOf i s s.canvas = .error (.refuse r) c) :
    exec i s = .refused r := by
  rw [exec_eq]
  exact finish_refuse ((drawing_checked hi hs hb).trans (draw_error_iff.2 ⟨c, h, rfl⟩))

end Answers

/-- What a drawing command that answers a next state has done: it failed a check, and changed nothing but the fault bits,
or it drew, to the end or to a BusError. -/
theorem drawing_next {i : Instr} {s t : State} (hi : i ∈ drawingCommands) (h : exec i s = .next t) :
    (∃ cause : Cause, (cause.code.toNat = 2 ∨ cause.code.toNat = 3) ∧ t = raiseFault cause s) ∨
      ∃ c, Writes (drawnBytes i s) s.canvas c ∧
        ((drawingOf i s s.canvas = .ok () c ∧ t = complete (s.drawn c)) ∨
          ∃ a, drawingOf i s s.canvas = .error (.raise (.busError a)) c ∧
            t = raiseFault (.busError a) (s.drawn c)) := by
  have ends := drawingOf_ends i s s.canvas
  rw [exec_eq, finish_next_iff, drawing_body hi] at h
  rcases h with ⟨w, hw, rfl⟩ | ⟨cause, w, hw, rfl⟩
  · obtain ⟨_, _, h1, hw⟩ := bind_ok_iff.1 hw
    obtain ⟨-, rfl⟩ := check_ok_iff.1 h1
    obtain ⟨_, _, h2, hw⟩ := bind_ok_iff.1 hw
    obtain ⟨-, rfl⟩ := check_ok_iff.1 h2
    obtain ⟨c, hd, rfl⟩ := draw_ok_iff.1 hw
    replace hd : drawingOf i s s.canvas = .ok () c := hd
    rw [hd] at ends
    exact .inr ⟨c, ends, .inl ⟨hd, rfl⟩⟩
  · rcases bind_error_iff.1 hw with h1 | ⟨_, _, h1, hw⟩
    · obtain ⟨he, rfl⟩ := check_error_iff.1 h1
      have code : (Stop.raise cause).among [2] := surfCheck_among he (by decide)
      exact .inl ⟨cause, .inl (List.mem_singleton.1 code), rfl⟩
    · obtain ⟨-, rfl⟩ := check_ok_iff.1 h1
      rcases bind_error_iff.1 hw with h2 | ⟨_, _, h2, hw⟩
      · obtain ⟨he, rfl⟩ := check_error_iff.1 h2
        have code : (Stop.raise cause).among [3] := argumentCheck_among he
        exact .inl ⟨cause, .inr (List.mem_singleton.1 code), rfl⟩
      · obtain ⟨-, rfl⟩ := check_ok_iff.1 h2
        obtain ⟨c, hd, rfl⟩ := draw_error_iff.1 hw
        replace hd : drawingOf i s s.canvas = .error (.raise cause) c := hd
        rw [hd] at ends
        obtain ⟨writes, access⟩ := ends
        cases cause with
        | busError a => exact .inr ⟨c, writes, .inr ⟨a, hd, rfl⟩⟩
        | _ => exact access.elim

/-- Settles O42: `drawing_next`, since a drawing writes only the bytes of its pixels, whatever ends it. -/
theorem drawingStaysInItsBytes : Obligations.DrawingStaysInItsBytes := by
  unfold Obligations.DrawingStaysInItsBytes
  intro i s t hi h
  rcases drawing_next hi h with ⟨cause, -, rfl⟩ | ⟨c, writes, ⟨-, rfl⟩ | ⟨a, -, rfl⟩⟩
  · exact ⟨rfl, fun _ _ => rfl⟩
  · exact ⟨rfl, fun a ha => writes.frame a (not_mem_drawnBytes ha)⟩
  · exact ⟨rfl, fun a ha => writes.frame a (not_mem_drawnBytes ha)⟩

end Sys2Proof.Machine
end

section
/-! SUPPORT. Where no 8-bit write is honoured, a drawing only frees halfwords (20_memory.md R86), and O34. -/

namespace Sys2Proof.Machine

/-- From `c` to `c'` each of the bytes took a free value, and nothing else was written. -/
structure Frees (bytes : List Word) (c c' : Canvas) : Prop where
  writes : Writes bytes c c'
  free : ∀ a ∈ bytes, ∃ k, c.draws ≤ k ∧ byteAt c'.mem a = Config.freeByte k

theorem Frees.refl (c : Canvas) : Frees [] c c := ⟨Writes.refl _ c, fun _ ha => nomatch ha⟩

theorem Frees.append {bytes more : List Word} {c c' c'' : Canvas} (h : Frees bytes c c') (h' : Frees more c' c'') :
    Frees (bytes ++ more) c c'' where
  writes := (h.writes.mono fun _ => List.mem_append_left _).trans (h'.writes.mono fun _ => List.mem_append_right _)
  free a ha := by
    by_cases hm : a ∈ more
    · obtain ⟨k, hk, e⟩ := h'.free a hm
      exact ⟨k, h.writes.draws.trans hk, e⟩
    · obtain ⟨k, hk, e⟩ := h.free a ((List.mem_append.1 ha).resolve_right hm)
      exact ⟨k, hk, (h'.writes.frame a hm).trans e⟩

theorem freeBytes_frees (bytes : List Word) {c : Canvas} (hm : Memory.wf c.mem = true) :
    Frees bytes c (freeBytes bytes c) := ⟨freeBytes_writes bytes c, fun _ => freeBytes_free bytes hm⟩

/-- An 8-bit write takes place at the byte and is not honoured there (20_memory.md R86). -/
def Platform.ignoresByte (p : Platform) (a : Word) : Prop :=
  p.byteWriteOk a = false ∧ p.serves a 1 .write = true

theorem writtenBytes_of_ignored {p : Platform} {a : Word} (h : p.byteWriteOk a = false) :
    writtenBytes p a 1 = halfwordBytes a := if_pos ⟨rfl, h⟩

theorem memWrite_of_ignored {p : Platform} {a : Word} (h : p.ignoresByte a) (v : Word) (c : Canvas) :
    memWrite p a 1 v c = .ok () (freeBytes (halfwordBytes a) c) := by
  rw [memWrite_of_serves h.2, if_pos ⟨rfl, h.1⟩]

theorem memWrite_frees {p : Platform} {a : Word} (h : p.ignoresByte a) (v : Word) {c : Canvas}
    (hm : Memory.wf c.mem = true) :
    ∃ c', memWrite p a 1 v c = .ok () c' ∧ Frees (writtenBytes p a 1) c c' :=
  ⟨_, memWrite_of_ignored h v c, writtenBytes_of_ignored h.1 ▸ freeBytes_frees _ hm⟩

/-! ### Surfaces written in 8-bit writes -/

/-- A legal surface that is written in 8-bit writes: 4, 8 or 24 bits per pixel, without VRAM16 (41_pixel.md R167). -/
structure Surface.ByteWritten (sf : Surface) : Prop where
  bpp : sf.bpp = 4 ∨ sf.bpp = 8 ∨ sf.bpp = 24
  narrow : sf.vram16 = false

theorem Surface.Legal.byteWritten {sf : Surface} (h : sf.Legal) (hv : sf.vram16 = false) (h2 : sf.fmt ≠ 2)
    (h4 : sf.fmt ≠ 4) : sf.ByteWritten := by
  refine ⟨?_, hv⟩
  unfold Surface.bpp
  rcases h.format with ⟨-, hf | hf⟩ | ⟨-, hf | hf | ⟨hf, -⟩ | hf⟩
  · exact .inl (by simp [hf])
  · exact .inr (.inl (by simp [hf]))
  · exact .inr (.inl (by simp [hf]))
  · exact absurd hf h2
  · exact .inr (.inr (by simp [hf]))
  · exact absurd hf h4

section ByteWritten
variable {p : Platform} {sf : Surface} {x y : Nat}

theorem pixelBytes_single (hb : sf.bpp = 4 ∨ sf.bpp = 8) : sf.pixelBytes x y = [(sf.pixAddr x y).1] := by
  rcases hb with hb | hb <;> simp [Surface.pixelBytes, Surface.unitBytes, hb, accessBytes_succ]

theorem pixelBytes_triple (hb : sf.bpp = 24) :
    sf.pixelBytes x y = [(sf.pixAddr x y).1, (sf.pixAddr x y).1 + 1#32, (sf.pixAddr x y).1 + 2#32] := by
  have e : (sf.pixAddr x y).1 + 1#32 + 1#32 = (sf.pixAddr x y).1 + 2#32 := by rw [BitVec.add_assoc]; rfl
  simp [Surface.pixelBytes, Surface.unitBytes, hb, accessBytes_succ, e]

/-- The bytes a pixel is written in are those that its 8-bit writes change, one write for each byte it lies in. -/
theorem pixBytes_of_byteWritten (h : sf.ByteWritten) :
    pixBytes p sf x y = (sf.pixelBytes x y).flatMap fun a => writtenBytes p a 1 := by
  obtain ⟨hb | hb | hb, hv⟩ := h
  · simp [pixBytes, hb, hv, pixelBytes_single (.inl hb)]
  · simp [pixBytes, hb, hv, pixelBytes_single (.inr hb)]
  · simp [pixBytes, hb, pixelBytes_triple hb]

/-- PutPix where none of its 8-bit writes is honoured (41_pixel.md R167). -/
theorem putPix_frees (h : sf.ByteWritten) (v : Word) {c : Canvas} (hm : Memory.wf c.mem = true)
    (hw : ∀ a ∈ sf.pixelBytes x y, p.ignoresByte a)
    (hr : sf.bpp = 4 → p.serves (sf.pixAddr x y).1 1 .read = true) :
    ∃ c', putPix p sf v x y c = .ok () c' ∧ Frees (pixBytes p sf x y) c c' := by
  obtain ⟨hb | hb | hb, hv⟩ := h
  · rw [pixelBytes_single (.inl hb), List.forall_mem_singleton] at hw
    simp only [putPix, pixBytes, hb, hv, Bool.false_eq_true, if_false]
    rw [run_bind_ok (drawRead_of_serves (hr hb) c)]
    exact memWrite_frees hw _ hm
  · rw [pixelBytes_single (.inr hb), List.forall_mem_singleton] at hw
    simp only [putPix, pixBytes, hb, hv, Bool.false_eq_true, if_false]
    exact memWrite_frees hw _ hm
  · simp only [pixelBytes_triple hb, List.forall_mem_cons] at hw
    obtain ⟨hw0, hw1, hw2, -⟩ := hw
    simp only [putPix, pixBytes, hb]
    obtain ⟨c0, e0, f0⟩ := memWrite_frees hw0 (v &&& pixelMask 24) hm
    obtain ⟨c1, e1, f1⟩ := memWrite_frees hw1 ((v &&& pixelMask 24) >>> 8) (f0.writes.wf hm)
    obtain ⟨c2, e2, f2⟩ := memWrite_frees hw2 ((v &&& pixelMask 24) >>> 16) (f1.writes.wf (f0.writes.wf hm))
    refine ⟨c2, ?_, (f0.append f1).append f2⟩
    rw [run_bind_ok e0, run_bind_ok e1, e2]

theorem putPixels_frees (h : sf.ByteWritten) (v : Word) : ∀ {l : List (Nat × Nat)} {c : Canvas},
    Memory.wf c.mem = true →
    (∀ q ∈ l, (∀ a ∈ sf.pixelBytes q.1 q.2, p.ignoresByte a) ∧
      (sf.bpp = 4 → p.serves (sf.pixAddr q.1 q.2).1 1 .read = true)) →
    ∃ c', putPixels p sf v l c = .ok () c' ∧ Frees (l.flatMap fun q => pixBytes p sf q.1 q.2) c c' := by
  intro l
  induction l with
  | nil => exact fun {c} _ _ => ⟨c, rfl, Frees.refl c⟩
  | cons q rest ih =>
    intro c hm hl
    rw [List.forall_mem_cons] at hl
    obtain ⟨⟨hw, hr⟩, hrest⟩ := hl
    obtain ⟨c1, e1, f1⟩ := putPix_frees h v hm hw hr
    obtain ⟨c2, e2, f2⟩ := ih (f1.writes.wf hm) hrest
    refine ⟨c2, ?_, f1.append f2⟩
    rw [putPixels, forEach_cons, e1]
    exact e2

end ByteWritten

theorem mem_halfwordBytes {a b : Word} :
    b ∈ halfwordBytes a ↔ b = a &&& 0xFFFFFFFE ∨ b = (a &&& 0xFFFFFFFE) + 1 := by
  simp only [halfwordBytes, List.mem_cons, List.not_mem_nil, or_false]
  rfl

theorem fmt_of_bpp_four {sf : Surface} (h : sf.bpp = 4) : sf.fmt = 0 := by
  unfold Surface.bpp at h
  split at h
  · assumption
  all_goals cases h

theorem fmt_of_bpp_24 {sf : Surface} (h : sf.bpp = 24) : sf.fmt = 3 := by
  unfold Surface.bpp at h
  split at h
  case h_4 => assumption
  all_goals cases h

/-- A drawing command on a surface written in 8-bit writes none of which is honoured. -/
theorem exec_drawing_frees {i : Instr} {s : State} (hi : i ∈ drawingCommands) (hm : Memory.wf s.mem = true)
    (hs : surfCheck s.blk.surf = .ok ()) (hb : ¬ badArguments i s) (hsf : s.blk.surf.ByteWritten)
    (hw : ∀ x y, drawnSet i s x y → ∀ a ∈ s.blk.surf.pixelBytes x y, s.platform.ignoresByte a ∧
      (s.blk.surf.bpp = 4 → s.platform.serves a 1 .read = true)) :
    ∃ c, exec i s = .next (complete (s.drawn c)) ∧ Frees (drawnBytes i s) s.canvas c := by
  obtain ⟨c, hc, frees⟩ := putPixels_frees (c := s.canvas) (l := drawnList i s) hsf s.blk.args.value hm
    fun q hq => by
      have hq := hw q.1 q.2 (mem_drawnList.1 hq)
      exact ⟨fun a ha => (hq a ha).1, fun h4 =>
        (hq _ (by rw [pixelBytes_single (.inl h4)]; exact List.mem_singleton.2 rfl)).2 h4⟩
  exact ⟨c, exec_drawing_ok hi hs hb (drawingOf_of_putPixels hc), frees⟩

theorem even_ne_odd (a : Word) : (a &&& 0xFFFFFFFE) + 1 ≠ a &&& 0xFFFFFFFE := by
  bv_omega

/-- Settles O34: each 8-bit write of the drawing only frees a halfword (`putPixels_frees`); for SETPIX at 8 bits the one
write is `freeBytes` of the two bytes. -/
theorem unhonouredByteWriteFreesTheHalfword : Obligations.UnhonouredByteWriteFreesTheHalfword := by
  unfold Obligations.UnhonouredByteWriteFreesTheHalfword
  refine ⟨fun i s hi hm hs hv h2 h4 hb hw => ?_, fun s hm hs ht hf hv hb => ?_⟩
  · have hsf := (surfCheck_ok_iff.1 hs).byteWritten hv h2 h4
    have ignored : ∀ x y, drawnSet i s x y → ∀ a ∈ s.blk.surf.pixelBytes x y, s.platform.ignoresByte a ∧
        (s.blk.surf.bpp = 4 → s.platform.serves a 1 .read = true) := fun x y hxy a ha => by
      obtain ⟨bad, write, read⟩ := hw x y hxy a ha
      exact ⟨⟨bad, write⟩, fun hb => read (fmt_of_bpp_four hb)⟩
    obtain ⟨c, hx, frees⟩ := exec_drawing_frees hi hm hs hb hsf ignored
    have drawn : ∀ b, b ∈ drawnBytes i s ↔ ∃ x y a, drawnSet i s x y ∧ a ∈ s.blk.surf.pixelBytes x y ∧
        (b = a &&& 0xFFFFFFFE ∨ b = (a &&& 0xFFFFFFFE) + 1) := fun b => by
      simp only [mem_drawnBytes, pixBytes_of_byteWritten hsf, List.mem_flatMap]
      constructor
      · rintro ⟨x, y, hxy, a, ha, hb⟩
        rw [writtenBytes_of_ignored (hw x y hxy a ha).1] at hb
        exact ⟨x, y, a, hxy, ha, mem_halfwordBytes.1 hb⟩
      · rintro ⟨x, y, a, hxy, ha, hb⟩
        refine ⟨x, y, hxy, a, ha, ?_⟩
        rw [writtenBytes_of_ignored (hw x y hxy a ha).1]
        exact mem_halfwordBytes.2 hb
    refine ⟨c.mem, c.draws, hx, fun x y a b hxy ha hab => frees.free b ((drawn b).2 ⟨x, y, a, hxy, ha, hab⟩),
      fun b hb => frees.writes.frame b fun hin => ?_⟩
    obtain ⟨x, y, a, hxy, ha, hab⟩ := (drawn b).1 hin
    obtain ⟨h0, h1⟩ := hb x y a hxy ha
    exact hab.elim h0 h1
  · intro a even served bad
    have addr : (s.blk.surf.pixAddr s.blk.args.x0 s.blk.args.y0).1 = a := by
      simp [Surface.pixAddr, ht, Surface.linearOffset, Surface.bpp, hf, a]
    have put : drawingOf .setpix s s.canvas = .ok () (freeBytes (halfwordBytes a) s.canvas) := by
      simp only [drawingOf, if_true, putPix, Surface.bpp, hf, hv, addr]
      exact memWrite_of_ignored ⟨bad, served⟩ _ _
    have fresh : even + 1 ≠ even := even_ne_odd a
    refine ⟨_, exec_drawing_ok (by decide) hs hb put, ?_, ?_, fun c h0 h1 => ?_⟩
    · show byteAt (setByte (setByte s.mem even (Config.freeByte s.draws)) (even + 1) _) even = _
      rw [byteAt_setByte_ne _ _ fresh.symm, byteAt_setByte hm, if_pos rfl]
    · show byteAt (setByte (setByte s.mem even (Config.freeByte s.draws)) (even + 1) _) (even + 1) = _
      rw [byteAt_setByte (setByte_wf hm _ _), if_pos rfl]
      rfl
    · refine (freeBytes_writes (halfwordBytes a) s.canvas).frame c fun hc => ?_
      exact (mem_halfwordBytes.1 hc).elim h0 h1

end Sys2Proof.Machine
end

section
/-! SUPPORT. BusError in the drawing commands: which access it reports, and what it leaves (20_memory.md R90; logs 7, 8,
15), and O41. -/

namespace Sys2Proof.Machine

theorem firstStop_cons (p : Platform) (q : Access) (l : List Access) :
    firstStop p (q :: l) = (q.stop p).or (firstStop p l) := by
  simp only [firstStop, List.findSome?_cons]
  cases q.stop p <;> rfl

theorem firstStop_append (p : Platform) (l l' : List Access) :
    firstStop p (l ++ l') = (firstStop p l).or (firstStop p l') := by
  simp [firstStop, List.findSome?_append]

theorem Access.stop_of_not_admitted {p : Platform} {q : Access} (h : p.admits q.addr q.bytes q.kind = false) :
    q.stop p = some (.raise (.busError q.addr)) := by
  rw [Access.stop, access_of_not_admitted h]

/-- Accesses of which the platform refuses one, those before it being served, stop with BusError and its address. -/
theorem firstStop_of_firstRefused {p : Platform} {l : List Access} {a : Word} (h : p.firstRefused l a) :
    firstStop p l = some (.raise (.busError a)) := by
  obtain ⟨before, q, rest, rfl, rfl, served, refused⟩ := h
  rw [firstStop_append, firstStop_none_iff.2 served, firstStop_cons, Access.stop_of_not_admitted refused]
  rfl

theorem stopOf_error_iff {α : Type} {r : EStateM.Result Stop Canvas α} {e : Stop} :
    stopOf r = some e ↔ ∃ c, r = .error e c := by
  cases r <;> simp [stopOf]

theorem stopOf_none_iff {r : EStateM.Result Stop Canvas Unit} : stopOf r = none ↔ ∃ c, r = .ok () c := by
  cases r <;> simp [stopOf]

/-! ### A pixel that stops -/

/-- Where the drawing stops, it has changed nothing. -/
def StopsClean (d : Draw Unit) : Prop := ∀ {c c' e}, d c = .error e c' → c' = c

section StoppedPixel
variable {p : Platform} {sf : Surface} {v : Word} {x y : Nat} {c : Canvas}

theorem memWrite_stopsClean (a : Word) (n : Nat) (v : Word) : StopsClean (memWrite p a n v) := fun {c c' e} h => by
  cases ha : access p a n .write with
  | error r => rw [memWrite_of_error ha] at h; cases h; rfl
  | ok u => rw [memWrite_of_serves (access_ok_iff.1 ha)] at h; cases h

theorem readWrite_stopsClean (a b : Word) (n m : Nat) (f : Word → Word) :
    StopsClean (drawRead p a n >>= fun old => memWrite p b m (f old)) := fun {c c' e} h => by
  rw [run_bind, drawRead_eq] at h
  cases hr : memRead p c.mem a n with
  | error r => rw [hr] at h; cases h; rfl
  | ok old => rw [hr] at h; exact memWrite_stopsClean _ _ _ h

/-- A pixel that is not of 24 bits is written at once (41_pixel.md R167). -/
theorem putPix_stopsClean (hf : sf.fmt ≠ 3) : StopsClean (putPix p sf v x y) := by
  unfold putPix mergeHalfword
  dsimp only
  split
  · exact memWrite_stopsClean _ _ _
  · next h24 => exact absurd (fmt_of_bpp_24 h24) hf
  · exact memWrite_stopsClean _ _ _
  · split
    · exact readWrite_stopsClean _ _ _ _ _
    · exact memWrite_stopsClean _ _ _
  · split <;> exact readWrite_stopsClean _ _ _ _ _

/-- A 24-bit pixel that stops at its access `q`, its writes before being served and honoured, has made these writes. -/
theorem putPix_stopped_24 (hf : sf.fmt = 3) {before rest : List Access} {q : Access}
    (hl : sf.putAccesses x y = before ++ q :: rest)
    (hb : ∀ r ∈ before, p.serves r.addr r.bytes r.kind = true ∧ (r.kind = .write → p.byteWriteOk r.addr = true))
    (hq : p.admits q.addr q.bytes q.kind = false) :
    ∃ wrote, putPix p sf v x y c = .error (.raise (.busError q.addr))
      ⟨writeLE c.mem (sf.pixAddr x y).1 before.length (v &&& pixelMask 24), c.draws, wrote⟩ := by
  have write : ∀ {a : Word}, (p.serves a 1 .write = true ∧ (AccessKind.write = .write → p.byteWriteOk a = true)) →
      ∀ (v : Word) (c : Canvas), memWrite p a 1 v c = .ok () ⟨writeLE c.mem a 1 v, c.draws, accessBytes a 1 ++ c.wrote⟩ :=
    fun h v c => memWrite_exact h.1 (fun _ => h.2 rfl) c
  have stop : ∀ {a : Word}, p.admits a 1 .write = false →
      ∀ (v : Word) (c : Canvas), memWrite p a 1 v c = .error (.raise (.busError a)) c :=
    fun h v c => memWrite_of_error (access_of_not_admitted h) c
  have bpp : sf.bpp = 24 := by simp [Surface.bpp, hf]
  simp only [Surface.putAccesses, hf] at hl
  simp only [putPix, bpp]
  match before, hl, hb with
  | [], hl, hb =>
    cases hl
    exact ⟨_, run_bind_error (stop hq _ _)⟩
  | [r], hl, hb =>
    cases hl
    have h0 := write (hb _ (List.mem_cons_self ..))
    exact ⟨_, (run_bind_ok (h0 _ _)).trans (run_bind_error (stop hq _ _))⟩
  | [r, r'], hl, hb =>
    cases hl
    have h0 := write (hb _ (List.mem_cons_self ..))
    have h1 := write (hb _ (List.mem_cons_of_mem _ (List.mem_cons_self ..)))
    exact ⟨_, (run_bind_ok (h0 _ _)).trans ((run_bind_ok (h1 _ _)).trans (stop hq _ _))⟩
  | r :: r' :: r'' :: more, hl, _ => simp at hl

end StoppedPixel

/-- Byte `j` of a 24-bit pixel, as it is written. -/
theorem pixel24_byte (v : Word) {j : Nat} (hj : j < 3) :
    ((v &&& pixelMask 24) >>> (8 * j)).setWidth 8 = v.extractLsb' (8 * j) 8 := by
  apply BitVec.eq_of_getLsbD_eq
  intro k hk
  rw [BitVec.getLsbD_setWidth, BitVec.getLsbD_ushiftRight, getLsbD_and_pixelMask, BitVec.getLsbD_extractLsb']
  simp [hk, show 8 * j + k < 24 by omega]

/-- SETPIX at whose access `q` the platform stops it, with the accesses before it served and honoured (log 7). -/
theorem setpix_stopped {s : State} (hs : surfCheck s.blk.surf = .ok ())
    (hb : ¬ badArguments .setpix s) {before rest : List Access} {q : Access}
    (hl : s.blk.surf.putAccesses s.blk.args.x0 s.blk.args.y0 = before ++ q :: rest)
    (hbefore : ∀ c ∈ before, s.platform.serves c.addr c.bytes c.kind = true ∧
      (c.kind = .write → s.platform.byteWriteOk c.addr = true))
    (hq : s.platform.admits q.addr q.bytes q.kind = false) :
    ∃ m, exec .setpix s = .next (State.faulted { s with mem := m } 6 q.addr) ∧
      m = if s.blk.surf.fmt = 3 then
          writeLE s.mem (s.blk.surf.pixAddr s.blk.args.x0 s.blk.args.y0).1 before.length
            (s.blk.args.value &&& pixelMask 24)
        else s.mem := by
  by_cases hf : s.blk.surf.fmt = 3
  · obtain ⟨wrote, hput⟩ := putPix_stopped_24 (v := s.blk.args.value) (c := s.canvas) hf hl hbefore hq
    exact ⟨_, exec_drawing_raise (by decide) hs hb hput, (if_pos hf).symm⟩
  · have stop : stopOf (drawingOf .setpix s s.canvas) = some (.raise (.busError q.addr)) :=
      (putPix_stop _ _ _ _ _).trans
        (firstStop_of_firstRefused ⟨before, q, rest, hl, rfl, fun c hc => (hbefore c hc).1, hq⟩)
    obtain ⟨c, hput⟩ := stopOf_error_iff.1 stop
    obtain rfl : c = s.canvas := putPix_stopsClean hf hput
    exact ⟨_, exec_drawing_raise (by decide) hs hb hput, (if_neg hf).symm⟩

/-! ### The first pixel that stops -/

/-- In the list of pixels, what comes before a pixel stands before it. -/
theorem mem_of_drawnBefore {i : Instr} {s : State} {before rest : List (Nat × Nat)} {q r : Nat × Nat}
    (hl : drawnList i s = before ++ q :: rest) (hr : r ∈ drawnList i s) (hrq : drawnBefore i s r.1 r.2 q.1 q.2) :
    r ∈ before := by
  have sorted := drawnList_sorted i s
  rw [hl] at hr sorted
  have later := (List.pairwise_cons.1 (List.pairwise_append.1 sorted).2.1).1
  rcases List.mem_append.1 hr with hr | hr
  · exact hr
  · rcases List.mem_cons.1 hr with rfl | hr
    · exact absurd hrq (drawnBefore_asymm hrq)
    · exact absurd hrq (drawnBefore_asymm (later r hr))

section FirstStop
variable {i : Instr} {s : State}

/-- Without read side effects, what is not stopped is what the platform admits. -/
theorem firstStop_none_iff_admits {p : Platform} (hp : p.readEffects = []) {l : List Access} :
    firstStop p l = none ↔ ∀ q ∈ l, p.admits q.addr q.bytes q.kind = true := by
  simp only [firstStop_none_iff, serves_of_plain hp]

variable (hi : i ∈ drawingCommands) (hs : surfCheck s.blk.surf = .ok ()) (hb : ¬ badArguments i s)
include hi hs hb

theorem exec_drawing_completes
    (h : ∀ x y, drawnSet i s x y → firstStop s.platform (s.blk.surf.putAccesses x y) = none) :
    ∃ t, exec i s = .next t ∧ t.blk = { s.blk with latch := none } := by
  have stop : stopOf (drawingOf i s s.canvas) = none := by
    rw [drawingOf_stop, List.findSome?_eq_none_iff]
    exact fun q hq => h q.1 q.2 (mem_drawnList.1 hq)
  obtain ⟨c, hc⟩ := stopOf_none_iff.1 stop
  exact ⟨_, exec_drawing_ok hi hs hb hc, rfl⟩

/-- Where an access of the pixels is refused, the command reports the first, in the order of the pseudocode (log 15). -/
theorem exec_drawing_busError (hp : s.platform.readEffects = [])
    (h : ∃ x y, drawnSet i s x y ∧ firstStop s.platform (s.blk.surf.putAccesses x y) ≠ none) :
    ∃ t x y a, exec i s = .next t ∧ t.blk = (s.faulted 6 a).blk ∧ drawnSet i s x y ∧
      s.platform.firstRefused (s.blk.surf.putAccesses x y) a ∧
      ∀ x' y', drawnSet i s x' y' → drawnBefore i s x' y' x y →
        firstStop s.platform (s.blk.surf.putAccesses x' y') = none := by
  obtain ⟨x, y, hxy, hstop⟩ := h
  have stops : stopOf (drawingOf i s s.canvas) ≠ none := by
    rw [drawingOf_stop, Ne, List.findSome?_eq_none_iff]
    exact fun hn => hstop (hn (x, y) (mem_drawnList.2 hxy))
  obtain ⟨e, he⟩ := Option.ne_none_iff_exists'.1 stops
  obtain ⟨c, hc⟩ := stopOf_error_iff.1 he
  rw [drawingOf_stop] at he
  obtain ⟨before, q, rest, hl, hq, clear⟩ := List.findSome?_eq_some_iff.1 he
  obtain ⟨a, rfl, refused⟩ := firstStop_some hp hq
  have hqin : (q.1, q.2) ∈ drawnList i s := by rw [hl]; simp
  exact ⟨_, q.1, q.2, a, exec_drawing_raise hi hs hb hc, rfl, mem_drawnList.1 hqin, refused, fun x' y' hd hbefore =>
    clear (x', y') (mem_of_drawnBefore hl (mem_drawnList.2 hd) hbefore)⟩

end FirstStop

/-- A run, a rectangle or LINE that ends in BusError: each byte of its pixels holds a free value (20_memory.md R90). -/
theorem drawing_busError_frees {i : Instr} {s t : State} (hi : i ∈ drawingCommands) (hset : i ≠ .setpix)
    (hm : Memory.wf s.mem = true) (hf : s.blk.status.fault = false) (h : exec i s = .next t)
    (ht : t.blk.status.fault = true) (h6 : t.blk.status.code = 6) :
    t.blk = (s.faulted 6 t.blk.status.info).blk ∧
      (∀ a ∈ drawnBytes i s, ∃ k, s.draws ≤ k ∧ byteAt t.mem a = Config.freeByte k) ∧
      ∀ a, a ∉ drawnBytes i s → byteAt t.mem a = byteAt s.mem a := by
  rcases drawing_next hi h with ⟨cause, hc, rfl⟩ | ⟨c, writes, ⟨-, rfl⟩ | ⟨a, hd, rfl⟩⟩
  · have : cause.code.toNat = 6 := congrArg BitVec.toNat h6
    omega
  · exact absurd (ht.symm.trans hf) (by decide)
  · rw [drawingOf, if_neg hset] at hd
    refine ⟨rfl, fun b hb => ?_, writes.frame⟩
    obtain ⟨q, hq, hbq⟩ := List.mem_flatMap.1 hb
    exact drawPixels_raise hm hd hq hbq

/-- Settles O41: SETPIX by its accesses (`setpix_stopped`); the others stop at the first access of their sorted list of
pixels that is refused, and then free its bytes. -/
theorem busErrorFreesTheDrawnBytes : Obligations.BusErrorFreesTheDrawnBytes := by
  unfold Obligations.BusErrorFreesTheDrawnBytes
  refine ⟨fun s before rest q hm hs hb => ?_, fun i s hi hs hb hp => ?_, fun i s t hi hm hf h ht h6 => ?_⟩
  · intro sf a hl hbefore hq
    obtain ⟨m, hx, rfl⟩ := setpix_stopped hs hb hl hbefore hq
    refine ⟨_, hx, fun h3 => if_neg h3, fun h3 => ?_⟩
    have length : before.length < 3 := by
      have := congrArg List.length hl
      simp only [Surface.putAccesses, h3, List.length_append, List.length_cons, List.length_nil] at this
      omega
    rw [if_pos h3]
    refine ⟨fun j hj => ?_, fun c hc => byteAt_writeLE_ne _ _ _ _ fun hin => ?_⟩
    · rw [byteAt_writeLE hm (by omega) hj, pixel24_byte _ (by omega)]
    · obtain ⟨j, hj, rfl⟩ := List.mem_map.1 hin
      exact hc j (List.mem_range.1 hj) rfl
  · have hi := List.mem_cons_of_mem .setpix hi
    have admitted : ∀ x y, (∀ q ∈ s.blk.surf.putAccesses x y, s.platform.admits q.addr q.bytes q.kind = true) ↔
        firstStop s.platform (s.blk.surf.putAccesses x y) = none := fun x y => (firstStop_none_iff_admits hp).symm
    simp only [admitted]
    exact ⟨exec_drawing_completes hi hs hb, exec_drawing_busError hi hs hb hp⟩
  · have hset : i ≠ .setpix := by rintro rfl; exact absurd hi (by decide)
    obtain ⟨blk, free, frame⟩ := drawing_busError_frees (List.mem_cons_of_mem .setpix hi) hset hm hf h ht h6
    exact ⟨blk, fun a x y hxy ha => free a (mem_drawnBytes.2 ⟨x, y, hxy, ha⟩),
      fun a ha => frame a (not_mem_drawnBytes ha)⟩

end Sys2Proof.Machine
end

section
/-! SUPPORT. The reads of GETPIX, of the decoder and of a header as lists of accesses: a read stops where the first of
its accesses does that does not take place (20_memory.md R82), and O36. -/

namespace Sys2Proof.Machine

/-! ### How a read stops -/

/-- How a read or a check stops. -/
def readStop {α : Type} : Except Stop α → Option Stop
  | .ok _ => none
  | .error e => some e

section ReadStop
variable {α β : Type} {p : Platform} {m : Memory}

theorem readStop_some_iff {x : Except Stop α} {e : Stop} : readStop x = some e ↔ x = .error e := by
  cases x <;> simp [readStop]

/-- What stops the first part stops the whole; else the rest decides. -/
theorem readStop_bind {x : Except Stop α} {f : α → Except Stop β} {o : Option Stop}
    (h : ∀ a, x = .ok a → readStop (f a) = o) : readStop (x >>= f) = (readStop x).or o := by
  cases x with
  | ok a => exact h a rfl
  | error e => rfl

theorem readStop_pure_bind {x : Except Stop α} {f : α → β} : readStop (x >>= fun a => pure (f a)) = readStop x := by
  cases x <;> rfl

theorem readStop_memRead (a : Word) (n : Nat) : readStop (memRead p m a n) = firstStop p [⟨a, n, .read⟩] := by
  rw [firstStop_cons, Access.stop]
  cases h : access p a n .read with
  | error e => rw [memRead_error_iff.2 h]; rfl
  | ok u => rw [memRead_of_serves (access_ok_iff.1 h)]; rfl

/-- A read of `n` bytes and what follows it. -/
theorem readStop_memRead_bind (a : Word) (n : Nat) {f : Word → Except Stop β} {l : List Access}
    (h : ∀ b, memRead p m a n = .ok b → readStop (f b) = firstStop p l) :
    readStop (memRead p m a n >>= f) = firstStop p (⟨a, n, .read⟩ :: l) := by
  rw [readStop_bind h, readStop_memRead, ← firstStop_append]
  rfl

/-- GetPix stops where the first of its accesses does (41_pixel.md R165). -/
theorem getPix_stop (sf : Surface) (x y : Nat) :
    readStop (getPix p m sf x y) = firstStop p (sf.getAccesses x y) := by
  unfold getPix Surface.getAccesses Surface.bpp
  generalize sf.fmt = fmt
  match fmt with
  | 0 => exact readStop_pure_bind.trans (readStop_memRead _ _)
  | 1 => exact readStop_memRead _ _
  | 2 => exact readStop_memRead _ _
  | 3 =>
    exact readStop_memRead_bind _ _ fun _ _ => readStop_memRead_bind _ _ fun _ _ =>
      readStop_pure_bind.trans (readStop_memRead _ _)
  | _ + 4 => exact readStop_memRead _ _

/-- The header's bytes are read in order (44_layout.md R242). -/
theorem readHeader_stop (a : Word) :
    readStop (readHeader p m a) = firstStop p ((List.range 4).map fun k => ⟨a + BitVec.ofNat 32 k, 1, .read⟩) := by
  have order : ((List.range 4).map fun k => (⟨a + BitVec.ofNat 32 k, 1, .read⟩ : Access)) =
      [⟨a, 1, .read⟩, ⟨a + 1#32, 1, .read⟩, ⟨a + 2#32, 1, .read⟩, ⟨a + 3#32, 1, .read⟩] := by
    simp [List.range_succ]
  rw [order]
  exact readStop_memRead_bind _ _ fun _ _ => readStop_memRead_bind _ _ fun _ _ => readStop_memRead_bind _ _ fun _ _ =>
    readStop_pure_bind.trans (readStop_memRead _ _)

/-! ### The code point at the decoder's position -/

/-- The access of byte `k` of the input, none at and beyond its end (43_decoder.md R220). -/
def inputAccess (d : Decoder) (k : Nat) : List Access :=
  if k < d.len.toNat then [⟨d.base + BitVec.ofNat 32 k, 1, .read⟩] else []

theorem continuation_stop (d : Decoder) (k : Nat) :
    readStop (continuation p m d k) = firstStop p (inputAccess d k) := by
  unfold continuation inputAccess
  split
  · exact readStop_pure_bind.trans (readStop_memRead _ _)
  · rfl

/-- Before the end of the input, the accesses of a code point are those of its bytes. -/
theorem codeAccesses_eq (s : State) :
    s.codeAccesses = (List.range s.codeHere.2).flatMap fun k => inputAccess s.blk.dec (s.blk.dec.pos.toNat + k) := by
  have all : ∀ n, ((List.range (min n (s.blk.dec.len.toNat - s.blk.dec.pos.toNat))).map fun k =>
      (⟨s.blk.dec.base + BitVec.ofNat 32 (s.blk.dec.pos.toNat + k), 1, .read⟩ : Access)) =
      (List.range n).flatMap fun k => inputAccess s.blk.dec (s.blk.dec.pos.toNat + k) := by
    intro n
    induction n with
    | zero => simp
    | succ n ih =>
      rw [List.range_succ, List.flatMap_append, ← ih, List.flatMap_singleton, inputAccess]
      split
      · rw [Nat.min_eq_left (by omega), Nat.min_eq_left (by omega), List.range_succ, List.map_append]
        rfl
      · rw [Nat.min_eq_right (by omega), Nat.min_eq_right (by omega), List.append_nil]
  exact all _

theorem readStop_continuation_bind {d : Decoder} {k : Nat} {f : Word → Except Stop β} {l : List Access}
    (h : ∀ c, readStop (f c) = firstStop p l) :
    readStop (continuation p m d k >>= f) = firstStop p (inputAccess d k ++ l) := by
  rw [readStop_bind fun c _ => h c, continuation_stop, ← firstStop_append]

theorem readStop_continuation_pure {d : Decoder} {k : Nat} {f : Word → β} :
    readStop (continuation p m d k >>= fun c => pure (f c)) = firstStop p (inputAccess d k) :=
  readStop_pure_bind.trans (continuation_stop d k)

/-- Decode stops where the first access of the code point does (43_decoder.md R221). -/
theorem decodeAt_stop (s : State) :
    readStop (decodeAt s.platform s.mem s.blk.dec s.blk.dec.pos.toNat) = firstStop s.platform s.codeAccesses := by
  rw [codeAccesses_eq]
  generalize hd : s.blk.dec = d
  unfold decodeAt
  split
  · next hend =>
    have none : ∀ k, inputAccess d (d.pos.toNat + k) = [] := fun k => if_neg (by omega)
    rw [List.flatMap_eq_nil_iff.2 fun k _ => none k]
    rfl
  · next hmore =>
    have first : inputAccess d (d.pos.toNat + 0) = [⟨d.base + BitVec.ofNat 32 d.pos.toNat, 1, .read⟩] := if_pos (by omega)
    refine (readStop_memRead_bind (l := (List.range (s.codeHere.2 - 1)).flatMap fun k =>
      inputAccess d (d.pos.toNat + (k + 1))) _ _ fun b hb => ?_).trans ?_
    · have here : s.inputAt d.pos.toNat = b.toNat := by
        obtain ⟨-, rfl⟩ := memRead_ok_iff.1 hb
        rw [State.inputAt, hd, if_pos (by omega), readLE_one, BitVec.toNat_setWidth]
        have := (byteAt s.mem (d.base + BitVec.ofNat 32 d.pos.toNat)).isLt
        omega
      have count : s.codeHere.2 =
          if b.toNat < 0xC0 then 1 else if b.toNat < 0xE0 then 2 else if b.toNat < 0xF0 then 3 else 4 := by
        simp only [State.codeHere, hd, here]
        split_ifs <;> rfl
      rw [count]
      split_ifs
      · rfl
      · simpa using readStop_continuation_pure
      · simpa [List.range_succ] using readStop_continuation_bind fun c => readStop_continuation_pure
      · simpa [List.range_succ] using readStop_continuation_bind fun c =>
          readStop_continuation_bind fun c' => readStop_continuation_pure
    · have pos := (codeHere_bounds s).1
      obtain ⟨n, hn⟩ := Nat.exists_eq_add_of_le' pos
      rw [hn, List.range_succ_eq_map, List.flatMap_cons, List.flatMap_map, first]
      rfl

end ReadStop

/-! ### Commands whose read stops -/

theorem exec_of_busError {i : Instr} {s : State} {a : Word}
    (h : bodyOf i { st := s, wrote := [] } = .error (.raise (.busError a)) { st := s, wrote := [] }) :
    exec i s = .next (s.faulted 6 a) := (exec_eq i s).trans (finish_raise h)

theorem exec_of_refuse {i : Instr} {s : State} {r : Refusal} {w : Work}
    (h : bodyOf i { st := s, wrote := [] } = .error (.refuse r) w) : exec i s = .refused r :=
  (exec_eq i s).trans (finish_refuse h)

section Stopped
variable {s : State} {e : Stop} {w : Work}

theorem check_bind_error {α β : Type} {x : Except Stop α} {f : α → Engine β} (h : x = .error e) :
    (check x >>= f) w = .error e w := run_bind_error (check_error_iff.2 ⟨h, rfl⟩)

theorem check_bind_ok {α β : Type} {x : Except Stop α} {f : α → Engine β} {a : α} (h : x = .ok a) :
    (check x >>= f) w = f a w := run_bind_ok (check_ok_iff.2 ⟨h, rfl⟩)

theorem getpix_stopped (hs : surfCheck s.blk.surf = .ok ()) (hb : ¬ badArguments .getpix s)
    (h : firstStop s.platform (s.blk.surf.getAccesses s.blk.args.x0 s.blk.args.y0) = some e) :
    bodyOf .getpix { st := s, wrote := [] } = .error e { st := s, wrote := [] } := by
  have inside : pixelCheck s.blk.surf 0x02 s.blk.args.x0 s.blk.args.y0 = .ok () := if_pos (inBounds_iff.2 (not_not.1 hb))
  have read := readStop_some_iff.1 ((getPix_stop (m := s.mem) _ _ _).trans h)
  exact (check_bind_ok hs).trans ((check_bind_ok inside).trans (check_bind_error read))

theorem nextCode_stopped (h : firstStop w.st.platform w.st.codeAccesses = some e) : nextCode w = .error e w :=
  check_bind_error (readStop_some_iff.1 ((decodeAt_stop w.st).trans h))

theorem decode_stopped {i : Instr} (hi : i = .decNext ∨ i = .decPeek)
    (h : firstStop s.platform s.codeAccesses = some e) :
    bodyOf i { st := s, wrote := [] } = .error e { st := s, wrote := [] } := by
  rcases hi with rfl | rfl
  · exact run_bind_error (nextCode_stopped h)
  · exact run_bind_error (check_bind_error (readStop_some_iff.1 ((decodeAt_stop s).trans h)))

theorem layoutNext_stopped (ha : s.blk.lay.active = true) (hy : s.blk.lay.y.toInt < s.blk.lay.maxY.toInt)
    (h : firstStop s.platform s.codeAccesses = some e) :
    bodyOf .layoutNext { st := s, wrote := [] } = .error e { st := s, wrote := [] } := by
  refine run_bind_error (run_bind_ok (run_theState _) |>.trans ?_)
  dsimp only
  rw [if_neg (by simp [ha]), if_neg (by omega)]
  exact run_bind_error (nextCode_stopped h)

theorem glyphLookup_stopped {i : Fin 8} (hi : s.firstSlot s.blk.args.value.toInt i)
    (hbase : (s.blk.cs.get i).base.toNat % 2 = 0)
    (hlen : 4 * (s.blk.args.value.toInt - (s.blk.cs.get i).min.toInt) + 4 ≤ (s.blk.cs.get i).len.toNat)
    (h : firstStop s.platform (headerAccesses (s.blk.cs.get i) s.blk.args.value.toInt) = some e) :
    bodyOf .glyphLookup { st := s, wrote := [] } = .error e { st := s, wrote := [] } := by
  have read : getHeader s.platform s.mem s.blk.cs i s.blk.args.value = .error e := by
    have header := readStop_some_iff.1 ((readHeader_stop (m := s.mem) _).trans h)
    unfold getHeader headerOffset
    dsimp only
    rw [if_neg (by omega), if_neg (by omega)]
    exact except_bind_error_iff.2 (.inl header)
  refine (run_bind_ok (run_theState _)).trans ?_
  dsimp only
  rw [findCharset_some_iff.2 hi]
  exact check_bind_error read

end Stopped

theorem admits_of_window {p : Platform} {a : Word} {n : Nat} (k : AccessKind)
    (h : ∃ c ∈ accessBytes a n, p.inWindow c = true) : p.admits a n k = false := by
  rw [Platform.admits, List.any_eq_true.2 h]
  rfl

theorem touchesReadEffects_iff {p : Platform} {a : Word} {n : Nat} : p.touchesReadEffects a n = true ↔
    ∃ r ∈ p.readEffects, ∃ j < n, (a + BitVec.ofNat 32 j - r.base).toNat < r.size := by
  simp only [Platform.touchesReadEffects, accessBytes, List.any_map, List.any_eq_true, Function.comp, Span.has,
    decide_eq_true_eq, List.mem_range]
  constructor
  · rintro ⟨j, hj, r, hr, h⟩; exact ⟨r, hr, j, hj, h⟩
  · rintro ⟨r, hr, j, hj, h⟩; exact ⟨j, hj, r, hr, h⟩

/-- The first access is admitted, and touches a region with read side effects: the model refuses (log 21). -/
theorem firstStop_of_readEffects {p : Platform} {q : Access} {rest : List Access}
    (ha : p.admits q.addr q.bytes q.kind = true) (ht : p.touchesReadEffects q.addr q.bytes = true) :
    firstStop p (q :: rest) = some (.refuse .readSideEffects) := by
  rw [firstStop_cons, Access.stop, access, if_pos ha, if_pos ht]
  rfl

/-- Settles O36: each of these reads stops where the first of its accesses does, before the command has changed
anything. -/
theorem refusedReadsAreBusErrors : Obligations.RefusedReadsAreBusErrors := by
  unfold Obligations.RefusedReadsAreBusErrors
  refine ⟨fun s a hs hb h => exec_of_busError (getpix_stopped hs hb (firstStop_of_firstRefused h)),
    fun i s a hi h => exec_of_busError (decode_stopped hi (firstStop_of_firstRefused h)),
    fun s a ha hy h => exec_of_busError (layoutNext_stopped ha hy (firstStop_of_firstRefused h)),
    fun s i a hi hbase hlen h => exec_of_busError (glyphLookup_stopped hi hbase hlen (firstStop_of_firstRefused h)),
    fun p a n k ⟨j, hj, hw⟩ => admits_of_window k ⟨_, add_mem_accessBytes a hj, inWindow_iff.2 hw⟩,
    fun i s q rest h ha ht => ?_⟩
  have refused := firstStop_of_readEffects (rest := rest) ha (touchesReadEffects_iff.2 ht)
  rcases h with ⟨hs, hb, ⟨rfl, hl⟩ | ⟨rfl, hl⟩⟩ | ⟨hi, hl⟩
  · exact exec_of_refuse (getpix_stopped hs hb (hl ▸ refused))
  · obtain ⟨c, hc⟩ := stopOf_error_iff.1 ((putPix_stop _ _ _ _ s.canvas).trans (hl ▸ refused))
    exact exec_drawing_refuse (by decide) hs hb hc
  · exact exec_of_refuse (decode_stopped hi (hl ▸ refused))

end Sys2Proof.Machine
end

section
/-! SUPPORT. What the commands that write no memory leave depends only on the bytes at which, watched, they are refused
(Footprint.lean, `uses`). -/

namespace Sys2Proof.Machine

section Watched
variable {α β : Type}

theorem EngineWatched.check (x : Except Stop α) : EngineWatched (check x) where
  mem h := by rw [(check_ok_iff.1 h).2]
  follows a h := by
    obtain ⟨hx, rfl⟩ := check_ok_iff.1 h
    exact .inl (check_ok_iff.2 ⟨hx, rfl⟩)
  agreesOk _ h := by
    obtain ⟨hx, rfl⟩ := check_ok_iff.1 h
    exact check_ok_iff.2 ⟨hx, rfl⟩
  agreesRaise _ h := by
    obtain ⟨hx, rfl⟩ := check_error_iff.1 h
    exact check_error_iff.2 ⟨hx, rfl⟩

/-- The states look alike to a command that reads no memory: the same block, and SPACE6. -/
structure LooksLike (s s' : State) : Prop where
  blk : s'.blk = s.blk
  space6 : s'.platform.space6 = s.platform.space6

/-- A computation that starts by looking at the state may go a different way from each block. -/
theorem EngineWatched.lookAt {g : State → Engine α}
    (h : ∀ s, ∃ g', EngineWatched (theState >>= g') ∧ ∀ s', LooksLike s s' → g s' = g' s') :
    EngineWatched (theState >>= g) := by
  have way : ∀ w : Work, ∃ e, EngineWatched e ∧ (theState >>= g) w = e w ∧
      (∀ a, (theState >>= g) (w.watching a) = e (w.watching a)) ∧
      ∀ m, (theState >>= g) (w.withMem m) = e (w.withMem m) := fun w => by
    obtain ⟨g', hg, hs⟩ := h w.st
    exact ⟨_, hg, congrFun (hs _ ⟨rfl, rfl⟩) w, fun a => congrFun (hs (w.st.watching a) ⟨rfl, rfl⟩) (w.watching a),
      fun m => congrFun (hs { w.st with mem := m } ⟨rfl, rfl⟩) (w.withMem m)⟩
  refine ⟨fun {w x u} ho => ?_, fun {w x u} a ho => ?_, fun {w x u m} hb ho => ?_, fun {w c u m} hb ho => ?_⟩
  all_goals obtain ⟨e, he, hs, hw, hm⟩ := way w
  · exact he.mem (hs ▸ ho)
  · rw [hw]
    exact he.follows a (hs ▸ ho)
  · rw [hm]
    exact he.agreesOk (fun a ⟨r, u', hr⟩ => hb a ⟨r, u', (hw a).trans hr⟩) (hs ▸ ho)
  · rw [hm]
    exact he.agreesRaise (fun a ⟨r, u', hr⟩ => hb a ⟨r, u', (hw a).trans hr⟩) (hs ▸ ho)

theorem watched_setResult0 (v : Word) : EngineWatched (update (setResult0 v)) :=
  .update (fun _ => rfl) (fun _ _ => rfl) fun _ _ => rfl

theorem watched_setResult1 (v : Word) : EngineWatched (update (setResult1 v)) :=
  .update (fun _ => rfl) (fun _ _ => rfl) fun _ _ => rfl

theorem watched_setDecoder (d : Decoder) : EngineWatched (update (setDecoder d)) :=
  .update (fun _ => rfl) (fun _ _ => rfl) fun _ _ => rfl

theorem watched_setLayout (l : Layout) : EngineWatched (update (setLayout l)) :=
  .update (fun _ => rfl) (fun _ _ => rfl) fun _ _ => rfl

theorem watched_setGlyph (g : Glyph) : EngineWatched (update (setGlyph g)) :=
  .update (fun _ => rfl) (fun _ _ => rfl) fun _ _ => rfl

end Watched

/-! ### The layout step -/

theorem watched_endLayout : EngineWatched endLayout :=
  .look (fun _ => (watched_setGlyph _).bind fun _ => (watched_setLayout _).bind fun _ => .pure _) (fun _ _ => rfl)
    fun _ _ => rfl

theorem watched_layoutGlyph (cp : Word) (i : Fin 8) : EngineWatched (layoutGlyph cp i) :=
  .readThen (r := fun b p m => getHeader p m b.cs i cp) (fun _ => watched_getHeader _ _ _)
    (fun _ _ => (EngineWatched.check _).bind fun _ => (watched_setLayout _).bind fun _ =>
      (watched_setGlyph _).bind fun _ => .pure _)
    (fun _ _ _ => rfl) fun _ _ _ => rfl

theorem LooksLike.specialMove {s s' : State} (h : LooksLike s s') (l : Layout) (cp : Word) :
    specialMove s'.platform l cp = specialMove s.platform l cp := by
  simp only [Machine.specialMove, spaceAdvance, h.space6]

theorem watched_layoutCode (cp : Word) : EngineWatched (layoutCode cp) := by
  refine .lookAt fun s => ?_
  cases hm : specialMove s.platform s.blk.lay cp with
  | some xy =>
    refine ⟨fun s => check (overflowCheck cp (int32 xy.1 && int32 xy.2)) >>= fun _ =>
      update (setLayout { s.blk.lay with x := wordOfInt xy.1, y := wordOfInt xy.2 }) >>= fun _ =>
        update (setGlyph (unprintableRecord cp s.blk.lay (wordOfInt xy.1))) >>= fun _ => pure .unprintable,
      .look (fun _ => (EngineWatched.check _).bind fun _ => (watched_setLayout _).bind fun _ =>
        (watched_setGlyph _).bind fun _ => .pure _) (fun _ _ => rfl) fun _ _ => rfl, fun s' h => ?_⟩
    simp only [h.specialMove, h.blk, hm]
  | none =>
    cases hc : findCharset s.blk.cs cp with
    | none =>
      refine ⟨fun s => update (setGlyph (unprintableRecord cp s.blk.lay s.blk.lay.x)) >>= fun _ => pure .unprintable,
        .look (fun _ => (watched_setGlyph _).bind fun _ => .pure _) (fun _ _ => rfl) fun _ _ => rfl, fun s' h => ?_⟩
      simp only [h.specialMove, h.blk, hm, hc]
    | some i =>
      refine ⟨fun _ => layoutGlyph cp i, .look (fun _ => watched_layoutGlyph cp i) (fun _ _ => rfl) fun _ _ => rfl,
        fun s' h => ?_⟩
      simp only [h.specialMove, h.blk, hm, hc]

theorem watched_layoutStep : EngineWatched layoutStep := by
  refine .lookAt fun s => ?_
  by_cases ha : s.blk.lay.active = false
  · refine ⟨fun s => update (setGlyph (eofRecord s.blk.lay)) >>= fun _ => pure .eof,
      .look (fun _ => (watched_setGlyph _).bind fun _ => .pure _) (fun _ _ => rfl) fun _ _ => rfl, fun s' h => ?_⟩
    simp only [h.blk, ha, if_true]
  · by_cases hy : s.blk.lay.maxY.toInt ≤ s.blk.lay.y.toInt
    · refine ⟨fun _ => endLayout, .look (fun _ => watched_endLayout) (fun _ _ => rfl) fun _ _ => rfl, fun s' h => ?_⟩
      dsimp only
      rw [h.blk, if_neg ha, if_pos hy]
    · refine ⟨fun _ => nextCode >>= fun cp => if cp = eofCode then endLayout else layoutCode cp,
        .look (fun _ => watched_nextCode.bind fun cp => ?_) (fun _ _ => rfl) fun _ _ => rfl, fun s' h => ?_⟩
      · split
        · exact watched_endLayout
        · exact watched_layoutCode cp
      · dsimp only
        rw [h.blk, if_neg ha, if_neg hy]

theorem watched_layoutLoop : ∀ fuel, EngineWatched (layoutLoop fuel)
  | 0 => .pure _
  | fuel + 1 => watched_layoutStep.bind fun k => by
    cases k with
    | eof => exact .pure _
    | unprintable | drawable => exact watched_layoutLoop fuel

/-! ### The commands that write no memory -/

theorem watched_getpixBody : EngineWatched getpixBody := by
  have e : getpixBody = theState >>= fun s =>
      check (surfCheck s.blk.surf >>= fun _ => pixelCheck s.blk.surf 0x02 s.blk.args.x0 s.blk.args.y0 >>= fun _ =>
        getPix s.platform s.mem s.blk.surf s.blk.args.x0 s.blk.args.y0) >>= fun v => update (setResult0 v) := by
    simp only [check_bind_assoc]
    rfl
  rw [e]
  exact .readThen (r := fun b p m => surfCheck b.surf >>= fun _ => pixelCheck b.surf 0x02 b.args.x0 b.args.y0 >>=
    fun _ => getPix p m b.surf b.args.x0 b.args.y0)
    (fun _ => (Watched.const _).bind fun _ => (Watched.const _).bind fun _ => watched_getPix _ _ _)
    (fun _ _ => watched_setResult0 _) (fun _ _ _ => rfl) fun _ _ _ => rfl

theorem watched_glyphLookupBody : EngineWatched glyphLookupBody := by
  refine .lookAt fun s => ?_
  cases hc : findCharset s.blk.cs s.blk.args.value with
  | none =>
    refine ⟨fun _ => update (setResult0 0) >>= fun _ => update (setResult1 0),
      .look (fun _ => (watched_setResult0 _).bind fun _ => watched_setResult1 _) (fun _ _ => rfl) fun _ _ => rfl,
      fun s' h => ?_⟩
    simp only [h.blk, hc]
  | some i =>
    refine ⟨fun s => check (getHeader s.platform s.mem s.blk.cs i s.blk.args.value) >>= fun h =>
      update (setResult0 h) >>= fun _ => update (setResult1 (lookupFlags i (s.platform.alignClass s.blk.args.value))),
      .readThen (r := fun b p m => getHeader p m b.cs i b.args.value) (fun _ => watched_getHeader _ _ _)
        (fun _ _ => (watched_setResult0 _).bind fun _ => watched_setResult1 _) (fun _ _ _ => rfl) fun _ _ _ => rfl,
      fun s' h => ?_⟩
    simp only [h.blk, hc]

theorem watched_bodyOf {i : Instr} (hi : (footprint i).memory = false) : EngineWatched (bodyOf i) := by
  cases i with
  | nop => exact .pure _
  | getpix => exact watched_getpixBody
  | mapaddr =>
    exact .look (fun _ => (EngineWatched.check _).bind fun _ => (EngineWatched.check _).bind fun _ =>
      (watched_setResult0 _).bind fun _ => watched_setResult1 _) (fun _ _ => rfl) fun _ _ => rfl
  | decStart => exact .look (fun _ => watched_setDecoder _) (fun _ _ => rfl) fun _ _ => rfl
  | decNext => exact watched_nextCode.bind fun _ => watched_setResult0 _
  | decPeek =>
    exact (EngineWatched.readThen (r := fun b p m => decodeAt p m b.dec b.dec.pos.toNat)
      (fun _ => watched_decodeAt _ _) (fun _ x => .pure x.1) (fun _ _ _ => rfl) fun _ _ _ => rfl).bind
        fun _ => watched_setResult0 _
  | glyphLookup => exact watched_glyphLookupBody
  | layoutStart =>
    exact .look (fun _ => (watched_setDecoder _).bind fun _ => (watched_setLayout _).bind fun _ => watched_setGlyph _)
      (fun _ _ => rfl) fun _ _ => rfl
  | layoutNext => exact watched_layoutStep.bind fun _ => .pure _
  | layoutExhaust => exact .look (fun _ => watched_layoutLoop _) (fun _ _ => rfl) fun _ _ => rfl
  | setpix | hrun | vrun | fill | fillrect | rectout | line | renderGlyph | renderText => cases hi

theorem isRefused_iff {e : Engine Unit} {s : State} :
    isRefused e s = true ↔ ∃ r w, e { st := s, wrote := [] } = .error (.refuse r) w := by
  unfold isRefused
  cases e { st := s, wrote := [] } with
  | ok u w => simp
  | error r w => cases r <;> simp

/-- A command that writes no memory leaves the same block with any other bytes where it uses none. -/
theorem exec_withMem {i : Instr} (hi : (footprint i).memory = false) {s t : State} {m : Memory}
    (hm : ∀ a, uses i s a = true → byteAt m a = byteAt s.mem a) (h : exec i s = .next t) :
    exec i { s with mem := m } = .next { t with mem := m } := by
  have watched := watched_bodyOf hi
  have unused : ∀ a, (∃ r u, bodyOf i (Work.watching { st := s, wrote := [] } a) = .error (.refuse r) u) →
      byteAt m a = byteAt s.mem a := fun a hr => hm a (by
    rw [uses, show isRefused (bodyOf i) (s.watching a) = true from isRefused_iff.2 hr, Bool.true_or])
  rw [exec_eq, finish_next_iff] at h
  rw [exec_eq]
  rcases h with ⟨w, hw, rfl⟩ | ⟨c, w, hw, rfl⟩
  · exact finish_ok (watched.agreesOk unused hw)
  · exact finish_raise (watched.agreesRaise unused hw)

end Sys2Proof.Machine
end

section
/-! SUPPORT. Which bytes a command in flight uses (20_memory.md R93; log 12): O17, and O25 from it. -/

namespace Sys2Proof.Machine

/-! ### Accesses on a watched platform -/

theorem touches_watching {p : Platform} {a c : Word} {n : Nat}
    (h : (p.watching c).touchesReadEffects a n = true) : c ∈ accessBytes a n := by
  obtain ⟨r, hr, j, hj, hlt⟩ := touchesReadEffects_iff.1 h
  obtain rfl : r = { base := c, size := 1 } := List.mem_singleton.1 hr
  have : a + BitVec.ofNat 32 j = c := by
    have : (a + BitVec.ofNat 32 j - c).toNat < 1 := hlt
    bv_omega
  exact this ▸ add_mem_accessBytes a hj

theorem Access.stop_refuse {p : Platform} {q : Access} {r : Refusal} (h : q.stop p = some (.refuse r)) :
    p.touchesReadEffects q.addr q.bytes = true := by
  unfold Access.stop at h
  split at h
  · cases h
  · next he =>
    cases h
    rcases access_error he with ⟨-, h⟩ | ⟨-, touches, -⟩
    · cases h
    · exact touches

/-- Watched at a byte, accesses are refused only if one of them touches the byte. -/
theorem firstStop_watching {p : Platform} {c : Word} {l : List Access} {r : Refusal}
    (h : firstStop (p.watching c) l = some (.refuse r)) : ∃ q ∈ l, c ∈ accessBytes q.addr q.bytes := by
  obtain ⟨q, hq, hs⟩ := List.exists_of_findSome?_eq_some h
  exact ⟨q, hq, touches_watching (Access.stop_refuse hs)⟩

/-- Watched at a byte, accesses outside the register window are refused exactly if one of them touches the byte. -/
theorem firstStop_watching_iff {p : Platform} {c : Word} {l : List Access}
    (hw : ∀ q ∈ l, ∀ b ∈ accessBytes q.addr q.bytes, p.inWindow b = false) :
    (∃ r, firstStop (p.watching c) l = some (.refuse r)) ↔ ∃ q ∈ l, c ∈ accessBytes q.addr q.bytes := by
  have stop : ∀ q ∈ l, q.stop (p.watching c) =
      if c ∈ accessBytes q.addr q.bytes then some (.refuse .readSideEffects) else none := fun q hq => by
    rw [Access.stop, access_watching (by simpa using hw q hq)]
    by_cases hc : c ∈ accessBytes q.addr q.bytes
    · simp only [if_pos hc]
    · simp only [if_neg hc]
  refine ⟨fun ⟨r, h⟩ => firstStop_watching h, fun ⟨q, hq, hc⟩ => ?_⟩
  cases hf : firstStop (p.watching c) l with
  | none =>
    have := List.findSome?_eq_none_iff.1 hf q hq
    rw [stop q hq, if_pos hc] at this
    cases this
  | some e =>
    obtain ⟨q', hq', he⟩ := List.exists_of_findSome?_eq_some hf
    rw [stop q' hq'] at he
    split at he
    · cases he; exact ⟨_, rfl⟩
    · cases he

/-! ### The bytes of a command that writes no memory -/

theorem uses_of_noMemory {i : Instr} (hi : (footprint i).memory = false) (s : State) (c : Word) :
    uses i s c = isRefused (bodyOf i) (s.watching c) := by
  have none : bytesWritten i s = [] := ((finalWork_keeps i s.plain).memory hi).2.2
  rw [uses, none]
  exact Bool.or_false _

theorem decode_completes {i : Instr} {s : State} (hi : i = .decNext ∨ i = .decPeek)
    (h : firstStop s.platform s.codeAccesses = none) : ∃ w, bodyOf i { st := s, wrote := [] } = .ok () w := by
  cases hd : decodeAt s.platform s.mem s.blk.dec s.blk.dec.pos.toNat with
  | error e =>
    rw [← decodeAt_stop, hd] at h
    cases h
  | ok x =>
    rcases hi with rfl | rfl
    · exact ⟨_, run_bind_ok (check_bind_ok hd)⟩
    · exact ⟨_, run_bind_ok (check_bind_ok hd)⟩

/-- DEC_NEXT and DEC_PEEK are refused exactly if the accesses of the code point are. -/
theorem isRefused_decode_iff {i : Instr} {s : State} (hi : i = .decNext ∨ i = .decPeek) :
    isRefused (bodyOf i) s = true ↔ ∃ r, firstStop s.platform s.codeAccesses = some (.refuse r) := by
  rw [isRefused_iff]
  cases h : firstStop s.platform s.codeAccesses with
  | none =>
    obtain ⟨w, hw⟩ := decode_completes hi h
    simp [hw]
  | some e => simp [decode_stopped hi h]

theorem mem_codeAccesses {s : State} {q : Access} (h : q ∈ s.codeAccesses) :
    q.bytes = 1 ∧ ∃ k, k < s.blk.dec.len.toNat - s.blk.dec.pos.toNat ∧
      q.addr = s.blk.dec.base + BitVec.ofNat 32 (s.blk.dec.pos.toNat + k) := by
  obtain ⟨k, hk, rfl⟩ := List.mem_map.1 h
  exact ⟨rfl, k, lt_of_lt_of_le (List.mem_range.1 hk) (min_le_right _ _), rfl⟩

theorem mem_accessBytes_one {a c : Word} : c ∈ accessBytes a 1 ↔ c = a := by simp [accessBytes_succ]

theorem uses_decode_iff {i : Instr} {s : State} {c : Word} (hi : i = .decNext ∨ i = .decPeek)
    (hw : ∀ q ∈ s.codeAccesses, s.platform.inWindow q.addr = false) :
    uses i s c = true ↔ ∃ q ∈ s.codeAccesses, c = q.addr := by
  have hf : (footprint i).memory = false := by rcases hi with rfl | rfl <;> rfl
  have single : ∀ q ∈ s.codeAccesses, ∀ b, b ∈ accessBytes q.addr q.bytes ↔ b = q.addr := fun q hq b => by
    rw [(mem_codeAccesses hq).1, mem_accessBytes_one]
  rw [uses_of_noMemory hf, isRefused_decode_iff hi]
  refine (firstStop_watching_iff fun q hq b hb => ?_).trans ?_
  · rw [(single q hq b).1 hb]
    exact hw q hq
  · exact exists_congr fun q => and_congr_right fun hq => single q hq c

/-! ### The regions that a command reads -/

/-- If the stop is a refusal, the byte lies in one of the regions. -/
def RefusedIn (regions : List Span) (c : Word) (e : Stop) : Prop :=
  ∀ r, e = .refuse r → ∃ q ∈ regions, q.has c = true

theorem Stop.isRaise.refusedIn {regions : List Span} {c : Word} {e : Stop} (h : e.isRaise) : RefusedIn regions c e :=
  fun r hr => by
    obtain ⟨cause, rfl⟩ := h
    cases hr

theorem span_has_iff {r : Span} {a : Word} : r.has a = true ↔ (a - r.base).toNat < r.size := decide_eq_true_iff

theorem getAccesses_inside {sf : Surface} {x y : Nat} {q : Access} (hq : q ∈ sf.getAccesses x y) {c : Word}
    (hc : c ∈ accessBytes q.addr q.bytes) : (c - (sf.pixAddr x y).1).toNat < (sf.bpp + 7) / 8 := by
  unfold Surface.getAccesses at hq
  unfold Surface.bpp
  generalize (sf.pixAddr x y).1 = a at hq ⊢
  generalize sf.fmt = fmt at hq ⊢
  match fmt with
  | 0 | 1 | 2 =>
    obtain rfl := List.mem_singleton.1 hq
    exact mem_accessBytes.1 hc
  | _ + 4 =>
    obtain rfl := List.mem_singleton.1 hq
    show (c - a).toNat < (32 + 7) / 8
    exact mem_accessBytes.1 hc
  | 3 =>
    simp only [List.mem_cons, List.not_mem_nil, or_false] at hq
    rcases hq with rfl | rfl | rfl <;> obtain rfl := mem_accessBytes_one.1 hc <;> bv_omega

/-- GETPIX reads its pixel. -/
theorem getPix_refusedIn {p : Platform} {m : Memory} {sf : Surface} {x y : Nat} {c : Word} {e : Stop}
    (h : getPix (p.watching c) m sf x y = .error e) :
    RefusedIn [{ base := (sf.pixAddr x y).1, size := (sf.bpp + 7) / 8 }] c e := by
  rintro r rfl
  obtain ⟨q, hq, hc⟩ := firstStop_watching ((getPix_stop sf x y).symm.trans (readStop_some_iff.2 h))
  exact ⟨_, List.mem_singleton.2 rfl, span_has_iff.2 (getAccesses_inside hq hc)⟩

theorem toNat_add_sub_le (b : Word) (k : Nat) : (b + BitVec.ofNat 32 k - b).toNat ≤ k := by
  rw [BitVec.add_comm, BitVec.add_sub_cancel, BitVec.toNat_ofNat]
  exact Nat.mod_le _ _

section Regions
variable {s t : State} {p : Platform} {c cp : Word} {i : Fin 8} {e : Stop} (hp : s.platform = p.watching c)

/-- The accesses of a code point lie in the input that is left. -/
theorem codeAccesses_inside {q : Access} (hq : q ∈ s.codeAccesses) {c : Word} (hc : c ∈ accessBytes q.addr q.bytes) :
    (textRegion s.blk.dec).has c = true := by
  obtain ⟨one, k, hk, addr⟩ := mem_codeAccesses hq
  rw [one, mem_accessBytes_one, addr, BitVec.ofNat_add, BitVec.ofNat_toNat, BitVec.setWidth_eq,
    ← BitVec.add_assoc] at hc
  rw [hc]
  exact span_has_iff.2 (lt_of_le_of_lt (toNat_add_sub_le _ k) hk)

/-- The accesses of the header of a code point that the slot holds lie in the slot's blob. -/
theorem headerAccesses_inside {slot : CharsetSlot} (hmin : slot.min.toInt ≤ cp.toInt)
    (hlen : headerOffset slot cp + 4 ≤ slot.len.toNat) {q : Access} (hq : q ∈ headerAccesses slot cp.toInt)
    (hc : c ∈ accessBytes q.addr q.bytes) : ({ base := slot.base, size := slot.len.toNat } : Span).has c = true := by
  obtain ⟨k, hk, rfl⟩ := List.mem_map.1 hq
  obtain ⟨n, hn⟩ := Int.eq_ofNat_of_zero_le (show 0 ≤ 4 * (cp.toInt - slot.min.toInt) by omega)
  have hk : k < 4 := List.mem_range.1 hk
  unfold headerOffset at hlen
  dsimp only at hc
  rw [mem_accessBytes_one, hn, BitVec.ofInt_natCast, BitVec.add_assoc, ← BitVec.ofNat_add] at hc
  rw [hc]
  exact span_has_iff.2 (lt_of_le_of_lt (toNat_add_sub_le _ (n + k)) (by dsimp only; omega))

include hp

/-- Decode reads the input that is left. -/
theorem decodeAt_refusedIn (h : decodeAt s.platform s.mem s.blk.dec s.blk.dec.pos.toNat = .error e) :
    RefusedIn [textRegion s.blk.dec] c e := by
  rintro r rfl
  have stop := (decodeAt_stop s).symm.trans (readStop_some_iff.2 h)
  rw [hp] at stop
  obtain ⟨q, hq, hc⟩ := firstStop_watching stop
  exact ⟨_, List.mem_singleton.2 rfl, codeAccesses_inside hq hc⟩

/-- GetHeader, of the slot that FindCharset answers, reads the slot's blob. -/
theorem getHeader_refusedIn (hi : findCharset s.blk.cs cp = some i)
    (h : getHeader s.platform s.mem s.blk.cs i cp = .error e) : RefusedIn (charsetRegions s.blk.cs) c e := by
  rintro r rfl
  obtain ⟨-, ⟨enabled, len, min, -⟩, -⟩ := findCharset_some_iff.1 hi
  rw [hp] at h
  unfold getHeader at h
  dsimp only at h
  split at h
  · cases h
  split at h
  · cases h
  next hlen =>
  rcases except_bind_error_iff.1 h with h | ⟨_, -, h⟩
  · obtain ⟨q, hq, hc⟩ := firstStop_watching ((readHeader_stop _).symm.trans (readStop_some_iff.2 h))
    have data : (s.blk.cs.get i).hasData = true := by simpa [CharsetSlot.hasData, CharsetSlot.enabled] using ⟨enabled, len⟩
    refine ⟨_, List.mem_map.2 ⟨s.blk.cs.get i, List.mem_filter.2 ⟨?_, data⟩, rfl⟩,
      headerAccesses_inside min (by omega) hq hc⟩
    exact Vector.mem_toList_iff.2 (Vector.getElem_mem i.isLt)
  · split at h
    · cases h
    · exact absurd h except_pure_ne_error

end Regions

/-! ### A layout step reads the input that is left, and the charset blobs -/

/-- The state `t` in the course of a layout that began in `s`: on the same platform, with the same charset slots, and
with the decoder over the same input, not before where it was. -/
structure InLayout (s t : State) : Prop where
  platform : t.platform = s.platform
  cs : t.blk.cs = s.blk.cs
  base : t.blk.dec.base = s.blk.dec.base
  len : t.blk.dec.len = s.blk.dec.len
  pos : min s.blk.dec.pos.toNat s.blk.dec.len.toNat ≤ t.blk.dec.pos.toNat

theorem InLayout.refl (s : State) : InLayout s s := ⟨rfl, rfl, rfl, rfl, min_le_left _ _⟩

theorem InLayout.move {s t u : State} (h : InLayout s t) (hm : LayoutMove t u) : InLayout s u := by
  cases hm with
  | take n =>
    refine ⟨h.platform, h.cs, h.base, h.len, ?_⟩
    have pos := h.pos
    have := s.blk.dec.len.isLt
    simp only [setDecoder_blk, Decoder.advance, BitVec.toNat_ofNat, h.len]
    omega
  | inactive | ending | special | unknown | glyph => exact ⟨h.platform, h.cs, h.base, h.len, h.pos⟩

/-- What is left of the input only shrinks. -/
theorem InLayout.textRegion {s t : State} (h : InLayout s t) {c : Word} (hc : (textRegion t.blk.dec).has c = true) :
    (textRegion s.blk.dec).has c = true := by
  have pos := h.pos
  rw [span_has_iff] at hc ⊢
  simp only [Machine.textRegion, h.base, h.len] at hc ⊢
  have := t.blk.dec.pos.isLt
  have := s.blk.dec.len.isLt
  bv_omega

/-- The regions that a layout reads (20_memory.md R80). -/
def layoutRegions (s : State) : List Span := Machine.textRegion s.blk.dec :: charsetRegions s.blk.cs

section LayoutStep
variable {s t : State} {p : Platform} {c : Word} (hp : s.platform = p.watching c)
include hp

theorem layoutGlyph_refusedIn (h : InLayout s t) {cp : Word} {i : Fin 8} (hi : findCharset t.blk.cs cp = some i) :
    EndsIn (InLayout s) (RefusedIn (layoutRegions s) c) (layoutGlyph cp i) t := by
  refine .read (.check_bind h (fun e he r hr => ?_) fun hdr _ => ?_)
  · obtain ⟨q, hq, hc⟩ := getHeader_refusedIn (h.platform.trans hp) hi he r hr
    exact ⟨q, List.mem_cons_of_mem _ (h.cs ▸ hq), hc⟩
  · refine .check_bind h (fun e he => Stop.isRaise.refusedIn ⟨_, overflowCheck_error he⟩) fun _ _ => ?_
    exact .update_bind (.update_bind (.pure ⟨h.platform, h.cs, h.base, h.len, h.pos⟩ _))

theorem layoutCode_refusedIn (h : InLayout s t) (cp : Word) :
    EndsIn (InLayout s) (RefusedIn (layoutRegions s) c) (layoutCode cp) t := by
  refine .read ?_
  dsimp only
  split
  · refine .check_bind h (fun e he => Stop.isRaise.refusedIn ⟨_, overflowCheck_error he⟩) fun _ _ => ?_
    exact .update_bind (.update_bind (.pure (h.move (.special cp _ _)) _))
  · split
    · exact .update_bind (.pure (h.move (.unknown cp)) _)
    · next hi => exact layoutGlyph_refusedIn hp h hi

/-- A layout step is refused only in the input that is left and in the charset blobs. -/
theorem layoutStep_refusedIn (h : InLayout s t) :
    EndsIn (InLayout s) (RefusedIn (layoutRegions s) c) layoutStep t := by
  refine .read ?_
  dsimp only
  split
  · exact .update_bind (.pure (h.move .inactive) _)
  · next ha =>
    have ends : ∀ u, InLayout s u → u.blk.lay.active = true →
        EndsIn (InLayout s) (RefusedIn (layoutRegions s) c) endLayout u := fun u hu hact _ => hu.move (.ending hact)
    have ha : t.blk.lay.active = true := by simpa using ha
    split
    · exact ends t h ha
    · refine .nextCode_bind h (fun e he r hr => ?_) fun cp n => ?_
      · obtain ⟨q, hq, hc⟩ := decodeAt_refusedIn (h.platform.trans hp) he r hr
        obtain rfl := List.mem_singleton.1 hq
        exact ⟨_, List.mem_cons_self .., h.textRegion hc⟩
      · have taken := h.move (.take n)
        split
        · exact ends _ taken ha
        · exact layoutCode_refusedIn hp taken cp

theorem layoutLoop_refusedIn : ∀ (fuel : Nat) {t : State}, InLayout s t →
    EndsIn (InLayout s) (RefusedIn (layoutRegions s) c) (layoutLoop fuel) t
  | 0, _, h => .pure h _
  | fuel + 1, _, h => .bind (layoutStep_refusedIn hp h) fun k u hu => by
    cases k with
    | eof => exact .pure hu _
    | unprintable | drawable => exact layoutLoop_refusedIn fuel hu

/-! ### Every command that writes no memory reads its regions -/

/-- A command that writes no memory is refused, watched at a byte, only if the byte lies in its regions. -/
theorem bodyOf_refusedIn {i : Instr} (hi : (footprint i).memory = false) :
    EndsIn (fun _ => True) (RefusedIn (readRegions i s) c) (bodyOf i) s := by
  have raises : ∀ {α : Type} {x : Except Stop α}, Raises x → ∀ e, x = .error e → RefusedIn (readRegions i s) c e :=
    fun hx e he => (hx e he).refusedIn
  have ends : ∀ {e : Engine Unit} {Q : Stop → Prop}, EndsIn (InLayout s) Q e s → EndsIn (fun _ => True) Q e s :=
    fun h l => by
      have h := h l
      split at h
      · trivial
      · exact ⟨trivial, h.2⟩
  cases i with
  | nop => exact .pure trivial _
  | getpix =>
    refine .read (.check_bind trivial (raises raises_surfCheck) fun _ _ =>
      .check_bind trivial (raises raises_pixelCheck) fun _ _ =>
        .check_bind trivial (fun e he => ?_) fun _ _ => .update trivial)
    rw [hp] at he
    exact getPix_refusedIn he
  | mapaddr =>
    exact .read (.check_bind trivial (raises raises_surfCheck) fun _ _ =>
      .check_bind trivial (raises raises_pixelCheck) fun _ _ => .update_bind (.update trivial))
  | decStart => exact .read (.update trivial)
  | decNext =>
    exact .nextCode_bind trivial (fun e he => decodeAt_refusedIn hp he) fun _ _ => .update trivial
  | decPeek =>
    exact .bind (.read (.check_bind trivial (fun e he => decodeAt_refusedIn hp he) fun _ _ => .pure trivial _))
      fun _ _ _ => .update trivial
  | glyphLookup =>
    refine .read ?_
    dsimp only
    split
    · exact .update_bind (.update trivial)
    · next hi =>
      exact .check_bind trivial (fun e he => getHeader_refusedIn hp hi he) fun _ _ =>
        .update_bind (.update trivial)
  | layoutStart => exact .read (.update_bind (.update_bind (.update trivial)))
  | layoutNext => exact ends (.bind (layoutStep_refusedIn hp (.refl s)) fun _ _ ht => .pure ht _)
  | layoutExhaust => exact ends (.read (layoutLoop_refusedIn hp _ (.refl s)))
  | setpix | hrun | vrun | fill | fillrect | rectout | line | renderGlyph | renderText => cases hi

end LayoutStep

/-- A command that writes no memory uses no bytes but those of the regions that it may read (20_memory.md R80). -/
theorem uses_in_readRegions {i : Instr} (hi : (footprint i).memory = false) {s : State} {c : Word}
    (h : uses i s c = true) : ∃ r ∈ readRegions i s, r.has c = true := by
  rw [uses_of_noMemory hi, isRefused_iff] at h
  obtain ⟨r, w, hr⟩ := h
  have ends := bodyOf_refusedIn (s := s.watching c) rfl hi []
  rw [hr] at ends
  exact ends.2 r rfl

/-- Settles O25: a command that writes no memory depends on no byte but those it uses (`exec_withMem`), and these lie in
the regions that it may read. -/
theorem commandsReadOnlyTheirRegions : Obligations.CommandsReadOnlyTheirRegions := by
  unfold Obligations.CommandsReadOnlyTheirRegions
  intro i s m hi hm t h
  have hf := (footprint_memory_false_iff i).2 hi
  refine exec_withMem hf (fun a ha => ?_) h
  rcases hm with regions | used
  · exact regions a (uses_in_readRegions hf ha)
  · exact used a ha

/-! ### The bytes of SETPIX -/

theorem mem_halfwordBytes_self (a : Word) : a ∈ halfwordBytes a := by
  rcases halfword_cases a with ⟨-, h⟩ | ⟨-, h⟩
  · exact List.mem_cons.2 (.inl h.symm)
  · exact List.mem_cons_of_mem _ (List.mem_singleton.2 h.symm)

theorem accessBytes_halfword (a : Word) : accessBytes (a &&& ~~~1#32) 2 = halfwordBytes a := by
  simp [accessBytes_succ, halfwordBytes]

/-- A write changes the bytes that it accesses, and at 8 bits perhaps one more. -/
theorem accessBytes_written (p : Platform) {a b : Word} {n : Nat} (h : b ∈ accessBytes a n) : b ∈ writtenBytes p a n := by
  unfold writtenBytes
  split
  · next hn =>
    rw [hn.1, mem_accessBytes_one] at h
    exact h ▸ mem_halfwordBytes_self a
  · exact h

/-- PutPix accesses only the bytes that it writes (41_pixel.md R167). -/
theorem putAccesses_inside (p : Platform) {sf : Surface} {x y : Nat} {q : Access} (hq : q ∈ sf.putAccesses x y) {b : Word}
    (hb : b ∈ accessBytes q.addr q.bytes) : b ∈ pixBytes p sf x y := by
  unfold Surface.putAccesses at hq
  unfold pixBytes Surface.bpp
  generalize (sf.pixAddr x y).1 = a at hq ⊢
  generalize sf.fmt = fmt at hq ⊢
  have half : q = ⟨a &&& 0xFFFFFFFE, 2, .read⟩ ∨ q = ⟨a &&& 0xFFFFFFFE, 2, .write⟩ → b ∈ halfwordBytes a := by
    rw [← accessBytes_halfword]
    rintro (rfl | rfl) <;> exact hb
  match fmt with
  | 0 =>
    by_cases hv : sf.vram16 = true
    · simp only [hv, if_true, List.mem_cons, List.not_mem_nil, or_false] at hq ⊢
      exact half hq
    · simp only [hv, if_false, Bool.false_eq_true, List.mem_cons, List.not_mem_nil, or_false] at hq ⊢
      rcases hq with rfl | rfl <;> exact accessBytes_written p hb
  | 1 =>
    by_cases hv : sf.vram16 = true
    · simp only [hv, if_true, List.mem_cons, List.not_mem_nil, or_false] at hq ⊢
      exact half hq
    · simp only [hv, if_false, Bool.false_eq_true, List.mem_singleton] at hq ⊢
      subst hq
      exact accessBytes_written p hb
  | 2 | _ + 4 =>
    obtain rfl := List.mem_singleton.1 hq
    exact hb
  | 3 =>
    simp only [List.mem_cons, List.not_mem_nil, or_false] at hq
    simp only [List.mem_append]
    rcases hq with rfl | rfl | rfl
    · exact .inl (.inl (accessBytes_written p hb))
    · exact .inl (.inr (accessBytes_written p hb))
    · exact .inr (accessBytes_written p hb)

theorem freeBytes_wrote : ∀ {l : List Word} {c : Canvas} {a : Word}, a ∈ l → a ∈ (freeBytes l c).wrote
  | b :: rest, c, a, h => by
    rcases List.mem_cons.1 h with rfl | h
    · exact (freeBytes_writes rest _).notes.1 _ (List.mem_cons_self ..)
    · exact freeBytes_wrote (l := rest) h

/-- A write that took place is noted with all its bytes, and what was noted before stays noted. -/
theorem memWrite_wrote {p : Platform} {a b v : Word} {n : Nat} {c c' : Canvas} (h : memWrite p a n v c = .ok () c')
    (hb : b ∈ writtenBytes p a n ∨ b ∈ c.wrote) : b ∈ c'.wrote := by
  have kept := memWrite_ends p a v n c
  rw [h] at kept
  rcases hb with hb | hb
  · cases ha : access p a n .write with
    | error e => rw [memWrite_of_error ha] at h; cases h
    | ok u =>
      rw [memWrite_of_serves (access_ok_iff.1 ha)] at h
      cases h
      unfold writtenBytes at hb
      split at hb
      · next hn => rw [if_pos hn]; exact freeBytes_wrote hb
      · next hn => rw [if_neg hn]; exact List.mem_append_left _ hb
  · exact kept.notes.1 b hb

/-- A pixel written is noted with all the bytes that it is written in. -/
theorem putPix_wrote {p : Platform} {sf : Surface} (hl : sf.Legal) {v : Word} {x y : Nat} {c c' : Canvas}
    (h : putPix p sf v x y c = .ok () c') {b : Word} (hb : b ∈ pixBytes p sf x y) : b ∈ c'.wrote := by
  have half : ∀ {a mask v : Word} {sh : Nat}, mergeHalfword p a mask v sh c = .ok () c' → b ∈ halfwordBytes a →
      b ∈ c'.wrote := fun h hb => by
    obtain ⟨_, _, -, hw⟩ := bind_ok_iff.1 h
    exact memWrite_wrote hw (.inl (accessBytes_written p (accessBytes_halfword _ ▸ hb)))
  rcases hl.bpp_cases with ⟨h4, -⟩ | h8 | ⟨h16, -⟩ | ⟨h24, -⟩ | ⟨h32, -⟩
  · simp only [putPix, pixBytes, h4] at h hb
    split at hb
    · next hv => rw [if_pos hv] at h; exact half h hb
    · next hv =>
      rw [if_neg hv] at h
      obtain ⟨_, _, -, hw⟩ := bind_ok_iff.1 h
      exact memWrite_wrote hw (.inl hb)
  · simp only [putPix, pixBytes, h8] at h hb
    split at hb
    · next hv => rw [if_pos hv] at h; exact half h hb
    · next hv => rw [if_neg hv] at h; exact memWrite_wrote h (.inl hb)
  · simp only [putPix, pixBytes, h16] at h hb
    exact memWrite_wrote h (.inl hb)
  · simp only [putPix, pixBytes, h24, List.mem_append] at h hb
    obtain ⟨_, _, h0, h⟩ := bind_ok_iff.1 h
    obtain ⟨_, _, h1, h2⟩ := bind_ok_iff.1 h
    rcases hb with (hb | hb) | hb
    · exact memWrite_wrote h2 (.inr (memWrite_wrote h1 (.inr (memWrite_wrote h0 (.inl hb)))))
    · exact memWrite_wrote h2 (.inr (memWrite_wrote h1 (.inl hb)))
    · exact memWrite_wrote h2 (.inl hb)
  · simp only [putPix, pixBytes, h32] at h hb
    exact memWrite_wrote h (.inl hb)

/-- Outside the register window every access is served where nothing is refused and no read has side effects. -/
theorem plain_serves {s : State} {a : Word} {n : Nat} {k : AccessKind}
    (h : ∀ b ∈ accessBytes a n, s.platform.inWindow b = false) : s.plain.platform.serves a n k = true := by
  have outside : (accessBytes a n).any s.plain.platform.inWindow = false :=
    List.any_eq_false.2 fun b hb => Bool.eq_false_iff.1 (h b hb)
  rw [serves_of_plain rfl, Platform.admits, outside]
  rfl

section Setpix
variable {s : State} {c : Word} (hs : surfCheck s.blk.surf = .ok ()) (hb : ¬ badArguments .setpix s)
include hs hb

theorem isRefused_setpix_watching (h : isRefused (bodyOf .setpix) (s.watching c) = true) :
    c ∈ pixBytes s.platform s.blk.surf s.blk.args.x0 s.blk.args.y0 := by
  obtain ⟨r, w, h⟩ := isRefused_iff.1 h
  rw [drawing_checked (s := s.watching c) (by decide) hs hb] at h
  obtain ⟨c', hd, -⟩ := draw_error_iff.1 h
  obtain ⟨q, hq, hc⟩ := firstStop_watching ((putPix_stop _ _ _ _ _).symm.trans (stopOf_error_iff.2 ⟨c', hd⟩))
  exact putAccesses_inside _ hq hc

theorem bytesWritten_setpix (hw : ∀ b ∈ pixBytes s.platform s.blk.surf s.blk.args.x0 s.blk.args.y0,
    s.platform.inWindow b = false) :
    c ∈ bytesWritten .setpix s ↔ c ∈ pixBytes s.platform s.blk.surf s.blk.args.x0 s.blk.args.y0 := by
  have stop : stopOf (drawingOf .setpix s.plain s.plain.canvas) = none :=
    (putPix_stop _ _ _ _ _).trans
      (firstStop_none_iff.2 fun q hq => plain_serves fun b hb => hw b (putAccesses_inside _ hq hb))
  obtain ⟨c', hd⟩ := stopOf_none_iff.1 stop
  have final : bytesWritten .setpix s = c'.wrote := by
    have body := (drawing_checked (s := s.plain) (by decide) hs hb).trans (draw_ok_iff.2 ⟨c', hd, rfl⟩)
    rw [bytesWritten, finalWork, body]
    rfl
  have ends := putPix_ends s.plain.platform s.blk.surf s.blk.args.value s.blk.args.x0 s.blk.args.y0 s.plain.canvas
  have hd : putPix s.plain.platform s.blk.surf s.blk.args.value s.blk.args.x0 s.blk.args.y0 s.plain.canvas =
    .ok () c' := hd
  rw [hd] at ends
  rw [final]
  exact ⟨fun h => (ends.wrote c h).resolve_left List.not_mem_nil, putPix_wrote (surfCheck_ok_iff.1 hs) hd⟩

/-- SETPIX uses exactly the bytes that its pixel is written in. -/
theorem uses_setpix_iff (hw : ∀ b ∈ pixBytes s.platform s.blk.surf s.blk.args.x0 s.blk.args.y0,
    s.platform.inWindow b = false) :
    uses .setpix s c = true ↔ c ∈ pixBytes s.platform s.blk.surf s.blk.args.x0 s.blk.args.y0 := by
  rw [uses, Bool.or_eq_true, List.contains_iff_mem, bytesWritten_setpix hs hb hw]
  exact ⟨fun h => h.elim (isRefused_setpix_watching hs hb) id, .inr⟩

end Setpix

/-- Settles O17: an access to a byte in use is a race; SETPIX uses the bytes that its pixel is written in, the decoder
those of its accesses, and what writes no memory only bytes of its regions. -/
theorem hostRaceStops : Obligations.HostRaceStops := by
  unfold Obligations.HostRaceStops
  refine ⟨fun s w a c i bytes hl hd hw hc hu => ?_, fun s c hs hb hw => uses_setpix_iff hs hb hw,
    fun i s c hi hw => uses_decode_iff hi hw,
    fun i s c hi hu => uses_in_readRegions ((footprint_memory_false_iff i).2 hi) hu⟩
  have used : ∃ c ∈ accessBytes a bytes.length, s.mayUse c = true := ⟨c, hc, (mayUse_of_command hl hd c).trans hu⟩
  exact ⟨hostMemory_of_race hw used, hostMemory_of_race hw used⟩

end Sys2Proof.Machine
end

section
/-! SUPPORT. Under VRAM16 no command makes an 8-bit write, so that its outcome does not depend on where these are honoured
(20_memory.md R86): O32. -/

namespace Sys2Proof.Machine

/-- The platform with 8-bit writes honoured but in the spans `bad`. -/
def Platform.withBad (p : Platform) (bad : List Span) : Platform := { p with byteWriteBad := bad }

/-- The state on such a platform. -/
def State.withBad (s : State) (bad : List Span) : State := { s with platform := s.platform.withBad bad }

/-- The state of a computation on such a platform. -/
def Work.withBad (w : Work) (bad : List Span) : Work := { w with st := w.st.withBad bad }

/-! ### Drawing under VRAM16 -/

section Drawing
variable {p : Platform} {bad : List Span} {sf : Surface}

/-- A write of more than 8 bits does not ask where 8-bit writes are honoured. -/
theorem memWrite_withBad {n : Nat} (hn : n ≠ 1) (a v : Word) : memWrite (p.withBad bad) a n v = memWrite p a n v := by
  funext c
  have same : access (p.withBad bad) a n .write = access p a n .write := rfl
  simp only [memWrite, same, hn, false_and, if_false]

theorem mergeHalfword_withBad (a mask v : Word) (sh : Nat) :
    mergeHalfword (p.withBad bad) a mask v sh = mergeHalfword p a mask v sh := by
  simp only [mergeHalfword, memWrite_withBad (p := p) (bad := bad) (n := 2) (by decide)]
  rfl

variable (hl : sf.Legal) (hv : sf.vram16 = true)
include hl hv

/-- Under VRAM16 a legal surface has 4 or 8 bits per pixel, written by halfword, or 16 or 32. -/
theorem Surface.Legal.vram16_cases : sf.bpp = 4 ∨ sf.bpp = 8 ∨ sf.bpp = 16 ∨ sf.bpp = 32 := by
  rcases hl.bpp_cases with ⟨h, -⟩ | h | ⟨h, -⟩ | ⟨-, -, h⟩ | ⟨h, -⟩
  · exact .inl h
  · exact .inr (.inl h)
  · exact .inr (.inr (.inl h))
  · rw [hv] at h; cases h
  · exact .inr (.inr (.inr h))

theorem putPix_withBad (v : Word) (x y : Nat) : putPix (p.withBad bad) sf v x y = putPix p sf v x y := by
  rcases hl.vram16_cases hv with h | h | h | h
  · simp only [putPix, h, hv, if_true, mergeHalfword_withBad]
  · simp only [putPix, h, hv, if_true, mergeHalfword_withBad]
  · simp only [putPix, h, memWrite_withBad (p := p) (bad := bad) (n := 2) (by decide)]
  · simp only [putPix, h, memWrite_withBad (p := p) (bad := bad) (n := 4) (by decide)]

theorem pixBytes_withBad (x y : Nat) : pixBytes (p.withBad bad) sf x y = pixBytes p sf x y := by
  rcases hl.vram16_cases hv with h | h | h | h <;> simp only [pixBytes, h, hv, if_true]

theorem drawPixels_withBad (v : Word) (l : List (Nat × Nat)) :
    drawPixels (p.withBad bad) sf v l = drawPixels p sf v l := by
  funext c
  simp only [drawPixels, putPixels, putPix_withBad hl hv, pixBytes_withBad hl hv]

theorem renderRecord_withBad (g : Glyph) (v : Word) :
    renderRecord (p.withBad bad) sf g v = renderRecord p sf g v := by
  have bits : ∀ r, rowBits (p.withBad bad) g r = rowBits p g r := fun _ => rfl
  have plot : ∀ x y, plotGlyphPixel (p.withBad bad) sf v x y = plotGlyphPixel p sf v x y := fun x y => by
    funext c
    simp only [plotGlyphPixel, putPix_withBad hl hv]
  have row : renderRow (p.withBad bad) sf g v = renderRow p sf g v := by
    funext r
    simp only [renderRow, bits, plot]
  simp only [renderRecord, row]

end Drawing

/-! ### Computations that do not depend on it -/

/-- What a computation answers, moved to a platform with 8-bit writes honoured but in the spans `bad`. -/
def answerWithBad {α : Type} (bad : List Span) : EStateM.Result Stop Work α → EStateM.Result Stop Work α
  | .ok a w => .ok a (w.withBad bad)
  | .error e w => .error e (w.withBad bad)

/-- A computation that, on the surfaces meant, does not depend on where 8-bit writes are honoured, and that leaves the
surface as it was. -/
structure Blind {α : Type} (G : Surface → Prop) (bad : List Span) (e : Engine α) : Prop where
  surf : ∀ {w a u}, e w = .ok a u → u.st.blk.surf = w.st.blk.surf
  run : ∀ {w}, G w.st.blk.surf → e (w.withBad bad) = answerWithBad bad (e w)

section Blind
variable {α β : Type} {G : Surface → Prop} {bad : List Span}

theorem Blind.bind {e : Engine α} {f : α → Engine β} (he : Blind G bad e) (hf : ∀ a, Blind G bad (f a)) :
    Blind G bad (e >>= f) where
  surf h := by
    obtain ⟨a, u, h1, h2⟩ := bind_ok_iff.1 h
    exact ((hf a).surf h2).trans (he.surf h1)
  run {w} hG := by
    rw [run_bind, run_bind, he.run hG]
    cases h : e w with
    | ok a u => exact (hf a).run (he.surf h ▸ hG)
    | error r u => rfl

theorem Blind.pure (a : α) : Blind G bad (Pure.pure a : Engine α) where
  surf h := by cases h; rfl
  run _ := rfl

theorem Blind.check (x : Except Stop α) : Blind G bad (check x) where
  surf h := by rw [(check_ok_iff.1 h).2]
  run _ := by cases x <;> rfl

theorem Blind.update {f : State → State} (hs : ∀ s, (f s).blk.surf = s.blk.surf)
    (hw : ∀ s, f (s.withBad bad) = (f s).withBad bad) : Blind G bad (update f) where
  surf h := by cases h; exact hs _
  run {w} _ := congrArg (fun s => EStateM.Result.ok () (⟨s, w.wrote⟩ : Work)) (hw w.st)

theorem Blind.draw (d : Draw α) : Blind G bad (draw d) where
  surf h := by
    obtain ⟨c, -, rfl⟩ := draw_ok_iff.1 h
    rfl
  run {w} _ := by
    have canvas : (w.withBad bad).canvas = w.canvas := rfl
    rw [run_draw, run_draw, canvas]
    cases d w.canvas <;> rfl

/-- A computation that starts by looking at the state goes the same way on either platform. -/
theorem Blind.look {g : State → Engine α} (hg : ∀ s, Blind G bad (g s))
    (hw : ∀ s, G s.blk.surf → g (s.withBad bad) = g s) : Blind G bad (theState >>= g) where
  surf {w a u} h := (hg w.st).surf (w := w) (a := a) (u := u) h
  run {w} hG := (congrFun (hw w.st hG) (w.withBad bad)).trans ((hg w.st).run hG)

/-- SurfCheck lets only legal surfaces through. -/
theorem Blind.surface {g : State → Engine α} (h : Blind (fun sf => G sf ∧ sf.Legal) bad (theState >>= g)) :
    Blind G bad (theState >>= fun s => Machine.check (surfCheck s.blk.surf) >>= fun _ => g s) where
  surf {w a u} ho := by
    obtain ⟨_, _, h1, h2⟩ := bind_ok_iff.1 ho
    cases h1
    obtain ⟨_, _, h3, h4⟩ := bind_ok_iff.1 h2
    obtain ⟨-, rfl⟩ := check_ok_iff.1 h3
    exact h.surf h4
  run {w} hG := by
    show (Machine.check (surfCheck w.st.blk.surf) >>= fun _ => g (w.withBad bad).st) (w.withBad bad) =
      answerWithBad bad ((Machine.check (surfCheck w.st.blk.surf) >>= fun _ => g w.st) w)
    cases hs : surfCheck w.st.blk.surf with
    | error e => rfl
    | ok u => exact h.run ⟨hG, surfCheck_ok_iff.1 hs⟩

theorem blind_setResult0 (v : Word) : Blind G bad (Machine.update (setResult0 v)) := .update (fun _ => rfl) fun _ => rfl
theorem blind_setResult1 (v : Word) : Blind G bad (Machine.update (setResult1 v)) := .update (fun _ => rfl) fun _ => rfl
theorem blind_setDecoder (d : Decoder) : Blind G bad (Machine.update (setDecoder d)) := .update (fun _ => rfl) fun _ => rfl
theorem blind_setLayout (l : Layout) : Blind G bad (Machine.update (setLayout l)) := .update (fun _ => rfl) fun _ => rfl
theorem blind_setGlyph (g : Glyph) : Blind G bad (Machine.update (setGlyph g)) := .update (fun _ => rfl) fun _ => rfl

/-! ### The text commands ask nothing about writes -/

theorem blind_nextCode : Blind G bad nextCode :=
  .look (fun _ => (Blind.check _).bind fun _ => (blind_setDecoder _).bind fun _ => .pure _) fun _ _ => rfl

theorem blind_peekCode : Blind G bad peekCode :=
  .look (fun _ => (Blind.check _).bind fun _ => .pure _) fun _ _ => rfl

theorem blind_endLayout : Blind G bad endLayout :=
  .look (fun _ => (blind_setGlyph _).bind fun _ => (blind_setLayout _).bind fun _ => .pure _) fun _ _ => rfl

theorem blind_layoutGlyph (cp : Word) (i : Fin 8) : Blind G bad (layoutGlyph cp i) :=
  .look (fun _ => (Blind.check _).bind fun _ => (Blind.check _).bind fun _ => (blind_setLayout _).bind fun _ =>
    (blind_setGlyph _).bind fun _ => .pure _) fun _ _ => rfl

theorem blind_layoutCode (cp : Word) : Blind G bad (layoutCode cp) := by
  refine .look (fun s => ?_) fun _ _ => rfl
  dsimp only
  split
  · exact (Blind.check _).bind fun _ => (blind_setLayout _).bind fun _ => (blind_setGlyph _).bind fun _ => .pure _
  · split
    · exact (blind_setGlyph _).bind fun _ => .pure _
    · exact blind_layoutGlyph cp _

theorem blind_layoutStep : Blind G bad layoutStep := by
  refine .look (fun s => ?_) fun _ _ => rfl
  dsimp only
  split
  · exact (blind_setGlyph _).bind fun _ => .pure _
  · split
    · exact blind_endLayout
    · refine blind_nextCode.bind fun cp => ?_
      split
      · exact blind_endLayout
      · exact blind_layoutCode cp

theorem blind_layoutLoop : ∀ fuel, Blind G bad (layoutLoop fuel)
  | 0 => .pure _
  | fuel + 1 => blind_layoutStep.bind fun k => by
    cases k with
    | eof => exact .pure _
    | unprintable | drawable => exact blind_layoutLoop fuel

end Blind

/-! ### Every command -/

/-- A surface under VRAM16 that passes SurfCheck. -/
abbrev Surface.HalfwordWritten (sf : Surface) : Prop := sf.vram16 = true ∧ sf.Legal

theorem blind_renderCurrent {bad : List Span} : Blind Surface.HalfwordWritten bad renderCurrent :=
  .look (fun _ => .draw _) fun _ hG => congrArg draw (renderRecord_withBad hG.2 hG.1 _ _)

theorem blind_renderLoop {bad : List Span} : ∀ fuel, Blind Surface.HalfwordWritten bad (renderLoop fuel)
  | 0 => .pure _
  | fuel + 1 => blind_layoutStep.bind fun k => by
    cases k with
    | eof => exact .pure _
    | unprintable => exact blind_renderLoop fuel
    | drawable => exact blind_renderCurrent.bind fun _ => blind_renderLoop fuel

theorem drawingOf_withBad {i : Instr} {s : State} {bad : List Span} (h : s.blk.surf.HalfwordWritten) :
    drawingOf i (s.withBad bad) = drawingOf i s := by
  have pixels : drawnList i (s.withBad bad) = drawnList i s := rfl
  unfold drawingOf
  rw [pixels]
  split
  · exact putPix_withBad h.2 h.1 _ _ _
  · exact drawPixels_withBad h.2 h.1 _ _

theorem blind_drawing {i : Instr} (hi : i ∈ drawingCommands) {bad : List Span} :
    Blind (fun sf => sf.vram16 = true) bad (bodyOf i) := by
  have body : bodyOf i = theState >>= fun s => check (surfCheck s.blk.surf) >>= fun _ =>
      check (argumentCheck i s) >>= fun _ => draw (drawingOf i s) := funext fun w => drawing_body hi w
  rw [body]
  refine .surface (.look (fun _ => (Blind.check _).bind fun _ => .draw _) fun s hG => ?_)
  have checks : argumentCheck i (s.withBad bad) = argumentCheck i s := rfl
  rw [checks, drawingOf_withBad hG]

/-- Under VRAM16 no command depends on where 8-bit writes are honoured. -/
theorem blind_bodyOf (i : Instr) {bad : List Span} : Blind (fun sf => sf.vram16 = true) bad (bodyOf i) := by
  cases i with
  | nop => exact .pure _
  | setpix | hrun | vrun | fill | fillrect | rectout | line => exact blind_drawing (by decide)
  | getpix =>
    exact .surface (.look (fun _ => (Blind.check _).bind fun _ => (Blind.check _).bind fun _ => blind_setResult0 _)
      fun _ _ => rfl)
  | mapaddr =>
    exact .surface (.look (fun _ => (Blind.check _).bind fun _ => (blind_setResult0 _).bind fun _ => blind_setResult1 _)
      fun _ _ => rfl)
  | decStart => exact .look (fun _ => blind_setDecoder _) fun _ _ => rfl
  | decNext => exact blind_nextCode.bind fun _ => blind_setResult0 _
  | decPeek =>
    exact blind_peekCode.bind fun _ => blind_setResult0 _
  | glyphLookup =>
    refine .look (fun s => ?_) fun _ _ => rfl
    dsimp only
    split
    · exact (blind_setResult0 _).bind fun _ => blind_setResult1 _
    · exact (Blind.check _).bind fun _ => (blind_setResult0 _).bind fun _ => blind_setResult1 _
  | layoutStart =>
    exact .look (fun _ => (blind_setDecoder _).bind fun _ => (blind_setLayout _).bind fun _ => blind_setGlyph _)
      fun _ _ => rfl
  | layoutNext => exact blind_layoutStep.bind fun _ => .pure _
  | layoutExhaust => exact .look (fun _ => blind_layoutLoop _) fun _ _ => rfl
  | renderGlyph => exact .surface (.look (fun _ => blind_renderCurrent) fun _ _ => rfl)
  | renderText => exact .surface (.look (fun _ => blind_renderLoop _) fun _ _ => rfl)

/-- Settles O32: under VRAM16 every write of a command is of 16 or 32 bits (`putPix_withBad`), and nothing else that it
does asks where 8-bit writes are honoured (`blind_bodyOf`). -/
theorem noByteWritesUnderVram16 : Obligations.NoByteWritesUnderVram16 := by
  unfold Obligations.NoByteWritesUnderVram16
  intro i s bad hv
  have run : bodyOf i { st := s.withBad bad, wrote := [] } = answerWithBad bad (bodyOf i { st := s, wrote := [] }) :=
    (blind_bodyOf i).run (w := { st := s, wrote := [] }) hv
  rw [exec_eq, exec_eq]
  show finish (bodyOf i) (s.withBad bad) = _
  rw [finish, finish, run]
  cases bodyOf i { st := s, wrote := [] } with
  | ok u w => rfl
  | error e w => cases e <;> rfl

end Sys2Proof.Machine
end

section
/-! SUPPORT. The decoder of command words, by the two fields of a word, and from it O1 to O4: the only word of a command
is its encoding (30_encoding.md R120, R123 to R125). -/

namespace Sys2Proof

/-! ### The opcode map -/

theorem opcode_mem_opcodeTable (i : Instr) : (i.opcode, i) ∈ opcodeTable := by
  cases i <;> decide

theorem opcode_of_mem_opcodeTable : ∀ row ∈ opcodeTable, row.1 = row.2.opcode := by
  decide

theorem mem_opcodeTable_iff {op : Byte} {i : Instr} : (op, i) ∈ opcodeTable ↔ op = i.opcode :=
  ⟨opcode_of_mem_opcodeTable (op, i), fun h => h ▸ opcode_mem_opcodeTable i⟩

theorem opcode_mem_assignedOpcodes (i : Instr) : i.opcode ∈ assignedOpcodes := by
  cases i <;> decide

theorem instrOfOpcode_opcode (i : Instr) : instrOfOpcode i.opcode = some i := by
  cases i <;> decide

theorem instrOfOpcode_eq_some_iff {op : Byte} {i : Instr} : instrOfOpcode op = some i ↔ op = i.opcode := by
  refine ⟨fun h => ?_, fun h => h ▸ instrOfOpcode_opcode i⟩
  obtain ⟨row, found, rfl⟩ := Option.map_eq_some_iff.1 h
  have key : row.1 = op := by simpa using List.find?_some found
  exact key ▸ opcode_of_mem_opcodeTable row (List.mem_of_find?_eq_some found)

/-! ### The decoder -/

theorem reservedClear_ofWord_iff {w : Word} :
    (CommandWord.ofWord w).reservedClear = true ↔ w.extractLsb' 8 24 = 0 :=
  beq_iff_eq

theorem decode_eq_command_iff {w : Word} {i : Instr} :
    decode w = .command i ↔ w.extractLsb' 8 24 = 0 ∧ w.extractLsb' 0 8 = i.opcode := by
  rw [← reservedClear_ofWord_iff, ← instrOfOpcode_eq_some_iff, decode]
  split
  case isTrue clear =>
    show _ ↔ _ ∧ instrOfOpcode (CommandWord.ofWord w).opcode = some i
    cases instrOfOpcode (CommandWord.ofWord w).opcode <;> simp [clear]
  case isFalse reserved => simp [reserved]

/-- A word is its RSVD and OPCODE fields, side by side. -/
theorem eq_encode_iff {w : Word} {i : Instr} :
    w = encode i ↔ w.extractLsb' 8 24 = 0 ∧ w.extractLsb' 0 8 = i.opcode := by
  constructor
  · rintro rfl
    exact ⟨BitVec.extractLsb'_append_eq_left, BitVec.extractLsb'_append_eq_right⟩
  · rintro ⟨rsvd, opcode⟩
    calc w = w.extractLsb' 0 (24 + 8) := BitVec.extractLsb'_eq_self.symm
      _ = w.extractLsb' 8 24 ++ w.extractLsb' 0 8 := (BitVec.extractLsb'_append_extractLsb'_eq_extractLsb' rfl).symm
      _ = encode i := by rw [rsvd, opcode]; rfl

theorem decode_illegal_of_field {w : Word} (h : w.extractLsb' 8 24 ≠ 0 ∨ w.extractLsb' 0 8 ∉ assignedOpcodes) :
    ∃ why, decode w = .illegal why := by
  cases hd : decode w with
  | illegal why => exact ⟨why, rfl⟩
  | command i =>
    obtain ⟨rsvd, opcode⟩ := decode_eq_command_iff.1 hd
    exact absurd (opcode ▸ opcode_mem_assignedOpcodes i) (h.resolve_left (not_not_intro rsvd))

/-- Settles O3: decoding to a command and being its encoding are the same condition on the word's two fields. -/
theorem decodeAndEncodeAgree : Obligations.DecodeAndEncodeAgree := by
  unfold Obligations.DecodeAndEncodeAgree
  intro w i
  exact decode_eq_command_iff.trans eq_encode_iff.symm

/-- Settles O2: a command is in the map with its own opcode and no other (`mem_opcodeTable_iff`). -/
theorem decodingIsTheOpcodeMap : Obligations.DecodingIsTheOpcodeMap := by
  unfold Obligations.DecodingIsTheOpcodeMap
  intro w i
  exact decode_eq_command_iff.trans (and_congr_right' mem_opcodeTable_iff.symm)

/-- Settles O1: each of the words is the encoding of its command. -/
theorem commandWordsDecode : Obligations.CommandWordsDecode := by
  unfold Obligations.CommandWordsDecode
  simp only [decodeAndEncodeAgree _ _]
  decide

namespace Machine

theorem step_of_illegal {s : State} {w : Word} {why : IllegalReason} (ht : s.turn = .engine)
    (hl : s.blk.latch = some w) (hd : decode w = .illegal why) : step s = .next (s.nextTurn.faulted 1 w) := by
  have latched : s.nextTurn.blk.latch = some w := hl
  rw [step_of_engine_turn ht, engineStep, latched]
  show runWord w s.nextTurn = _
  rw [runWord, hd]
  rfl

/-- Settles O4: a word with such a field decodes to no command (`decode_illegal_of_field`), and the engine's step on an
illegal word is `raise IllegalCommand` alone. -/
theorem illegalWordsRaiseIllegalCommand : Obligations.IllegalWordsRaiseIllegalCommand := by
  unfold Obligations.IllegalWordsRaiseIllegalCommand
  refine ⟨fun s w ht hl h => ?_, fun w => ?_⟩
  · obtain ⟨why, hd⟩ := decode_illegal_of_field h
    exact step_of_illegal ht hl hd
  · cases decode w with
    | command i => exact .inl ⟨i, rfl, fun j h => (Decoded.command.inj h).symm⟩
    | illegal why => exact .inr ⟨why, rfl⟩

end Machine

end Sys2Proof
end

section
/-! SUPPORT. The operand accessors in numbers, and O18 from them (30_encoding.md R122). -/

namespace Sys2Proof.Machine

/-! ### The fields of a word -/

theorem toNat_extractLsb' (w : Word) (start len : Nat) :
    (w.extractLsb' start len).toNat = w.toNat / 2 ^ start % 2 ^ len := by
  rw [BitVec.extractLsb'_toNat, Nat.shiftRight_eq_div_pow]

theorem getLsbD_eq_true_iff (w : Word) (k : Nat) : w.getLsbD k = true ↔ w.toNat / 2 ^ k % 2 = 1 := by
  rw [← BitVec.testBit_toNat, Nat.testBit_eq_decide_div_mod_eq, decide_eq_true_iff]

theorem toNat_extractLsb'_bottom (w : Word) (len : Nat) : (w.extractLsb' 0 len).toNat = w.toNat % 2 ^ len := by
  rw [toNat_extractLsb', pow_zero, Nat.div_one]

/-- The bits above a field that ends at bit 31 are none. -/
theorem toNat_extractLsb'_top (w : Word) {start len : Nat} (h : start + len = 32) :
    (w.extractLsb' start len).toNat = w.toNat / 2 ^ start := by
  have bound : w.toNat / 2 ^ start < 2 ^ len := Nat.div_lt_of_lt_mul (by rw [← pow_add, h]; exact w.isLt)
  rw [toNat_extractLsb', Nat.mod_eq_of_lt bound]

theorem lowHalf_eq (w : Word) : lowHalf w = w.toNat % 65536 :=
  toNat_extractLsb'_bottom w 16

theorem highHalf_eq (w : Word) : highHalf w = w.toNat / 65536 :=
  toNat_extractLsb'_top w rfl

/-- A 16-bit pattern, sign-extended: the i16 that is congruent to it. -/
theorem toInt_halfword (h : BitVec 16) :
    (h.toInt - h.toNat) % 65536 = 0 ∧ -32768 ≤ h.toInt ∧ h.toInt < 32768 := by
  have bound := h.isLt
  rw [BitVec.toInt_eq_toNat_cond]
  split <;> omega

theorem lowHalfSigned_spec (w : Word) :
    (lowHalfSigned w - w.toNat) % 65536 = 0 ∧ -32768 ≤ lowHalfSigned w ∧ lowHalfSigned w < 32768 := by
  obtain ⟨congruent, range⟩ := toInt_halfword (w.extractLsb' 0 16)
  have field : (w.extractLsb' 0 16).toNat = w.toNat % 65536 := lowHalf_eq w
  exact ⟨by unfold lowHalfSigned; omega, range⟩

theorem highHalfSigned_spec (w : Word) :
    (highHalfSigned w - (w.toNat / 65536 : Nat)) % 65536 = 0 ∧ -32768 ≤ highHalfSigned w ∧ highHalfSigned w < 32768 := by
  rw [← highHalf_eq]
  exact toInt_halfword (w.extractLsb' 16 16)

/-! ### The operands -/

theorem args_operands (g : Args) :
    g.x0 = g.p0.toNat % 65536 ∧ g.y0 = g.p0.toNat / 65536 ∧ g.x1 = g.p1.toNat % 65536 ∧ g.y1 = g.p1.toNat / 65536 :=
  ⟨lowHalf_eq _, highHalf_eq _, lowHalf_eq _, highHalf_eq _⟩

theorem surface_operands (sf : Surface) :
    sf.width = sf.size.toNat % 65536 ∧ sf.height = sf.size.toNat / 65536 ∧ sf.stride = sf.pitch.toNat % 65536 ∧
    (sf.tiled = true ↔ sf.cfg.toNat % 2 = 1) ∧ (sf.vram16 = true ↔ sf.cfg.toNat / 2 % 2 = 1) ∧
    sf.fmt = sf.cfg.toNat / 16 % 8 := by
  have kind : sf.tiled = true ↔ sf.cfg.toNat / 1 % 2 = 1 := getLsbD_eq_true_iff sf.cfg 0
  rw [Nat.div_one] at kind
  exact ⟨lowHalf_eq _, highHalf_eq _, lowHalf_eq _, kind, getLsbD_eq_true_iff sf.cfg 1, toNat_extractLsb' sf.cfg 4 3⟩

theorem text_byte_operands (r : TextRegs) :
    r.spaceW.toNat = r.ltCfg0.toNat % 256 ∧ r.padW.toNat = r.ltCfg0.toNat / 256 % 256 ∧
    r.lineH.toNat = r.ltCfg0.toNat / 65536 % 256 ∧ r.glyphH.toNat = r.ltCfg0.toNat / 16777216 ∧
    r.fullCell.toNat = r.ltCfg1.toNat % 256 ∧ (r.wrap = true ↔ r.ltCfg1.toNat / 256 % 2 = 1) :=
  ⟨toNat_extractLsb'_bottom r.ltCfg0 8, toNat_extractLsb' r.ltCfg0 8 8, toNat_extractLsb' r.ltCfg0 16 8,
    toNat_extractLsb'_top r.ltCfg0 rfl, toNat_extractLsb'_bottom r.ltCfg1 8, getLsbD_eq_true_iff r.ltCfg1 8⟩

/-- Settles O18: every accessor is a bit field of its register (`toNat_extractLsb'`, `getLsbD_eq_true_iff`), the
layout's start and maximum sign-extended (`lowHalfSigned_spec`, `highHalfSigned_spec`). -/
theorem operandsAreRegisterFields : Obligations.OperandsAreRegisterFields := by
  unfold Obligations.OperandsAreRegisterFields
  refine ⟨args_operands, surface_operands, fun r => ?_⟩
  obtain ⟨startX, startX_ge, startX_lt⟩ := lowHalfSigned_spec r.ltStart
  obtain ⟨startY, startY_ge, startY_lt⟩ := highHalfSigned_spec r.ltStart
  obtain ⟨maxX, maxX_ge, maxX_lt⟩ := lowHalfSigned_spec r.ltMax
  obtain ⟨maxY, maxY_ge, maxY_lt⟩ := highHalfSigned_spec r.ltMax
  exact ⟨startX, startX_ge, startX_lt, startY, startY_ge, startY_lt, maxX, maxX_ge, maxX_lt, maxY, maxY_ge, maxY_lt,
    text_byte_operands r⟩

end Sys2Proof.Machine
end

section
/-! SUPPORT. NOP, and O26 from it and from what a CMD write does (40_control.md R150; 60_exceptions.md R305). -/

namespace Sys2Proof.Machine

/-- NOP's computation is empty, so that nothing but its completion is left. -/
theorem exec_nop (s : State) : exec .nop s = .next (complete s) := by
  rw [exec_eq]
  exact finish_ok rfl

/-- Settles O26: NOP does nothing but complete (`exec_nop`), and the write of its word is a CMD write while FAULT = 1,
whatever the word is (`commandWriteLatchesOrIsDropped`). -/
theorem nopClearsBusyOnly : Obligations.NopClearsBusyOnly := by
  unfold Obligations.NopClearsBusyOnly
  refine ⟨exec_nop, fun s idle faulted => ?_⟩
  obtain ⟨-, -, dropped, -⟩ := commandWriteLatchesOrIsDropped s 0x00000000
  exact dropped idle faulted

end Sys2Proof.Machine
end

section
/-! SUPPORT. A surface command is SurfCheck, the check of its arguments, and the rest (41_pixel.md R160, R169 to R174;
42_raster.md R190 to R193): O27 and O28. -/

namespace Sys2Proof.Machine

/-! ### Two checks and the rest -/

/-- The check that a surface command makes after SurfCheck; the renderer makes none (45_render.md R290). -/
def surfaceArgumentCheck (i : Instr) (s : State) : Except Stop Unit :=
  match i with
  | .getpix => pixelCheck s.blk.surf 0x02 s.blk.args.x0 s.blk.args.y0
  | .mapaddr => pixelCheck s.blk.surf 0x05 s.blk.args.x0 s.blk.args.y0
  | _ => argumentCheck i s

/-- What a surface command does after its checks. -/
def afterChecks (i : Instr) (s : State) : Engine Unit :=
  let sf := s.blk.surf
  let g := s.blk.args
  match i with
  | .getpix => check (getPix s.platform s.mem sf g.x0 g.y0) >>= fun v => update (setResult0 v)
  | .mapaddr => update (setResult0 (sf.pixAddr g.x0 g.y0).1) >>= fun _ =>
      update (setResult1 (mapFlags (sf.pixAddr g.x0 g.y0).2 sf.bpp (sf.vram16 && decide (sf.bpp < 16))
        (!sf.vram16 && sf.bpp == 4)))
  | .renderGlyph => renderCurrent
  | .renderText => renderLoop s.blk.dec.stepBound
  | _ => draw (drawingOf i s)

theorem surface_body {i : Instr} (hi : i ∈ surfaceCommands) (w : Work) :
    bodyOf i w = (check (surfCheck w.st.blk.surf) >>= fun _ => check (surfaceArgumentCheck i w.st) >>= fun _ =>
      afterChecks i w.st) w := by
  cases i with
  | getpix | mapaddr | renderGlyph | renderText => rfl
  | setpix | hrun | vrun | fill | fillrect | rectout | line => exact drawing_body (by decide) w
  | _ => exact absurd hi (by decide)

/-! ### SurfCheck comes first -/

/-- A surface command whose descriptor fails SurfCheck changes nothing but the fault bits. -/
theorem exec_badSurface {i : Instr} (hi : i ∈ surfaceCommands) {s : State} {reason : Word}
    (h : surfCheck s.blk.surf = .error (.raise (.badSurface reason))) : exec i s = .next (s.faulted 2 reason) := by
  rw [exec_eq]
  exact finish_raise ((surface_body hi _).trans (check_bind_error h))

/-- The legal combinations of KIND, VRAM16 and FMT (41_pixel.md R160). -/
theorem Surface.legal_iff (sf : Surface) : sf.legal = true ↔
    (sf.tiled = false ∧ (sf.fmt = 1 ∨ sf.fmt = 2 ∨ sf.fmt = 3 ∨ sf.fmt = 4) ∧ ¬ (sf.vram16 = true ∧ sf.fmt = 3)) ∨
      (sf.tiled = true ∧ (sf.fmt = 0 ∨ sf.fmt = 1)) := by
  unfold Surface.legal
  cases sf.tiled
  · cases sf.vram16 <;> simp [or_assoc]
  · simp

/-- The alignment of SURF_BASE (41_pixel.md R160). -/
theorem Surface.aligned_iff (sf : Surface) : sf.base.toNat % sf.baseAlign = 0 ↔
    ((sf.tiled = false ∧ sf.fmt = 2) ∨ sf.vram16 = true → sf.base.toNat % 2 = 0) ∧
      (sf.tiled = false ∧ sf.fmt = 4 → sf.base.toNat % 4 = 0) := by
  have four : sf.base.toNat % 4 = 0 → sf.base.toNat % 2 = 0 := by omega
  unfold Surface.baseAlign
  cases sf.tiled
  · by_cases h2 : sf.fmt = 2
    · cases sf.vram16 <;> simp [h2]
    · by_cases h4 : sf.fmt = 4
      · cases sf.vram16
        · simp [h4]
        · simpa [h4] using four
      · cases sf.vram16 <;> simp [h2, h4, Nat.mod_one]
  · cases sf.vram16 <;> simp [Nat.mod_one]

/-! ### The check of the arguments -/

/-- The check passes unless `bad` holds, and else raises OutOfBounds with the opcode. -/
def Checks (x : Except Stop Unit) (opcode : Word) (bad : Prop) : Prop :=
  (bad → x = .error (.raise (.outOfBounds opcode))) ∧ (¬ bad → x = .ok ())

theorem Checks.test {q bad : Prop} [Decidable q] {opcode : Word} (h : q ↔ ¬ bad) :
    Checks (if q then .ok () else .error (.raise (.outOfBounds opcode))) opcode bad :=
  ⟨fun hb => if_neg fun hq => h.1 hq hb, fun hb => if_pos (h.2 hb)⟩

theorem Checks.congr {x : Except Stop Unit} {opcode : Word} {bad bad' : Prop} (h : Checks x opcode bad)
    (hb : bad' ↔ bad) : Checks x opcode bad' := ⟨fun h' => h.1 (hb.1 h'), fun h' => h.2 fun hbad => h' (hb.2 hbad)⟩

/-- One check after the other. -/
theorem Checks.bind {x y : Except Stop Unit} {opcode : Word} {bad bad' : Prop} (hx : Checks x opcode bad)
    (hy : Checks y opcode bad') : Checks (x >>= fun _ => y) opcode (bad ∨ bad') := by
  by_cases hb : bad
  · rw [hx.1 hb]
    exact ⟨fun _ => rfl, fun h => absurd (.inl hb) h⟩
  · rw [hx.2 hb]
    exact hy.congr (or_iff_right hb)

theorem pixelCheck_checks (sf : Surface) (opcode : Word) (x y : Nat) :
    Checks (pixelCheck sf opcode x y) opcode (¬ sf.Inside x y) := .test (inBounds_iff.trans not_not.symm)

theorem runCheckH_checks (sf : Surface) (opcode : Word) (x y n : Nat) :
    Checks (runCheckH sf opcode x y n) opcode (¬ (sf.Inside x y ∧ x + n ≤ sf.pixelWidth)) :=
  .test (by rw [not_not, Surface.Inside, and_assoc])

theorem runCheckV_checks (sf : Surface) (opcode : Word) (x y n : Nat) :
    Checks (runCheckV sf opcode x y n) opcode (¬ (sf.Inside x y ∧ y + n ≤ sf.pixelHeight)) :=
  .test (by rw [not_not, Surface.Inside, and_assoc])

theorem rectCheck_checks (sf : Surface) (x y w h : Nat) : Checks (rectCheck sf x y w h) 0x09
    (0 < h ∧ ¬ (x < sf.pixelWidth ∧ x + w ≤ sf.pixelWidth ∧ y + h ≤ sf.pixelHeight)) := .test (by omega)

/-- The four cases of RECTOUT (42_raster.md R192). -/
theorem rectoutCheck_checks (sf : Surface) (x y w h : Nat) : Checks (rectoutCheck sf x y w h) 0x0A
    ((w = 0 ∧ h = 0 ∧ ¬ sf.Inside x y) ∨
      (w = 0 ∧ 0 < h ∧ ¬ (sf.Inside x y ∧ y + h ≤ sf.pixelHeight)) ∨
      (0 < w ∧ h = 0 ∧ ¬ (sf.Inside x y ∧ x + w ≤ sf.pixelWidth)) ∨
      (0 < w ∧ 0 < h ∧ ¬ (x + w ≤ sf.pixelWidth ∧ y + h ≤ sf.pixelHeight))) := by
  unfold rectoutCheck
  rcases Nat.eq_zero_or_pos w with hw | hw <;> rcases Nat.eq_zero_or_pos h with hh | hh
  · rw [if_pos ⟨hw, hh⟩]
    exact (pixelCheck_checks sf _ x y).congr (by simp [hw, hh])
  · rw [if_neg (by omega), if_pos hw]
    exact (runCheckV_checks sf _ x y h).congr (by simp [hw, hh, hh.ne'])
  · rw [if_neg (by omega), if_neg hw.ne', if_pos hh]
    exact (runCheckH_checks sf _ x y w).congr (by simp [hw, hh, hw.ne'])
  · rw [if_neg (by omega), if_neg hw.ne', if_neg hh.ne']
    exact .test (by simp [hw, hh, hw.ne', hh.ne'])

/-- A surface command's arguments are checked as R169 to R174 and R191 to R193 say. -/
theorem surfaceArgumentCheck_checks {i : Instr} (hi : i ∈ surfaceCommands) (s : State) :
    Checks (surfaceArgumentCheck i s) (i.opcode.setWidth 32) (badArguments i s) := by
  cases i with
  | setpix | getpix | mapaddr => exact pixelCheck_checks _ _ _ _
  | hrun => exact runCheckH_checks _ _ _ _ _
  | vrun => exact runCheckV_checks _ _ _ _ _
  | fillrect => exact rectCheck_checks _ _ _ _ _
  | rectout => exact rectoutCheck_checks _ _ _ _ _
  | line => exact (pixelCheck_checks _ _ _ _).bind (pixelCheck_checks _ _ _ _)
  | fill | renderGlyph | renderText => exact ⟨False.elim, fun _ => rfl⟩
  | _ => exact absurd hi (by decide)

/-- A surface command whose argument check fails changes nothing but the fault bits. -/
theorem exec_badArguments {i : Instr} (hi : i ∈ surfaceCommands) {s : State} (hs : surfCheck s.blk.surf = .ok ())
    (hb : badArguments i s) : exec i s = .next (s.faulted 3 (i.opcode.setWidth 32)) := by
  have bad := (surfaceArgumentCheck_checks hi s).1 hb
  rw [exec_eq]
  exact finish_raise ((surface_body hi _).trans ((check_bind_ok hs).trans (check_bind_error bad)))

/-- A surface command whose checks are passed is the rest of it. -/
theorem surface_checked {i : Instr} (hi : i ∈ surfaceCommands) {s : State} (hs : surfCheck s.blk.surf = .ok ())
    (hb : ¬ badArguments i s) : bodyOf i { st := s, wrote := [] } = afterChecks i s { st := s, wrote := [] } :=
  (surface_body hi _).trans ((check_bind_ok hs).trans (check_bind_ok ((surfaceArgumentCheck_checks hi s).2 hb)))

/-! ### The faults after the checks -/

/-- The fault codes that a surface command can raise after its checks: BusError, and the renderer's own. -/
def lateFaults : Instr → List Nat
  | .renderGlyph => [3, 6]
  | .renderText => [3, 4, 5, 6, 7]
  | _ => [6]

theorem afterChecks_behaves {i : Instr} (hi : i ∈ surfaceCommands) {s : State} (hs : surfCheck s.blk.surf = .ok ()) :
    Behaves (footprint i) (lateFaults i) (afterChecks i s) := by
  have drawing : ∀ {f : Footprint}, f.memory = true → Behaves f [6] (draw (drawingOf i s)) := fun hf =>
    behaves_draw hf ((drawingOf_ends i s).mono id fun h => h.among (by decide))
  cases i with
  | setpix | hrun | vrun | fill | fillrect | rectout | line => exact drawing rfl
  | getpix =>
    have read : ∀ r, getPix s.platform s.mem s.blk.surf s.blk.args.x0 s.blk.args.y0 = .error r → r.among [6] :=
      fun _ h => (getPix_error (surfCheck_ok_iff.1 hs) h).among (by decide)
    exact Behaves.bind (Behaves.check read) fun _ => behaves_setResult0 rfl _
  | mapaddr => exact Behaves.bind (behaves_setResult0 rfl _) fun _ => behaves_setResult1 rfl _
  | renderGlyph => exact behaves_renderCurrent rfl (by decide) (by decide)
  | renderText => exact behaves_renderLoop rfl rfl rfl (by decide) (by decide) _
  | _ => exact absurd hi (by decide)

/-- A surface command that faults after its checks raises one of these. -/
theorem code_mem_lateFaults {i : Instr} (hi : i ∈ surfaceCommands) {s t : State}
    (hs : surfCheck s.blk.surf = .ok ()) (hb : ¬ badArguments i s) (hf : s.blk.status.fault = false)
    (h : exec i s = .next t) (ht : t.blk.status.fault = true) : t.blk.status.code.toNat ∈ lateFaults i := by
  have behaves := afterChecks_behaves hi hs { st := s, wrote := [] }
  rw [exec_eq, finish_next_iff, surface_checked hi hs hb] at h
  rcases h with ⟨w, hw, rfl⟩ | ⟨cause, w, hw, rfl⟩
  · rw [hw] at behaves
    have status : w.st.blk.status.fault = false := (congrArg FaultStatus.fault behaves.status).trans hf
    exact absurd (ht.symm.trans status) (by decide)
  · rw [hw] at behaves
    exact behaves.2

/-- Settles O27: SurfCheck's three tests in the raw fields; past it the argument check raises code 3, and the rest one
of `lateFaults`. -/
theorem surfaceChecksComeFirst : Obligations.SurfaceChecksComeFirst := by
  unfold Obligations.SurfaceChecksComeFirst
  intro i s hi kind v16 fmt legal narrow even byFour
  obtain ⟨width, -, stride, tiled, vram16, format⟩ := surface_operands s.blk.surf
  have untiled : s.blk.surf.tiled = false ↔ kind = 0 := by
    rw [← Bool.not_eq_true, tiled]
    omega
  have legal_eq : s.blk.surf.legal = true ↔ legal := by
    rw [Surface.legal_iff, untiled, tiled, vram16, format]
  have narrow_eq : s.blk.surf.stride < s.blk.surf.width ↔ ¬ narrow := by
    rw [width, stride, Nat.not_le]
  have aligned_eq : s.blk.surf.base.toNat % s.blk.surf.baseAlign = 0 ↔ even ∧ byFour := by
    rw [Surface.aligned_iff, untiled, vram16, format]
  have isLegal : legal → ¬ s.blk.surf.legal = false := fun h => by simpa using legal_eq.2 h
  have isNarrow : narrow → ¬ s.blk.surf.stride < s.blk.surf.width := fun h hn => narrow_eq.1 hn h
  refine ⟨fun h => exec_badSurface hi ?_, fun ⟨h, hn⟩ => exec_badSurface hi ?_,
    fun ⟨h, hn, ha⟩ => exec_badSurface hi ?_, fun ⟨h, hn, he, hfour⟩ hf t ht hfault => ?_⟩
  · exact if_pos (Bool.eq_false_iff.2 fun hl => h (legal_eq.1 hl))
  · rw [surfCheck, if_neg (isLegal h), if_pos (narrow_eq.2 hn)]
  · rw [surfCheck, if_neg (isLegal h), if_neg (isNarrow hn), if_pos fun hz => ha (aligned_eq.1 hz)]
  · have hs : surfCheck s.blk.surf = .ok () := by
      rw [surfCheck, if_neg (isLegal h), if_neg (isNarrow hn), if_neg (not_not.2 (aligned_eq.2 ⟨he, hfour⟩))]
    by_cases hb : badArguments i s
    · rw [exec_badArguments hi hs hb] at ht
      cases ht
      exact show (3 : Byte) ≠ 2 by decide
    · intro h2
      have late := code_mem_lateFaults hi hs hb hf ht hfault
      rw [h2] at late
      exact absurd late (by cases i <;> decide)

/-- Settles O28: the argument check is `surfaceArgumentCheck`, and after it only the renderer raises OutOfBounds
(`lateFaults`). -/
theorem argumentChecks : Obligations.ArgumentChecks := by
  unfold Obligations.ArgumentChecks
  refine fun i s hi hs => ⟨exec_badArguments hi hs, fun hb hglyph htext hf t h ht h3 => ?_⟩
  have late := code_mem_lateFaults hi hs hb hf h ht
  rw [h3] at late
  cases i with
  | renderGlyph => exact hglyph rfl
  | renderText => exact htext rfl
  | _ => exact absurd late (by decide)

end Sys2Proof.Machine
end

section
/-! SUPPORT. The address mapper (41_pixel.md R161 to R164) and its flags (R174), and O29 to O31 from them. -/

namespace Sys2Proof.Machine

/-! ### MAPADDR -/

/-- RESULT1 of MAPADDR in numbers (41_pixel.md R174). -/
theorem mapFlags_toNat {shift bpp : Nat} (hs : shift < 16) (hb : bpp < 256) (rmw16 rmw8 : Bool) :
    (mapFlags shift bpp rmw16 rmw8).toNat =
      shift + bpp * 2 ^ 8 + (if rmw16 = true then 2 ^ 16 else 0) + (if rmw8 = true then 2 ^ 17 else 0) := by
  unfold mapFlags
  simp only [toNat_append_add, toNat_bit, BitVec.toNat_ofNat]
  cases rmw16 <;> cases rmw8 <;> simp <;> omega

/-- The address of a pixel in numbers (20_memory.md R81). -/
theorem Surface.toNat_pixAddr (sf : Surface) (x y : Nat) :
    (sf.pixAddr x y).1.toNat = (sf.base.toNat + sf.offset x y) % 2 ^ 32 := by
  rw [sf.pixAddr_fst, BitVec.toNat_add, BitVec.toNat_ofNat, Nat.add_mod_mod]

theorem Surface.pixAddr_snd_lt (sf : Surface) (x y : Nat) : (sf.pixAddr x y).2 < 16 := by
  rw [sf.pixAddr_snd]
  split <;> omega

theorem Surface.bpp_lt (sf : Surface) : sf.bpp < 256 := by
  unfold Surface.bpp
  split <;> decide

/-- MAPADDR of an in-bounds pixel of a legal surface. -/
theorem exec_mapaddr {s : State} (hs : surfCheck s.blk.surf = .ok ())
    (inside : s.blk.surf.Inside s.blk.args.x0 s.blk.args.y0) :
    exec .mapaddr s = .next { s with blk := { s.blk with
      latch := none
      result0 := (s.blk.surf.pixAddr s.blk.args.x0 s.blk.args.y0).1
      result1 := mapFlags (s.blk.surf.pixAddr s.blk.args.x0 s.blk.args.y0).2 s.blk.surf.bpp
        (s.blk.surf.vram16 && decide (s.blk.surf.bpp < 16)) (!s.blk.surf.vram16 && s.blk.surf.bpp == 4) } } := by
  rw [exec_eq]
  exact finish_ok (surface_checked (i := .mapaddr) (by decide) hs (not_not.2 inside))

/-- Settles O29: the address is `pixAddr`, and RESULT1 puts its fields side by side (`mapFlags_toNat`). -/
theorem mapaddrGivesAddressAndFlags : Obligations.MapaddrGivesAddressAndFlags := by
  unfold Obligations.MapaddrGivesAddressAndFlags
  intro s hs sf x y bits scale tile offset shift hx hy
  have bpp : sf.bpp = bits := rfl
  have width : sf.pixelWidth = scale * sf.width := by
    simp only [Surface.pixelWidth, scale]
    split <;> simp
  have height : sf.pixelHeight = scale * sf.height := by
    simp only [Surface.pixelHeight, scale]
    split <;> simp
  have offset_eq : sf.offset x y = offset := by
    simp only [Surface.offset, Surface.linearOffset, Surface.tiledOffset, bpp, offset, tile]
    cases sf.tiled <;> rfl
  refine ⟨_, _, exec_mapaddr hs ⟨width ▸ hx, height ▸ hy⟩, ?_, ?_⟩
  · rw [sf.toNat_pixAddr, offset_eq]
  · rw [mapFlags_toNat (sf.pixAddr_snd_lt x y) sf.bpp_lt, sf.pixAddr_snd, bpp]
    simp only [Bool.and_eq_true, decide_eq_true_eq, Bool.not_eq_true', beq_iff_eq]
    rfl

/-! ### Offsets determine pixels -/

/-- A column below the pitch and a row are determined by their place in row-major order. -/
theorem rowMajor_inj {n c c' r r' : Nat} (hc : c < n) (hc' : c' < n) (h : c + r * n = c' + r' * n) :
    c = c' ∧ r = r' := by
  have column : c = c' := by
    have := congrArg (· % n) h
    simpa [Nat.add_mul_mod_self_right, Nat.mod_eq_of_lt hc, Nat.mod_eq_of_lt hc'] using this
  subst column
  exact ⟨rfl, Nat.eq_of_mul_eq_mul_right (Nat.zero_lt_of_lt hc) (Nat.add_left_cancel h)⟩

section Legal
variable {sf : Surface} (hl : sf.Legal) {x y x' y' : Nat}
include hl

theorem Surface.Legal.linearOffset_inj (ht : sf.tiled = false) (hx : sf.Inside x y) (hx' : sf.Inside x' y')
    (h : sf.linearOffset x y = sf.linearOffset x' y') : x = x' ∧ y = y' := by
  have narrow := hl.narrow
  simp only [Surface.Inside, Surface.pixelWidth, ht] at hx hx'
  have whole : 0 < sf.bpp / 8 := by
    rcases hl.bpp_cases with ⟨-, tiled⟩ | hb | ⟨hb, -⟩ | ⟨hb, -⟩ | ⟨hb, -⟩
    · rw [ht] at tiled; cases tiled
    all_goals omega
  refine rowMajor_inj (lt_of_lt_of_le hx.1 narrow) (lt_of_lt_of_le hx'.1 narrow) ?_
  exact Nat.eq_of_mul_eq_mul_right whole h

/-- The tile, and the place in it, are determined by the offset, and by the nibble in 4 bits per pixel. -/
theorem Surface.Legal.tiledOffset_inj (ht : sf.tiled = true) (hx : sf.Inside x y) (hx' : sf.Inside x' y')
    (h : sf.tiledOffset x y = sf.tiledOffset x' y') (hs : sf.bpp = 4 → x % 8 % 2 = x' % 8 % 2) : x = x' ∧ y = y' := by
  have narrow := hl.narrow
  simp only [Surface.Inside, Surface.pixelWidth, ht, if_true] at hx hx'
  have places : x / 8 + y / 8 * sf.stride = x' / 8 + y' / 8 * sf.stride ∧ y % 8 = y' % 8 ∧ x % 8 = x' % 8 := by
    unfold Surface.tiledOffset at h
    generalize y / 8 * sf.stride = row at *
    generalize y' / 8 * sf.stride = row' at *
    rcases hl.bpp_cases with ⟨hb, -⟩ | hb | ⟨-, linear⟩ | ⟨-, linear, -⟩ | ⟨-, linear⟩
    · have := hs hb
      simp only [hb, show (4 : Nat) ≠ 8 by decide, if_false] at h
      omega
    · simp only [hb, if_true] at h
      omega
    all_goals rw [ht] at linear; cases linear
  obtain ⟨tile, row, column⟩ := places
  obtain ⟨tileX, tileY⟩ := rowMajor_inj (by omega) (by omega) tile
  omega

/-- On a legal surface the byte offset and the shift determine the pixel (41_pixel.md R164). -/
theorem Surface.Legal.offset_inj (hx : sf.Inside x y) (hx' : sf.Inside x' y')
    (h : sf.offset x y = sf.offset x' y') (hs : (sf.pixAddr x y).2 = (sf.pixAddr x' y').2) : x = x' ∧ y = y' := by
  unfold Surface.offset at h
  by_cases ht : sf.tiled = true
  · simp only [ht, if_true] at h
    refine hl.tiledOffset_inj ht hx hx' h fun hb => ?_
    rw [sf.pixAddr_snd, sf.pixAddr_snd, if_pos ⟨ht, hb⟩, if_pos ⟨ht, hb⟩] at hs
    omega
  · simp only [ht] at h
    exact hl.linearOffset_inj (Bool.eq_false_iff.2 ht) hx hx' h

/-- Pixels of several bytes lie at multiples of their size. -/
theorem Surface.Legal.unitBytes_dvd_offset : sf.unitBytes ∣ sf.offset x y := by
  have single : sf.unitBytes = 1 → sf.unitBytes ∣ sf.offset x y := fun h => h ▸ one_dvd _
  have whole : sf.tiled = false → sf.unitBytes = sf.bpp / 8 → sf.unitBytes ∣ sf.offset x y := fun ht h => by
    rw [h, Surface.offset, ht]
    exact Dvd.intro_left _ rfl
  rcases hl.bpp_cases with ⟨hb, -⟩ | hb | ⟨hb, ht⟩ | ⟨hb, ht, -⟩ | ⟨hb, ht⟩
  · exact single (by simp [Surface.unitBytes, hb])
  · exact single (by simp [Surface.unitBytes, hb])
  all_goals exact whole ht (by simp [Surface.unitBytes, hb])

end Legal

/-! ### Where the surface fits into the address space -/

theorem Surface.unitBytes_pos (sf : Surface) : 0 < sf.unitBytes := by
  unfold Surface.unitBytes Surface.bpp
  split <;> decide

/-- Units of `n` bytes at different multiples of `n` from a base share no byte while they do not reach around. -/
theorem accessBytes_disjoint {base : Word} {n o o' : Nat} (hn : n ∣ o) (hn' : n ∣ o') (hne : o ≠ o')
    (h : o + n ≤ 2 ^ 32) (h' : o' + n ≤ 2 ^ 32) :
    ∀ a ∈ accessBytes (base + BitVec.ofNat 32 o) n, a ∉ accessBytes (base + BitVec.ofNat 32 o') n := by
  intro a ha ha'
  obtain ⟨j, hj, rfl⟩ := List.mem_map.1 ha
  obtain ⟨j', hj', heq⟩ := List.mem_map.1 ha'
  rw [List.mem_range] at hj hj'
  have sum : o' + j' = o + j := by
    rw [BitVec.add_assoc, BitVec.add_assoc, BitVec.add_right_inj, ← BitVec.ofNat_add, ← BitVec.ofNat_add] at heq
    have := congrArg BitVec.toNat heq
    rwa [BitVec.toNat_ofNat, BitVec.toNat_ofNat, Nat.mod_eq_of_lt (by omega), Nat.mod_eq_of_lt (by omega)] at this
  obtain ⟨q, rfl⟩ := hn
  obtain ⟨q', rfl⟩ := hn'
  obtain ⟨-, rfl⟩ := rowMajor_inj (r := q) (r' := q') hj hj' (by rw [Nat.mul_comm q, Nat.mul_comm q']; omega)
  exact hne rfl

section Fits
variable {sf : Surface} (hl : sf.Legal) (hf : sf.Fits) {x y x' y' : Nat} (hx : sf.Inside x y) (hx' : sf.Inside x' y')
include hl hf hx hx'

/-- No two in-bounds pixels have the same address and shift (41_pixel.md R164). -/
theorem Surface.Legal.pixAddr_inj (h : sf.pixAddr x y = sf.pixAddr x' y') : x = x' ∧ y = y' := by
  have fits := hf x y hx
  have fits' := hf x' y' hx'
  have unit := sf.unitBytes_pos
  refine hl.offset_inj hx hx' ?_ (congrArg Prod.snd h)
  have addr := congrArg Prod.fst h
  rw [sf.pixAddr_fst, sf.pixAddr_fst, BitVec.add_right_inj] at addr
  have := congrArg BitVec.toNat addr
  rwa [BitVec.toNat_ofNat, BitVec.toNat_ofNat, Nat.mod_eq_of_lt (by omega), Nat.mod_eq_of_lt (by omega)] at this

theorem Surface.Legal.pixelBytes_disjoint (h : (sf.pixAddr x y).1 ≠ (sf.pixAddr x' y').1) :
    ∀ a ∈ sf.pixelBytes x y, a ∉ sf.pixelBytes x' y' := by
  rw [sf.pixAddr_fst, sf.pixAddr_fst] at h
  unfold Surface.pixelBytes
  rw [sf.pixAddr_fst, sf.pixAddr_fst]
  exact accessBytes_disjoint hl.unitBytes_dvd_offset hl.unitBytes_dvd_offset (fun e => h (by rw [e]))
    (hf x y hx) (hf x' y' hx')

end Fits

/-- Settles O30: where no offset reaches 2^32 the address determines the offset, and the offset with the shift the
pixel. -/
theorem mapperIsInjective : Obligations.MapperIsInjective := by
  unfold Obligations.MapperIsInjective
  intro sf x y x' y' hs hf hx hx'
  have hl := surfCheck_ok_iff.1 hs
  exact ⟨hl.pixAddr_inj hf hx hx', hl.pixelBytes_disjoint hf hx hx'⟩

/-! ### Where it does not -/

/-- A linear surface of 32 bits per pixel, one pixel wide, with a pitch of 2^15 pixels: its row 2^15 lies 2^32 bytes
from SURF_BASE. -/
def aroundSurface : Surface := { base := 0, cfg := 0x40, size := 0xFFFF0001, pitch := 0x8000 }

/-- Refutes O31: on `aroundSurface` the pixels (0, 0) and (0, 32768) have one address, since addresses are taken modulo
2^32 (log 27). -/
theorem not_mapperIsInjectiveOnEverySurface : ¬ Obligations.MapperIsInjectiveOnEverySurface := by
  unfold Obligations.MapperIsInjectiveOnEverySurface
  intro h
  have legal : surfCheck aroundSurface = .ok () := by decide
  have first : aroundSurface.Inside 0 0 := by unfold Surface.Inside; decide
  have last : aroundSurface.Inside 0 32768 := by unfold Surface.Inside; decide
  have same : aroundSurface.pixAddr 0 0 = aroundSurface.pixAddr 0 32768 := by decide
  exact absurd (h aroundSurface 0 0 0 32768 legal first last same).2 (by decide)

end Sys2Proof.Machine
end

section
/-! SUPPORT. Undisturbed drawing draws exactly the pixels of its list, since pixels inside the surface are apart
(41_pixel.md R164, R166 to R168), and O33 from it. -/

namespace Sys2Proof.Machine

/-- Pixels inside a legal surface that does not reach around the address space are the same or apart (41_pixel.md
R164). -/
theorem Surface.Legal.eq_or_apart {sf : Surface} (hl : sf.Legal) (hf : sf.Fits) {q r : Nat × Nat}
    (hq : sf.Inside q.1 q.2) (hr : sf.Inside r.1 r.2) : q = r ∨ sf.Apart q r := by
  by_cases ha : (sf.pixAddr q.1 q.2).1 = (sf.pixAddr r.1 r.2).1
  · by_cases hs : (sf.pixAddr q.1 q.2).2 = (sf.pixAddr r.1 r.2).2
    · obtain ⟨hx, hy⟩ := hl.pixAddr_inj hf hq hr (Prod.ext ha hs)
      exact .inl (Prod.ext hx hy)
    · exact .inr (.inl ⟨ha, hs⟩)
  · exact .inr (.inr (hl.pixelBytes_disjoint hf hq hr ha))

/-- What PutPix on each pixel of a list leaves is exactly these pixels drawn. -/
theorem drawnExactly_of_putAllExact {s : State} {set : Nat → Nat → Prop} {l : List (Nat × Nat)} {c : Canvas}
    (hl : s.blk.surf.Legal) (hf : s.blk.surf.Fits) (hset : ∀ {a b}, (a, b) ∈ l ↔ set a b)
    (inside : ∀ x y, set x y → s.blk.surf.Inside x y)
    (h : PutAllExact s.blk.surf s.blk.args.value l s.canvas c) : DrawnExactly s c.mem set := by
  refine ⟨fun x y hxy hr => ?_, fun x y hin hxy => ?_, fun a ha => ?_⟩
  · rw [getPix_eq _ hl hr, h.value (x, y) (hset.2 hxy)]
  · refine getPix_congr _ hl (h.others (x, y) fun q hq => ?_)
    refine (hl.eq_or_apart hf hin (inside _ _ (hset.1 hq))).resolve_left fun e => hxy (hset.1 ?_)
    exact e ▸ hq
  · exact h.frame a fun q hq => ha _ _ (hset.1 hq)

/-- A drawing command, its checks passed and its accesses undisturbed, draws exactly its pixels when they lie inside the
surface. -/
theorem drawsExactly_of_inside {i : Instr} {s : State} (hi : i ∈ drawingCommands) (hc : CanDraw s (drawnSet i s))
    (hb : ¬ badArguments i s) (inside : ∀ x y, drawnSet i s x y → s.blk.surf.Inside x y) :
    DrawsExactly i s (drawnSet i s) := by
  have hl := surfCheck_ok_iff.1 hc.legal
  obtain ⟨c, hput, drawn⟩ := putPixels_exact (c := s.canvas) (v := s.blk.args.value) hl hc.mem
    (fun q hq => hc.served q.1 q.2 (mem_drawnList.1 hq))
    (fun q hq r hr => hl.eq_or_apart hc.fits (inside _ _ (mem_drawnList.1 hq)) (inside _ _ (mem_drawnList.1 hr)))
  refine ⟨c.mem, ?_, drawnExactly_of_putAllExact hl hc.fits mem_drawnList inside drawn⟩
  rw [exec_drawing_ok hi hc.legal hb (drawingOf_of_putPixels hput), State.drawn, drawn.draws]
  rfl

/-- The pixels of SETPIX, HRUN and VRUN, their checks passed, lie inside the surface (41_pixel.md R169). -/
theorem inside_of_drawnSet_run {i : Instr} {s : State} (hi : i = .setpix ∨ i = .hrun ∨ i = .vrun)
    (hb : ¬ badArguments i s) {x y : Nat} (h : drawnSet i s x y) : s.blk.surf.Inside x y := by
  rcases hi with rfl | rfl | rfl
  · obtain ⟨rfl, rfl⟩ := h
    exact not_not.1 hb
  · obtain ⟨⟨-, row⟩, bound⟩ := not_not.1 hb
    obtain ⟨-, right, rfl⟩ := h
    exact ⟨lt_of_lt_of_le right bound, row⟩
  · obtain ⟨⟨column, -⟩, bound⟩ := not_not.1 hb
    obtain ⟨rfl, -, down⟩ := h
    exact ⟨column, lt_of_lt_of_le down bound⟩

/-- Settles O33: the pixels of the run lie inside the surface, where pixels are apart, so that each PutPix leaves all
the others (`drawsExactly_of_inside`). -/
theorem pixelCommandsDrawTheirPixels : Obligations.PixelCommandsDrawTheirPixels := by
  unfold Obligations.PixelCommandsDrawTheirPixels
  intro i s hi hc hb
  have drawing : i ∈ drawingCommands := by rcases hi with rfl | rfl | rfl <;> decide
  exact drawsExactly_of_inside drawing hc hb fun _ _ => inside_of_drawnSet_run hi hb

end Sys2Proof.Machine
end

section
/-! SUPPORT. The pixel that GETPIX reads, in numbers (20_memory.md R83; 41_pixel.md R165), and O35. -/

namespace Sys2Proof.Machine

/-- A read is its bytes, little-endian (20_memory.md R83). -/
theorem toNat_readLE (m : Memory) : ∀ {n : Nat} (a : Word), n ≤ 4 →
    (readLE m a n).toNat = Nat.ofDigits (2 ^ 8) ((accessBytes a n).map fun c => (byteAt m c).toNat) := by
  intro n
  induction n with
  | zero => intro a _; rfl
  | succ n ih =>
    intro a hn
    have bytes : ∀ d ∈ (accessBytes (a + 1#32) n).map fun c => (byteAt m c).toNat, d < 2 ^ 8 := fun d hd => by
      obtain ⟨c, -, rfl⟩ := List.mem_map.1 hd
      exact (byteAt m c).isLt
    have rest := ih (a + 1#32) (by omega)
    have small : (readLE m (a + 1#32) n).toNat < (2 ^ 8) ^ n := by
      rw [rest]
      simpa [accessBytes] using Nat.ofDigits_lt_base_pow_length (by decide) bytes
    have room : (readLE m (a + 1#32) n).toNat * 2 ^ 8 < 2 ^ 32 := by
      have : (2 ^ 8) ^ n ≤ (2 ^ 8) ^ 3 := Nat.pow_le_pow_right (by decide) (by omega)
      omega
    have low : ((byteAt m a).setWidth 32).toNat = (byteAt m a).toNat := BitVec.toNat_setWidth_of_le (by decide)
    rw [readLE, BitVec.or_comm, toNat_shift_or (low ▸ (byteAt m a).isLt) room, rest, low, accessBytes_succ,
      List.map_cons, Nat.ofDigits_cons]
    omega

section Pixel
variable (m : Memory) (sf : Surface) (x y : Nat)

/-- Byte `k` from the pixel's first byte on, as a number. -/
def pixelByte (k : Nat) : Nat := (byteAt m (sf.base + BitVec.ofNat 32 (sf.offset x y + k))).toNat

theorem toNat_readLE_pixel {n : Nat} (hn : n ≤ 4) :
    (readLE m (sf.pixAddr x y).1 n).toNat = Nat.ofDigits (2 ^ 8) ((List.range n).map (pixelByte m sf x y)) := by
  rw [toNat_readLE m _ hn, accessBytes, List.map_map, sf.pixAddr_fst]
  congr 1
  refine List.map_congr_left fun k _ => ?_
  rw [Function.comp, pixelByte, BitVec.ofNat_add, BitVec.add_assoc]

/-- A nibble of a byte: the low one for an even x (41_pixel.md R163, R165). -/
theorem toNat_rawPix_nibble (ht : sf.tiled = true) (hf : sf.fmt = 0) : (rawPix m sf x y).toNat =
    if x % 2 = 0 then pixelByte m sf x y 0 % 16 else pixelByte m sf x y 0 / 16 := by
  have bpp : sf.bpp = 4 := by simp [Surface.bpp, hf]
  have byte := toNat_readLE_pixel m sf x y (n := 1) (by decide)
  have bound : pixelByte m sf x y 0 < 2 ^ 8 := BitVec.isLt _
  simp only [List.range_one, List.map_cons, List.map_nil, Nat.ofDigits_singleton] at byte
  have field : ∀ w : Word, (w &&& 0xF).toNat = w.toNat % 16 := fun w => by
    rw [BitVec.toNat_and]
    exact Nat.and_two_pow_sub_one_eq_mod w.toNat 4
  simp only [rawPix, bpp]
  rw [field, BitVec.toNat_ushiftRight, Nat.shiftRight_eq_div_pow, byte, sf.pixAddr_snd, if_pos ⟨ht, bpp⟩]
  by_cases hx : x % 2 = 0
  · rw [if_pos hx, show x % 8 % 2 = 0 by omega]
    simp
  · rw [if_neg hx, show x % 8 % 2 = 1 by omega]
    omega

end Pixel

/-- GETPIX of an in-bounds pixel whose reads are served. -/
theorem exec_getpix {s : State} (hs : surfCheck s.blk.surf = .ok ()) (hb : ¬ badArguments .getpix s)
    (hr : s.platform.readsPixel s.blk.surf s.blk.args.x0 s.blk.args.y0 = true) :
    exec .getpix s = .next { s with blk := { s.blk with
      latch := none, result0 := rawPix s.mem s.blk.surf s.blk.args.x0 s.blk.args.y0 } } := by
  rw [exec_eq]
  exact finish_ok ((surface_checked (i := .getpix) (by decide) hs hb).trans
    (check_bind_ok (getPix_eq s.mem (surfCheck_ok_iff.1 hs) hr)))

/-- Settles O35: RESULT0 is the pixel in memory (`rawPix`): its bytes by `toNat_readLE`, a nibble by
`toNat_rawPix_nibble`. -/
theorem getpixReadsThePixel : Obligations.GetpixReadsThePixel := by
  unfold Obligations.GetpixReadsThePixel
  intro s hs hb sf x y b hr
  refine ⟨_, exec_getpix hs hb hr, ?_⟩
  have whole : ∀ n, n ≤ 4 → rawPix s.mem sf x y = readLE s.mem (sf.pixAddr x y).1 n →
      (rawPix s.mem sf x y).toNat = Nat.ofDigits (2 ^ 8) ((List.range n).map b) := fun n hn h => by
    rw [h]
    exact toNat_readLE_pixel s.mem sf x y hn
  have formats : (sf.tiled = true ∧ sf.fmt = 0) ∨ sf.fmt = 1 ∨ sf.fmt = 2 ∨ sf.fmt = 3 ∨ sf.fmt = 4 := by
    have := (surfCheck_ok_iff.1 hs).format
    tauto
  change (rawPix s.mem sf x y).toNat = _
  rcases formats with ⟨ht, hf⟩ | hf | hf | hf | hf
  · rw [toNat_rawPix_nibble s.mem sf x y ht hf]
    simp only [hf]
    rfl
  · rw [whole 1 (by decide) (by simp [rawPix, Surface.bpp, hf]), show (List.range 1).map b = [b 0] from rfl]
    simp only [hf, Nat.ofDigits_singleton]
  · rw [whole 2 (by decide) (by simp [rawPix, Surface.bpp, hf]), show (List.range 2).map b = [b 0, b 1] from rfl]
    simp only [hf, Nat.ofDigits_cons, Nat.ofDigits_nil, Nat.mul_zero, Nat.add_zero]
  · rw [whole 3 (by decide) (by simp [rawPix, Surface.bpp, hf]),
      show (List.range 3).map b = [b 0, b 1, b 2] from rfl]
    simp only [hf, Nat.ofDigits_cons, Nat.ofDigits_nil]
    omega
  · rw [whole 4 (by decide) (by simp [rawPix, Surface.bpp, hf]),
      show (List.range 4).map b = [b 0, b 1, b 2, b 3] from rfl]
    simp only [hf, Nat.ofDigits_cons, Nat.ofDigits_nil]
    omega

end Sys2Proof.Machine
end

section
/-! SUPPORT. The pixels of LINE: the two endpoints play the same part, both are on the line, and the line stays in their
box (42_raster.md R193 to R196); and O39 from it. -/

namespace Sys2Proof.Machine

/-! ### Lines by their major axis -/

section Stepped
variable {a0 b0 a1 b1 : Int} (h : a0 < a1)
include h

/-- A stepped line starts at its first endpoint. -/
theorem onSteppedLine_first : OnSteppedLine a0 b0 a1 b1 a0 b0 := by
  have start : ∀ d, NearestMinor (a1 - a0) d (a0 - a0) (b0 - b0) := fun d => by
    simp only [NearestMinor, sub_self, mul_zero]
    omega
  refine ⟨le_refl _, h.le, ?_⟩
  split
  · exact start _
  · exact start _

/-- A stepped line ends at its last endpoint. -/
theorem onSteppedLine_last : OnSteppedLine a0 b0 a1 b1 a1 b1 := by
  have stop : ∀ d, NearestMinor (a1 - a0) d (a1 - a0) d := fun d => by
    have whole : 2 * (a1 - a0) * d = 2 * d * (a1 - a0) := mul_right_comm _ _ _
    simp only [NearestMinor, whole]
    omega
  refine ⟨h.le, le_refl _, ?_⟩
  split
  · exact stop _
  · exact stop _

/-- A stepped line stays in the box of its endpoints (42_raster.md R196 (e)). -/
theorem OnSteppedLine.box {a b : Int} (hab : OnSteppedLine a0 b0 a1 b1 a b) :
    a0 ≤ a ∧ a ≤ a1 ∧ min b0 b1 ≤ b ∧ b ≤ max b0 b1 := by
  obtain ⟨first, last, nearest⟩ := hab
  split at nearest
  · have := nearest.bounds (by omega) (by omega) (by omega) (by omega)
    omega
  · have := nearest.bounds (by omega) (by omega) (by omega) (by omega)
    omega

end Stepped

/-- The pixels (major, minor) of the line between two points, whichever of them comes first on the major axis. -/
def OnMajorLine (a0 b0 a1 b1 a b : Int) : Prop :=
  if a0 ≤ a1 then OnSteppedLine a0 b0 a1 b1 a b else OnSteppedLine a1 b1 a0 b0 a b

section Major
variable {a0 b0 a1 b1 : Int} (h : a0 ≠ a1)
include h

theorem onMajorLine_swap {a b : Int} : OnMajorLine a1 b1 a0 b0 a b ↔ OnMajorLine a0 b0 a1 b1 a b := by
  unfold OnMajorLine
  rcases lt_or_gt_of_ne h with hlt | hgt
  · rw [if_neg (by omega), if_pos hlt.le]
  · rw [if_pos hgt.le, if_neg (by omega)]

theorem onMajorLine_first : OnMajorLine a0 b0 a1 b1 a0 b0 := by
  unfold OnMajorLine
  split
  · exact onSteppedLine_first (by omega)
  · exact onSteppedLine_last (by omega)

theorem OnMajorLine.box {a b : Int} (hab : OnMajorLine a0 b0 a1 b1 a b) :
    min a0 a1 ≤ a ∧ a ≤ max a0 a1 ∧ min b0 b1 ≤ b ∧ b ≤ max b0 b1 := by
  unfold OnMajorLine at hab
  split at hab
  · have := hab.box (by omega)
    omega
  · have := hab.box (by omega)
    omega

end Major

/-! ### Lines -/

/-- A line is a point, or runs along x, on which its endpoints then differ, or along y, on which they then differ
(42_raster.md R193). -/
theorem onLine_cases (x0 y0 x1 y1 : Int) :
    (x0 = x1 ∧ y0 = y1 ∧ ∀ x y, OnLine x0 y0 x1 y1 x y ↔ x = x0 ∧ y = y0) ∨
    (x0 ≠ x1 ∧ |y1 - y0| < |x1 - x0| ∧ ∀ x y, OnLine x0 y0 x1 y1 x y ↔ OnMajorLine x0 y0 x1 y1 x y) ∨
    (y0 ≠ y1 ∧ ¬ |y1 - y0| < |x1 - x0| ∧ ∀ x y, OnLine x0 y0 x1 y1 x y ↔ OnMajorLine y0 x0 y1 x1 y x) := by
  by_cases point : x0 = x1 ∧ y0 = y1
  · exact .inl ⟨point.1, point.2, fun _ _ => by rw [OnLine, if_pos point]⟩
  · by_cases low : |y1 - y0| < |x1 - x0|
    · have apart : x0 ≠ x1 := by
        rintro rfl
        rw [sub_self, abs_zero] at low
        exact absurd low (abs_nonneg _).not_gt
      exact .inr (.inl ⟨apart, low, fun _ _ => by rw [OnLine, if_neg point, if_pos low]; rfl⟩)
    · have apart : y0 ≠ y1 := by
        rintro rfl
        rw [sub_self, abs_zero, abs_pos] at low
        omega
      exact .inr (.inr ⟨apart, low, fun _ _ => by rw [OnLine, if_neg point, if_neg low]; rfl⟩)

section Line
variable {x0 y0 x1 y1 : Int}

theorem onLine_swap {x y : Int} : OnLine x1 y1 x0 y0 x y ↔ OnLine x0 y0 x1 y1 x y := by
  have dx := abs_sub_comm x0 x1
  have dy := abs_sub_comm y0 y1
  rcases onLine_cases x0 y0 x1 y1 with ⟨rfl, rfl, -⟩ | ⟨hx, low, on⟩ | ⟨hy, high, on⟩
  · exact Iff.rfl
  · rw [on, ← onMajorLine_swap hx, OnLine, if_neg (by omega), if_pos (by rwa [dx, dy])]
    rfl
  · rw [on, ← onMajorLine_swap hy, OnLine, if_neg (by omega), if_neg (by rwa [dx, dy])]
    rfl

theorem onLine_first : OnLine x0 y0 x1 y1 x0 y0 := by
  rcases onLine_cases x0 y0 x1 y1 with ⟨-, -, on⟩ | ⟨hx, -, on⟩ | ⟨hy, -, on⟩
  · exact (on _ _).2 ⟨rfl, rfl⟩
  · exact (on _ _).2 (onMajorLine_first hx)
  · exact (on _ _).2 (onMajorLine_first hy)

theorem OnLine.box {x y : Int} (h : OnLine x0 y0 x1 y1 x y) :
    min x0 x1 ≤ x ∧ x ≤ max x0 x1 ∧ min y0 y1 ≤ y ∧ y ≤ max y0 y1 := by
  rcases onLine_cases x0 y0 x1 y1 with ⟨rfl, rfl, on⟩ | ⟨hx, -, on⟩ | ⟨hy, -, on⟩
  · obtain ⟨rfl, rfl⟩ := (on _ _).1 h
    simp
  · exact ((on _ _).1 h).box hx
  · obtain ⟨bottom, top, left, right⟩ := ((on _ _).1 h).box hy
    exact ⟨left, right, bottom, top⟩

end Line

/-! ### The list that LINE writes -/

theorem length_bresenham (twoMajor twoMinor step : Int) : ∀ (n major : Nat) (minor d : Int),
    (bresenham twoMajor twoMinor step n major minor d).length = n
  | 0, _, _, _ => rfl
  | n + 1, major, minor, d => by
    rw [bresenham, List.length_cons]
    split
    · rw [length_bresenham]
    · rw [length_bresenham]

theorem length_steppedLine (a0 b0 a1 b1 : Nat) : (steppedLine a0 b0 a1 b1).length = a1 - a0 + 1 :=
  length_bresenham ..

/-- LINE writes one pixel per step along its longer axis, both ends included (42_raster.md R196 (c)). -/
theorem length_linePixels (x0 y0 x1 y1 : Nat) :
    (linePixels x0 y0 x1 y1).length = max (distance x0 x1) (distance y0 y1) + 1 := by
  have low : (lineLow x0 y0 x1 y1).length = distance x0 x1 + 1 := by
    unfold lineLow distance
    split <;> rw [length_steppedLine] <;> omega
  have high : (lineHigh x0 y0 x1 y1).length = distance y0 y1 + 1 := by
    unfold lineHigh distance
    rw [List.length_map]
    split <;> rw [length_steppedLine] <;> omega
  have same : ∀ a, distance a a = 0 := fun a => by simp [distance]
  unfold linePixels
  by_cases hy : y0 = y1
  · subst hy
    rw [if_pos rfl, same, Nat.max_zero]
    by_cases hx : x0 = x1
    · subst hx
      rw [if_pos rfl, same]
      rfl
    · rw [if_neg hx, horizontalRun, List.length_map, List.length_range]
  · rw [if_neg hy]
    by_cases hx : x0 = x1
    · subst hx
      rw [if_pos rfl, same, Nat.zero_max, verticalRun, List.length_map, List.length_range]
    · rw [if_neg hx]
      by_cases longer : distance y0 y1 < distance x0 x1
      · rw [if_pos longer, low, Nat.max_eq_left longer.le]
      · rw [if_neg longer, high, Nat.max_eq_right (Nat.le_of_not_lt longer)]

theorem nodup_linePixels (x0 y0 x1 y1 : Nat) : (linePixels x0 y0 x1 y1).Nodup :=
  (linePixels_sorted x0 y0 x1 y1).imp fun {q q'} before same => by
    subst same
    split at before <;> exact lt_irrefl _ before

theorem distance_comm (a b : Nat) : distance a b = distance b a := by
  rw [distance, distance, max_comm, min_comm]

/-- The list of the exchanged endpoints is the same: it holds the same pixels, in the order of the same axis
(42_raster.md R196 (d)). -/
theorem linePixels_swap (x0 y0 x1 y1 : Nat) : linePixels x1 y1 x0 y0 = linePixels x0 y0 x1 y1 := by
  have sorted := linePixels_sorted x1 y1 x0 y0
  rw [distance_comm y1, distance_comm x1] at sorted
  have perm : (linePixels x1 y1 x0 y0).Perm (linePixels x0 y0 x1 y1) :=
    (List.perm_ext_iff_of_nodup (nodup_linePixels ..) (nodup_linePixels ..)).2 fun _ =>
      mem_linePixels.trans (onLine_swap.trans mem_linePixels.symm)
  refine perm.eq_of_pairwise (fun q q' _ _ before after => ?_) sorted (linePixels_sorted ..)
  by_cases longer : distance y0 y1 < distance x0 x1
  · rw [if_pos longer] at before after
    exact absurd before after.asymm
  · rw [if_neg longer] at before after
    exact absurd before after.asymm

/-- Settles O39: the list is strictly sorted along its longer axis, and holds the pixels of `OnLine`, both endpoints
among them, in their box. -/
theorem linePixelsAreDistinctAndInTheBox : Obligations.LinePixelsAreDistinctAndInTheBox := by
  unfold Obligations.LinePixelsAreDistinctAndInTheBox
  intro x0 y0 x1 y1
  refine ⟨nodup_linePixels .., length_linePixels .., mem_linePixels.2 onLine_first,
    mem_linePixels.2 (onLine_swap.1 onLine_first), fun p hp => ?_⟩
  have := (mem_linePixels.1 hp).box
  omega

end Sys2Proof.Machine
end

section
/-! SUPPORT. LINE with its endpoints exchanged makes the same checks and the same drawing (42_raster.md R193, R196), and
O40 from it. -/

namespace Sys2Proof.Machine

/-- The state with LINE's endpoints exchanged. -/
def State.swapEnds (s : State) : State :=
  { s with blk := { s.blk with args := { s.blk.args with p0 := s.blk.args.p1, p1 := s.blk.args.p0 } } }

/-- What a computation answers, with the endpoints exchanged in the state it leaves. -/
def answerSwapped : EStateM.Result Stop Work Unit → EStateM.Result Stop Work Unit
  | .ok u w => .ok u { w with st := w.st.swapEnds }
  | .error e w => .error e { w with st := w.st.swapEnds }

/-- Two endpoint checks raise the same fault in either order. -/
theorem argumentCheck_line_swapEnds (s : State) : argumentCheck .line s.swapEnds = argumentCheck .line s := by
  have checks : ∀ s, Checks (argumentCheck .line s) 0x0B (badArguments .line s) :=
    surfaceArgumentCheck_checks (i := .line) (by decide)
  have same : badArguments .line s.swapEnds ↔ badArguments .line s := or_comm
  by_cases hb : badArguments .line s
  · rw [(checks _).1 hb, (checks _).1 (same.2 hb)]
  · rw [(checks _).2 hb, (checks _).2 (mt same.1 hb)]

theorem drawingOf_line_swapEnds (s : State) : drawingOf .line s.swapEnds = drawingOf .line s :=
  congrArg (drawPixels s.platform s.blk.surf s.blk.args.value) (linePixels_swap ..)

theorem bodyOf_line_swapEnds (s : State) :
    bodyOf .line { st := s.swapEnds, wrote := [] } = answerSwapped (bodyOf .line { st := s, wrote := [] }) := by
  have surface : s.swapEnds.blk.surf = s.blk.surf := rfl
  rw [drawing_body (by decide), drawing_body (by decide)]
  dsimp only
  rw [surface, argumentCheck_line_swapEnds, drawingOf_line_swapEnds]
  cases hs : surfCheck s.blk.surf with
  | error e => rfl
  | ok u =>
    cases ha : argumentCheck .line s with
    | error e => rfl
    | ok u =>
      show draw (drawingOf .line s) { st := s.swapEnds, wrote := [] } =
        answerSwapped (draw (drawingOf .line s) { st := s, wrote := [] })
      have canvas : (Work.mk s.swapEnds []).canvas = (Work.mk s []).canvas := rfl
      rw [run_draw, run_draw, canvas]
      cases drawingOf .line s (Work.mk s []).canvas <;> rfl

/-- Settles O40: both checks raise one fault, and the list of pixels is the same (`linePixels_swap`). -/
theorem lineIsSymmetric : Obligations.LineIsSymmetric := by
  unfold Obligations.LineIsSymmetric
  intro s swap
  rw [exec_eq, exec_eq]
  show finish (bodyOf .line) s.swapEnds = _
  rw [finish, finish, bodyOf_line_swapEnds]
  cases bodyOf .line { st := s, wrote := [] } with
  | ok u w => rfl
  | error e w => cases e <;> rfl

end Sys2Proof.Machine
end

section
/-! SUPPORT. The pixels of the raster commands, their checks passed, lie inside the surface (42_raster.md R190 to R193),
and O37 and O38 from it. -/

namespace Sys2Proof.Machine

theorem inside_of_drawnSet_rectout {s : State} (hb : ¬ badArguments .rectout s) {x y : Nat}
    (h : drawnSet .rectout s x y) : s.blk.surf.Inside x y := by
  rcases h with ⟨hw, hh, rfl, rfl⟩ | ⟨hw, hh, rfl, -, down⟩ | ⟨hw, hh, -, right, rfl⟩ | ⟨hw, hh, -, right, -, down, -⟩
  · exact not_not.1 fun point => hb (.inl ⟨hw, hh, point⟩)
  · obtain ⟨⟨inside, -⟩, bound⟩ := not_not.1 fun column => hb (.inr (.inl ⟨hw, hh, column⟩))
    exact ⟨inside, down.trans_le bound⟩
  · obtain ⟨⟨-, inside⟩, bound⟩ := not_not.1 fun row => hb (.inr (.inr (.inl ⟨hw, hh, row⟩)))
    exact ⟨right.trans_le bound, inside⟩
  · obtain ⟨boundX, boundY⟩ := not_not.1 fun border => hb (.inr (.inr (.inr ⟨hw, hh, border⟩)))
    exact ⟨right.trans_le boundX, down.trans_le boundY⟩

/-- A rectangle of height 0 holds no pixel, so that FILLRECT need not check it (42_raster.md R191). -/
theorem inside_of_drawnSet_fillrect {s : State} (hb : ¬ badArguments .fillrect s) {x y : Nat}
    (h : drawnSet .fillrect s x y) : s.blk.surf.Inside x y := by
  obtain ⟨-, right, up, down⟩ := h
  have height : 0 < s.blk.args.y1 := by omega
  obtain ⟨-, boundX, boundY⟩ := not_not.1 fun bad => hb ⟨height, bad⟩
  exact ⟨right.trans_le boundX, down.trans_le boundY⟩

/-- LINE stays in the box of its endpoints, both of which are inside (42_raster.md R193, R196 (e)). -/
theorem inside_of_drawnSet_line {s : State} (hb : ¬ badArguments .line s) {x y : Nat} (h : drawnSet .line s x y) :
    s.blk.surf.Inside x y := by
  simp only [badArguments, Surface.Inside, not_or, not_not] at hb
  have box := OnLine.box h
  unfold Surface.Inside
  omega

/-- Settles O37: FILL draws inside the surface by definition, the others by their checks, and pixels inside are apart
(`drawsExactly_of_inside`). -/
theorem rectangleCommandsDrawTheirPixels : Obligations.RectangleCommandsDrawTheirPixels := by
  unfold Obligations.RectangleCommandsDrawTheirPixels
  rintro i s (rfl | rfl | rfl) hc hb
  · exact drawsExactly_of_inside (by decide) hc hb fun _ _ => id
  · exact drawsExactly_of_inside (by decide) hc hb fun _ _ => inside_of_drawnSet_fillrect hb
  · exact drawsExactly_of_inside (by decide) hc hb fun _ _ => inside_of_drawnSet_rectout hb

/-- Settles O38: the list of LINE holds the pixels of `OnLine` (`mem_linePixels`), which lie inside the surface. -/
theorem lineDrawsTheNearestPixels : Obligations.LineDrawsTheNearestPixels := by
  unfold Obligations.LineDrawsTheNearestPixels
  intro s hc hb
  exact drawsExactly_of_inside (by decide) hc hb fun _ _ => inside_of_drawnSet_line hb

end Sys2Proof.Machine
end

section
/-! SUPPORT. DEC_START, DEC_NEXT and DEC_PEEK from Decode's value (43_decoder.md R220 to R227), and O43 to O46. -/

namespace Sys2Proof.Machine

/-! ### The three commands -/

/-- DEC_START is one write of Dc.* (43_decoder.md R223). -/
theorem exec_decStart (s : State) : exec .decStart s = .next (complete (setDecoder (.start s.blk.text) s)) := by
  rw [exec_eq]
  exact finish_ok rfl

/-- Settles O43: the decoder that DEC_START writes is the text input at position 0 (`exec_decStart`). -/
theorem decStartLatchesTheText : Obligations.DecStartLatchesTheText := by
  unfold Obligations.DecStartLatchesTheText
  exact exec_decStart

section Decoded
variable {s : State} {v : Word} {n : Nat}

/-- DEC_NEXT leaves DecNext's code point in RESULT0 (43_decoder.md R224). -/
theorem exec_decNext_of_nextCode {w : Work} (h : nextCode { st := s, wrote := [] } = .ok v w) :
    exec .decNext s = .next (complete (setResult0 v w.st)) := by
  rw [exec_eq]
  exact finish_ok (e := decNextBody) (run_bind_ok h)

/-- What DEC_NEXT leaves where Decode has a value, at the end of the input too (43_decoder.md R222, R224). -/
theorem exec_decNext_of_decodeAt
    (h : decodeAt s.platform s.mem s.blk.dec s.blk.dec.pos.toNat = .ok (v, n)) :
    exec .decNext s = .next (complete (setResult0 v (setDecoder (s.blk.dec.advance n) s))) :=
  exec_decNext_of_nextCode ((run_bind_ok (run_theState _)).trans (check_bind_ok h))

/-- What DEC_PEEK leaves where Decode has a value (43_decoder.md R222, R225). -/
theorem exec_decPeek_of_decodeAt
    (h : decodeAt s.platform s.mem s.blk.dec s.blk.dec.pos.toNat = .ok (v, n)) :
    exec .decPeek s = .next (complete (setResult0 v s)) := by
  have peek : peekCode { st := s, wrote := [] } = .ok v { st := s, wrote := [] } :=
    (run_bind_ok (run_theState _)).trans (check_bind_ok h)
  rw [exec_eq]
  exact finish_ok (e := decPeekBody) (run_bind_ok peek)

/-- DEC_NEXT and DEC_PEEK stop as Decode does, with nothing changed. -/
theorem bodyOf_of_decodeAt_error {i : Instr} {e : Stop} (hi : i = .decNext ∨ i = .decPeek)
    (h : decodeAt s.platform s.mem s.blk.dec s.blk.dec.pos.toNat = .error e) :
    bodyOf i { st := s, wrote := [] } = .error e { st := s, wrote := [] } :=
  decode_stopped hi ((decodeAt_stop s).symm.trans (readStop_some_iff.2 h))

/-- Before the end of readable input DEC_NEXT leaves the code point and moves past it (43_decoder.md R222, R224). -/
theorem exec_decNext_of_more (hp : s.blk.dec.pos.toNat < s.blk.dec.len.toNat) (hs : s.servesNextCode) :
    exec .decNext s = .next (complete (setResult0 (BitVec.ofNat 32 s.codeHere.1) (setDecoder s.decoderAfter s))) :=
  exec_decNext_of_nextCode (nextCode_run hp hs)

end Decoded

/-! ### The position after a code point -/

/-- The position after a code point is not cut to 32 bits, since it does not pass the end (43_decoder.md R222). -/
theorem toNat_decoderAfter_pos (s : State) :
    s.decoderAfter.pos.toNat = min (s.blk.dec.pos.toNat + s.codeHere.2) s.blk.dec.len.toNat := by
  have bound := s.blk.dec.len.isLt
  rw [State.decoderAfter, BitVec.toNat_ofNat, Nat.mod_eq_of_lt (by omega)]

/-- Settles O44: DEC_NEXT is DecNext, whose value before the end is `codeHere` (`nextCode_run`) and at the end is -1
(`nextCode_end`); a code point takes one to four bytes (`codeHere_bounds`). -/
theorem decNextReadsACodePoint : Obligations.DecNextReadsACodePoint := by
  unfold Obligations.DecNextReadsACodePoint
  intro s
  refine ⟨fun hp hs => ⟨exec_decNext_of_more hp hs, ?_⟩, fun hend => exec_decNext_of_nextCode (nextCode_end hend)⟩
  obtain ⟨atLeastOne, atMostFour, small⟩ := codeHere_bounds s
  rw [toNat_decoderAfter_pos]
  exact ⟨small, by omega, by omega, by omega⟩

/-! ### DEC_PEEK and DEC_NEXT -/

/-- Where the bytes of the next code point are served Decode has a value, at and beyond the end too. -/
theorem decodeAt_ok_of_serves {s : State} (hs : s.servesNextCode) :
    ∃ v n, decodeAt s.platform s.mem s.blk.dec s.blk.dec.pos.toNat = .ok (v, n) := by
  by_cases hp : s.blk.dec.pos.toNat < s.blk.dec.len.toNat
  · exact ⟨_, _, decodeAt_eq hp hs⟩
  · exact ⟨_, _, decodeAt_end (not_lt.1 hp)⟩

/-- Settles O45: both commands ask Decode at the same position; where it stops, both stop as it does
(`bodyOf_of_decodeAt_error`), and where it has a value, both leave it. -/
theorem decPeekAgreesWithDecNext : Obligations.DecPeekAgreesWithDecNext := by
  unfold Obligations.DecPeekAgreesWithDecNext
  refine ⟨fun s => ?_, fun s hs => ?_⟩
  · cases hd : decodeAt s.platform s.mem s.blk.dec s.blk.dec.pos.toNat with
    | ok r => rw [exec_decNext_of_decodeAt hd, exec_decPeek_of_decodeAt hd]; rfl
    | error e =>
      have next := bodyOf_of_decodeAt_error (.inl rfl) hd
      have peek := bodyOf_of_decodeAt_error (.inr rfl) hd
      rw [exec_eq, exec_eq]
      cases e with
      | raise c => rw [finish_raise next, finish_raise peek]; rfl
      | refuse r => rw [finish_refuse next, finish_refuse peek]
  · obtain ⟨v, n, hd⟩ := decodeAt_ok_of_serves hs
    exact ⟨v, exec_decPeek_of_decodeAt hd, _, exec_decNext_of_decodeAt hd⟩

/-! ### UTF-8 -/

theorem utf8Bytes_length_pos (cp : Nat) : 0 < (utf8Bytes cp).length := by
  unfold utf8Bytes
  split_ifs <;> exact Nat.succ_pos _

/-- The input at the decoder's position holds the UTF-8 bytes of a code point. -/
def State.holdsUtf8 (s : State) (cp : Nat) : Prop :=
  ∀ (k : Nat) (hk : k < (utf8Bytes cp).length), s.inputAt (s.blk.dec.pos.toNat + k) = ((utf8Bytes cp)[k]).toNat

theorem holdsUtf8_of_bytes {s : State} {cp : Nat}
    (hlen : s.blk.dec.pos.toNat + (utf8Bytes cp).length ≤ s.blk.dec.len.toNat)
    (h : ∀ (k : Nat) (hk : k < (utf8Bytes cp).length),
      byteAt s.mem (s.blk.dec.base + BitVec.ofNat 32 (s.blk.dec.pos.toNat + k)) = (utf8Bytes cp)[k]) :
    s.holdsUtf8 cp := by
  intro k hk
  rw [State.inputAt, if_pos (by omega), h k hk]

/-- Decode takes the UTF-8 bytes of a code point apart as `utf8Bytes` put them together, by their number
(43_decoder.md R221, R226). -/
theorem codeHere_of_holdsUtf8 {s : State} {cp : Nat} (hcp : cp < 2 ^ 21) (h : s.holdsUtf8 cp) :
    s.codeHere = (cp, (utf8Bytes cp).length) := by
  unfold State.holdsUtf8 at h
  unfold State.codeHere
  dsimp only
  generalize s.blk.dec.pos.toNat = p at h ⊢
  revert h
  unfold utf8Bytes
  split_ifs with one two three <;> intro h
  · have b0 : s.inputAt p = cp % 256 := h 0 (by simp)
    rw [if_pos (by omega), b0, Nat.mod_eq_of_lt (by omega)]
    rfl
  · have b0 : s.inputAt p = (0xC0 + cp / 64) % 256 := h 0 (by simp)
    have b1 : s.inputAt (p + 1) = (0x80 + cp % 64) % 256 := h 1 (by simp)
    rw [if_neg (by omega), if_pos (by omega)]
    exact Prod.ext (by dsimp only; omega) rfl
  · have b0 : s.inputAt p = (0xE0 + cp / 4096) % 256 := h 0 (by simp)
    have b1 : s.inputAt (p + 1) = (0x80 + cp / 64 % 64) % 256 := h 1 (by simp)
    have b2 : s.inputAt (p + 2) = (0x80 + cp % 64) % 256 := h 2 (by simp)
    rw [if_neg (by omega), if_neg (by omega), if_pos (by omega)]
    exact Prod.ext (by dsimp only; omega) rfl
  · have b0 : s.inputAt p = (0xF0 + cp / 262144) % 256 := h 0 (by simp)
    have b1 : s.inputAt (p + 1) = (0x80 + cp / 4096 % 64) % 256 := h 1 (by simp)
    have b2 : s.inputAt (p + 2) = (0x80 + cp / 64 % 64) % 256 := h 2 (by simp)
    have b3 : s.inputAt (p + 3) = (0x80 + cp % 64) % 256 := h 3 (by simp)
    rw [if_neg (by omega), if_neg (by omega), if_neg (by omega)]
    exact Prod.ext (by dsimp only; omega) rfl

/-- Settles O46: Decode reads the UTF-8 bytes back (`codeHere_of_holdsUtf8`), and they end before the input does. -/
theorem decNextReadsUtf8 : Obligations.DecNextReadsUtf8 := by
  unfold Obligations.DecNextReadsUtf8
  intro s cp hcp hs hlen h
  have pos := utf8Bytes_length_pos cp
  have code := codeHere_of_holdsUtf8 hcp (holdsUtf8_of_bytes hlen h)
  have after : s.decoderAfter = { s.blk.dec with pos := s.blk.dec.pos + BitVec.ofNat 32 (utf8Bytes cp).length } := by
    rw [State.decoderAfter, code, Nat.min_eq_left hlen, BitVec.ofNat_add, BitVec.ofNat_toNat, BitVec.setWidth_eq]
  rw [exec_decNext_of_more (by omega) hs, code, after]
  rfl

end Sys2Proof.Machine
end

section
/-! SUPPORT. LAYOUT_START, and LAYOUT_NEXT from what a layout step answers (44_layout.md R246 to R257, R262, R270, R272):
O49 to O53. -/

namespace Sys2Proof.Machine

/-! ### LAYOUT_START -/

theorem exec_layoutStart (s : State) : exec .layoutStart s =
    .next (complete (setGlyph .reset (setLayout (.start s.blk.text) (setDecoder (.start s.blk.text) s)))) := by
  rw [exec_eq]
  exact finish_ok rfl

/-- The start y cannot overflow: an i16 adjusted by two bytes (44_layout.md R270). -/
theorem isInt32_startY (t : TextRegs) : IsInt32 (t.startY + t.lineH.toNat - t.glyphH.toNat) := by
  obtain ⟨-, atLeast, below⟩ := highHalfSigned_spec t.ltStart
  have lineH := t.lineH.isLt
  have glyphH := t.glyphH.isLt
  unfold IsInt32 TextRegs.startY
  omega

/-- Settles O49: LAYOUT_START is three register writes (`exec_layoutStart`), and the start y is an i32. -/
theorem layoutStartLatchesTheConfiguration : Obligations.LayoutStartLatchesTheConfiguration := by
  unfold Obligations.LayoutStartLatchesTheConfiguration
  exact fun s => ⟨_, toInt_wordOfInt (isInt32_startY s.blk.text), exec_layoutStart s⟩

/-! ### LAYOUT_NEXT is one layout step -/

section LayoutNext
variable {s : State} {w : Work}

theorem exec_layoutNext_of_step {k : StepKind} (h : layoutStep { st := s, wrote := [] } = .ok k w) :
    exec .layoutNext s = .next (complete w.st) := by
  rw [exec_eq]
  exact finish_ok (e := layoutNextBody) (run_bind_ok h)

theorem exec_layoutNext_of_raise {c : Cause} (h : layoutStep { st := s, wrote := [] } = .error (.raise c) w) :
    exec .layoutNext s = .next (raiseFault c w.st) := by
  rw [exec_eq]
  exact finish_raise (e := layoutNextBody) (run_bind_error h)

theorem exec_layoutNext_of_refuse {r : Refusal} (h : layoutStep { st := s, wrote := [] } = .error (.refuse r) w) :
    exec .layoutNext s = .refused r := by
  rw [exec_eq]
  exact finish_refuse (e := layoutNextBody) (run_bind_error h)

end LayoutNext

theorem eofRecord_eq (l : Layout) : eofRecord l =
    { cp := 0xFFFFFFFF, x := l.x, y := l.y, nextX := l.x, info := 0x1000, data := 0, hdr := 0 } := by
  have info : eofInfo = 0x1000 := by decide
  rw [eofRecord, info]
  rfl

/-- Settles O50: the layout step without a layout (`layoutStep_inactive`), and the one that ends it
(`layoutStep_end`). -/
theorem layoutNextEnds : Obligations.LayoutNextEnds := by
  unfold Obligations.LayoutNextEnds
  intro s
  dsimp only
  rw [← eofRecord_eq]
  exact ⟨fun idle => exec_layoutNext_of_step (layoutStep_inactive idle),
    fun active ended => exec_layoutNext_of_step (layoutStep_end active ended)⟩

/-! ### LAYOUT_NEXT at a code point -/

/-- The state after DecNext has taken the code point at the decoder's position. -/
def State.taken (s : State) : State := setDecoder s.decoderAfter s

/-- What is left of a step that has taken a code point, moved the cursor and written a record, field by field. -/
theorem complete_recorded (s : State) (l : Layout) (g : Glyph) : complete (setGlyph g (setLayout l s.taken)) =
    { s with blk := { s.blk with latch := none, dec := s.decoderAfter, lay := l, gl := g } } := by
  unfold State.taken
  generalize s.decoderAfter = d
  rfl

section AtCode
variable {s : State} {cp : Nat}

theorem AtCode.lt (h : AtCode s cp) : cp < 2 ^ 21 := h.code ▸ (codeHere_bounds s).2.2

theorem AtCode.toInt_code (h : AtCode s cp) : (BitVec.ofNat 32 cp).toInt = cp := by
  have := h.lt
  rw [BitVec.toInt_eq_toNat_of_lt (by rw [BitVec.toNat_ofNat]; omega), BitVec.toNat_ofNat]
  omega

/-- A layout step at a code point is steps 3 to 7 of R272 where the code point is taken. -/
theorem AtCode.step (h : AtCode s cp) {r : EStateM.Result Stop Work StepKind}
    (hc : layoutCode (BitVec.ofNat 32 cp) { st := s.taken, wrote := [] } = r) :
    layoutStep { st := s, wrote := [] } = r :=
  (layoutStep_code h).trans hc

theorem AtCode.not_special (h : AtCode s cp) (plain : s.plainCode cp) (l : Layout) :
    specialMove s.platform l (BitVec.ofNat 32 cp) = none :=
  (specialMove_none_iff (by have := h.lt; omega)).2 plain

end AtCode

/-- A sound glyph stays sound while platform, memory and slots stay (44_layout.md R242 to R244). -/
theorem SoundGlyph.kept {s t : State} {i : Fin 8} {cp h : Word} (sound : SoundGlyph s i cp h)
    (platform : t.platform = s.platform) (mem : t.mem = s.mem) (cs : t.blk.cs = s.blk.cs) : SoundGlyph t i cp h := by
  constructor <;> simp only [platform, mem, cs]
  · exact sound.even
  · exact sound.headerInside
  · exact sound.served
  · exact sound.header
  · exact sound.rowsInside

/-- A code point that a slot holds is no more than an i32, so that it is the same number signed and unsigned. -/
theorem State.firstSlot.toInt_code {s : State} {cp : Nat} {i : Fin 8} (h : s.firstSlot cp i) :
    (BitVec.ofNat 32 cp).toInt = cp := by
  obtain ⟨-, ⟨-, -, -, high⟩, -⟩ := h
  have bound := BitVec.toInt_lt (x := (s.blk.cs.get i).max)
  rw [BitVec.toInt_eq_toNat_of_lt (by rw [BitVec.toNat_ofNat]; omega), BitVec.toNat_ofNat]
  omega

theorem State.firstSlot.found {s : State} {cp : Nat} {i : Fin 8} (h : s.firstSlot cp i) :
    findCharset s.blk.cs (BitVec.ofNat 32 cp) = some i :=
  findCharset_some_iff.2 (h.toInt_code.symm ▸ h)

/-! ### Special code points -/

section Space6
variable {p : Platform} (hp : p.wellFormed = true)
include hp

/-- A code point of SPACE6 is none of the fixed special ones (44_layout.md R248). -/
theorem not_mem_fixedSpecials (k : Fin 6) : (p.space6.get k).cp ∉ fixedSpecials := by
  have new := List.all_eq_true.1 (Bool.and_eq_true_iff.1 hp).2 (p.space6.get k)
    (Vector.mem_toList_iff.2 (Vector.getElem_mem k.isLt))
  simpa using new

/-- Of the entries of SPACE6 the search by code point finds the one that has it, since no two have the same
(44_layout.md R248). -/
theorem spaceAdvance_get (k : Fin 6) : spaceAdvance p (p.space6.get k).cp = some (p.space6.get k).adv.toNat := by
  have distinct : (p.space6.toList.map (·.cp)).Nodup := of_decide_eq_true (Bool.and_eq_true_iff.1 hp).1
  have listed : p.space6.get k ∈ p.space6.toList := Vector.mem_toList_iff.2 (Vector.getElem_mem k.isLt)
  have found : (p.space6.toList.find? fun e => e.cp == (p.space6.get k).cp).isSome :=
    List.find?_isSome.2 ⟨_, listed, beq_self_eq_true _⟩
  obtain ⟨e, he⟩ := Option.isSome_iff_exists.1 found
  have same : e.cp = (p.space6.get k).cp := by simpa using List.find?_some he
  rw [spaceAdvance, he, List.inj_on_of_nodup_map distinct (List.mem_of_find?_eq_some he) listed same]
  rfl

theorem spaceAdvance_fixed {cp : Word} (h : cp ∈ fixedSpecials) : spaceAdvance p cp = none := by
  rw [spaceAdvance, Option.map_eq_none_iff, List.find?_eq_none]
  intro e he same
  obtain ⟨k, hk, rfl⟩ := Vector.getElem_of_mem (Vector.mem_toList_iff.1 he)
  exact not_mem_fixedSpecials hp ⟨k, hk⟩ (beq_iff_eq.1 same ▸ h)

/-- Off the fixed special code points, a code point of SPACE6 moves the cursor by its advance (44_layout.md R246). -/
theorem specialMove_space6 (l : Layout) (k : Fin 6) : specialMove p l (p.space6.get k).cp =
    some (l.x.toInt + (p.space6.get k).adv.toNat, l.y.toInt) := by
  have new := not_mem_fixedSpecials hp k
  simp only [fixedSpecials, List.mem_cons, List.not_mem_nil, or_false, not_or] at new
  obtain ⟨tab, newline, space, nbsp, shy, -⟩ := new
  unfold specialMove
  dsimp only
  rw [if_neg space, if_neg nbsp, if_neg tab, if_neg newline, if_neg shy, spaceAdvance_get hp k]

theorem specialMove_fullCell (l : Layout) :
    specialMove p l 0x3000 = some (l.x.toInt + l.fullCell.toNat, l.y.toInt) := by
  have none : spaceAdvance p 0x3000 = none := spaceAdvance_fixed hp (by decide)
  unfold specialMove
  rw [none]
  rfl

end Space6

/-- The tab stop after `x` is the multiple of 16 that is at most 16 further (44_layout.md R247). -/
theorem nextTab_eq {x t : Int} (stop : t % 16 = 0) (after : x < t) (near : t ≤ x + 16) : nextTab x = t := by
  unfold nextTab tabStop
  omega

/-- Settles O51: each row of the table is a case of `specialMove`, and the layout step checks and writes the cursor that
it answers (`layoutCode_special`, `layoutCode_special_overflow`). -/
theorem specialCodePointsMoveTheCursor : Obligations.SpecialCodePointsMoveTheCursor := by
  unfold Obligations.SpecialCodePointsMoveTheCursor
  intro s cp x y h hp l row
  have move : specialMove s.taken.platform s.taken.blk.lay (BitVec.ofNat 32 cp) = some (x, y) := by
    rcases row with ⟨rfl, rfl, rfl⟩ | ⟨rfl, rfl, rfl⟩ | ⟨rfl, stop, after, near, rfl⟩ | ⟨rfl, rfl, rfl⟩ |
      ⟨rfl, rfl, rfl⟩ | ⟨k, rfl, rfl, rfl⟩ | ⟨rfl, rfl, rfl⟩
    · rfl
    · rfl
    · rw [← nextTab_eq stop after near]
      rfl
    · rfl
    · rfl
    · rw [BitVec.ofNat_toNat, BitVec.setWidth_eq]
      exact specialMove_space6 hp _ k
    · exact specialMove_fullCell hp _
  refine ⟨fun fits => ?_, fun overflows => ?_⟩
  · exact (exec_layoutNext_of_step (h.step (layoutCode_special move fits.1 fits.2))).trans
      (congrArg Host.Outcome.next (complete_recorded s _ _))
  · exact exec_layoutNext_of_raise (h.step (layoutCode_special_overflow move overflows))

/-! ### Unknown code points -/

/-- Settles O52: a plain code point is not special (`specialMove_none_iff`), and one that no slot holds is not found
(`findCharset_none_iff`). -/
theorem unknownCodePointsAreUnprintable : Obligations.UnknownCodePointsAreUnprintable := by
  unfold Obligations.UnknownCodePointsAreUnprintable
  intro s cp h plain unheld
  have notFound : findCharset s.blk.cs (BitVec.ofNat 32 cp) = none :=
    findCharset_none_iff.2 (.inr (h.toInt_code ▸ unheld))
  exact exec_layoutNext_of_step (h.step (layoutCode_unknown (h.not_special plain _) notFound))

end Sys2Proof.Machine
end

section
/-! SUPPORT. Where LAYOUT_NEXT leaves a drawable glyph (44_layout.md R250 to R256, R262), and O53. -/

namespace Sys2Proof.Machine

/-! ### Placement -/

theorem Placement.fits_iff {g : Placement} {h : Word} : g.fits h = true ↔
    IsInt32 g.nx ∧ IsInt32 g.cy ∧ IsInt32 g.gx ∧ IsInt32 g.gy ∧ IsInt32 (g.gx + hdrSizeX h) ∧ IsInt32 (g.gx + g.csx) ∧
      IsInt32 (g.gy + g.csy) := by
  simp only [Placement.fits, Bool.and_eq_true, int32_iff, and_assoc]

/-- The glyph of code point `cp` and header `h`, placed at cursor (cx, cy) (44_layout.md R250, R251, R254). -/
def State.glyphAt (s : State) (cp : Nat) (h : Word) (cx cy : Int) : Placement :=
  let spot := glyphSpot s.blk.lay (s.platform.alignClass (BitVec.ofNat 32 cp)) (h.toNat % 16) cx
  clipped s.blk.lay h spot.1 spot.2 cy

section GlyphAt
variable (s : State) (cp : Nat) (h : Word) (cx cy : Int)

theorem glyphAt_gy : (s.glyphAt cp h cx cy).gy = cy + h.toNat / 256 % 16 := by
  simp only [State.glyphAt, clipped, hdrOffsetY_eq]
  push_cast
  rfl

theorem glyphAt_columns (c : Nat) : c < (s.glyphAt cp h cx cy).csx ↔
    c < h.toNat % 16 ∧ (s.glyphAt cp h cx cy).gx + c < s.blk.lay.maxX.toInt := by
  simp only [State.glyphAt, clipped, lt_clampNat_iff, hdrSizeX_eq]
  omega

theorem glyphAt_rows (r : Nat) : r < (s.glyphAt cp h cx cy).csy ↔
    r < h.toNat / 16 % 16 ∧ (s.glyphAt cp h cx cy).gy + r < s.blk.lay.maxY.toInt := by
  simp only [State.glyphAt, clipped, lt_clampNat_iff, hdrSizeY_eq]
  omega

theorem glyphAt_sizes_lt : (s.glyphAt cp h cx cy).csx < 16 ∧ (s.glyphAt cp h cx cy).csy < 16 :=
  ⟨(clampNat_le _ _).trans_lt (hdrSizeX_lt h), (clampNat_le _ _).trans_lt (hdrSizeY_lt h)⟩

theorem glyphAt_trunc :
    (s.glyphAt cp h cx cy).truncX = decide ((s.glyphAt cp h cx cy).csx < h.toNat % 16) ∧
    (s.glyphAt cp h cx cy).truncY = decide ((s.glyphAt cp h cx cy).csy < h.toNat / 16 % 16) := by
  rw [← hdrSizeX_eq, ← hdrSizeY_eq]
  exact ⟨rfl, rfl⟩

end GlyphAt

/-! ### The record -/

/-- GL_INFO of a drawable record in numbers (10_state.md R54). -/
theorem drawableInfo_toNat (i : Fin 8) (cls : AlignClass) (tx ty wide : Bool) {sx sy : Nat} (hx : sx < 16) (hy : sy < 16) :
    (drawableInfo i cls tx ty wide sx sy).toNat = sx + sy * 2 ^ 4 + 2 ^ 8 + wide.toNat * 2 ^ 9 + tx.toNat * 2 ^ 10 +
      ty.toNat * 2 ^ 11 + cls.code.toNat * 2 ^ 13 + i.val * 2 ^ 16 := by
  have slot := i.isLt
  unfold drawableInfo
  simp only [toNat_append_add, toNat_bit, BitVec.toNat_ofNat, Nat.mod_eq_of_lt hx, Nat.mod_eq_of_lt hy]
  simp
  omega

theorem drawableRecord_sizes (cp : Word) (i : Fin 8) (base h : Word) (cls : AlignClass) {g : Placement}
    (hx : g.csx < 16) (hy : g.csy < 16) : (drawableRecord cp i base h cls g).sizeX = g.csx ∧
      (drawableRecord cp i base h cls g).sizeY = g.csy := by
  have info := drawableInfo_toNat i cls g.truncX g.truncY (hdrWide h) hx hy
  unfold Glyph.sizeX Glyph.sizeY drawableRecord
  rw [toNat_extractLsb', toNat_extractLsb', info]
  omega

/-! ### The bounding box -/

theorem IsInt32.min {a b : Int} (ha : IsInt32 a) (hb : IsInt32 b) : IsInt32 (min a b) := by
  unfold IsInt32 at *
  omega

theorem IsInt32.max {a b : Int} (ha : IsInt32 a) (hb : IsInt32 b) : IsInt32 (max a b) := by
  unfold IsInt32 at *
  omega

/-- L.* after the glyph `g`: the cursor after it, and the box (44_layout.md R255, R272). -/
def Layout.placed (l : Layout) (g : Placement) : Layout :=
  Layout.cover { l with x := wordOfInt g.nx, y := wordOfInt g.cy } g

section Placed
variable {l : Layout} {g : Placement}

theorem placed_cursor (l : Layout) (g : Placement) :
    (l.placed g).x = wordOfInt g.nx ∧ (l.placed g).y = wordOfInt g.cy := by
  unfold Layout.placed Layout.cover
  split_ifs <;> exact ⟨rfl, rfl⟩

/-- The cursor and the box are all that a glyph changes. -/
theorem placed_frame (l : Layout) (g : Placement) : l.placed g =
    { l with
      x := (l.placed g).x, y := (l.placed g).y, bbMinX := (l.placed g).bbMinX, bbMinY := (l.placed g).bbMinY,
      bbMaxX := (l.placed g).bbMaxX, bbMaxY := (l.placed g).bbMaxY, bbValid := (l.placed g).bbValid } := by
  unfold Layout.placed Layout.cover
  split_ifs <;> rfl

theorem placed_noBox (h : g.csx = 0 ∨ g.csy = 0) :
    l.placed g = { l with x := (l.placed g).x, y := (l.placed g).y } := by
  rw [Layout.placed, Layout.cover, if_pos h]

variable {h : Word} (hf : g.fits h = true) (hx : 0 < g.csx) (hy : 0 < g.csy)
include hf hx hy

theorem placed_firstBox (hv : l.bbValid = false) :
    (l.placed g).bbMinX.toInt = g.gx ∧ (l.placed g).bbMinY.toInt = g.gy ∧ (l.placed g).bbMaxX.toInt = g.gx + g.csx ∧
      (l.placed g).bbMaxY.toInt = g.gy + g.csy ∧ (l.placed g).bbValid = true := by
  obtain ⟨-, -, left, top, -, right, bottom⟩ := Placement.fits_iff.1 hf
  rw [Layout.placed, Layout.cover, if_neg (by omega), if_neg (by simp [hv])]
  exact ⟨toInt_wordOfInt left, toInt_wordOfInt top, toInt_wordOfInt right, toInt_wordOfInt bottom, rfl⟩

theorem placed_nextBox (hv : l.bbValid = true) :
    (l.placed g).bbMinX.toInt = min l.bbMinX.toInt g.gx ∧ (l.placed g).bbMinY.toInt = min l.bbMinY.toInt g.gy ∧
      (l.placed g).bbMaxX.toInt = max l.bbMaxX.toInt (g.gx + g.csx) ∧
      (l.placed g).bbMaxY.toInt = max l.bbMaxY.toInt (g.gy + g.csy) ∧ (l.placed g).bbValid = true := by
  obtain ⟨-, -, left, top, -, right, bottom⟩ := Placement.fits_iff.1 hf
  rw [Layout.placed, Layout.cover, if_neg (by omega), if_pos hv]
  exact ⟨toInt_wordOfInt ((isInt32_toInt _).min left), toInt_wordOfInt ((isInt32_toInt _).min top),
    toInt_wordOfInt ((isInt32_toInt _).max right), toInt_wordOfInt ((isInt32_toInt _).max bottom), hv⟩

end Placed

/-! ### The state after a drawable glyph -/

section Laid
variable {s : State} {cp : Nat} {i : Fin 8} {h : Word} {cx cy : Int}

/-- The record of the glyph of code point `cp`, with header `h` in slot `i`, at cursor (cx, cy). -/
def State.recordAt (s : State) (cp : Nat) (i : Fin 8) (h : Word) (cx cy : Int) : Glyph :=
  drawableRecord (BitVec.ofNat 32 cp) i (s.blk.cs.get i).base h (s.platform.alignClass (BitVec.ofNat 32 cp))
    (s.glyphAt cp h cx cy)

/-- The state after LAYOUT_NEXT has laid that glyph. -/
def State.laid (s : State) (cp : Nat) (i : Fin 8) (h : Word) (cx cy : Int) : State :=
  { s with blk :=
    { s.blk with
      latch := none, dec := s.decoderAfter, lay := s.blk.lay.placed (s.glyphAt cp h cx cy),
      gl := s.recordAt cp i h cx cy } }

theorem recordAt_sizes (s : State) (cp : Nat) (i : Fin 8) (h : Word) (cx cy : Int) :
    (s.recordAt cp i h cx cy).sizeX = (s.glyphAt cp h cx cy).csx ∧
      (s.recordAt cp i h cx cy).sizeY = (s.glyphAt cp h cx cy).csy :=
  have small := glyphAt_sizes_lt s cp h cx cy
  drawableRecord_sizes _ i _ h _ small.1 small.2

theorem toNat_decide_mul (p : Prop) [Decidable p] (n : Nat) : (decide p).toNat * n = if p then n else 0 := by
  by_cases h : p <;> simp [h]

/-- The record holds the glyph's clipped sizes, its class, its slot and its marks (44_layout.md R254, R262). -/
theorem recordAt_info : (s.recordAt cp i h cx cy).info.toNat =
    (s.recordAt cp i h cx cy).sizeX + (s.recordAt cp i h cx cy).sizeY * 2 ^ 4 + 2 ^ 8 +
      (if 8 < h.toNat % 16 then 2 ^ 9 else 0) +
      (if (s.recordAt cp i h cx cy).sizeX < h.toNat % 16 then 2 ^ 10 else 0) +
      (if (s.recordAt cp i h cx cy).sizeY < h.toNat / 16 % 16 then 2 ^ 11 else 0) +
      (s.platform.alignClass (BitVec.ofNat 32 cp)).code.toNat * 2 ^ 13 + i.val * 2 ^ 16 := by
  obtain ⟨smallX, smallY⟩ := glyphAt_sizes_lt s cp h cx cy
  obtain ⟨sizeX, sizeY⟩ := recordAt_sizes s cp i h cx cy
  obtain ⟨truncX, truncY⟩ := glyphAt_trunc s cp h cx cy
  have wide : hdrWide h = decide (8 < h.toNat % 16) := by rw [hdrWide, hdrSizeX_eq]
  rw [sizeX, sizeY, ← toNat_decide_mul, ← toNat_decide_mul, ← toNat_decide_mul, ← truncX, ← truncY, ← wide]
  exact drawableInfo_toNat i _ _ _ _ smallX smallY

/-- What LAYOUT_NEXT leaves is what `LaidOut` says, since no quantity of the glyph is cut to 32 bits. -/
theorem laid_laidOut (hf : GlyphFits s.blk.lay (s.platform.alignClass (BitVec.ofNat 32 cp)) h cx cy) :
    LaidOut s (s.laid cp i h cx cy) cp i h cx cy := by
  have fits : (s.glyphAt cp h cx cy).fits h = true := fits_clipped_iff.2 hf
  obtain ⟨next, line, gx, gy, -⟩ := Placement.fits_iff.1 fits
  obtain ⟨cursorX, cursorY⟩ := placed_cursor s.blk.lay (s.glyphAt cp h cx cy)
  obtain ⟨width, height⟩ := recordAt_sizes s cp i h cx cy
  have left : (s.recordAt cp i h cx cy).x.toInt = (s.glyphAt cp h cx cy).gx := toInt_wordOfInt gx
  have top : (s.recordAt cp i h cx cy).y.toInt = (s.glyphAt cp h cx cy).gy := toInt_wordOfInt gy
  exact {
    left := left
    top := top.trans (glyphAt_gy ..)
    next := toInt_wordOfInt next
    cursorX := cursorX
    cursorY := (congrArg BitVec.toInt cursorY).trans (toInt_wordOfInt line)
    columns := fun c => by simpa only [State.laid, width, left] using glyphAt_columns s cp h cx cy c
    rows := fun r => by simpa only [State.laid, height, top] using glyphAt_rows s cp h cx cy r
    record := recordAt_info
    rest := ⟨rfl, rfl, by rw [← hdrDataOffset_eq]; rfl⟩
    noBox := fun none => placed_noBox (by simpa only [State.laid, width, height] using none)
    firstBox := fun hv hx hy => by
      simp only [State.laid, width, height, left, top] at hx hy ⊢
      exact placed_firstBox fits hx hy hv
    nextBox := fun hv hx hy => by
      simp only [State.laid, width, height, left, top] at hx hy ⊢
      exact placed_nextBox fits hx hy hv
    layout := placed_frame ..
    frame := rfl }

/-- The layout step of a sound glyph that is placed at (cx, cy): it is laid there, or a quantity overflows. -/
theorem AtCode.exec_glyph (hc : AtCode s cp) (plain : s.plainCode cp) (slot : s.firstSlot cp i)
    (sound : SoundGlyph s i (BitVec.ofNat 32 cp) h)
    (place : placeGlyph s.blk.lay h (s.platform.alignClass (BitVec.ofNat 32 cp)) = s.glyphAt cp h cx cy) :
    (GlyphFits s.blk.lay (s.platform.alignClass (BitVec.ofNat 32 cp)) h cx cy →
      exec .layoutNext s = .next (s.laid cp i h cx cy)) ∧
    (¬ GlyphFits s.blk.lay (s.platform.alignClass (BitVec.ofNat 32 cp)) h cx cy →
      exec .layoutNext s = .next (raiseFault (.overflow (BitVec.ofNat 32 cp)) s.taken)) := by
  have soundTaken : SoundGlyph s.taken i (BitVec.ofNat 32 cp) h := sound.kept rfl rfl rfl
  have glyph := layoutCode_glyph (w := { st := s.taken, wrote := [] }) (hc.not_special plain _) slot.found
  rw [← fits_clipped_iff]
  refine ⟨fun fits => ?_, fun overflows => ?_⟩
  · have run := exec_layoutNext_of_step (hc.step (glyph.trans (layoutGlyph_fits soundTaken (place ▸ fits))))
    rw [run, complete_recorded, State.laid, State.recordAt, ← place]
    rfl
  · have stays : (placeGlyph s.blk.lay h (s.platform.alignClass (BitVec.ofNat 32 cp))).fits h = false :=
      place ▸ Bool.eq_false_iff.2 overflows
    exact exec_layoutNext_of_raise (hc.step (glyph.trans (layoutGlyph_overflow soundTaken stays)))

end Laid

/-- Settles O53: the glyph is placed once, at the cursor or after the wrap (`placeGlyph_eq`), and laid there or not at
all (`AtCode.exec_glyph`, `laid_laidOut`). -/
theorem drawableGlyphsAreLaidOut : Obligations.DrawableGlyphsAreLaidOut := by
  unfold Obligations.DrawableGlyphsAreLaidOut
  intro s cp i h hc plain slot sound l cls outcome
  obtain ⟨stays, wrapped⟩ := placeGlyph_eq s h (s.platform.alignClass (BitVec.ofNat 32 cp))
  have laid : ∀ {cx cy : Int}, placeGlyph s.blk.lay h (s.platform.alignClass (BitVec.ofNat 32 cp)) = s.glyphAt cp h cx cy →
      outcome cx cy := fun place =>
    have exec := hc.exec_glyph plain slot sound place
    ⟨fun fits => ⟨_, exec.1 fits, laid_laidOut fits⟩, exec.2⟩
  exact ⟨fun hw => laid (stays hw), fun hw => laid (wrapped hw)⟩

end Sys2Proof.Machine
end

section
/-! SUPPORT. GLYPH_LOOKUP and the header of a code point (44_layout.md R240 to R244, R249, R260), and O47 and O48. -/

namespace Sys2Proof.Machine

/-! ### The alignment class -/

section AlignClass
variable {p : Platform} {cp : Word}

theorem alignClass_ascii (h : 0x21 ≤ cp.toNat ∧ cp.toNat ≤ 0x7E) : p.alignClass cp = .normal := if_pos h

/-- Off U+0021..U+007E the first range that holds the code point decides (44_layout.md R249; log 16). -/
theorem alignClass_first (h : ¬ (0x21 ≤ cp.toNat ∧ cp.toNat ≤ 0x7E)) {before rest : List AlignRange} {r : AlignRange}
    (hl : p.alignRanges = before ++ r :: rest) (hr : r.first.toNat ≤ cp.toNat ∧ cp.toNat ≤ r.last.toNat)
    (hb : ∀ q ∈ before, ¬ (q.first.toNat ≤ cp.toNat ∧ cp.toNat ≤ q.last.toNat)) : p.alignClass cp = r.cls := by
  have found : (p.alignRanges.find? fun q => decide (q.first.toNat ≤ cp.toNat) && decide (cp.toNat ≤ q.last.toNat)) =
      some r := by
    rw [hl, List.find?_append, List.find?_eq_none.2 (by simpa using hb), Option.none_or]
    exact List.find?_cons_of_pos (by simpa using hr)
  rw [Platform.alignClass, if_neg h, found]

theorem alignClass_outside (h : ¬ (0x21 ≤ cp.toNat ∧ cp.toNat ≤ 0x7E))
    (hq : ∀ q ∈ p.alignRanges, ¬ (q.first.toNat ≤ cp.toNat ∧ cp.toNat ≤ q.last.toNat)) : p.alignClass cp = .normal := by
  have none : (p.alignRanges.find? fun q => decide (q.first.toNat ≤ cp.toNat) && decide (cp.toNat ≤ q.last.toNat)) =
      none := List.find?_eq_none.2 (by simpa using hq)
  rw [Platform.alignClass, if_neg h, none]

end AlignClass

/-! ### GLYPH_LOOKUP -/

/-- RESULT1 of a found code point in numbers (44_layout.md R260). -/
theorem lookupFlags_toNat (i : Fin 8) (cls : AlignClass) :
    (lookupFlags i cls).toNat = 1 + 2 * i.val + 16 * cls.code.toNat := by
  have slot := i.isLt
  unfold lookupFlags
  simp only [toNat_append_add, toNat_bit, BitVec.toNat_ofNat]
  simp
  omega

section GlyphLookup
variable {s : State} {i : Fin 8}

theorem exec_glyphLookup_none (h : findCharset s.blk.cs s.blk.args.value = none) :
    exec .glyphLookup s = .next (complete (setResult1 0 (setResult0 0 s))) := by
  have run : glyphLookupBody { st := s, wrote := [] } = .ok () { st := setResult1 0 (setResult0 0 s), wrote := [] } := by
    refine (run_bind_ok (run_theState _)).trans ?_
    dsimp only
    rw [h]
    rfl
  rw [exec_eq]
  exact finish_ok run

/-- GLYPH_LOOKUP of a code point that slot `i` covers goes as its header does (44_layout.md R260). -/
theorem glyphLookup_run (hi : findCharset s.blk.cs s.blk.args.value = some i) :
    glyphLookupBody { st := s, wrote := [] } =
      (check (getHeader s.platform s.mem s.blk.cs i s.blk.args.value) >>= fun h => do
        update (setResult0 h)
        update (setResult1 (lookupFlags i (s.platform.alignClass s.blk.args.value)))) { st := s, wrote := [] } := by
  refine (run_bind_ok (run_theState _)).trans ?_
  dsimp only
  rw [hi]

theorem exec_glyphLookup_found {h : Word} (hi : findCharset s.blk.cs s.blk.args.value = some i)
    (hh : getHeader s.platform s.mem s.blk.cs i s.blk.args.value = .ok h) : exec .glyphLookup s = .next (complete
      (setResult1 (lookupFlags i (s.platform.alignClass s.blk.args.value)) (setResult0 h s))) := by
  rw [exec_eq]
  exact finish_ok ((glyphLookup_run hi).trans (check_bind_ok hh))

theorem exec_glyphLookup_raise {c : Cause} (hi : findCharset s.blk.cs s.blk.args.value = some i)
    (hh : getHeader s.platform s.mem s.blk.cs i s.blk.args.value = .error (.raise c)) :
    exec .glyphLookup s = .next (raiseFault c s) := by
  rw [exec_eq]
  exact finish_raise ((glyphLookup_run hi).trans (check_bind_error hh))

end GlyphLookup

/-- Settles O47: FindCharset answers the first slot that holds the code point (`findCharset_some_iff`), and a sound glyph
has a header (`getHeader_of_sound`). -/
theorem glyphLookupFindsTheFirstSlot : Obligations.GlyphLookupFindsTheFirstSlot := by
  unfold Obligations.GlyphLookupFindsTheFirstSlot
  refine ⟨by decide, fun p cp => ⟨fun low high => alignClass_ascii ⟨low, high⟩, fun other => ⟨?_, ?_⟩⟩, fun s => ⟨?_, ?_⟩⟩
  · exact fun before r rest hl low high hb => alignClass_first other hl ⟨low, high⟩ hb
  · exact alignClass_outside other
  · exact fun none => exec_glyphLookup_none (findCharset_none_iff.2 none)
  · exact fun i h slot sound => ⟨_, exec_glyphLookup_found (findCharset_some_iff.2 slot) (getHeader_of_sound sound),
      lookupFlags_toNat i _⟩

/-! ### Headers that are refused -/

section Header
variable {p : Platform} {m : Memory} {cs : Vector CharsetSlot 8} {i : Fin 8} {cp : Word}

theorem getHeader_odd (h : (cs.get i).base.toNat % 2 = 1) :
    getHeader p m cs i cp = .error (.raise (.charsetAlign i)) := by
  rw [getHeader]
  exact if_pos (by omega)

variable (even : (cs.get i).base.toNat % 2 = 0)
include even

theorem getHeader_beyond (h : ((cs.get i).len.toNat : Int) < headerOffset (cs.get i) cp + 4) :
    getHeader p m cs i cp = .error (.raise (.charsetRange cp)) := by
  rw [getHeader]
  exact (if_neg (by omega)).trans (if_pos h)

variable (inside : headerOffset (cs.get i) cp + 4 ≤ (cs.get i).len.toNat)
include inside

theorem getHeader_stopped {e : Stop}
    (h : firstStop p (headerAccesses (cs.get i) cp.toInt) = some e) : getHeader p m cs i cp = .error e := by
  have stops : readHeader p m ((cs.get i).base + wordOfInt (headerOffset (cs.get i) cp)) = .error e :=
    readStop_some_iff.1 ((readHeader_stop _).trans h)
  rw [getHeader]
  refine (if_neg (by omega)).trans ((if_neg (by omega)).trans ?_)
  exact except_bind_error_iff.2 (.inl stops)

theorem getHeader_rowsBeyond {h : Word}
    (read : readHeader p m ((cs.get i).base + wordOfInt (headerOffset (cs.get i) cp)) = .ok h)
    (rows : (cs.get i).len.toNat < hdrDataOffset h + hdrSizeY h * hdrRowBytes h) :
    getHeader p m cs i cp = .error (.raise (.charsetRange cp)) := by
  rw [getHeader]
  refine (if_neg (by omega)).trans ((if_neg (by omega)).trans ?_)
  exact except_bind_error_iff.2 (.inr ⟨h, read, if_pos rows⟩)

end Header

/-- GLYPH_LOOKUP and LAYOUT_NEXT of a code point of slot `i` fault as GetHeader does; LAYOUT_NEXT has taken the code
point by then (44_layout.md R260, R272). -/
theorem exec_of_getHeader_raise {j : Instr} {s u : State} {cp : Nat} {i : Fin 8} (slot : s.firstSlot cp i)
    (hj : (j = .glyphLookup ∧ cp = s.blk.args.value.toNat ∧ u = s) ∨
      (j = .layoutNext ∧ AtCode s cp ∧ s.plainCode cp ∧ u = { s with blk := { s.blk with dec := s.decoderAfter } }))
    {c : Cause} (hh : getHeader s.platform s.mem s.blk.cs i (BitVec.ofNat 32 cp) = .error (.raise c)) :
    exec j s = .next (raiseFault c u) := by
  have found := slot.found
  rcases hj with ⟨rfl, rfl, rfl⟩ | ⟨rfl, hc, plain, rfl⟩
  · rw [BitVec.ofNat_toNat, BitVec.setWidth_eq] at found hh
    exact exec_glyphLookup_raise found hh
  · have run := (layoutCode_glyph (w := { st := s.taken, wrote := [] }) (hc.not_special plain _) found).trans
      ((run_bind_ok (run_theState _)).trans (check_bind_error hh))
    exact exec_layoutNext_of_raise (hc.step run)

/-- Settles O48: GetHeader's four tests in order, for both commands (`exec_of_getHeader_raise`). -/
theorem unsoundCharsetsFault : Obligations.UnsoundCharsetsFault := by
  unfold Obligations.UnsoundCharsetsFault
  intro j s u cp i slot hj c offset a h
  have number := slot.toInt_code
  have offset_eq : headerOffset c (BitVec.ofNat 32 cp) = offset := by rw [headerOffset, number]
  have fault : ∀ {e : Cause}, getHeader s.platform s.mem s.blk.cs i (BitVec.ofNat 32 cp) = .error (.raise e) →
      exec j s = .next (raiseFault e u) := exec_of_getHeader_raise slot hj
  refine ⟨fun odd => fault (getHeader_odd odd), fun even beyond => fault (getHeader_beyond even (offset_eq ▸ beyond)),
    fun even inside => ⟨fun b refused => ?_, fun served rows => ?_⟩⟩
  · exact fault (getHeader_stopped even (offset_eq ▸ inside) (firstStop_of_firstRefused (number.symm ▸ refused)))
  · refine fault (getHeader_rowsBeyond even (offset_eq ▸ inside) (h := readLE s.mem a 4) ?_ ?_)
    · rw [offset_eq]
      exact readHeader_of_serves served
    · rw [hdrDataOffset_eq, hdrSizeY_eq, hdrRowBytes_eq]
      exact rows

end Sys2Proof.Machine
end

section
/-! SUPPORT. A layout step only goes forward, and one that does not end consumes input, so that a loop over it has turns
enough (44_layout.md R274, R276; log 26): O54 and O55. -/

namespace Sys2Proof.Machine

/-! ### What a layout step leaves is no further back -/

/-- From `s` to `t` the box has not shrunk, and neither the line nor the decoder has gone back (44_layout.md R276). -/
structure Forward (s t : State) : Prop where
  box : BoxWithin s.blk.lay t.blk.lay
  line : s.blk.lay.y.toInt ≤ t.blk.lay.y.toInt
  pos : s.blk.dec.pos.toNat ≤ t.blk.dec.pos.toNat
  inside : t.blk.dec.pos.toNat ≤ t.blk.dec.len.toNat

theorem BoxWithin.refl (l : Layout) : BoxWithin l l := fun hv => ⟨hv, le_rfl, le_rfl, le_rfl, le_rfl⟩

theorem BoxWithin.trans {a b c : Layout} (h : BoxWithin a b) (h' : BoxWithin b c) : BoxWithin a c := fun ha => by
  obtain ⟨hb, minX, minY, maxX, maxY⟩ := h ha
  obtain ⟨hc, minX', minY', maxX', maxY'⟩ := h' hb
  exact ⟨hc, minX'.trans minX, minY'.trans minY, maxX.trans maxX', maxY.trans maxY'⟩

theorem Forward.refl {s : State} (h : s.blk.dec.pos.toNat ≤ s.blk.dec.len.toNat) : Forward s s :=
  ⟨.refl _, le_rfl, le_rfl, h⟩

theorem toNat_advance_pos (d : Decoder) (n : Nat) :
    (d.advance n).pos.toNat = min (d.pos.toNat + n) d.len.toNat := by
  have bound := d.len.isLt
  rw [Decoder.advance, BitVec.toNat_ofNat, Nat.mod_eq_of_lt (by omega)]

section Forward
variable {s t : State}

theorem Forward.take (h : Forward s t) (n : Nat) : Forward s (setDecoder (t.blk.dec.advance n) t) := by
  have pos := h.pos
  have inside := h.inside
  refine ⟨h.box, h.line, ?_, Decoder.advance_pos_le _ _⟩
  rw [setDecoder_blk, toNat_advance_pos]
  omega

/-- A change of L.* and GL_* whose box has not shrunk, and whose line is no further up. -/
theorem Forward.lay (h : Forward s t) {l : Layout} (box : BoxWithin t.blk.lay l)
    (line : t.blk.lay.y.toInt ≤ l.y.toInt) (g : Glyph) : Forward s (setGlyph g (setLayout l t)) :=
  ⟨h.box.trans box, h.line.trans line, h.pos, h.inside⟩

/-- A special code point never moves the cursor up (44_layout.md R246). -/
theorem specialMove_line {p : Platform} {l : Layout} {cp : Word} {xy : Int × Int} (h : specialMove p l cp = some xy) :
    l.y.toInt ≤ xy.2 := by
  unfold specialMove at h
  dsimp only at h
  have level : ∀ {x : Int}, some (x, l.y.toInt) = some xy → l.y.toInt ≤ xy.2 := fun e => by cases e; exact le_rfl
  split_ifs at h
  · exact level h
  · exact level h
  · exact level h
  · cases h
    exact le_add_of_nonneg_right (Int.natCast_nonneg _)
  · exact level h
  · split at h <;> exact level h
  · split at h
    · exact level h
    · cases h

/-- A wrap only moves the line down (44_layout.md R253). -/
theorem placeGlyph_line (l : Layout) (h : Word) (cls : AlignClass) : l.y.toInt ≤ (placeGlyph l h cls).cy := by
  unfold placeGlyph
  dsimp only
  split
  · exact le_add_of_nonneg_right (Int.natCast_nonneg _)
  · exact le_rfl

/-- The box after a glyph covers the box before (44_layout.md R255). -/
theorem boxWithin_placed (l : Layout) {g : Placement} {h : Word} (hf : g.fits h = true) : BoxWithin l (l.placed g) := by
  intro hv
  by_cases shown : 0 < g.csx ∧ 0 < g.csy
  · obtain ⟨minX, minY, maxX, maxY, valid⟩ := placed_nextBox hf shown.1 shown.2 hv
    rw [minX, minY, maxX, maxY]
    exact ⟨valid, min_le_left _ _, min_le_left _ _, le_max_left _ _, le_max_left _ _⟩
  · rw [placed_noBox (by omega)]
    exact BoxWithin.refl l hv

theorem Forward.glyph (h : Forward s t) {g : Placement} {hdr : Word} (hf : g.fits hdr = true)
    (line : t.blk.lay.y.toInt ≤ g.cy) (r : Glyph) : Forward s (setGlyph r (setLayout (t.blk.lay.placed g) t)) := by
  obtain ⟨-, cy, -⟩ := Placement.fits_iff.1 hf
  refine h.lay (boxWithin_placed _ hf) ?_ r
  rw [(placed_cursor _ _).2, toInt_wordOfInt cy]
  exact line

theorem endLayout_forward (h : Forward s t) : EndsIn (Forward s) (fun _ => True) endLayout t :=
  fun _ => ⟨h.box, h.line, h.pos, h.inside⟩

theorem layoutGlyph_forward (h : Forward s t) (cp : Word) (i : Fin 8) :
    EndsIn (Forward s) (fun _ => True) (layoutGlyph cp i) t := by
  refine .read (.check_bind h (fun _ _ => trivial) fun hdr _ => .check_bind h (fun _ _ => trivial) fun _ hf => ?_)
  exact .update_bind (.update_bind (.pure (h.glyph (overflowCheck_ok hf) (placeGlyph_line _ _ _) _) _))

theorem layoutCode_forward (h : Forward s t) (cp : Word) : EndsIn (Forward s) (fun _ => True) (layoutCode cp) t := by
  refine .read ?_
  dsimp only
  split
  · next xy move =>
    refine .check_bind h (fun _ _ => trivial) fun _ fits => .update_bind (.update_bind (.pure ?_ _))
    have y : IsInt32 xy.2 := int32_iff.1 (Bool.and_eq_true_iff.1 (overflowCheck_ok fits)).2
    exact h.lay (l := { t.blk.lay with x := wordOfInt xy.1, y := wordOfInt xy.2 }) (BoxWithin.refl t.blk.lay)
      ((specialMove_line move).trans_eq (toInt_wordOfInt y).symm) _
  · split
    · exact .update_bind (.pure ⟨h.box, h.line, h.pos, h.inside⟩ _)
    · exact layoutGlyph_forward h cp _

theorem layoutStep_forward (h : Forward s t) : EndsIn (Forward s) (fun _ => True) layoutStep t := by
  refine .read ?_
  dsimp only
  split
  · exact .update_bind (.pure ⟨h.box, h.line, h.pos, h.inside⟩ _)
  · split
    · exact endLayout_forward h
    · refine .nextCode_bind h (fun _ _ => trivial) fun cp n => ?_
      split
      · exact endLayout_forward (h.take n)
      · exact layoutCode_forward (h.take n) cp

end Forward

/-! ### Loops -/

section Loops
variable {P : State → Prop} {Q : Stop → Prop} (step : ∀ s, P s → EndsIn P Q layoutStep s)
include step

/-- What every layout step keeps, LAYOUT_EXHAUST keeps. -/
theorem layoutLoop_endsIn_of_step : ∀ (fuel : Nat) {s : State}, P s → EndsIn P Q (layoutLoop fuel) s
  | 0, _, hs => .pure hs _
  | fuel + 1, _, hs => .bind (step _ hs) fun k t ht => by
    cases k with
    | eof => exact .pure ht _
    | unprintable | drawable => exact layoutLoop_endsIn_of_step fuel ht

/-- What every layout step and the renderer keep, RENDER_TEXT keeps. -/
theorem renderLoop_endsIn_of_step (render : ∀ s, P s → EndsIn P Q renderCurrent s) :
    ∀ (fuel : Nat) {s : State}, P s → EndsIn P Q (renderLoop fuel) s
  | 0, _, hs => .pure hs _
  | fuel + 1, _, hs => .bind (step _ hs) fun k t ht => by
    cases k with
    | eof => exact .pure ht _
    | unprintable => exact renderLoop_endsIn_of_step render fuel ht
    | drawable => exact .bind (render t ht) fun _ u hu => renderLoop_endsIn_of_step render fuel hu

end Loops

theorem renderCurrent_forward {s t : State} (h : Forward s t) : EndsIn (Forward s) (fun _ => True) renderCurrent t :=
  .read (.draw ((renderRecord_ends _ _ _ _).mono (fun _ => trivial) fun _ => trivial) fun _ _ =>
    ⟨h.box, h.line, h.pos, h.inside⟩)

/-- Wherever a command of the layout ends, the layout and the decoder have only gone forward. -/
theorem finalWork_forward {i : Instr} {s : State} (hi : i = .layoutNext ∨ i = .layoutExhaust ∨ i = .renderText)
    (hs : s.blk.dec.pos.toNat ≤ s.blk.dec.len.toNat) : Forward s (finalWork (bodyOf i) s).st := by
  have start := Forward.refl hs
  have step : ∀ t, Forward s t → EndsIn (Forward s) (fun _ => True) layoutStep t := fun _ => layoutStep_forward
  refine EndsIn.finalWork (P := Forward s) (Q := fun _ => True) ?_
  rcases hi with rfl | rfl | rfl
  · exact .bind (step s start) fun _ _ ht => .pure ht _
  · exact .read (layoutLoop_endsIn_of_step step _ start)
  · exact .read (.check_bind start (fun _ _ => trivial) fun _ _ =>
      renderLoop_endsIn_of_step step (fun _ => renderCurrent_forward) _ start)

/-! ### A step that does not end consumes input -/

/-- What a computation answers, run in `s` to its end, and the state it leaves. -/
def Answers {α : Type} (R : α → State → Prop) (e : Engine α) (s : State) : Prop :=
  ∀ l a w, e { st := s, wrote := l } = .ok a w → R a w.st

section Answers
variable {α β : Type} {R : α → State → Prop} {s : State}

theorem Answers.pure {a : α} (h : R a s) : Answers R (Pure.pure a : Engine α) s := fun _ _ _ e => by cases e; exact h

theorem Answers.read {g : State → Engine α} (h : Answers R (g s) s) : Answers R (theState >>= g) s := h

theorem Answers.update_bind {f : State → State} {g : Unit → Engine α} (h : Answers R (g ()) (f s)) :
    Answers R (Machine.update f >>= g) s := h

theorem Answers.check_bind {x : Except Stop β} {g : β → Engine α} (h : ∀ b, x = .ok b → Answers R (g b) s) :
    Answers R (check x >>= g) s := by
  cases x with
  | ok b => exact h b rfl
  | error e => exact fun _ _ _ stopped => by cases stopped

end Answers

/-- A code point other than the end's takes a byte at least (43_decoder.md R221). -/
theorem decodeAt_takes {p : Platform} {m : Memory} {d : Decoder} {pos : Nat} {r : Word × Nat}
    (h : decodeAt p m d pos = .ok r) : r.1 = eofCode ∨ (pos < d.len.toNat ∧ 1 ≤ r.2) := by
  have last : ∀ {v : Word} {n : Nat}, (pure (v, n + 1) : Except Stop (Word × Nat)) = .ok r → 1 ≤ r.2 := fun e => by
    cases e
    exact Nat.succ_pos _
  unfold decodeAt at h
  split at h
  · cases h
    exact .inl rfl
  · next more =>
    refine .inr ⟨not_le.1 more, ?_⟩
    obtain ⟨b, -, h⟩ := except_bind_ok_iff.1 h
    split_ifs at h
    · exact last h
    · obtain ⟨c1, -, h⟩ := except_bind_ok_iff.1 h
      exact last h
    · obtain ⟨c1, -, h⟩ := except_bind_ok_iff.1 h
      obtain ⟨c2, -, h⟩ := except_bind_ok_iff.1 h
      exact last h
    · obtain ⟨c1, -, h⟩ := except_bind_ok_iff.1 h
      obtain ⟨c2, -, h⟩ := except_bind_ok_iff.1 h
      obtain ⟨c3, -, h⟩ := except_bind_ok_iff.1 h
      exact last h

/-- DecNext, and what follows it (43_decoder.md R222). -/
theorem Answers.nextCode_bind {α : Type} {R : α → State → Prop} {s : State} {g : Word → Engine α}
    (h : ∀ cp n, cp = eofCode ∨ (s.blk.dec.pos.toNat < s.blk.dec.len.toNat ∧ 1 ≤ n) →
      Answers R (g cp) (setDecoder (s.blk.dec.advance n) s)) : Answers R (nextCode >>= g) s := by
  intro l a w run
  rw [run_bind] at run
  simp only [nextCode, run_bind, run_theState] at run
  cases hd : decodeAt s.platform s.mem s.blk.dec s.blk.dec.pos.toNat with
  | error e => rw [hd] at run; cases run
  | ok x => rw [hd] at run; exact h x.1 x.2 (decodeAt_takes hd) l a w run

/-- What a layout step from `s` that comes to its end has done: its record says EOF exactly when it answers EOF, and
else it has consumed input (44_layout.md R262, R272, R276 (c)). -/
structure StepDone (s : State) (k : StepKind) (t : State) : Prop where
  ends : t.atEnd ↔ k = .eof
  len : t.blk.dec.len = s.blk.dec.len
  consumes : k ≠ .eof → s.blk.dec.pos.toNat < t.blk.dec.pos.toNat ∧ t.blk.dec.pos.toNat ≤ t.blk.dec.len.toNat

section StepDone
variable {s t : State}

theorem eofRecord_eof (l : Layout) : (eofRecord l).eof = true :=
  have bit : eofInfo.getLsbD 12 = true := by decide
  bit

theorem unprintableRecord_eof (cp : Word) (l : Layout) (x : Word) : (unprintableRecord cp l x).eof = false :=
  have bit : (0 : Word).getLsbD 12 = false := by decide
  bit

/-- Steps 3 to 7 answer no EOF, and leave the decoder (44_layout.md R272). -/
theorem layoutCode_answers (cp : Word) :
    Answers (fun k t => k ≠ .eof ∧ t.blk.gl.eof = false ∧ t.blk.dec = s.blk.dec) (layoutCode cp) s := by
  refine .read ?_
  dsimp only
  split
  · exact .check_bind fun _ _ => .update_bind (.update_bind (.pure ⟨by decide, unprintableRecord_eof _ _ _, rfl⟩))
  · split
    · exact .update_bind (.pure ⟨by decide, unprintableRecord_eof _ _ _, rfl⟩)
    · refine .read (.check_bind fun h _ => .check_bind fun _ _ => .update_bind (.update_bind (.pure ⟨by decide, ?_, rfl⟩)))
      exact (drawableInfo_bits ..).2.1

theorem endLayout_answers (len : t.blk.dec.len = s.blk.dec.len) : Answers (StepDone s) endLayout t :=
  .read (.update_bind (.update_bind (.pure ⟨iff_of_true (eofRecord_eof _) rfl, len, fun hk => absurd rfl hk⟩)))

theorem layoutStep_answers (s : State) : Answers (StepDone s) layoutStep s := by
  refine .read ?_
  dsimp only
  split
  · exact .update_bind (.pure ⟨iff_of_true (eofRecord_eof _) rfl, rfl, fun hk => absurd rfl hk⟩)
  · split
    · exact endLayout_answers rfl
    · refine .nextCode_bind fun cp n takes => ?_
      split
      · exact endLayout_answers rfl
      · next hcp =>
        obtain ⟨more, some⟩ := takes.resolve_left hcp
        intro l k w run
        obtain ⟨goesOn, noEof, dec⟩ := layoutCode_answers cp l k w run
        refine ⟨iff_of_false (by simp [State.atEnd, noEof]) goesOn, by rw [dec]; rfl, fun _ => ?_⟩
        rw [dec, setDecoder_blk, toNat_advance_pos]
        exact ⟨by omega, min_le_right _ _⟩

end StepDone

/-- Settles O54: what every change of a layout step keeps, the three commands keep (`finalWork_forward`), and a step that
does not end consumes input (`layoutStep_answers`). -/
theorem layoutOnlyGoesForward : Obligations.LayoutOnlyGoesForward := by
  unfold Obligations.LayoutOnlyGoesForward
  intro i s t inv hf hi h
  have forward : Forward s t := by
    have final := finalWork_forward hi inv.blk.decoder
    rcases exec_next_final h with rfl | ⟨c, rfl⟩ <;> exact ⟨final.box, final.line, final.pos, final.inside⟩
  refine ⟨forward.box, forward.line, forward.pos, forward.inside, fun hn noFault noEnd => ?_⟩
  subst hn
  cases run : layoutStep { st := s, wrote := [] } with
  | ok k w =>
    rw [exec_layoutNext_of_step run] at h
    cases h
    have done := layoutStep_answers s _ _ _ run
    exact (done.consumes (mt done.ends.2 noEnd)).1
  | error e w =>
    cases e with
    | raise c =>
      rw [exec_layoutNext_of_raise run] at h
      cases h
      cases noFault
    | refuse r =>
      rw [exec_layoutNext_of_refuse run] at h
      cases h

/-! ### LAYOUT_EXHAUST and LAYOUT_NEXT -/

/-- Any number of turns beyond the input that is left makes the same loop (log 26). -/
theorem layoutLoop_enough : ∀ {fuel fuel' : Nat} {w : Work}, w.st.blk.dec.stepBound ≤ fuel →
    w.st.blk.dec.stepBound ≤ fuel' → layoutLoop fuel w = layoutLoop fuel' w
  | fuel + 1, fuel' + 1, w, h, h' => by
    have rest : ∀ {k w'}, layoutStep w = .ok k w' → k ≠ .eof → layoutLoop fuel w' = layoutLoop fuel' w' := by
      intro k w' run hk
      have done := layoutStep_answers w.st _ _ _ run
      obtain ⟨consumed, inside⟩ := done.consumes hk
      have len := congrArg BitVec.toNat done.len
      unfold Decoder.stepBound at h h'
      exact layoutLoop_enough (by unfold Decoder.stepBound; omega) (by unfold Decoder.stepBound; omega)
    rw [layoutLoop_succ, layoutLoop_succ]
    cases run : layoutStep w with
    | error e w' => rfl
    | ok k w' =>
      cases k with
      | eof => rfl
      | unprintable => exact rest run (by decide)
      | drawable => exact rest run (by decide)
  | 0, _, _, h, _ => absurd h (Nat.not_succ_le_zero _)
  | _ + 1, 0, _, _, h' => absurd h' (Nat.not_succ_le_zero _)

/-- LAYOUT_EXHAUST with any number of turns that is enough. -/
theorem exec_layoutExhaust {s : State} {fuel : Nat} (h : s.blk.dec.stepBound ≤ fuel) :
    exec .layoutExhaust s = finish (layoutLoop fuel) s := by
  rw [exec_eq, finish, finish, ← layoutLoop_enough le_rfl h]
  rfl

theorem layoutStep_keeps {w w' : Work} {k : StepKind} (h : layoutStep w = .ok k w') :
    Keeps { layout := true, decoder := true } w w' := by
  have ends := behaves_layoutStep (f := { layout := true, decoder := true }) (codes := [4, 5, 6, 7]) rfl rfl (by decide) w
  rw [h] at ends
  exact ends

/-- A layout step writes no memory and leaves the latch, so that LAYOUT_NEXT with its latch put back is where it ends. -/
theorem layoutStep_relatched {s : State} {k : StepKind} {w : Work} (h : layoutStep { st := s, wrote := [] } = .ok k w) :
    w = { st := (complete w.st).relatched s.blk.latch, wrote := [] } := by
  have latch := (layoutStep_keeps h).latch
  have wrote := ((layoutStep_keeps h).memory rfl).2.2
  obtain ⟨st, l⟩ := w
  dsimp only at latch wrote
  rw [wrote, ← latch]
  rfl

section Exhaust
variable {s : State} {w : Work}

theorem exec_layoutExhaust_of_error {e : Stop} (h : layoutStep { st := s, wrote := [] } = .error e w) :
    exec .layoutExhaust s = exec .layoutNext s := by
  have first : layoutLoop (s.blk.dec.stepBound + 1) { st := s, wrote := [] } = .error e w := by rw [layoutLoop_succ, h]
  rw [exec_layoutExhaust (Nat.le_succ _)]
  cases e with
  | raise c => rw [finish_raise first, exec_layoutNext_of_raise h]
  | refuse r => rw [finish_refuse first, exec_layoutNext_of_refuse h]

theorem exec_layoutExhaust_of_eof (h : layoutStep { st := s, wrote := [] } = .ok .eof w) :
    exec .layoutExhaust s = .next (complete w.st) := by
  rw [exec_layoutExhaust (Nat.le_succ _)]
  exact finish_ok (by rw [layoutLoop_succ, h])

/-- A step that does not end hands the layout on, with turns enough left for the rest of the input. -/
theorem exec_layoutExhaust_of_more {k : StepKind} (h : layoutStep { st := s, wrote := [] } = .ok k w) (hk : k ≠ .eof) :
    exec .layoutExhaust s = exec .layoutExhaust ((complete w.st).relatched s.blk.latch) := by
  have done := layoutStep_answers s _ _ _ h
  obtain ⟨consumed, inside⟩ := done.consumes hk
  have len := congrArg BitVec.toNat done.len
  have enough : ((complete w.st).relatched s.blk.latch).blk.dec.stepBound ≤ s.blk.dec.stepBound := by
    change w.st.blk.dec.stepBound ≤ _
    unfold Decoder.stepBound
    omega
  have next : layoutLoop (s.blk.dec.stepBound + 1) { st := s, wrote := [] } = layoutLoop s.blk.dec.stepBound w := by
    rw [layoutLoop_succ, h]
    cases k with
    | eof => exact absurd rfl hk
    | unprintable | drawable => rfl
  rw [exec_layoutExhaust (Nat.le_succ _), exec_layoutExhaust enough, finish, finish, next, ← layoutStep_relatched h]

end Exhaust

/-- Settles O55: the loop's first turn is LAYOUT_NEXT's step, and what is left of its turns is enough for the rest
(`layoutLoop_enough`). -/
theorem layoutExhaustRepeatsLayoutNext : Obligations.LayoutExhaustRepeatsLayoutNext := by
  unfold Obligations.LayoutExhaustRepeatsLayoutNext
  intro s inv hf
  cases run : layoutStep { st := s, wrote := [] } with
  | error e w =>
    rw [exec_layoutExhaust_of_error run]
    refine ⟨fun _ => id, fun t ht => ⟨fun _ => ht, fun noFault _ => ?_⟩⟩
    cases e with
    | raise c =>
      rw [exec_layoutNext_of_raise run] at ht
      cases ht
      cases noFault
    | refuse r =>
      rw [exec_layoutNext_of_refuse run] at ht
      cases ht
  | ok k w =>
    have done := layoutStep_answers s _ _ _ run
    rw [exec_layoutNext_of_step run]
    refine ⟨nofun, fun t ht => ?_⟩
    cases ht
    have noFault : (complete w.st).blk.status.fault = false :=
      (congrArg FaultStatus.fault (layoutStep_keeps run).status).trans hf
    refine ⟨fun ends => ?_, fun _ noEnd => exec_layoutExhaust_of_more run (mt done.ends.2 noEnd)⟩
    obtain rfl := done.ends.1 (ends.resolve_left (Bool.eq_false_iff.1 noFault))
    exact exec_layoutExhaust_of_eof run

end Sys2Proof.Machine
end

section
/-! SUPPORT. On text that the platform serves, with sound charsets and a cursor far from the ends of the i32 range, no
layout step stops (44_layout.md R274, R276; 70_reset_and_hazards.md R352), and O56. -/

namespace Sys2Proof.Machine

/-! ### How far a step moves the cursor -/

/-- A cursor that a step from the layout `l` may leave: at most 256 pixels right of the cursor or of the initial x, at
most 255 below, and no further left or up than an i32 reaches (44_layout.md R246, R250, R251, R253). -/
structure Near (l : Layout) (x y : Int) : Prop where
  left : -2 ^ 31 ≤ x
  right : x ≤ l.x.toInt + 256 ∨ x ≤ l.xInit.toInt + 256
  top : -2 ^ 31 ≤ y
  bottom : y ≤ l.y.toInt + 255

theorem Near.stay (l : Layout) : Near l l.x.toInt l.y.toInt :=
  ⟨(isInt32_toInt _).1, .inl (by omega), (isInt32_toInt _).1, by omega⟩

/-- Right of the cursor, by at most 256 pixels and on its line. -/
theorem Near.advance (l : Layout) {d : Int} (h : 0 ≤ d ∧ d ≤ 256) : Near l (l.x.toInt + d) l.y.toInt := by
  have stay := Near.stay l
  exact ⟨by have := stay.left; omega, .inl (by omega), stay.top, stay.bottom⟩

theorem Near.newline (l : Layout) : Near l l.xInit.toInt (l.y.toInt + l.lineH.toNat) := by
  have lineH := l.lineH.isLt
  have y := (isInt32_toInt l.y).1
  exact ⟨(isInt32_toInt _).1, .inr (by omega), by omega, by omega⟩

/-- Right of the cursor by as many pixels as a byte says. -/
theorem Near.byte (l : Layout) (b : Byte) : Near l (l.x.toInt + b.toNat) l.y.toInt := by
  have bound := b.isLt
  exact .advance l (by omega)

theorem Near.tab (l : Layout) : Near l (nextTab l.x.toInt) l.y.toInt := by
  have step := Near.advance l (d := nextTab l.x.toInt - l.x.toInt) (by unfold nextTab tabStop; omega)
  rwa [add_sub_cancel] at step

theorem specialMove_near {p : Platform} {l : Layout} {cp : Word} {xy : Int × Int} (h : specialMove p l cp = some xy) :
    Near l xy.1 xy.2 := by
  have row : ∀ {x y : Int}, Near l x y → some (x, y) = some xy → Near l xy.1 xy.2 := fun near e => by
    cases e
    exact near
  have six : ∀ {adv : Nat}, spaceAdvance p cp = some adv → Near l (l.x.toInt + adv) l.y.toInt := fun found => by
    obtain ⟨e, -, rfl⟩ := Option.map_eq_some_iff.1 found
    exact .byte l e.adv
  unfold specialMove at h
  dsimp only at h
  split_ifs at h
  · exact row (.byte l _) h
  · exact row (.byte l _) h
  · exact row (.tab l) h
  · exact row (.newline l) h
  · exact row (.stay l) h
  · split at h
    · next found => exact row (six found) h
    · exact row (.byte l _) h
  · split at h
    · next found => exact row (six found) h
    · cases h

theorem glyphSpot_near (l : Layout) (cls : AlignClass) {sx : Int} (h : 0 ≤ sx ∧ sx < 16) (cx : Int) :
    cx ≤ (glyphSpot l cls sx cx).1 ∧ (glyphSpot l cls sx cx).1 ≤ cx + 255 ∧ cx ≤ (glyphSpot l cls sx cx).2 ∧
      (glyphSpot l cls sx cx).2 ≤ cx + 256 := by
  have pad := l.padW.isLt
  have full := l.fullCell.isLt
  cases cls <;> simp only [glyphSpot] <;> omega

/-- After a glyph the cursor is near, placed at the cursor or after a wrap (44_layout.md R250, R251, R253). -/
theorem Near.afterGlyph {l : Layout} {cls : AlignClass} {h : Word} {cx cy : Int}
    (hx : cx = l.x.toInt ∨ cx = l.xInit.toInt) (hy : l.y.toInt ≤ cy ∧ cy ≤ l.y.toInt + 255) :
    Near l (glyphSpot l cls (h.toNat % 16) cx).2 cy := by
  have x := (isInt32_toInt l.x).1
  have xInit := (isInt32_toInt l.xInit).1
  have y := (isInt32_toInt l.y).1
  have spot := glyphSpot_near l cls (sx := h.toNat % 16) (by omega) cx
  exact ⟨by omega, by omega, by omega, by omega⟩

/-- No quantity of a glyph leaves the i32 range where there is room for it right of and below the cursor
(44_layout.md R256). -/
theorem glyphFits_of_room {l : Layout} {cls : AlignClass} {h : Word} {cx cy : Int} (hx : -2 ^ 31 ≤ cx ∧ cx + 300 < 2 ^ 31)
    (hy : -2 ^ 31 ≤ cy ∧ cy + 300 < 2 ^ 31) : GlyphFits l cls h cx cy := by
  have spot := glyphSpot_near l cls (sx := h.toNat % 16) (by omega) cx
  unfold GlyphFits IsInt32
  dsimp only
  omega

/-! ### A step that nothing disturbs -/

theorem setLayout_self (s : State) : setLayout s.blk.lay s = s := rfl

/-- What a layout needs to come to its end undisturbed. -/
structure Undisturbed (s : State) : Prop where
  inside : s.blk.dec.pos.toNat ≤ s.blk.dec.len.toNat
  text : s.servesText
  sound : s.soundCharsets
  far : s.farFromOverflow

section Undisturbed
variable {s : State} (h : Undisturbed s)
include h

/-- With input left there is room for one more step. -/
theorem Undisturbed.room (more : s.blk.dec.pos.toNat < s.blk.dec.len.toNat) : s.blk.lay.x.toInt + 856 < 2 ^ 31 ∧
    s.blk.lay.xInit.toInt + 856 < 2 ^ 31 ∧ s.blk.lay.y.toInt + 855 < 2 ^ 31 := by
  obtain ⟨x, xInit, y⟩ := h.far
  omega

/-- A step that takes a code point and leaves the cursor near leaves the rest of the text undisturbed. -/
theorem Undisturbed.next (more : s.blk.dec.pos.toNat < s.blk.dec.len.toNat) {t : State} (platform : t.platform = s.platform)
    (mem : t.mem = s.mem) (cs : t.blk.cs = s.blk.cs) (dec : t.blk.dec = s.decoderAfter)
    (xInit : t.blk.lay.xInit = s.blk.lay.xInit) (near : Near s.blk.lay t.blk.lay.x.toInt t.blk.lay.y.toInt) :
    Undisturbed t := by
  have base : t.blk.dec.base = s.blk.dec.base := by rw [dec, State.decoderAfter]
  have len : t.blk.dec.len = s.blk.dec.len := by rw [dec, State.decoderAfter]
  have pos : t.blk.dec.pos.toNat = _ := (congrArg (·.pos.toNat) dec).trans (toNat_decoderAfter_pos s)
  have takes := (codeHere_bounds s).1
  obtain ⟨roomX, roomInit, roomY⟩ := h.far
  obtain ⟨-, right, -, bottom⟩ := near
  refine ⟨by rw [len]; omega, fun k low high => ?_, fun cp i found => ?_, ?_⟩
  · rw [platform, base]
    exact h.text k (by omega) (len ▸ high)
  · obtain ⟨hdr, sound⟩ := h.sound cp i (cs ▸ found)
    exact ⟨hdr, sound.kept platform mem cs⟩
  · unfold State.farFromOverflow
    rw [len, xInit]
    dsimp only
    omega

theorem Undisturbed.int32 (more : s.blk.dec.pos.toNat < s.blk.dec.len.toNat) {x y : Int} (near : Near s.blk.lay x y) :
    IsInt32 x ∧ IsInt32 y := by
  obtain ⟨roomX, roomInit, roomY⟩ := h.room more
  obtain ⟨left, right, top, bottom⟩ := near
  unfold IsInt32
  omega

/-- A glyph is placed without Overflow, and leaves the cursor near. -/
theorem Undisturbed.glyph (more : s.blk.dec.pos.toNat < s.blk.dec.len.toNat) (hdr : Word) (cls : AlignClass) :
    (placeGlyph s.blk.lay hdr cls).fits hdr = true ∧
      Near s.blk.lay (placeGlyph s.blk.lay hdr cls).nx (placeGlyph s.blk.lay hdr cls).cy := by
  obtain ⟨roomX, roomInit, roomY⟩ := h.room more
  have x := (isInt32_toInt s.blk.lay.x).1
  have xInit := (isInt32_toInt s.blk.lay.xInit).1
  have y := (isInt32_toInt s.blk.lay.y).1
  have lineH := s.blk.lay.lineH.isLt
  obtain ⟨stays, wrapped⟩ := placeGlyph_eq s hdr cls
  by_cases hw : s.wrapsAt cls hdr
  · rw [wrapped hw]
    refine ⟨fits_clipped_iff.2 (glyphFits_of_room (by omega) (by omega)), .afterGlyph (.inr rfl) ?_⟩
    dsimp only [clipped]
    omega
  · rw [stays hw]
    refine ⟨fits_clipped_iff.2 (glyphFits_of_room (by omega) (by omega)), .afterGlyph (.inl rfl) ?_⟩
    dsimp only [clipped]
    omega

/-- The code point that an undisturbed layout with input left comes to. -/
theorem Undisturbed.atCode (active : s.blk.lay.active = true) (above : s.blk.lay.y.toInt < s.blk.lay.maxY.toInt)
    (more : s.blk.dec.pos.toNat < s.blk.dec.len.toNat) : AtCode s s.codeHere.1 :=
  ⟨active, above, more, fun k low _ high => h.text k low high, rfl⟩

/-- Steps 3 to 7 of that code point come to their end: they write a record, and L.* with the cursor near. -/
theorem Undisturbed.code (more : s.blk.dec.pos.toNat < s.blk.dec.len.toNat) (cp : Word) (wrote : List Word) :
    ∃ k l g, layoutCode cp { st := s.taken, wrote := wrote } = .ok k ⟨setGlyph g (setLayout l s.taken), wrote⟩ ∧
      l.active = s.blk.lay.active ∧ l.xInit = s.blk.lay.xInit ∧ Near s.blk.lay l.x.toInt l.y.toInt := by
  cases move : specialMove s.platform s.blk.lay cp with
  | some xy =>
    have near := specialMove_near move
    obtain ⟨hx, hy⟩ := h.int32 more near
    refine ⟨_, _, _, layoutCode_special move hx hy, rfl, rfl, ?_⟩
    dsimp only
    rwa [toInt_wordOfInt hx, toInt_wordOfInt hy]
  | none =>
    cases found : findCharset s.blk.cs cp with
    | none =>
      refine ⟨.unprintable, s.taken.blk.lay, unprintableRecord cp s.taken.blk.lay s.taken.blk.lay.x, ?_, rfl, rfl, .stay _⟩
      rw [setLayout_self]
      exact layoutCode_unknown move found
    | some i =>
      obtain ⟨hdr, sound⟩ := h.sound cp i found
      have soundTaken : SoundGlyph s.taken i cp hdr := sound.kept rfl rfl rfl
      obtain ⟨fits, near⟩ := h.glyph more hdr (s.platform.alignClass cp)
      obtain ⟨nx, cy, -⟩ := Placement.fits_iff.1 fits
      rw [← toInt_wordOfInt nx, ← toInt_wordOfInt cy] at near
      have run := (layoutCode_glyph (w := { st := s.taken, wrote := wrote }) move found).trans
        (layoutGlyph_fits soundTaken fits)
      refine ⟨_, s.taken.blk.lay.placed _, _, run, ?_, ?_, ?_⟩
      · rw [placed_frame]
        rfl
      · rw [placed_frame]
        rfl
      · rw [(placed_cursor _ _).1, (placed_cursor _ _).2]
        exact near

/-- An undisturbed step of an active layout ends it, or leaves an active layout undisturbed. -/
theorem Undisturbed.step (active : s.blk.lay.active = true) (wrote : List Word) :
    ∃ k w, layoutStep { st := s, wrote := wrote } = .ok k w ∧
      (k = .eof → w.st.blk.gl = eofRecord w.st.blk.lay ∧ w.st.blk.lay.done = true) ∧
      (k ≠ .eof → Undisturbed w.st ∧ w.st.blk.lay.active = true) := by
  by_cases ended : s.blk.lay.maxY.toInt ≤ s.blk.lay.y.toInt ∨ s.blk.dec.pos.toNat = s.blk.dec.len.toNat
  · exact ⟨_, _, layoutStep_end active ended, fun _ => ⟨rfl, rfl⟩, fun more => absurd rfl more⟩
  · obtain ⟨above, more⟩ := not_or.1 ended
    have inside := h.inside
    have more : s.blk.dec.pos.toNat < s.blk.dec.len.toNat := by omega
    have here := h.atCode active (by omega) more
    obtain ⟨k, l, g, run, active', xInit, near⟩ := h.code more (BitVec.ofNat 32 s.codeHere.1) wrote
    have goesOn := (layoutCode_answers _ _ _ _ run).1
    exact ⟨k, _, (layoutStep_code here).trans run, fun hk => absurd hk goesOn,
      fun _ => ⟨h.next more rfl rfl rfl rfl xInit near, active'.trans active⟩⟩

end Undisturbed

/-! ### The loop -/

/-- With turns enough an undisturbed loop comes to EOF. -/
theorem layoutLoop_comes_to_eof : ∀ {fuel : Nat} {s : State} (wrote : List Word), Undisturbed s →
    s.blk.lay.active = true → s.blk.dec.stepBound ≤ fuel → ∃ w, layoutLoop fuel { st := s, wrote := wrote } = .ok () w ∧
      w.st.blk.gl = eofRecord w.st.blk.lay ∧ w.st.blk.lay.done = true
  | 0, _, _, _, _, bound => absurd bound (Nat.not_succ_le_zero _)
  | fuel + 1, s, wrote, h, active, bound => by
    obtain ⟨k, ⟨t, wrote'⟩, run, ends, goesOn⟩ := h.step active wrote
    rw [layoutLoop_succ, run]
    by_cases hk : k = .eof
    · subst hk
      exact ⟨_, rfl, ends rfl⟩
    · obtain ⟨consumed, inside⟩ := (layoutStep_answers s _ _ _ run).consumes hk
      have len := congrArg BitVec.toNat (layoutStep_answers s _ _ _ run).len
      obtain ⟨h', active'⟩ := goesOn hk
      have rest := layoutLoop_comes_to_eof wrote' h' active' (fuel := fuel) (by unfold Decoder.stepBound at *; omega)
      cases k with
      | eof => exact absurd rfl hk
      | unprintable | drawable => exact rest

/-- Settles O56: without a layout the first step ends it; an active one goes on undisturbed until it does
(`layoutLoop_comes_to_eof`). -/
theorem layoutExhaustComesToEof : Obligations.LayoutExhaustComesToEof := by
  unfold Obligations.LayoutExhaustComesToEof
  intro s inv text sound far
  have kept : ∀ {w}, bodyOf .layoutExhaust { st := s, wrote := [] } = .ok () w →
      w.st.blk.status = s.blk.status ∧ w.st.mem = s.mem := fun {w} run => by
    have ends := bodyOf_behaves .layoutExhaust { st := s, wrote := [] }
    rw [run] at ends
    exact ⟨ends.status, (ends.memory rfl).1⟩
  by_cases active : s.blk.lay.active = true
  · obtain ⟨w, run, gl, done⟩ := layoutLoop_comes_to_eof [] ⟨inv.blk.decoder, text, sound, far⟩ active le_rfl
    obtain ⟨status, mem⟩ := kept run
    refine ⟨complete w.st, (exec_layoutExhaust le_rfl).trans (finish_ok run), status, mem, ?_, fun _ => done,
      fun idle => absurd active (Bool.eq_false_iff.1 idle)⟩
    exact gl.trans (eofRecord_eq _)
  · have idle : s.blk.lay.active = false := Bool.eq_false_iff.2 active
    exact ⟨_, exec_layoutExhaust_of_eof (layoutStep_inactive idle), rfl, rfl, eofRecord_eq _,
      fun on => absurd on active, fun _ => rfl⟩

end Sys2Proof.Machine
end

section
/-! SUPPORT. RENDER_GLYPH is PutPix on the record's set bits in their order, as far as nothing stops it (45_render.md
R290, R292): O57, and O58 with what stops it. -/

namespace Sys2Proof.Machine

/-! ### Loops, in parts -/

section Loops
variable {ε σ α : Type} {f : α → EStateM ε σ Unit}

theorem forEach_append (l l' : List α) : forEach f (l ++ l') = forEach f l >>= fun _ => forEach f l' := by
  induction l with
  | nil => exact (pure_bind () fun _ => forEach f l').symm
  | cons a rest ih => rw [List.cons_append, forEach, forEach, ih, bind_assoc]

/-- A loop that comes to turn `k` and stops there. -/
theorem forEach_range_stops {f : Nat → EStateM ε σ Unit} {n k : Nat} {s t u : σ} {e : ε} (hk : k < n)
    (ran : forEach f (List.range k) s = .ok () t) (stops : f k t = .error e u) :
    forEach f (List.range n) s = .error e u := by
  obtain ⟨d, rfl⟩ := Nat.exists_eq_add_of_lt hk
  rw [Nat.add_assoc, List.range_add, forEach_append, run_bind_ok ran, List.range_succ_eq_map]
  exact run_bind_error stops

end Loops

/-! ### The pixels of the record, in the order of the renderer -/

/-- The pixel of bit `c` of row `r` of the record. -/
def Glyph.spot (g : Glyph) (r c : Nat) : Nat × Nat := ((g.x.toInt + c).toNat, (g.y.toInt + r).toNat)

/-- The pixels of the set bits among the first `n` of row `r`. -/
def Glyph.rowPixels (g : Glyph) (m : Memory) (r n : Nat) : List (Nat × Nat) :=
  ((List.range n).filter (g.bitAt m r)).map (g.spot r)

/-- The pixels of the set bits before bit `c` of row `r`, rows ascending and columns ascending in a row. -/
def Glyph.pixelsBefore (g : Glyph) (m : Memory) (r c : Nat) : List (Nat × Nat) :=
  ((List.range r).flatMap fun r' => g.rowPixels m r' g.sizeX) ++ g.rowPixels m r c

section Pixels
variable {g : Glyph} {m : Memory} {r c : Nat}

theorem mem_rowPixels {q : Nat × Nat} : q ∈ g.rowPixels m r c ↔ ∃ k < c, g.bitAt m r k = true ∧ g.spot r k = q := by
  simp only [Glyph.rowPixels, List.mem_map, List.mem_filter, List.mem_range, and_assoc]

theorem mem_pixelsBefore {q : Nat × Nat} : q ∈ g.pixelsBefore m r c ↔
    ∃ r' k, (r' < r ∧ k < g.sizeX ∨ r' = r ∧ k < c) ∧ g.bitAt m r' k = true ∧ g.spot r' k = q := by
  simp only [Glyph.pixelsBefore, List.mem_append, List.mem_flatMap, List.mem_range, mem_rowPixels]
  constructor
  · rintro (⟨r', hr, k, hk, bit⟩ | ⟨k, hk, bit⟩)
    · exact ⟨r', k, .inl ⟨hr, hk⟩, bit⟩
    · exact ⟨r, k, .inr ⟨rfl, hk⟩, bit⟩
  · rintro ⟨r', k, ⟨hr, hk⟩ | ⟨rfl, hk⟩, bit⟩
    · exact .inl ⟨r', hr, k, hk, bit⟩
    · exact .inr ⟨k, hk, bit⟩

theorem pixelsBefore_zero : g.pixelsBefore m 0 0 = [] := rfl

theorem pixelsBefore_row (r c : Nat) : g.pixelsBefore m r c = g.pixelsBefore m r 0 ++ g.rowPixels m r c :=
  (congrArg (· ++ g.rowPixels m r c) (List.append_nil _)).symm

theorem rows_subset_pixelsBefore (r c : Nat) : g.pixelsBefore m r 0 ⊆ g.pixelsBefore m r c :=
  pixelsBefore_row (g := g) (m := m) r c ▸ List.subset_append_left _ _

theorem pixelsBefore_succ (r : Nat) : g.pixelsBefore m (r + 1) 0 = g.pixelsBefore m r g.sizeX := by
  refine (List.append_nil _).trans ?_
  rw [List.range_succ, List.flatMap_append, List.flatMap_singleton]
  rfl

/-- A bit of a row depends on no byte but those of the row. -/
theorem bitAt_congr {m' : Memory} (h : ∀ k < g.rowBytes, byteAt m' (g.data + BitVec.ofNat 32 (r * g.rowBytes + k)) =
    byteAt m (g.data + BitVec.ofNat 32 (r * g.rowBytes + k))) : g.bitAt m' r c = g.bitAt m r c := by
  unfold Glyph.bitAt
  by_cases hc : c < 8 * g.rowBytes
  · rw [h (c / 8) (by omega)]
  · simp only [hc, decide_false, Bool.false_and]

end Pixels

/-! ### The renderer, bit by bit -/

section Bits
variable {p : Platform} {sf : Surface} {g : Glyph} {v : Word}

/-- One bit of a row that reads `row`: its pixel is plotted when it is set. -/
def plotBit (p : Platform) (sf : Surface) (g : Glyph) (v : Word) (r : Nat) (row : Word) (c : Nat) : Draw Unit :=
  if row.getLsbD c then plotGlyphPixel p sf v (g.x.toInt + c) (g.y.toInt + r) else pure ()

theorem renderRow_eq (p : Platform) (sf : Surface) (g : Glyph) (v : Word) (r : Nat) : renderRow p sf g v r =
    rowBits p g r >>= fun row => forEach (plotBit p sf g v r row) (List.range g.sizeX) := rfl

theorem plotGlyphPixel_inside {x y : Int} (inside : sf.inBounds x y = true) :
    plotGlyphPixel p sf v x y = putPix p sf v x.toNat y.toNat := funext fun _ => if_pos inside

/-- A row whose set bits are inside puts its pixels. -/
theorem plotRow_eq {row : Word} {m : Memory} {r : Nat} {l : List Nat} (bits : ∀ k, row.getLsbD k = g.bitAt m r k)
    (inside : ∀ k ∈ l, g.bitAt m r k = true → sf.inBounds (g.x.toInt + k) (g.y.toInt + r) = true) :
    forEach (plotBit p sf g v r row) l = putPixels p sf v ((l.filter (g.bitAt m r)).map (g.spot r)) := by
  induction l with
  | nil => rfl
  | cons k rest ih =>
    have ih := ih fun j hj => inside j (List.mem_cons_of_mem _ hj)
    rw [forEach, ih, plotBit, bits]
    by_cases set : g.bitAt m r k = true
    · rw [if_pos set, plotGlyphPixel_inside (inside k (List.mem_cons_self ..) set), List.filter_cons_of_pos set]
      rfl
    · rw [if_neg set, List.filter_cons_of_neg set]
      exact pure_bind _ _

theorem renderRecord_drawable (drawable : g.eof = false ∧ g.hasData = true) :
    renderRecord p sf g v = forEach (renderRow p sf g v) (List.range g.sizeY) :=
  if_neg (by simp [drawable])

end Bits

/-! ### A record that nothing disturbs as far as bit `c` of row `r` -/

/-- What `CanRender` and `CanRenderBefore` share: the pixels of the record before bit `c` of row `r` are inside and can
be drawn, and the first `n` rows can be read and lie apart from them. -/
structure RendersUpTo (p : Platform) (sf : Surface) (g : Glyph) (m : Memory) (r c n : Nat) : Prop where
  legal : sf.Legal
  fits : sf.Fits
  mem : Memory.wf m = true
  within : (r < g.sizeY ∧ c ≤ g.sizeX) ∨ (r = g.sizeY ∧ c = 0)
  inside : ∀ a b : Int, GlyphPixelBefore g m r c a b → sf.inBounds a b = true
  served : ∀ a b : Nat, GlyphPixelBefore g m r c a b → p.writesPixel sf a b = true
  rows : ∀ r' < n, ∀ k < g.rowBytes, p.serves (g.data + BitVec.ofNat 32 (r' * g.rowBytes + k)) 1 .read = true
  apart : ∀ r' < n, ∀ k < g.rowBytes, ∀ a b : Nat, GlyphPixelBefore g m r c a b →
    g.data + BitVec.ofNat 32 (r' * g.rowBytes + k) ∉ sf.pixelBytes a b

theorem inBounds_int_iff {sf : Surface} {x y : Int} : sf.inBounds x y = true ↔
    0 ≤ x ∧ x < sf.pixelWidth ∧ 0 ≤ y ∧ y < sf.pixelHeight := by
  simp only [Surface.inBounds, Bool.and_eq_true, decide_eq_true_eq, and_assoc]

section Undisturbed
variable {p : Platform} {sf : Surface} {g : Glyph} {v : Word} {r c n : Nat} {c₀ : Canvas}
  (h : RendersUpTo p sf g c₀.mem r c n)
include h

/-- The list holds the pixels that the statements speak of. -/
theorem RendersUpTo.mem_pixels {a b : Nat} :
    (a, b) ∈ g.pixelsBefore c₀.mem r c ↔ GlyphPixelBefore g c₀.mem r c a b := by
  have within := h.within
  rw [mem_pixelsBefore]
  constructor
  · rintro ⟨r', k, before, bit, spot⟩
    have here : GlyphPixelBefore g c₀.mem r c (g.x.toInt + k) (g.y.toInt + r') :=
      ⟨r', k, by omega, by omega, by omega, bit, rfl, rfl⟩
    have inside := inBounds_int_iff.1 (h.inside _ _ here)
    have column : (a : Int) = g.x.toInt + k := by have := congrArg Prod.fst spot; simp only [Glyph.spot] at this; omega
    have row : (b : Int) = g.y.toInt + r' := by have := congrArg Prod.snd spot; simp only [Glyph.spot] at this; omega
    rw [column, row]
    exact here
  · rintro ⟨r', k, hr, hk, before, bit, column, row⟩
    exact ⟨r', k, by omega, bit, Prod.ext (by simp only [Glyph.spot]; omega) (by simp only [Glyph.spot]; omega)⟩

theorem RendersUpTo.inside_of_mem {q : Nat × Nat} (hq : q ∈ g.pixelsBefore c₀.mem r c) : sf.Inside q.1 q.2 :=
  inBounds_iff.1 (h.inside _ _ (h.mem_pixels.1 hq))

/-- Any of these pixels can be drawn, in any order. -/
theorem RendersUpTo.put {l : List (Nat × Nat)} (hl : l ⊆ g.pixelsBefore c₀.mem r c) :
    ∃ c₁, putPixels p sf v l c₀ = .ok () c₁ ∧ PutAllExact sf v l c₀ c₁ :=
  putPixels_exact h.legal h.mem (fun _ hq => h.served _ _ (h.mem_pixels.1 (hl hq))) fun _ hq _ hq' =>
    h.legal.eq_or_apart h.fits (h.inside_of_mem (hl hq)) (h.inside_of_mem (hl hq'))

theorem RendersUpTo.drawn {l : List (Nat × Nat)} (hl : l ⊆ g.pixelsBefore c₀.mem r c) {c₁ : Canvas}
    (put : putPixels p sf v l c₀ = .ok () c₁) : PutAllExact sf v l c₀ c₁ := by
  obtain ⟨_, put', drawn⟩ := h.put (v := v) hl
  cases put.symm.trans put'
  exact drawn

/-! ### The renderer as far as that -/

/-- A row that can be read answers its bits, although pixels have been drawn before. -/
theorem RendersUpTo.readRow {r' : Nat} (hr : r' < n) {l : List (Nat × Nat)} (hl : l ⊆ g.pixelsBefore c₀.mem r c)
    {c₁ : Canvas} (drawn : PutAllExact sf v l c₀ c₁) :
    ∃ row, rowBits p g r' c₁ = .ok row c₁ ∧ ∀ j, row.getLsbD j = g.bitAt c₀.mem r' j := by
  obtain ⟨row, read, bits⟩ := rowBits_of_serves c₁ (h.rows r' hr)
  refine ⟨row, read, fun j => (bits j).trans (bitAt_congr fun k hk => drawn.frame _ fun q hq => ?_)⟩
  exact h.apart r' hr k hk _ _ (h.mem_pixels.1 (hl hq))

/-- After the rows before row `r'`, the first `k` bits of that row put their pixels. -/
theorem RendersUpTo.row_run {r' k : Nat} (hr : r' < n) (before : r' < r ∧ k ≤ g.sizeX ∨ r' = r ∧ k ≤ c) {c₁ : Canvas}
    (put : putPixels p sf v (g.pixelsBefore c₀.mem r' 0) c₀ = .ok () c₁) :
    ∃ row c₂, rowBits p g r' c₁ = .ok row c₁ ∧ (∀ j, row.getLsbD j = g.bitAt c₀.mem r' j) ∧
      forEach (plotBit p sf g v r' row) (List.range k) c₁ = .ok () c₂ ∧
      putPixels p sf v (g.pixelsBefore c₀.mem r' k) c₀ = .ok () c₂ := by
  have within := h.within
  have earlier : ∀ j ≤ k, g.pixelsBefore c₀.mem r' j ⊆ g.pixelsBefore c₀.mem r c := fun j hj q hq => by
    obtain ⟨r'', i, place, bit⟩ := mem_pixelsBefore.1 hq
    exact mem_pixelsBefore.2 ⟨r'', i, by omega, bit⟩
  have drawn := h.drawn (earlier 0 (Nat.zero_le _)) put
  obtain ⟨row, read, bits⟩ := h.readRow hr (earlier 0 (Nat.zero_le _)) drawn
  obtain ⟨c₂, put₂, -⟩ := h.put (v := v) (earlier k le_rfl)
  have inside : ∀ j ∈ List.range k, g.bitAt c₀.mem r' j = true →
      sf.inBounds (g.x.toInt + j) (g.y.toInt + r') = true := fun j hj bit => by
    have hj := List.mem_range.1 hj
    exact h.inside _ _ ⟨r', j, by omega, by omega, by omega, bit, rfl, rfl⟩
  refine ⟨row, c₂, read, bits, ?_, put₂⟩
  rw [plotRow_eq bits inside]
  rw [pixelsBefore_row, putPixels, forEach_append] at put₂
  exact (run_bind_ok put).symm.trans put₂

/-- The first rows put their pixels, and nothing else. -/
theorem RendersUpTo.rows_run (hn : r ≤ n) {r' : Nat} (hr : r' ≤ r) :
    ∃ c₁, forEach (renderRow p sf g v) (List.range r') c₀ = .ok () c₁ ∧
      putPixels p sf v (g.pixelsBefore c₀.mem r' 0) c₀ = .ok () c₁ := by
  induction r' with
  | zero => exact ⟨c₀, rfl, rfl⟩
  | succ r' ih =>
    obtain ⟨c₁, ran, put⟩ := ih (by omega)
    obtain ⟨row, c₂, read, -, plotted, put₂⟩ := h.row_run (r' := r') (k := g.sizeX) (by omega) (.inl ⟨hr, le_rfl⟩) put
    refine ⟨c₂, ?_, pixelsBefore_succ (g := g) r' ▸ put₂⟩
    rw [List.range_succ, forEach_append, run_bind_ok ran]
    exact run_bind_ok ((run_bind_ok read).trans plotted)

/-- Where the first rows are drawn and row `r` stops. -/
theorem RendersUpTo.stops_at_row (hn : r ≤ n) (hr : r < g.sizeY) (drawable : g.eof = false ∧ g.hasData = true) :
    ∃ c₁, PutAllExact sf v (g.pixelsBefore c₀.mem r 0) c₀ c₁ ∧ ∀ {e c₂}, renderRow p sf g v r c₁ = .error e c₂ →
      renderRecord p sf g v c₀ = .error e c₂ := by
  obtain ⟨c₁, ran, put⟩ := h.rows_run (v := v) hn le_rfl
  refine ⟨c₁, h.drawn (rows_subset_pixelsBefore _ _) put, fun stops => ?_⟩
  rw [renderRecord_drawable drawable]
  exact forEach_range_stops hr ran stops

/-- Where everything before bit `c` of row `r` is drawn and that bit's pixel stops. -/
theorem RendersUpTo.stops_at_bit (hn : r < n) (hr : r < g.sizeY) (hc : c < g.sizeX)
    (drawable : g.eof = false ∧ g.hasData = true) (bit : g.bitAt c₀.mem r c = true) :
    ∃ c₁, PutAllExact sf v (g.pixelsBefore c₀.mem r c) c₀ c₁ ∧
      ∀ {e c₂}, plotGlyphPixel p sf v (g.x.toInt + c) (g.y.toInt + r) c₁ = .error e c₂ →
        renderRecord p sf g v c₀ = .error e c₂ := by
  obtain ⟨c₁, ran, put⟩ := h.rows_run (v := v) hn.le le_rfl
  obtain ⟨row, c₂, read, bits, plotted, put₂⟩ := h.row_run hn (.inr ⟨rfl, le_rfl⟩) put
  refine ⟨c₂, h.drawn (List.Subset.refl _) put₂, fun stops => ?_⟩
  have here : plotBit p sf g v r row c = plotGlyphPixel p sf v (g.x.toInt + c) (g.y.toInt + r) :=
    if_pos ((bits c).trans bit)
  rw [renderRecord_drawable drawable]
  have row_stops := forEach_range_stops hc plotted ((congrFun here c₂).trans stops)
  exact forEach_range_stops hr ran ((run_bind_ok read).trans row_stops)

/-- Where nothing disturbs the whole record, its pixels are put. -/
theorem RendersUpTo.all (hn : r ≤ n) (hr : r = g.sizeY) (drawable : g.eof = false ∧ g.hasData = true) :
    ∃ c₁, PutAllExact sf v (g.pixelsBefore c₀.mem r 0) c₀ c₁ ∧ renderRecord p sf g v c₀ = .ok () c₁ := by
  subst hr
  obtain ⟨c₁, ran, put⟩ := h.rows_run (v := v) hn le_rfl
  exact ⟨c₁, h.drawn (rows_subset_pixelsBefore _ _) put, (congrFun (renderRecord_drawable drawable) c₀).trans ran⟩

end Undisturbed

/-! ### RENDER_GLYPH -/

section RenderGlyph
variable {s : State} {c : Canvas} (hs : surfCheck s.blk.surf = .ok ())
include hs

/-- RENDER_GLYPH on a legal surface is the renderer on its record (45_render.md R290). -/
theorem renderGlyph_run : bodyOf .renderGlyph { st := s, wrote := [] } =
    draw (renderRecord s.platform s.blk.surf s.blk.gl s.blk.args.value) { st := s, wrote := [] } :=
  (surface_checked (by decide) hs id).trans (renderCurrent_run _)

theorem exec_renderGlyph_ok
    (run : renderRecord s.platform s.blk.surf s.blk.gl s.blk.args.value s.canvas = .ok () c) :
    exec .renderGlyph s = .next (complete (s.drawn c)) := by
  rw [exec_eq]
  exact finish_ok ((renderGlyph_run hs).trans (draw_ok_iff.2 ⟨c, run, rfl⟩))

theorem exec_renderGlyph_raise {cause : Cause}
    (run : renderRecord s.platform s.blk.surf s.blk.gl s.blk.args.value s.canvas = .error (.raise cause) c) :
    exec .renderGlyph s = .next (raiseFault cause (s.drawn c)) := by
  rw [exec_eq]
  exact finish_raise ((renderGlyph_run hs).trans (draw_error_iff.2 ⟨c, run, rfl⟩))

theorem exec_renderGlyph_refuse {r : Refusal}
    (run : renderRecord s.platform s.blk.surf s.blk.gl s.blk.args.value s.canvas = .error (.refuse r) c) :
    exec .renderGlyph s = .refused r := by
  rw [exec_eq]
  exact finish_refuse ((renderGlyph_run hs).trans (draw_error_iff.2 ⟨c, run, rfl⟩))

end RenderGlyph

theorem glyphPixel_iff_before {g : Glyph} {m : Memory} {a b : Int} :
    GlyphPixel g m a b ↔ GlyphPixelBefore g m g.sizeY 0 a b := by
  constructor
  · rintro ⟨r, c, hr, hc, bit⟩
    exact ⟨r, c, hr, hc, .inl hr, bit⟩
  · rintro ⟨r, c, hr, hc, -, bit⟩
    exact ⟨r, c, hr, hc, bit⟩

theorem CanRender.rendersUpTo {s : State} (h : CanRender s) :
    RendersUpTo s.platform s.blk.surf s.blk.gl s.canvas.mem s.blk.gl.sizeY 0 s.blk.gl.sizeY where
  legal := surfCheck_ok_iff.1 h.draw.legal
  fits := h.draw.fits
  mem := h.draw.mem
  within := .inr ⟨rfl, rfl⟩
  inside a b hab := inBounds_int_iff.2 (h.inside a b (glyphPixel_iff_before.2 hab))
  served a b hab := h.draw.served a b (glyphPixel_iff_before.2 hab)
  rows r hr k hk := h.rows r k hr hk
  apart r hr k hk a b hab := h.apart r k a b hr hk (glyphPixel_iff_before.2 hab)

/-- What the pixels of the list leave is what `DrawnExactly` says. -/
theorem RendersUpTo.drawnExactly {s : State} {r c n : Nat} {c₁ : Canvas}
    (h : RendersUpTo s.platform s.blk.surf s.blk.gl s.canvas.mem r c n)
    (drawn : PutAllExact s.blk.surf s.blk.args.value (s.blk.gl.pixelsBefore s.mem r c) s.canvas c₁) :
    DrawnExactly s c₁.mem fun a b => GlyphPixelBefore s.blk.gl s.mem r c a b :=
  drawnExactly_of_putAllExact h.legal h.fits h.mem_pixels (fun _ _ hab => inBounds_iff.1 (h.inside _ _ hab)) drawn

/-- Settles O57: an EOF or unprintable record draws nothing by definition; of any other the renderer puts the pixels of
the set bits and no more (`RendersUpTo.all`). -/
theorem renderGlyphDrawsTheSetBits : Obligations.RenderGlyphDrawsTheSetBits := by
  unfold Obligations.RenderGlyphDrawsTheSetBits
  intro s
  refine ⟨fun hs empty => ?_, fun noEof data can => ?_⟩
  · exact exec_renderGlyph_ok (c := s.canvas) hs (congrFun (if_pos empty) _)
  · have h := can.rendersUpTo
    obtain ⟨c, drawn, run⟩ := h.all (v := s.blk.args.value) (c₀ := s.canvas) le_rfl rfl ⟨noEof, data⟩
    simp only [glyphPixel_iff_before]
    refine ⟨c.mem, ?_, h.drawnExactly drawn⟩
    rw [exec_renderGlyph_ok can.draw.legal run, State.drawn, drawn.draws]
    rfl

/-! ### What stops it -/

theorem CanRenderBefore.rendersUpTo {s : State} {r c k n : Nat} (h : CanRenderBefore s r c k)
    (within : r < s.blk.gl.sizeY ∧ c ≤ s.blk.gl.sizeX) (hn : n = r ∨ n = r + 1 ∧ k = s.blk.gl.rowBytes) :
    RendersUpTo s.platform s.blk.surf s.blk.gl s.canvas.mem r c n where
  legal := surfCheck_ok_iff.1 h.draw.legal
  fits := h.draw.fits
  mem := h.draw.mem
  within := .inl within
  inside a b hab := inBounds_int_iff.2 (h.inside a b hab)
  served := h.draw.served
  rows r' hr k' hk := h.rows r' k' hk (by omega)
  apart r' hr k' hk a b hab := h.apart r' k' a b (by omega) hk hab

/-- A row of which a byte is refused stops there (45_render.md R290). -/
theorem rowBits_refused {p : Platform} {g : Glyph} {r k : Nat} (hk : k < g.rowBytes)
    (served : ∀ j < k, p.serves (g.data + BitVec.ofNat 32 (r * g.rowBytes + j)) 1 .read = true)
    (refused : p.admits (g.data + BitVec.ofNat 32 (r * g.rowBytes + k)) 1 .read = false) (c : Canvas) :
    rowBits p g r c = .error (.raise (.busError (g.data + BitVec.ofNat 32 (r * g.rowBytes + k)))) c := by
  have stops : ∀ {a : Word}, p.admits a 1 .read = false → drawRead p a 1 c = .error (.raise (.busError a)) c :=
    fun ha => by rw [drawRead_eq, memRead_error_iff.2 (access_of_not_admitted ha)]
  unfold rowBits
  match k, hk, served, refused with
  | 0, _, _, refused => exact run_bind_error (stops refused)
  | 1, hk, served, refused =>
    have wide : g.wide = true := by
      by_contra narrow
      rw [Glyph.rowBytes, if_neg narrow] at hk
      exact absurd hk (lt_irrefl _)
    have second : g.data + BitVec.ofNat 32 (r * g.rowBytes + 1) = g.data + BitVec.ofNat 32 (r * g.rowBytes) + 1#32 := by
      rw [BitVec.add_assoc, ← BitVec.ofNat_add]
    rw [second] at refused ⊢
    refine (run_bind_ok (drawRead_of_serves (served 0 Nat.one_pos) c)).trans ?_
    rw [if_pos wide]
    exact run_bind_error (stops refused)
  | k + 2, hk, _, _ =>
    have atMost : g.rowBytes ≤ 2 := by unfold Glyph.rowBytes; split <;> omega
    omega

section StoppedPixel
variable {p : Platform} {sf : Surface} {x y : Nat} {before rest : List Access} {q : Access}
  (hl : sf.putAccesses x y = before ++ q :: rest)
include hl

/-- Before a pixel's last access, only a 24-bit pixel has been written to, and then by each access (41_pixel.md
R167). -/
theorem writes_before : (sf.fmt = 3 → (before.filter fun e => e.kind = .write) = before ∧ before.length < 3) ∧
    (sf.fmt ≠ 3 → (before.filter fun e => e.kind = .write) = []) := by
  refine ⟨fun hf => ⟨List.filter_eq_self.2 fun e he => ?_, ?_⟩, fun hf => List.filter_eq_nil_iff.2 fun e he => ?_⟩
  · have writes : ∀ e ∈ sf.putAccesses x y, e.kind = .write := by simp [Surface.putAccesses, hf]
    exact decide_eq_true (writes e (hl ▸ List.mem_append_left _ he))
  · have three : (sf.putAccesses x y).length = 3 := by simp [Surface.putAccesses, hf]
    rw [hl, List.length_append, List.length_cons] at three
    omega
  · have reads : ∀ e ∈ (sf.putAccesses x y).dropLast, e.kind = .read := by
      unfold Surface.putAccesses
      dsimp only
      split
      · split <;> simp
      · split <;> simp
      · simp
      · next h3 => exact absurd h3 hf
      · simp
    rw [hl, List.dropLast_append_cons] at reads
    simp [reads e (List.mem_append_left _ he)]

/-- A pixel that stops at its access `q`, the accesses before it being served and honoured, has made the writes among
them. -/
theorem putPix_stopped {v : Word} {c : Canvas}
    (hb : ∀ e ∈ before, p.serves e.addr e.bytes e.kind = true ∧ (e.kind = .write → p.byteWriteOk e.addr = true))
    (hq : p.admits q.addr q.bytes q.kind = false) :
    (before.filter fun e => e.kind = .write).length < 3 ∧ ∃ wrote,
      putPix p sf v x y c = .error (.raise (.busError q.addr)) ⟨writeLE c.mem (sf.pixAddr x y).1
        (before.filter fun e => e.kind = .write).length (v &&& pixelMask 24), c.draws, wrote⟩ := by
  obtain ⟨deep, other⟩ := writes_before hl
  by_cases hf : sf.fmt = 3
  · obtain ⟨all, few⟩ := deep hf
    rw [all]
    exact ⟨few, putPix_stopped_24 hf hl hb hq⟩
  · have stop := (putPix_stop (p := p) sf v x y c).trans
      (firstStop_of_firstRefused ⟨before, q, rest, hl, rfl, fun e he => (hb e he).1, hq⟩)
    obtain ⟨c', put⟩ := stopOf_error_iff.1 stop
    obtain rfl : c' = c := putPix_stopsClean hf put
    rw [other hf]
    exact ⟨Nat.succ_pos _, _, put⟩

end StoppedPixel

section Stops
variable {s : State} {r c n : Nat} {c₁ : Canvas} {cause : Cause}

theorem raiseFault_drawn (hd : c₁.draws = s.draws) :
    raiseFault cause (s.drawn c₁) = State.faulted { s with mem := c₁.mem } cause.code cause.info := by
  rw [State.drawn, hd]
  rfl

theorem RendersUpTo.stopsAt (h : RendersUpTo s.platform s.blk.surf s.blk.gl s.canvas.mem r c n)
    (drawn : PutAllExact s.blk.surf s.blk.args.value (s.blk.gl.pixelsBefore s.mem r c) s.canvas c₁)
    (run : renderRecord s.platform s.blk.surf s.blk.gl s.blk.args.value s.canvas = .error (.raise cause) c₁) :
    RenderStopsAt s r c cause.code cause.info :=
  ⟨c₁.mem, (exec_renderGlyph_raise (surfCheck_ok_iff.2 h.legal) run).trans
    (congrArg _ (raiseFault_drawn drawn.draws)), h.drawnExactly drawn⟩

/-- A pixel of which some bytes are written before it stops (45_render.md R290; 20_memory.md R90). -/
theorem RendersUpTo.stopsInPixel (h : RendersUpTo s.platform s.blk.surf s.blk.gl s.canvas.mem r c n) {a info : Word}
    {k : Nat} {wrote : List Word} (hk : k < 3)
    (drawn : PutAllExact s.blk.surf s.blk.args.value (s.blk.gl.pixelsBefore s.mem r c) s.canvas c₁)
    (run : renderRecord s.platform s.blk.surf s.blk.gl s.blk.args.value s.canvas = .error (.raise (.busError info))
      ⟨writeLE c₁.mem a k (s.blk.args.value &&& pixelMask 24), c₁.draws, wrote⟩) :
    RenderStopsInPixel s r c a k info := by
  have stops := (exec_renderGlyph_raise (surfCheck_ok_iff.2 h.legal) run).trans
    (congrArg _ (raiseFault_drawn drawn.draws))
  refine ⟨c₁.mem, _, stops, h.drawnExactly drawn, fun j hj => ?_, fun b hb => byteAt_writeLE_ne _ _ _ _ fun hin => ?_⟩
  · rw [byteAt_writeLE drawn.wf (by omega) hj, pixel24_byte _ (by omega)]
  · obtain ⟨j, hj, rfl⟩ := List.mem_map.1 hin
    exact hb j (List.mem_range.1 hj) rfl

end Stops

/-! ### Whatever ends it -/

theorem mem_recordBytes {p : Platform} {sf : Surface} {g : Glyph} {a : Word} (h : a ∈ recordBytes p sf g) :
    ∃ x y : Nat, sf.Inside x y ∧ g.x.toInt ≤ x ∧ (x : Int) < g.x.toInt + g.sizeX ∧
      g.y.toInt ≤ y ∧ (y : Int) < g.y.toInt + g.sizeY ∧ a ∈ pixBytes p sf x y := by
  obtain ⟨⟨x, y⟩, hq, ha⟩ := List.mem_flatMap.1 h
  obtain ⟨r, hr, hq⟩ := List.mem_flatMap.1 hq
  obtain ⟨c, hc, hq⟩ := List.mem_map.1 hq
  have hr := List.mem_range.1 hr
  have hc := List.mem_range.1 hc
  have column := congrArg Prod.fst hq
  have row := congrArg Prod.snd hq
  dsimp only at column row ha
  split at ha
  · next inside =>
    obtain ⟨left, right, top, bottom⟩ := inBounds_int_iff.1 inside
    exact ⟨x.toNat, y.toNat, by unfold Surface.Inside; omega, by omega, by omega, by omega, by omega, ha⟩
  · cases ha

/-- What RENDER_GLYPH has done that answers a next state: it failed SurfCheck, and changed nothing but the fault bits,
or it drew, to the end or to a stop of the renderer. -/
theorem renderGlyph_next {s t : State} (h : exec .renderGlyph s = .next t) :
    (∃ reason, t = raiseFault (.badSurface reason) s) ∨
      ∃ c, Writes (recordBytes s.platform s.blk.surf s.blk.gl) s.canvas c ∧ (t = complete (s.drawn c) ∨
        ∃ cause, RenderStop s.blk.surf s.blk.gl (.raise cause) ∧ t = raiseFault cause (s.drawn c)) := by
  cases hs : surfCheck s.blk.surf with
  | error e =>
    obtain ⟨reason, rfl, -⟩ := surfCheck_error hs
    cases (exec_badSurface (by decide) hs).symm.trans h
    exact .inl ⟨reason, rfl⟩
  | ok u =>
    have ends := renderRecord_ends s.platform s.blk.surf s.blk.gl s.blk.args.value s.canvas
    cases run : renderRecord s.platform s.blk.surf s.blk.gl s.blk.args.value s.canvas with
    | ok u c =>
      rw [run] at ends
      cases (exec_renderGlyph_ok hs run).symm.trans h
      exact .inr ⟨c, ends, .inl rfl⟩
    | error e c =>
      rw [run] at ends
      cases e with
      | raise cause =>
        cases (exec_renderGlyph_raise hs run).symm.trans h
        exact .inr ⟨c, ends.1, .inr ⟨cause, ends.2, rfl⟩⟩
      | refuse r =>
        cases (exec_renderGlyph_refuse hs run).symm.trans h

/-- Settles O58: up to the first row byte, bit or access that stops it the renderer has put its pixels
(`RendersUpTo.stops_at_row`, `RendersUpTo.stops_at_bit`), and whatever ends it, it has written its box only
(`renderGlyph_next`). -/
theorem renderGlyphStaysInTheBox : Obligations.RenderGlyphStaysInTheBox := by
  unfold Obligations.RenderGlyphStaysInTheBox
  refine ⟨fun s r c noEof data hr => ⟨fun k hk can refused => ?_, fun hc bit can => ?_⟩, fun s t noFault h => ?_⟩
  · have h := can.rendersUpTo ⟨hr, Nat.zero_le _⟩ (.inl rfl)
    obtain ⟨c₁, drawn, stops⟩ := h.stops_at_row (v := s.blk.args.value) (c₀ := s.canvas) le_rfl hr ⟨noEof, data⟩
    exact h.stopsAt drawn (stops (run_bind_error
      (rowBits_refused hk (fun j hj => can.rows r j (by omega) (.inr ⟨rfl, hj⟩)) refused c₁)))
  · have h := can.rendersUpTo ⟨hr, hc.le⟩ (.inr ⟨rfl, rfl⟩)
    obtain ⟨c₁, drawn, stops⟩ :=
      h.stops_at_bit (v := s.blk.args.value) (c₀ := s.canvas) (Nat.lt_succ_self r) hr hc ⟨noEof, data⟩ bit
    refine ⟨fun outside => ?_, fun inside before rest q hl hb hq => ?_⟩
    · exact h.stopsAt drawn (stops (if_neg (by simp [outside])))
    · obtain ⟨few, wrote, put⟩ := putPix_stopped (v := s.blk.args.value) (c := c₁) hl hb hq
      exact h.stopsInPixel few drawn (stops ((congrFun (plotGlyphPixel_inside inside) c₁).trans put))
  · have frame : ∀ {c}, Writes (recordBytes s.platform s.blk.surf s.blk.gl) s.canvas c → ∀ a, (∀ x y : Nat,
        s.blk.surf.Inside x y → s.blk.gl.x.toInt ≤ x → (x : Int) < s.blk.gl.x.toInt + s.blk.gl.sizeX →
        s.blk.gl.y.toInt ≤ y → (y : Int) < s.blk.gl.y.toInt + s.blk.gl.sizeY →
        a ∉ pixBytes s.platform s.blk.surf x y) → byteAt c.mem a = byteAt s.mem a := fun writes a ha =>
      writes.frame a fun hin => by
        obtain ⟨x, y, inside, left, right, top, bottom, hin⟩ := mem_recordBytes hin
        exact ha x y inside left right top bottom hin
    rcases renderGlyph_next h with ⟨reason, rfl⟩ | ⟨c, writes, rfl | ⟨cause, stop, rfl⟩⟩
    · exact ⟨rfl, fun _ _ => rfl, fun _ code => absurd code (show (2 : Byte) ≠ 3 by decide)⟩
    · exact ⟨rfl, frame writes, fun fault => absurd (fault.symm.trans noFault) (by decide)⟩
    · refine ⟨rfl, frame writes, fun _ code => ?_⟩
      rcases stop with access | ⟨r, c, hr, hc, outside, same⟩
      · cases cause with
        | busError a => exact absurd code (show (6 : Byte) ≠ 3 by decide)
        | _ => exact access.elim
      · cases same
        exact ⟨r, c, hr, hc, outside, rfl⟩

end Sys2Proof.Machine
end

section
/-! SUPPORT. RENDER_TEXT turn by turn: a layout step, and the renderer after a drawable record (45_render.md R291), and
O59. -/

namespace Sys2Proof.Machine

/-! ### What a computation depends on -/

/-- An answer, with the state seen through `f`. -/
def seenThrough {σ τ α : Type} (f : σ → τ) : EStateM.Result Stop σ α → EStateM.Result Stop τ α
  | .ok a s => .ok a (f s)
  | .error e s => .error e (f s)

/-- The computation answers, stops and changes its state by what `f` shows of the state alone. -/
def DependsOn {σ τ α : Type} (f : σ → τ) (e : EStateM Stop σ α) : Prop :=
  ∀ s s' : σ, f s = f s' → seenThrough f (e s) = seenThrough f (e s')

section DependsOn
variable {σ τ α β : Type} {f : σ → τ}

theorem DependsOn.pure (a : α) : DependsOn f (Pure.pure a : EStateM Stop σ α) :=
  fun _ _ h => congrArg (EStateM.Result.ok a) h

theorem DependsOn.bind {e : EStateM Stop σ α} {g : α → EStateM Stop σ β} (he : DependsOn f e)
    (hg : ∀ a, DependsOn f (g a)) : DependsOn f (e >>= g) := by
  intro s s' h
  have first := he s s' h
  cases hs : e s with
  | ok a t =>
    cases hs' : e s' with
    | ok a' t' =>
      rw [hs, hs'] at first
      obtain ⟨rfl, same⟩ := EStateM.Result.ok.inj first
      rw [run_bind_ok hs, run_bind_ok hs']
      exact hg a t t' same
    | error r t' =>
      rw [hs, hs'] at first
      cases first
  | error r t =>
    cases hs' : e s' with
    | ok a' t' =>
      rw [hs, hs'] at first
      cases first
    | error r' t' =>
      rw [hs, hs'] at first
      obtain ⟨rfl, same⟩ := EStateM.Result.error.inj first
      rw [run_bind_error hs, run_bind_error hs']
      exact congrArg (EStateM.Result.error r) same

theorem DependsOn.forEach {g : α → EStateM Stop σ Unit} (hg : ∀ a, DependsOn f (g a)) :
    ∀ l : List α, DependsOn f (forEach g l)
  | [] => .pure ()
  | a :: rest => .bind (hg a) fun _ => .forEach hg rest

end DependsOn

/-! ### No drawing looks at what has been written so far -/

/-- What a drawing may look at. -/
def Canvas.shown (c : Canvas) : Memory × Nat := (c.mem, c.draws)

theorem freeBytes_shown : ∀ (l : List Word) {c c' : Canvas}, c.shown = c'.shown →
    (freeBytes l c).shown = (freeBytes l c').shown
  | [], _, _, h => h
  | a :: rest, c, c', h => by
    obtain ⟨mem, draws⟩ := Prod.mk.inj h
    refine freeBytes_shown rest ?_
    rw [Canvas.shown, Canvas.shown, mem, draws]

section Drawing
variable {p : Platform}

theorem memWrite_dependsOn (a : Word) (n : Nat) (v : Word) : DependsOn Canvas.shown (memWrite p a n v) := by
  intro c c' h
  cases ha : access p a n .write with
  | error r =>
    rw [memWrite_of_error ha, memWrite_of_error ha]
    exact congrArg (EStateM.Result.error r) h
  | ok u =>
    rw [memWrite_of_serves (access_ok_iff.1 ha), memWrite_of_serves (access_ok_iff.1 ha)]
    refine congrArg (EStateM.Result.ok ()) ?_
    split
    · exact freeBytes_shown _ h
    · obtain ⟨mem, draws⟩ := Prod.mk.inj h
      rw [Canvas.shown, Canvas.shown, mem, draws]

theorem drawRead_dependsOn (a : Word) (n : Nat) : DependsOn Canvas.shown (drawRead p a n) := by
  intro c c' h
  rw [drawRead_eq, drawRead_eq, (Prod.mk.inj h).1]
  cases memRead p c'.mem a n with
  | ok v => exact congrArg (EStateM.Result.ok v) h
  | error r => exact congrArg (EStateM.Result.error r) h

theorem putPix_dependsOn (sf : Surface) (v : Word) (x y : Nat) : DependsOn Canvas.shown (putPix p sf v x y) := by
  have write : ∀ {a n v}, DependsOn Canvas.shown (memWrite p a n v) := fun {a n v} => memWrite_dependsOn a n v
  have merge : ∀ {a b n m} {v : Word → Word},
      DependsOn Canvas.shown (drawRead p a n >>= fun old => memWrite p b m (v old)) :=
    .bind (drawRead_dependsOn _ _) fun _ => write
  unfold putPix mergeHalfword
  dsimp only
  split
  · exact write
  · exact .bind write fun _ => .bind write fun _ => write
  · exact write
  · split
    · exact merge
    · exact write
  · split
    · exact merge
    · exact merge

theorem renderRecord_dependsOn (sf : Surface) (g : Glyph) (v : Word) :
    DependsOn Canvas.shown (renderRecord p sf g v) := by
  have read : ∀ {a}, DependsOn Canvas.shown (drawRead p a 1) := fun {a} => drawRead_dependsOn a 1
  have plot : ∀ x y, DependsOn Canvas.shown (plotGlyphPixel p sf v x y) := fun x y => by
    by_cases inside : sf.inBounds x y = true
    · exact plotGlyphPixel_inside inside ▸ putPix_dependsOn sf v _ _
    · intro c c' h
      rw [plotGlyphPixel, plotGlyphPixel, if_neg inside, if_neg inside]
      exact congrArg (EStateM.Result.error _) h
  unfold renderRecord
  split
  · exact .pure ()
  · refine .forEach (fun r => .bind (.bind read fun lo => ?_) fun row => .forEach (fun c => ?_) _) _
    · split
      · exact .bind read fun _ => .pure _
      · exact .pure _
    · split
      · exact plot _ _
      · exact .pure _

end Drawing

/-! ### No command looks at what it has written so far -/

section Engine
variable {α : Type}

/-- A computation that looks at the state and goes on by what it finds there. -/
theorem DependsOn.read {g : State → Engine α} (hg : ∀ s, DependsOn Work.st (g s)) :
    DependsOn Work.st (theState >>= g) :=
  .bind (fun w w' h => show EStateM.Result.ok w.st w.st = .ok w'.st w'.st by rw [h]) hg

theorem DependsOn.check (x : Except Stop α) : DependsOn Work.st (Machine.check x) := by
  intro w w' h
  cases x with
  | ok a => exact congrArg (EStateM.Result.ok a) h
  | error r => exact congrArg (EStateM.Result.error r) h

theorem DependsOn.update (f : State → State) : DependsOn Work.st (Machine.update f) :=
  fun _ _ h => congrArg (EStateM.Result.ok () ∘ f) h

theorem DependsOn.draw {d : Draw α} (hd : DependsOn Canvas.shown d) : DependsOn Work.st (Machine.draw d) := by
  intro w w' h
  obtain ⟨s, l⟩ := w
  obtain ⟨s', l'⟩ := w'
  obtain rfl : s = s' := h
  have through : ∀ l, seenThrough Work.st (Machine.draw d ⟨s, l⟩) =
      seenThrough (fun x : Memory × Nat => { s with mem := x.1, draws := x.2 })
        (seenThrough Canvas.shown (d (Work.canvas ⟨s, l⟩))) := fun l => by
    rw [run_draw]
    cases d (Work.canvas ⟨s, l⟩) <;> rfl
  rw [through, through, hd (Work.canvas ⟨s, l⟩) (Work.canvas ⟨s, l'⟩) rfl]

theorem layoutStep_dependsOn : DependsOn Work.st layoutStep := by
  have glyph : ∀ cp i, DependsOn Work.st (layoutGlyph cp i) := fun cp i =>
    .read fun _ => .bind (.check _) fun _ => .bind (.check _) fun _ => .bind (.update _) fun _ =>
      .bind (.update _) fun _ => .pure _
  have code : ∀ cp, DependsOn Work.st (layoutCode cp) := fun cp => .read fun s => by
    dsimp only
    split
    · exact .bind (.check _) fun _ => .bind (.update _) fun _ => .bind (.update _) fun _ => .pure _
    · split
      · exact .bind (.update _) fun _ => .pure _
      · exact glyph cp _
  have ending : DependsOn Work.st endLayout :=
    .read fun _ => .bind (.update _) fun _ => .bind (.update _) fun _ => .pure _
  have next : DependsOn Work.st nextCode := .read fun _ => .bind (.check _) fun _ => .bind (.update _) fun _ => .pure _
  refine .read fun s => ?_
  dsimp only
  split
  · exact .bind (.update _) fun _ => .pure _
  · split
    · exact ending
    · refine .bind next fun cp => ?_
      split
      · exact ending
      · exact code cp

theorem renderCurrent_dependsOn : DependsOn Work.st renderCurrent :=
  .read fun _ => .draw (renderRecord_dependsOn _ _ _)

theorem renderLoop_dependsOn : ∀ fuel, DependsOn Work.st (renderLoop fuel)
  | 0 => .pure _
  | fuel + 1 => .bind layoutStep_dependsOn fun k => by
    cases k with
    | eof => exact .pure _
    | unprintable => exact renderLoop_dependsOn fuel
    | drawable => exact .bind renderCurrent_dependsOn fun _ => renderLoop_dependsOn fuel

end Engine

/-- A command answers by the state that its computation ends in, whatever it has written. -/
theorem finish_congr {e e' : Engine Unit} {s s' : State}
    (h : seenThrough Work.st (e ⟨s, []⟩) = seenThrough Work.st (e' ⟨s', []⟩)) : finish e s = finish e' s' := by
  have answer : ∀ (e : Engine Unit) (s : State), finish e s =
      match seenThrough Work.st (e ⟨s, []⟩) with
      | .ok _ t => .next (complete t)
      | .error (.raise c) t => .next (raiseFault c t)
      | .error (.refuse r) _ => .refused r := fun e s => by
    unfold finish
    cases e ⟨s, []⟩ with
    | ok u w => rfl
    | error r w => cases r <;> rfl
  rw [answer, answer, h]

/-! ### What a layout step that comes to its end has done -/

/-- Steps 3 to 7 of the code point `cp` in `s` (44_layout.md R272): it was special, unknown, or a glyph that is placed
without Overflow. -/
inductive CodeDone (s : State) (cp : Word) : StepKind → State → Prop
  | special {xy : Int × Int} (move : specialMove s.platform s.blk.lay cp = some xy)
    (x : IsInt32 xy.1) (y : IsInt32 xy.2) :
    CodeDone s cp .unprintable (setGlyph (unprintableRecord cp s.blk.lay (wordOfInt xy.1))
      (setLayout { s.blk.lay with x := wordOfInt xy.1, y := wordOfInt xy.2 } s))
  | unknown : CodeDone s cp .unprintable (setGlyph (unprintableRecord cp s.blk.lay s.blk.lay.x) s)
  | glyph {i : Fin 8} {h : Word} (header : getHeader s.platform s.mem s.blk.cs i cp = .ok h)
    (fits : (placeGlyph s.blk.lay h (s.platform.alignClass cp)).fits h = true) :
    CodeDone s cp .drawable (setGlyph (drawableRecord cp i (s.blk.cs.get i).base h (s.platform.alignClass cp)
      (placeGlyph s.blk.lay h (s.platform.alignClass cp)))
      (setLayout (s.blk.lay.placed (placeGlyph s.blk.lay h (s.platform.alignClass cp))) s))

theorem layoutCode_done (s : State) (cp : Word) : Answers (CodeDone s cp) (layoutCode cp) s := by
  refine .read ?_
  dsimp only
  split
  · next xy move =>
    refine .check_bind fun _ fits => .update_bind (.update_bind (.pure (.special move ?_ ?_)))
    · exact int32_iff.1 (Bool.and_eq_true_iff.1 (overflowCheck_ok fits)).1
    · exact int32_iff.1 (Bool.and_eq_true_iff.1 (overflowCheck_ok fits)).2
  · split
    · exact .update_bind (.pure .unknown)
    · exact .read (.check_bind fun h header => .check_bind fun _ fits =>
        .update_bind (.update_bind (.pure (.glyph header (overflowCheck_ok fits)))))

/-- A layout step that does not end has taken a code point, and done with it what `CodeDone` says. -/
theorem layoutStep_done (s : State) : Answers (fun k t => k ≠ .eof →
    ∃ cp n, CodeDone (setDecoder (s.blk.dec.advance n) s) cp k t) layoutStep s := by
  have ending : ∀ t, Answers (fun k t => k ≠ .eof → ∃ cp n, CodeDone (setDecoder (s.blk.dec.advance n) s) cp k t)
      endLayout t := fun t => .read (.update_bind (.update_bind (.pure fun goesOn => absurd rfl goesOn)))
  refine .read ?_
  dsimp only
  split
  · exact .update_bind (.pure fun goesOn => absurd rfl goesOn)
  · split
    · exact ending _
    · refine .nextCode_bind fun cp n _ => ?_
      split
      · exact ending _
      · exact fun l k w run _ => ⟨cp, n, layoutCode_done _ cp l k w run⟩

/-- The record has data exactly when the code point is drawable (44_layout.md R262). -/
theorem CodeDone.hasData_iff {s t : State} {cp : Word} {k : StepKind} (h : CodeDone s cp k t) :
    t.blk.gl.hasData = true ↔ k = .drawable := by
  cases h with
  | special | unknown => exact iff_of_false (show ¬ (0 : Word).getLsbD 8 = true by decide) (by decide)
  | glyph => exact iff_of_true (drawableInfo_bits ..).1 rfl

/-- A step that does not end leaves fewer turns to come (44_layout.md R276 (c)). -/
theorem layoutStep_stepBound {w w' : Work} {k : StepKind} (run : layoutStep w = .ok k w') (hk : k ≠ .eof) :
    w'.st.blk.dec.stepBound < w.st.blk.dec.stepBound := by
  obtain ⟨consumed, inside⟩ := (layoutStep_answers w.st _ _ _ run).consumes hk
  have len := congrArg BitVec.toNat (layoutStep_answers w.st _ _ _ run).len
  unfold Decoder.stepBound
  omega

/-! ### RENDER_TEXT -/

theorem renderCurrent_dec {w w' : Work} (run : renderCurrent w = .ok () w') : w'.st.blk.dec = w.st.blk.dec := by
  obtain ⟨c, -, rfl⟩ := draw_ok_iff.1 ((renderCurrent_run w).symm.trans run)
  rfl

/-- Any number of turns beyond the input that is left makes the same loop (log 26). -/
theorem renderLoop_enough : ∀ {fuel fuel' : Nat} {w : Work}, w.st.blk.dec.stepBound ≤ fuel →
    w.st.blk.dec.stepBound ≤ fuel' → renderLoop fuel w = renderLoop fuel' w
  | fuel + 1, fuel' + 1, w, h, h' => by
    have rest : ∀ {k w' w''}, layoutStep w = .ok k w' → k ≠ .eof → w''.st.blk.dec = w'.st.blk.dec →
        renderLoop fuel w'' = renderLoop fuel' w'' := fun {k w' w''} run hk dec => by
      have fewer := layoutStep_stepBound run hk
      exact renderLoop_enough (by rw [dec]; omega) (by rw [dec]; omega)
    rw [renderLoop_succ, renderLoop_succ]
    cases run : layoutStep w with
    | error e w' => rfl
    | ok k w' =>
      cases k with
      | eof => rfl
      | unprintable => exact rest run (by decide) rfl
      | drawable =>
        dsimp only
        cases render : renderCurrent w' with
        | error e w'' => rfl
        | ok u w'' => exact rest run (by decide) (renderCurrent_dec render)
  | 0, _, _, h, _ => absurd h (Nat.not_succ_le_zero _)
  | _ + 1, 0, _, _, h' => absurd h' (Nat.not_succ_le_zero _)

section RenderText
variable {s : State} (hs : surfCheck s.blk.surf = .ok ())
include hs

/-- RENDER_TEXT on a legal surface is its loop, with any number of turns that is enough. -/
theorem exec_renderText {fuel : Nat} (h : s.blk.dec.stepBound ≤ fuel) :
    exec .renderText s = finish (renderLoop fuel) s := by
  have run : bodyOf .renderText { st := s, wrote := [] } = renderLoop fuel { st := s, wrote := [] } :=
    (surface_checked (by decide) hs id).trans (renderLoop_enough le_rfl h)
  rw [exec_eq, finish, finish, run]

/-- A first turn that hands the loop on leaves RENDER_TEXT in the state that it comes to. -/
theorem exec_renderText_of_turn {w : Work} (turn : renderLoop (s.blk.dec.stepBound + 1) { st := s, wrote := [] } =
    renderLoop s.blk.dec.stepBound w) (surf : w.st.blk.surf = s.blk.surf)
    (bound : w.st.blk.dec.stepBound ≤ s.blk.dec.stepBound) : exec .renderText s = exec .renderText w.st := by
  rw [exec_renderText hs (Nat.le_succ _), exec_renderText (surf ▸ hs) bound]
  refine finish_congr ?_
  rw [turn]
  exact renderLoop_dependsOn _ _ _ rfl

theorem exec_renderText_of_error {e : Stop} {w : Work} (run : layoutStep { st := s, wrote := [] } = .error e w) :
    exec .renderText s = exec .layoutNext s := by
  have turn : renderLoop (s.blk.dec.stepBound + 1) { st := s, wrote := [] } = .error e w := by rw [renderLoop_succ, run]
  rw [exec_renderText hs (Nat.le_succ _)]
  cases e with
  | raise c => rw [finish_raise turn, exec_layoutNext_of_raise run]
  | refuse r => rw [finish_refuse turn, exec_layoutNext_of_refuse run]

theorem exec_renderText_of_eof {w : Work} (run : layoutStep { st := s, wrote := [] } = .ok .eof w) :
    exec .renderText s = .next (complete w.st) := by
  rw [exec_renderText hs (Nat.le_succ _)]
  exact finish_ok (by rw [renderLoop_succ, run])

section More
variable {t : State}

/-- A step that leaves nothing to draw hands the loop on. -/
theorem exec_renderText_of_unprintable
    (run : layoutStep { st := s, wrote := [] } = .ok .unprintable { st := t, wrote := [] }) :
    exec .renderText s = exec .renderText t :=
  exec_renderText_of_turn hs (w := { st := t, wrote := [] }) (by rw [renderLoop_succ, run]) (layoutStep_keeps run).surf
    (layoutStep_stepBound run (by decide)).le

variable (run : layoutStep { st := s, wrote := [] } = .ok .drawable { st := t, wrote := [] }) {c : Canvas}
include run

/-- A record that is drawn hands the loop on. -/
theorem exec_renderText_of_drawn
    (render : renderRecord t.platform t.blk.surf t.blk.gl t.blk.args.value t.canvas = .ok () c) :
    exec .renderText s = exec .renderText (t.drawn c) := by
  have current : renderCurrent { st := t, wrote := [] } = .ok () { st := t.drawn c, wrote := c.wrote } :=
    (renderCurrent_run _).trans (draw_ok_iff.2 ⟨c, render, rfl⟩)
  refine exec_renderText_of_turn hs (w := { st := t.drawn c, wrote := c.wrote }) ?_ (layoutStep_keeps run).surf
    (layoutStep_stepBound run (by decide)).le
  rw [renderLoop_succ, run]
  dsimp only
  rw [current]

/-- A record that stops the renderer ends RENDER_TEXT as it ends RENDER_GLYPH. -/
theorem exec_renderText_of_stopped {e : Stop}
    (render : renderRecord t.platform t.blk.surf t.blk.gl t.blk.args.value t.canvas = .error e c) :
    exec .renderText s = exec .renderGlyph (complete t) := by
  have current : renderCurrent { st := t, wrote := [] } = .error e { st := t.drawn c, wrote := c.wrote } :=
    (renderCurrent_run _).trans (draw_error_iff.2 ⟨c, render, rfl⟩)
  have turn : renderLoop (s.blk.dec.stepBound + 1) { st := s, wrote := [] } =
      .error e { st := t.drawn c, wrote := c.wrote } := by
    rw [renderLoop_succ, run]
    dsimp only
    rw [current]
  have legal : surfCheck (complete t).blk.surf = .ok () := (congrArg surfCheck (layoutStep_keeps run).surf).trans hs
  rw [exec_renderText hs (Nat.le_succ _)]
  cases e with
  | raise cause => exact (finish_raise turn).trans (exec_renderGlyph_raise legal render).symm
  | refuse r => exact (finish_refuse turn).trans (exec_renderGlyph_refuse legal render).symm

end More

end RenderText

theorem relatched_complete {s t : State} (latch : t.blk.latch = s.blk.latch) :
    (complete t).relatched s.blk.latch = t := by
  rw [← latch]
  rfl

theorem relatched_drawn {s t : State} (latch : t.blk.latch = s.blk.latch) (c : Canvas) :
    (complete ((complete t).drawn c)).relatched s.blk.latch = t.drawn c := by
  rw [← latch]
  rfl

/-- Settles O59: the loop's first turn is LAYOUT_NEXT's step, and RENDER_GLYPH's drawing after a drawable record; the
turns that are left are enough for the rest (`renderLoop_enough`). -/
theorem renderTextRepeatsLayoutAndRender : Obligations.RenderTextRepeatsLayoutAndRender := by
  unfold Obligations.RenderTextRepeatsLayoutAndRender
  intro s inv hf hs
  cases run : layoutStep { st := s, wrote := [] } with
  | error e w =>
    rw [exec_renderText_of_error hs run]
    refine ⟨fun _ => id, fun t ht => ?_⟩
    have fault : t.blk.status.fault = true := by
      cases e with
      | raise c =>
        cases (exec_layoutNext_of_raise run).symm.trans ht
        rfl
      | refuse r => cases (exec_layoutNext_of_refuse run).symm.trans ht
    exact ⟨fun _ => ht, fun noFault => absurd fault (Bool.eq_false_iff.1 noFault),
      fun noFault => absurd fault (Bool.eq_false_iff.1 noFault)⟩
  | ok k w =>
    have kept := layoutStep_keeps run
    have ends := (layoutStep_answers s _ _ _ run).ends
    obtain ⟨t, wrote⟩ := w
    obtain rfl : wrote = [] := (kept.memory rfl).2.2
    have latch : t.blk.latch = s.blk.latch := kept.latch
    have noFault : t.blk.status.fault = false := (congrArg FaultStatus.fault kept.status).trans hf
    rw [exec_layoutNext_of_step run]
    refine ⟨nofun, fun t' ht => ?_⟩
    cases ht
    refine ⟨fun last => ?_, fun _ goesOn noData => ?_, fun _ goesOn data => ?_⟩
    · obtain rfl := ends.1 (last.resolve_left (Bool.eq_false_iff.1 noFault))
      exact exec_renderText_of_eof hs run
    · obtain ⟨cp, n, done⟩ := layoutStep_done s _ _ _ run (mt ends.2 goesOn)
      rw [relatched_complete latch]
      cases k with
      | eof => exact absurd (ends.2 rfl) goesOn
      | unprintable => exact exec_renderText_of_unprintable hs run
      | drawable => exact absurd (done.hasData_iff.2 rfl) (Bool.eq_false_iff.1 noData)
    · obtain ⟨cp, n, done⟩ := layoutStep_done s _ _ _ run (mt ends.2 goesOn)
      obtain rfl := done.hasData_iff.1 data
      have legal : surfCheck (complete t).blk.surf = .ok () := (congrArg surfCheck kept.surf).trans hs
      cases render : renderRecord t.platform t.blk.surf t.blk.gl t.blk.args.value t.canvas with
      | ok u c =>
        rw [exec_renderGlyph_ok legal render]
        refine ⟨nofun, fun u hu => ?_⟩
        cases hu
        rw [relatched_drawn latch]
        exact ⟨fun fault => absurd fault (Bool.eq_false_iff.1 noFault), fun _ => exec_renderText_of_drawn hs run render⟩
      | error e c =>
        rw [exec_renderText_of_stopped hs run render]
        refine ⟨fun _ => id, fun u hu => ⟨fun _ => hu, fun noFault => ?_⟩⟩
        cases e with
        | raise cause =>
          cases (exec_renderGlyph_raise legal render).symm.trans hu
          cases noFault
        | refuse r => cases (exec_renderGlyph_refuse legal render).symm.trans hu

end Sys2Proof.Machine
end

section
/-! SUPPORT. On undisturbed text inside the surface no turn of RENDER_TEXT stops (45_render.md R291; 44_layout.md R276;
70_reset_and_hazards.md R352), and O60. -/

namespace Sys2Proof.Machine

/-! ### A record that is drawn to its end -/

/-- From memory in canonical form the drawing comes to its end. -/
def Completes {α : Type} (d : Draw α) : Prop :=
  ∀ c : Canvas, Memory.wf c.mem = true → ∃ a c', d c = .ok a c' ∧ Memory.wf c'.mem = true

theorem Completes.pure {α : Type} (a : α) : Completes (Pure.pure a : Draw α) := fun c wf => ⟨a, c, rfl, wf⟩

theorem Completes.bind {α β : Type} {d : Draw α} {f : α → Draw β} (hd : Completes d) (hf : ∀ a, Completes (f a)) :
    Completes (d >>= f) := fun c wf => by
  obtain ⟨a, c₁, run, wf₁⟩ := hd c wf
  obtain ⟨b, c₂, run₂, wf₂⟩ := hf a c₁ wf₁
  exact ⟨b, c₂, (run_bind_ok run).trans run₂, wf₂⟩

theorem Completes.forEach {α : Type} {f : α → Draw Unit} : ∀ {l : List α}, (∀ a ∈ l, Completes (f a)) →
    Completes (Machine.forEach f l)
  | [], _ => .pure ()
  | a :: _, h => .bind (h a (List.mem_cons_self ..)) fun _ => .forEach fun b hb => h b (List.mem_cons_of_mem _ hb)

/-- The rows of the record can be read, and its box lies inside the surface. -/
structure RecordInside (p : Platform) (sf : Surface) (g : Glyph) : Prop where
  rows : ∀ r < g.sizeY, ∀ k < g.rowBytes, p.serves (g.data + BitVec.ofNat 32 (r * g.rowBytes + k)) 1 .read = true
  box : ∀ r < g.sizeY, ∀ c < g.sizeX, sf.inBounds (g.x.toInt + c) (g.y.toInt + r) = true

/-- Whatever bits its rows hold, such a record is drawn to its end where every pixel write is served. -/
theorem RecordInside.completes {p : Platform} {sf : Surface} {g : Glyph} (h : RecordInside p sf g) (legal : sf.Legal)
    (writes : ∀ x y, sf.Inside x y → p.writesPixel sf x y = true) (v : Word) : Completes (renderRecord p sf g v) := by
  have plot : ∀ {x y : Int}, sf.inBounds x y = true → Completes (plotGlyphPixel p sf v x y) := by
    intro x y inside c wf
    have bounds := inBounds_int_iff.1 inside
    obtain ⟨c', put, exact⟩ := putPix_exact (v := v) legal wf (writes x.toNat y.toNat ⟨by omega, by omega⟩)
    exact ⟨(), c', (congrFun (plotGlyphPixel_inside inside) c).trans put, exact.wf⟩
  have read : ∀ r < g.sizeY, Completes (rowBits p g r) := fun r hr c wf => by
    obtain ⟨row, run, -⟩ := rowBits_of_serves c (h.rows r hr)
    exact ⟨row, c, run, wf⟩
  unfold renderRecord
  split
  · exact .pure ()
  · refine .forEach fun r hr => .bind (read r (List.mem_range.1 hr)) fun row => .forEach fun k hk => ?_
    split
    · exact plot (h.box r (List.mem_range.1 hr) k (List.mem_range.1 hk))
    · exact .pure ()

/-! ### Where the record of a drawable glyph lies -/

/-- A glyph is placed at the cursor, or at the initial x of a line further down (44_layout.md R253). -/
theorem placeGlyph_cases (l : Layout) (h : Word) (cls : AlignClass) : ∃ cx cy : Int,
    (cx = l.x.toInt ∨ cx = l.xInit.toInt) ∧ l.y.toInt ≤ cy ∧ placeGlyph l h cls =
      clipped l h (glyphSpot l cls (h.toNat % 16) cx).1 (glyphSpot l cls (h.toNat % 16) cx).2 cy := by
  unfold placeGlyph
  dsimp only
  split
  · exact ⟨_, _, .inr rfl, le_add_of_nonneg_right (Int.natCast_nonneg _), by rw [place_eq]⟩
  · exact ⟨_, _, .inl rfl, le_rfl, by rw [place_eq]⟩

/-- The cursor, and where a wrap puts it, lie right of and below the surface's corner. -/
structure Layout.Right (l : Layout) : Prop where
  x : 0 ≤ l.x.toInt
  xInit : 0 ≤ l.xInit.toInt
  y : 0 ≤ l.y.toInt

/-- From such a cursor a glyph is placed right of and below the corner, clipped at the limits of the layout
(44_layout.md R250, R251, R254). -/
theorem Layout.Right.placeGlyph {l : Layout} (hl : l.Right) (h : Word) (cls : AlignClass) :
    let g := Machine.placeGlyph l h cls
    0 ≤ g.gx ∧ 0 ≤ g.gy ∧ 0 ≤ g.nx ∧ 0 ≤ g.cy ∧ (∀ c < g.csx, g.gx + c < l.maxX.toInt) ∧
      (∀ r < g.csy, g.gy + r < l.maxY.toInt) ∧ g.csx < 16 ∧ g.csy ≤ hdrSizeY h := by
  obtain ⟨x, xInit, y⟩ := hl
  obtain ⟨cx, cy, hx, hy, place⟩ := placeGlyph_cases l h cls
  have spot := glyphSpot_near l cls (sx := h.toNat % 16) (by omega) cx
  dsimp only
  rw [place]
  dsimp only [clipped]
  refine ⟨by omega, by omega, by omega, by omega, fun c hc => ?_, fun r hr => ?_,
    (clampNat_le _ _).trans_lt (hdrSizeX_lt h), clampNat_le _ _⟩
  · have := (lt_clampNat_iff.1 hc).2
    omega
  · have := (lt_clampNat_iff.1 hr).2
    omega

theorem drawableRecord_rowBytes (cp : Word) (i : Fin 8) (base h : Word) (cls : AlignClass) (g : Placement) :
    (drawableRecord cp i base h cls g).rowBytes = hdrRowBytes h := by
  have wide : (drawableRecord cp i base h cls g).wide = hdrWide h := by
    unfold Glyph.wide drawableRecord drawableInfo
    simp only [BitVec.getLsbD_append]
    simp [bit]
  rw [Glyph.rowBytes, wide, hdrRowBytes]

/-- A header that is answered has its rows inside the blob (44_layout.md R244). -/
theorem getHeader_rowsInside {p : Platform} {m : Memory} {cs : Vector CharsetSlot 8} {i : Fin 8} {cp h : Word}
    (header : getHeader p m cs i cp = .ok h) :
    hdrDataOffset h + hdrSizeY h * hdrRowBytes h ≤ (cs.get i).len.toNat := by
  unfold getHeader at header
  dsimp only at header
  split_ifs at header
  obtain ⟨h', -, last⟩ := except_bind_ok_iff.1 header
  split_ifs at last with rows
  cases last
  exact not_lt.1 rows

/-- The bytes of the record's rows, among those of the blob (44_layout.md R243, R262). -/
theorem drawableRecord_data (cp : Word) (i : Fin 8) (base h : Word) (cls : AlignClass) (g : Placement) (n : Nat) :
    (drawableRecord cp i base h cls g).data + BitVec.ofNat 32 n = base + BitVec.ofNat 32 (hdrDataOffset h + n) :=
  (BitVec.add_assoc ..).trans (congrArg (base + ·) (BitVec.ofNat_add ..).symm)

theorem rowByte_inside {h : Word} {r k : Nat} (hr : r < hdrSizeY h) (hk : k < hdrRowBytes h) :
    r * hdrRowBytes h + k < hdrSizeY h * hdrRowBytes h := by
  have rows : (r + 1) * hdrRowBytes h ≤ hdrSizeY h * hdrRowBytes h := Nat.mul_le_mul_right _ hr
  rw [Nat.add_mul, Nat.one_mul] at rows
  omega

/-! ### A layout step under `CanRenderText` -/

/-- A special code point never moves the cursor left of the corner (44_layout.md R246). -/
theorem specialMove_right {p : Platform} {l : Layout} {cp : Word} {xy : Int × Int} (hl : l.Right)
    (h : specialMove p l cp = some xy) : 0 ≤ xy.1 := by
  have x := hl.x
  have row : ∀ {x y : Int}, 0 ≤ x → some (x, y) = some xy → 0 ≤ xy.1 := fun left e => by
    cases e
    exact left
  unfold specialMove at h
  dsimp only at h
  split_ifs at h
  · exact row (by omega) h
  · exact row (by omega) h
  · exact row (by unfold nextTab tabStop; omega) h
  · exact row hl.xInit h
  · exact row x h
  · split at h <;> exact row (by omega) h
  · split at h
    · exact row (by omega) h
    · cases h

/-- What a code point leaves of the layout: its cursor is no further left than the corner, and its limits stay. -/
theorem CodeDone.lay {s t : State} {cp : Word} {k : StepKind} (done : CodeDone s cp k t) (hl : s.blk.lay.Right) :
    t.blk.lay.Right ∧ t.blk.lay.maxX = s.blk.lay.maxX ∧ t.blk.lay.maxY = s.blk.lay.maxY := by
  cases done with
  | special move x y =>
    refine ⟨⟨?_, hl.xInit, ?_⟩, rfl, rfl⟩
    · exact (specialMove_right hl move).trans_eq (toInt_wordOfInt x).symm
    · exact (hl.y.trans (specialMove_line move)).trans_eq (toInt_wordOfInt y).symm
  | unknown => exact ⟨hl, rfl, rfl⟩
  | @glyph i h header fits =>
    obtain ⟨nx, cy, -⟩ := Placement.fits_iff.1 fits
    obtain ⟨-, -, right, below, -⟩ := hl.placeGlyph h (s.platform.alignClass cp)
    obtain ⟨cursorX, cursorY⟩ := placed_cursor s.blk.lay (placeGlyph s.blk.lay h (s.platform.alignClass cp))
    have frame := placed_frame s.blk.lay (placeGlyph s.blk.lay h (s.platform.alignClass cp))
    refine ⟨⟨?_, ?_, ?_⟩, (congrArg Layout.maxX frame :), (congrArg Layout.maxY frame :)⟩
    · exact right.trans_eq ((congrArg BitVec.toInt cursorX).trans (toInt_wordOfInt nx)).symm
    · exact hl.xInit.trans_eq (congrArg (fun l : Layout => l.xInit.toInt) frame).symm
    · exact below.trans_eq ((congrArg BitVec.toInt cursorY).trans (toInt_wordOfInt cy)).symm

theorem CodeDone.dec {s t : State} {cp : Word} {k : StepKind} (done : CodeDone s cp k t) : t.blk.dec = s.blk.dec := by
  cases done <;> rfl

/-- The record of a drawable code point: its rows lie in the blob, and its box inside the limits of the layout. -/
theorem CodeDone.recordInside {s t : State} {cp : Word} (done : CodeDone s cp .drawable t) (hl : s.blk.lay.Right)
    (limits : s.blk.lay.maxX.toInt ≤ s.blk.surf.pixelWidth ∧ s.blk.lay.maxY.toInt ≤ s.blk.surf.pixelHeight)
    (blobs : ∀ (i : Fin 8) k, k < (s.blk.cs.get i).len.toNat →
      s.platform.serves ((s.blk.cs.get i).base + BitVec.ofNat 32 k) 1 .read = true) :
    RecordInside s.platform s.blk.surf t.blk.gl := by
  cases done with
  | @glyph i h header fits =>
    obtain ⟨left, top, -, -, columns, rows, narrow, low⟩ := hl.placeGlyph h (s.platform.alignClass cp)
    obtain ⟨-, -, gx, gy, -⟩ := Placement.fits_iff.1 fits
    have inBlob := getHeader_rowsInside header
    obtain ⟨sizeX, sizeY⟩ := drawableRecord_sizes cp i (s.blk.cs.get i).base h (s.platform.alignClass cp) narrow
      (low.trans_lt (hdrSizeY_lt h))
    refine ⟨fun r hr k hk => ?_, fun r hr c hc => inBounds_int_iff.2 ?_⟩
    · rw [setGlyph_blk, drawableRecord_rowBytes] at hk ⊢
      have inRows := rowByte_inside ((sizeY ▸ hr).trans_le low) hk
      rw [drawableRecord_data]
      exact blobs i _ (by omega)
    · have right := columns c (sizeX ▸ hc)
      have below := rows r (sizeY ▸ hr)
      rw [← toInt_wordOfInt gx] at left right
      rw [← toInt_wordOfInt gy] at top below
      change 0 ≤ (wordOfInt _).toInt + _ ∧ (wordOfInt _).toInt + _ < _ ∧ 0 ≤ (wordOfInt _).toInt + _ ∧
        (wordOfInt _).toInt + _ < _
      omega

/-! ### What a turn of RENDER_TEXT keeps -/

/-- From `s` to `t` memory changed in no byte but those that pixels inside the surface are written in. -/
structure DrewInside (s t : State) : Prop where
  platform : t.platform = s.platform
  surf : t.blk.surf = s.blk.surf
  cs : t.blk.cs = s.blk.cs
  wf : Memory.wf s.mem = true → Memory.wf t.mem = true
  frame : ∀ a, (∀ x y, s.blk.surf.Inside x y → a ∉ pixBytes s.platform s.blk.surf x y) → byteAt t.mem a = byteAt s.mem a

theorem DrewInside.refl (s : State) : DrewInside s s := ⟨rfl, rfl, rfl, id, fun _ _ => rfl⟩

theorem DrewInside.trans {s t u : State} (h : DrewInside s t) (h' : DrewInside t u) : DrewInside s u where
  platform := h'.platform.trans h.platform
  surf := h'.surf.trans h.surf
  cs := h'.cs.trans h.cs
  wf := h'.wf ∘ h.wf
  frame a ha := (h'.frame a (by rwa [h.platform, h.surf])).trans (h.frame a ha)

/-- A layout step writes no memory. -/
theorem DrewInside.of_layoutStep {w w' : Work} {k : StepKind} (run : layoutStep w = .ok k w') : DrewInside w.st w'.st :=
  have kept := layoutStep_keeps run
  ⟨kept.platform, kept.surf, kept.cs, kept.wf, fun _ _ => congrArg (byteAt · _) (kept.memory rfl).1⟩

/-- The renderer writes no byte but those of the record's pixels inside the surface (45_render.md R292 (a)). -/
theorem DrewInside.of_renderCurrent {w w' : Work} (run : renderCurrent w = .ok () w') : DrewInside w.st w'.st := by
  obtain ⟨c, drawn, rfl⟩ := draw_ok_iff.1 ((renderCurrent_run w).symm.trans run)
  have ends := renderRecord_ends w.st.platform w.st.blk.surf w.st.blk.gl w.st.blk.args.value w.canvas
  rw [drawn] at ends
  refine ⟨rfl, rfl, rfl, ends.wf, fun a ha => ends.frame a fun hin => ?_⟩
  obtain ⟨x, y, inside, -, -, -, -, hin⟩ := mem_recordBytes hin
  exact ha x y inside hin

/-- A sound glyph stays sound while the bytes of its blob stay (44_layout.md R242 to R244). -/
theorem SoundGlyph.kept_bytes {s t : State} {i : Fin 8} {cp h : Word} (sound : SoundGlyph s i cp h)
    (covered : (s.blk.cs.get i).min.toInt ≤ cp.toInt) (platform : t.platform = s.platform) (cs : t.blk.cs = s.blk.cs)
    (blob : ∀ k < (s.blk.cs.get i).len.toNat,
      byteAt t.mem ((s.blk.cs.get i).base + BitVec.ofNat 32 k) =
        byteAt s.mem ((s.blk.cs.get i).base + BitVec.ofNat 32 k)) :
    SoundGlyph t i cp h := by
  have inside := sound.headerInside
  have upward : 0 ≤ headerOffset (s.blk.cs.get i) cp := by
    unfold headerOffset
    omega
  obtain ⟨n, offset⟩ := Int.eq_ofNat_of_zero_le upward
  constructor <;> simp only [platform, cs]
  · exact sound.even
  · exact inside
  · exact sound.served
  · refine sound.header.trans (readLE_congr 4 _ fun a ha => ?_).symm
    obtain ⟨k, hk, rfl⟩ := List.mem_map.1 ha
    rw [offset, wordOfInt, BitVec.ofInt_natCast, BitVec.add_assoc, ← BitVec.ofNat_add]
    have hk := List.mem_range.1 hk
    exact blob _ (by omega)
  · exact sound.rowsInside

section CanRenderText
variable {s : State} (h : CanRenderText s)
include h

/-- The cursor of a text that can be rendered is right of and below the surface's corner. -/
theorem CanRenderText.right : s.blk.lay.Right := ⟨h.startX.1, h.startX.2, h.startY⟩

theorem CanRenderText.undisturbed (inside : s.blk.dec.pos.toNat ≤ s.blk.dec.len.toNat) : Undisturbed s :=
  ⟨inside, h.text, h.sound, h.far⟩

/-- A text that can be rendered stays so while drawing keeps to the surface, the input goes on, and the cursor stays
between the surface's corner and the ends of the i32 range. -/
theorem CanRenderText.kept {t : State} (drew : DrewInside s t) (base : t.blk.dec.base = s.blk.dec.base)
    (len : t.blk.dec.len = s.blk.dec.len) (pos : s.blk.dec.pos.toNat ≤ t.blk.dec.pos.toNat) (right : t.blk.lay.Right)
    (maxX : t.blk.lay.maxX = s.blk.lay.maxX) (maxY : t.blk.lay.maxY = s.blk.lay.maxY) (far : t.farFromOverflow) :
    CanRenderText t := by
  obtain ⟨platform, surf, cs, wf, frame⟩ := drew
  refine ⟨surf ▸ h.legal, wf h.mem, ?_, ?_, ?_, ⟨right.x, right.xInit⟩, right.y, ?_, ?_, ?_, ?_, ?_, far⟩
  · exact platform ▸ surf ▸ h.writes
  · exact maxX ▸ surf ▸ h.limitX
  · exact maxY ▸ surf ▸ h.limitY
  · intro k low high
    rw [platform, base]
    exact h.text k (pos.trans low) (len ▸ high)
  · intro k x y low high inside
    rw [platform, surf, base]
    exact h.textApart k x y (pos.trans low) (len ▸ high) (surf ▸ inside)
  · exact platform ▸ cs ▸ h.blobs
  · exact platform ▸ surf ▸ cs ▸ h.blobsApart
  · intro cp i found
    obtain ⟨hdr, sound⟩ := h.sound cp i (cs ▸ found)
    obtain ⟨-, ⟨-, -, covered, -⟩, -⟩ := findCharset_some_iff.1 (cs ▸ found)
    exact ⟨hdr, sound.kept_bytes covered platform cs fun k hk => frame _ fun x y => h.blobsApart i k x y hk⟩

/-- A layout step that does not end leaves a text that can be rendered, and a record inside the surface if it is
drawable. -/
theorem CanRenderText.step {k : StepKind} {w' : Work} {wrote : List Word}
    (run : layoutStep { st := s, wrote := wrote } = .ok k w') (more : k ≠ .eof) (far : w'.st.farFromOverflow) :
    CanRenderText w'.st ∧ (k = .drawable → RecordInside w'.st.platform w'.st.blk.surf w'.st.blk.gl) := by
  obtain ⟨cp, n, done⟩ := layoutStep_done s _ _ _ run more
  have drew := DrewInside.of_layoutStep run
  have consumed := ((layoutStep_answers s _ _ _ run).consumes more).1
  obtain ⟨right, maxX, maxY⟩ := done.lay h.right
  refine ⟨h.kept drew (congrArg Decoder.base done.dec :) (layoutStep_answers s _ _ _ run).len consumed.le right maxX
    maxY far, ?_⟩
  rintro rfl
  rw [drew.platform, drew.surf]
  exact done.recordInside h.right ⟨h.limitX, h.limitY⟩ h.blobs

/-- A record inside the surface is drawn to its end, and leaves a text that can be rendered. -/
theorem CanRenderText.render (inside : RecordInside s.platform s.blk.surf s.blk.gl) (wrote : List Word) :
    ∃ w, renderCurrent { st := s, wrote := wrote } = .ok () w ∧ CanRenderText w.st ∧ w.st.blk = s.blk := by
  obtain ⟨⟨⟩, c, drawn, -⟩ := inside.completes (surfCheck_ok_iff.1 h.legal) h.writes s.blk.args.value
    (Work.canvas ⟨s, wrote⟩) h.mem
  have run := (renderCurrent_run ⟨s, wrote⟩).trans (draw_ok_iff.2 ⟨c, drawn, rfl⟩)
  exact ⟨_, run, h.kept (.of_renderCurrent run) rfl rfl le_rfl h.right rfl rfl h.far, rfl⟩

end CanRenderText

/-! ### The loop -/

/-- Such a text comes to EOF in as many turns as there is input left, and one (44_layout.md R276 (c)). -/
theorem renderLoop_comes_to_eof : ∀ {fuel : Nat} {s : State} (wrote : List Word), CanRenderText s →
    s.blk.dec.pos.toNat ≤ s.blk.dec.len.toNat → s.blk.lay.active = true → s.blk.dec.stepBound ≤ fuel →
    ∃ w, renderLoop fuel { st := s, wrote := wrote } = .ok () w ∧ w.st.blk.gl = eofRecord w.st.blk.lay ∧
      w.st.blk.lay.done = true ∧ DrewInside s w.st
  | 0, _, _, _, _, _, bound => absurd bound (Nat.not_succ_le_zero _)
  | fuel + 1, s, wrote, can, inside, active, bound => by
    obtain ⟨k, ⟨t, wrote'⟩, run, ends, goesOn⟩ := (can.undisturbed inside).step active wrote
    have drew := DrewInside.of_layoutStep run
    rw [renderLoop_succ, run]
    by_cases hk : k = .eof
    · subst hk
      exact ⟨_, rfl, (ends rfl).1, (ends rfl).2, drew⟩
    · have turns : t.blk.dec.stepBound ≤ fuel := Nat.le_of_lt_succ ((layoutStep_stepBound run hk).trans_le bound)
      obtain ⟨undisturbed, active'⟩ := goesOn hk
      obtain ⟨can', record⟩ := can.step run hk undisturbed.far
      cases k with
      | eof => exact absurd rfl hk
      | unprintable =>
        obtain ⟨w, rest, gl, done, drew'⟩ := renderLoop_comes_to_eof wrote' can' undisturbed.inside active' turns
        exact ⟨w, rest, gl, done, drew.trans drew'⟩
      | drawable =>
        obtain ⟨⟨u, wrote''⟩, render, can'', blk⟩ := can'.render (record rfl) wrote'
        dsimp only at blk
        obtain ⟨w, rest, gl, done, drew'⟩ := renderLoop_comes_to_eof wrote'' can'' (blk ▸ undisturbed.inside)
          (blk ▸ active') (blk ▸ turns)
        dsimp only
        rw [render]
        exact ⟨w, rest, gl, done, drew.trans ((DrewInside.of_renderCurrent render).trans drew')⟩

/-- Settles O60: without a layout the first step ends it; the text of an active one can be rendered turn after turn
until it ends (`renderLoop_comes_to_eof`). -/
theorem renderTextComesToEof : Obligations.RenderTextComesToEof := by
  unfold Obligations.RenderTextComesToEof
  intro s inv can
  by_cases active : s.blk.lay.active = true
  · obtain ⟨w, run, gl, done, drew⟩ := renderLoop_comes_to_eof [] can inv.blk.decoder active le_rfl
    have kept := behaves_renderLoop (f := footprint .renderText) (codes := mayRaise .renderText) rfl rfl rfl (by decide)
      (by decide) s.blk.dec.stepBound { st := s, wrote := [] }
    rw [run] at kept
    exact ⟨complete w.st, (exec_renderText can.legal le_rfl).trans (finish_ok run), kept.status,
      gl.trans (eofRecord_eq _), fun _ => done, kept.surf, kept.args, drew.frame⟩
  · exact ⟨_, exec_renderText_of_eof can.legal (layoutStep_inactive (Bool.eq_false_iff.2 active)), rfl, eofRecord_eq _,
      fun on => absurd on active, rfl, rfl, fun _ _ => rfl⟩

end Sys2Proof.Machine
end

section
/-! SUPPORT. What a faulting command leaves (60_exceptions.md R300 to R303), and the return from a fault (R306): O14,
O23 and O24. -/

namespace Sys2Proof.Machine

/-! ### The faults of the table -/

/-- Settles O23: a command that completes leaves the fault bits (`Keeps`), and one that stops raises one of its faults
(`exec_next`). -/
theorem faultsEachCommandRaises : Obligations.FaultsEachCommandRaises := by
  unfold Obligations.FaultsEachCommandRaises
  intro i s t h
  obtain ⟨w, kept, rfl | ⟨c, code, rfl⟩⟩ := exec_next h
  · exact .inl kept.status
  · exact .inr ⟨rfl, code⟩

/-- A command that finds FAULT = 0 and leaves FAULT = 1 is one whose computation stopped with a fault. -/
theorem exec_faulted {i : Instr} {s t : State} (noFault : s.blk.status.fault = false) (h : exec i s = .next t)
    (fault : t.blk.status.fault = true) :
    ∃ c w, bodyOf i { st := s, wrote := [] } = .error (.raise c) w ∧ t = raiseFault c w.st := by
  rcases finish_next_iff.1 (exec_eq i s ▸ h) with ⟨w, run, rfl⟩ | stopped
  · have kept := bodyOf_behaves i { st := s, wrote := [] }
    rw [run] at kept
    have still : w.st.blk.status.fault = false := (congrArg FaultStatus.fault kept.status).trans noFault
    exact absurd (still.symm.trans fault) Bool.false_ne_true
  · exact stopped

/-! ### Faults in checks -/

/-- BadSurface, and OutOfBounds of a command other than the renderer, are raised in the checks, before the command has
changed anything: after its checks a surface command raises other faults (`lateFaults`), and every other command raises
neither of the two. -/
theorem exec_faulted_in_check {i : Instr} {s t : State} (noFault : s.blk.status.fault = false)
    (h : exec i s = .next t) (fault : t.blk.status.fault = true)
    (inCheck : t.blk.status.code = 2 ∨ (t.blk.status.code = 3 ∧ i ≠ .renderGlyph ∧ i ≠ .renderText)) :
    t = s.faulted t.blk.status.code t.blk.status.info := by
  by_cases hi : i ∈ surfaceCommands
  · cases hs : surfCheck s.blk.surf with
    | error e =>
      obtain ⟨reason, rfl, -⟩ := surfCheck_error hs
      rw [exec_badSurface hi hs] at h
      cases h
      rfl
    | ok _ =>
      by_cases hb : badArguments i s
      · rw [exec_badArguments hi hs hb] at h
        cases h
        rfl
      · have late := code_mem_lateFaults hi hs hb noFault h fault
        have notLate : 2 ∉ lateFaults i ∧ (i ≠ .renderGlyph → i ≠ .renderText → 3 ∉ lateFaults i) := by
          cases i <;> decide
        rcases inCheck with code | ⟨code, notGlyph, notText⟩ <;> rw [code] at late
        · exact absurd late notLate.1
        · exact absurd late (notLate.2 notGlyph notText)
  · have raised : t.blk.status.code.toNat ∈ mayRaise i := by
      obtain same | ⟨-, mem⟩ := faultsEachCommandRaises i s t h
      · rw [same, noFault] at fault
        cases fault
      · exact mem
    have neither : 2 ∉ mayRaise i ∧ 3 ∉ mayRaise i := by
      revert hi
      cases i <;> decide
    rcases inCheck with code | ⟨code, -⟩ <;> rw [code] at raised
    · exact absurd raised neither.1
    · exact absurd raised neither.2

/-! ### What a computation that stops leaves -/

/-- Run in `s`, the computation leaves a state that meets `P` if it stops. Of a computation that comes to its end this
says nothing (`Answers` does). -/
def StopsIn {α : Type} (P : State → Prop) (e : Engine α) (s : State) : Prop :=
  ∀ l r w, e { st := s, wrote := l } = .error r w → P w.st

section StopsIn
variable {α β : Type} {P : State → Prop} {s : State}

theorem StopsIn.pure (a : α) : StopsIn P (Pure.pure a : Engine α) s :=
  fun _ _ _ stopped => by cases stopped

theorem StopsIn.update (f : State → State) : StopsIn P (Machine.update f) s :=
  fun _ _ _ stopped => by cases stopped

theorem StopsIn.read {g : State → Engine α} (h : StopsIn P (g s) s) : StopsIn P (theState >>= g) s := h

theorem StopsIn.update_bind {f : State → State} {g : Unit → Engine α} (h : StopsIn P (g ()) (f s)) :
    StopsIn P (Machine.update f >>= g) s := h

theorem StopsIn.check_bind {x : Except Stop β} {g : β → Engine α} (hs : P s) (hg : ∀ b, StopsIn P (g b) s) :
    StopsIn P (check x >>= g) s := by
  cases x with
  | ok b => exact hg b
  | error e => exact fun _ _ _ stopped => by cases stopped; exact hs

theorem StopsIn.bind {e : Engine β} {g : β → Engine α} (he : StopsIn P e s) (hg : ∀ b t, StopsIn P (g b) t) :
    StopsIn P (e >>= g) s := fun l r w stopped => by
  rcases bind_error_iff.1 stopped with first | ⟨b, w', -, second⟩
  · exact he l r w first
  · exact hg b w'.st w'.wrote r w second

/-- DecNext, and what follows it: Decode stops before the decoder has moved on (43_decoder.md R222). -/
theorem StopsIn.nextCode_bind {g : Word → Engine α} (hs : P s)
    (hg : ∀ cp n, StopsIn P (g cp) (setDecoder (s.blk.dec.advance n) s)) : StopsIn P (nextCode >>= g) s := by
  intro l r w stopped
  rw [run_bind] at stopped
  simp only [nextCode, run_bind, run_theState] at stopped
  cases hd : decodeAt s.platform s.mem s.blk.dec s.blk.dec.pos.toNat with
  | error e => rw [hd] at stopped; cases stopped; exact hs
  | ok x => rw [hd] at stopped; exact hg x.1 x.2 l r w stopped

/-- The commands that write RESULT0 or RESULT1 stop, if they do, before they have changed anything. -/
theorem bodyOf_stopsIn_of_writesResult {i : Instr} (hs : P s)
    (hi : i ∈ ([.getpix, .mapaddr, .decNext, .decPeek, .glyphLookup] : List Instr)) : StopsIn P (bodyOf i) s := by
  cases i with
  | getpix =>
    exact .read (.check_bind hs fun _ => .check_bind hs fun _ => .check_bind hs fun _ => .update _)
  | mapaddr => exact .read (.check_bind hs fun _ => .check_bind hs fun _ => .update_bind (.update _))
  | decNext => exact .nextCode_bind hs fun _ _ => .update _
  | decPeek => exact .bind (.read (.check_bind hs fun _ => .pure _)) fun _ _ => .update _
  | glyphLookup =>
    refine .read ?_
    dsimp only
    split
    · exact .update_bind (.update _)
    · exact .check_bind hs fun _ => .update_bind (.update _)
  | _ => exact absurd hi (by decide)

/-- Steps 3 to 7 of a code point stop, if they do, before they have changed anything (44_layout.md R272). -/
theorem layoutCode_stopsIn (hs : P s) (cp : Word) : StopsIn P (layoutCode cp) s := by
  refine .read ?_
  dsimp only
  split
  · exact .check_bind hs fun _ => .update_bind (.update_bind (.pure _))
  · split
    · exact .update_bind (.pure _)
    · exact .read (.check_bind hs fun _ => .check_bind hs fun _ => .update_bind (.update_bind (.pure _)))

/-- A layout step that stops has moved the decoder on or changed nothing (44_layout.md R272). -/
theorem layoutStep_stopsIn (hs : P s) (taken : ∀ n, P (setDecoder (s.blk.dec.advance n) s)) :
    StopsIn P layoutStep s := by
  have ending : ∀ t, StopsIn P endLayout t := fun _ => .read (.update_bind (.update_bind (.pure _)))
  refine .read ?_
  dsimp only
  split
  · exact .update_bind (.pure _)
  · split
    · exact ending s
    · refine .nextCode_bind hs fun cp n => ?_
      split
      · exact ending _
      · exact layoutCode_stopsIn (taken n) cp

end StopsIn

/-- No faulting command changes RESULT0 or RESULT1 (60_exceptions.md R303). -/
theorem exec_faulted_results {i : Instr} {s t : State} (noFault : s.blk.status.fault = false) (h : exec i s = .next t)
    (fault : t.blk.status.fault = true) : t.blk.result0 = s.blk.result0 ∧ t.blk.result1 = s.blk.result1 := by
  by_cases hi : i ∈ ([.getpix, .mapaddr, .decNext, .decPeek, .glyphLookup] : List Instr)
  · obtain ⟨c, w, stopped, rfl⟩ := exec_faulted noFault h fault
    exact bodyOf_stopsIn_of_writesResult
      (P := fun u => u.blk.result0 = s.blk.result0 ∧ u.blk.result1 = s.blk.result1) ⟨rfl, rfl⟩ hi _ _ _ stopped
  · obtain ⟨result0, result1, -⟩ := resultsAndMemoryHaveTheirOwnWriters i s t h
    exact ⟨result0 hi, result1 fun hi' => hi (by revert hi'; cases i <;> decide)⟩

/-- A LAYOUT_NEXT that faults leaves L.* and GL_* (60_exceptions.md R303). -/
theorem exec_layoutNext_faulted {s t : State} (noFault : s.blk.status.fault = false)
    (h : exec .layoutNext s = .next t) (fault : t.blk.status.fault = true) :
    t.blk.lay = s.blk.lay ∧ t.blk.gl = s.blk.gl := by
  obtain ⟨c, w, stopped, rfl⟩ := exec_faulted noFault h fault
  have step : StopsIn (fun u => u.blk.lay = s.blk.lay ∧ u.blk.gl = s.blk.gl) layoutStep s :=
    layoutStep_stopsIn ⟨rfl, rfl⟩ fun _ => ⟨rfl, rfl⟩
  exact step.bind (fun _ _ => .pure _) _ _ _ stopped

/-- Settles O24: checks come before anything is changed (`exec_faulted_in_check`), results are written last
(`bodyOf_stopsIn_of_writesResult`), and a layout step that stops has at most moved the decoder on
(`layoutStep_stopsIn`). -/
theorem faultsArePrecise : Obligations.FaultsArePrecise := by
  unfold Obligations.FaultsArePrecise
  intro i s t noFault h fault
  obtain ⟨result0, result1⟩ := exec_faulted_results noFault h fault
  refine ⟨exec_faulted_in_check noFault h fault, result0, result1, fun hi => ?_⟩
  subst hi
  exact exec_layoutNext_faulted noFault h fault

/-! ### The return from a fault -/

/-- A write to STATUS while BUSY = 0 (10_state.md R35). -/
theorem hostMove_writeStatus {s : State} (idle : s.blk.latch = none) (v : Word) :
    hostMove (.write 0x008 4 v) s = .next (if v.getLsbD 1 then clearFault s else s) := by
  rw [hostMove_write (by decide) (by decide)]
  exact if_neg (Bool.eq_false_iff.1 (busy_false_iff.2 idle))

/-- Settles O14: the STATUS write is `clearFault`, after which a CMD write latches its word (O13); a soft reset resets
the whole block. -/
theorem faultIsClearedByStatusWrite : Obligations.FaultIsClearedByStatusWrite := by
  unfold Obligations.FaultIsClearedByStatusWrite
  intro s v idle
  rw [hostMove_writeStatus idle]
  refine ⟨fun bit fault => ⟨_, rfl, ?_, fun w => ?_⟩, fun noEffect => ?_, fun bit => ⟨softReset s, ?_, ?_⟩⟩
  · rw [if_pos bit, clearFault, if_pos fault]
    rfl
  · rw [if_pos bit, clearFault, if_pos fault]
    obtain ⟨-, latched, -⟩ := commandWriteLatchesOrIsDropped { s with blk := { s.blk with status := .clear } } w
    obtain ⟨u, write, rfl, -⟩ := latched idle rfl
    exact write
  · rcases noEffect with bit | noFault
    · rw [if_neg (Bool.eq_false_iff.1 bit)]
    · rw [clearFault, if_neg (Bool.eq_false_iff.1 noFault), ite_self]
  · rw [hostMove_write (by decide) (by decide)]
    exact congrArg Host.Outcome.next (if_pos bit)
  · rw [softReset_blk]
    rfl

end Sys2Proof.Machine
end

section
/-! SUPPORT. What the resets leave (70_reset_and_hazards.md R340 to R342), and from it O8, O9 and O19. -/

namespace Sys2Proof.Machine

/-! ### The block after reset -/

theorem regAt_id_iff {o : Nat} : regAt o = some .id ↔ o = 0 :=
  ⟨fun h => (offset_of_regAt h).symm, fun h => h ▸ rfl⟩

/-- Every register but ID is 0 after reset. -/
theorem reset_readReg (r : Reg) : Block.reset.readReg r = if r = .id then 0x5A520007#32 else 0 := by
  cases r with
  | csBase i | csLen i | csMin i | csMax i | csCtrl i =>
    simp [Block.readReg, Block.reset, CharsetSlot.reset, Vector.get_eq_getElem]
  | _ => rfl

theorem reset_readOffset (o : Nat) : Block.reset.readOffset o = if o = 0 then 0x5A520007#32 else 0 := by
  cases hr : regAt o with
  | none =>
    have : o ≠ 0 := fun h => by simp [regAt_id_iff.2 h] at hr
    rw [if_neg this, Block.readOffset, hr]
  | some r =>
    have : r = .id ↔ o = 0 := by rw [← regAt_id_iff, hr, Option.some_inj]
    simp only [readOffset_of_regAt hr, reset_readReg, this]

/-- Settles O8: after reset only the register ID is not 0, and with an empty latch the engine's turn is idle. -/
theorem hardwareResetValues : Obligations.HardwareResetValues := by
  unfold Obligations.HardwareResetValues
  refine ⟨fun o _ => reset_readOffset o, rfl, rfl, rfl, fun s => rfl, fun s hb ht => ?_⟩
  exact step_of_idle_turn (.inl ⟨ht, by rw [hb]; rfl⟩)

/-- Settles O19: the block after reset meets its invariant, no memory is listed, and nothing is in flight or pending. -/
theorem resetMeetsTheInvariant : Obligations.ResetMeetsTheInvariant :=
  .of_idle .reset rfl rfl fun _ => rfl

/-! ### Soft reset -/

/-- A write of 1 to CTRL bit 0 is a soft reset, whatever BUSY is (10_state.md R34). -/
theorem hostMove_softReset {v : Word} (hv : v.getLsbD 0 = true) (s : State) :
    hostMove (.write 0x004 4 v) s = .next (softReset s) :=
  congrArg Host.Outcome.next (if_pos hv)

theorem softReset_of_no_command {s : State}
    (h : s.blk.latch = none ∨ ∃ w why, s.blk.latch = some w ∧ decode w = .illegal why) : softReset s = resetBlock s := by
  rcases h with hl | ⟨w, why, hl, hd⟩
  · simp [softReset, hl]
  · simp [softReset, hl, hd]

theorem softReset_of_command {s : State} {w : Word} {i : Instr} (hl : s.blk.latch = some w)
    (hd : decode w = .command i) : softReset s = resetBlock (abandon (bodyOf i) s) := by
  simp [softReset, hl, hd]

/-- Settles O9: with no command in flight a soft reset resets the block and does nothing else; with one it resets the
block after `abandon`, which frees the command's bytes (`abandon_bytes`). (`softReset` is the model's own name.) -/
theorem softReset_resets : Obligations.SoftReset := by
  unfold Obligations.SoftReset
  refine ⟨fun s v hv h => ?_, reset_readOffset 0x004, fun s v w i hm hv hl hd => ?_⟩
  · rw [hostMove_softReset hv, softReset_of_no_command h]
    rfl
  · obtain ⟨m, n, abandoned, -, -, frame, free⟩ := abandon_bytes i s
    refine ⟨m, n, ?_, free hm, frame⟩
    rw [hostMove_softReset hv, softReset_of_command hl hd, abandoned]
    rfl

end Sys2Proof.Machine
end

section
/-! SUPPORT. The host's register accesses and its `wait` (10_state.md R34; 30_encoding.md R126; 70_reset_and_hazards.md
R345), and O15 from them. -/

namespace Sys2Proof.Machine

/-! ### `wait` -/

theorem busy_true_iff {b : Block} : b.busy = true ↔ b.latch ≠ none := by
  rw [Ne, ← busy_false_iff, Bool.not_eq_false]

/-- A `wait` that reads BUSY = 1 goes back to the head of the queue. -/
theorem hostMove_wait_of_busy {s : State} (hl : s.blk.latch ≠ none) :
    hostMove .wait s = .next { s with
      host := .wait :: s.host
      seen := .register 0x008 s.blk.statusWord :: s.seen } := by
  have hb := busy_true_iff.2 hl
  simp [hostMove, hostRead_eq, hb, show s.readValue 0x008 = s.blk.statusWord from rfl]

/-- A `wait` that reads BUSY = 0 ends. -/
theorem hostMove_wait_of_idle {s : State} (hl : s.blk.latch = none) :
    hostMove .wait s = .next { s with
      seen := .register 0x008 s.blk.statusWord :: s.seen
      settled := true
      pending := .none } := by
  have hb := busy_false_iff.2 hl
  simp [hostMove, hostRead_eq, hb, show s.readValue 0x008 = s.blk.statusWord from rfl, regAt_status_iff]

/-! ### Register accesses while BUSY = 1 -/

/-- Each aligned offset of the window is a register's or reserved. -/
theorem regAt_of_not_reserved {o : Nat} (ho : o < 0x200) (ha : o % 4 = 0) (h : ¬ reservedOffset o) :
    ∃ r, regAt o = some r := by
  have all : ∀ o < 0x200, o % 4 = 0 → ¬ reservedOffset o → (regAt o).isSome = true := by
    unfold reservedOffset
    decide +kernel
  exact Option.isSome_iff_exists.1 (all o ho ha h)

section Busy
variable {s : State} {o : Nat} {r : Reg}

theorem hostWrite_of_busy (hb : s.blk.busy = true) (h : regAt o = some r) (hr : r ≠ .ctrl) (v : Word) :
    hostWrite o v s = .refused .hostWriteWhileBusy := by
  by_cases named : r ∈ [Reg.ctrl, .status, .cmd]
  · simp only [List.mem_cons, List.not_mem_nil, or_false, hr, false_or] at named
    rcases named with rfl | rfl <;> simp [hostWrite, h, hb]
  · rw [hostWrite_reg h named, if_pos hb]

theorem readValue_of_busy (hb : s.blk.busy = true) (h : regAt o = some r) (hr : r ≠ .status) :
    s.readValue o = Config.freeWord s.seen.length := by
  unfold State.readValue
  rw [h]
  cases r with
  | status => exact absurd rfl hr
  | _ => simp [hb]

/-- While BUSY = 1 a read of the window changes nothing but what the host has seen. -/
theorem hostMove_read_of_busy (hb : s.blk.busy = true) (ho : o < 0x200) (ha : o % 4 = 0) :
    hostMove (.read o 4) s = .next { s with seen := .register o (s.readValue o) :: s.seen } := by
  simp [hostMove_read ho ha, hostRead_eq, hb]

end Busy

theorem statusWord_bit0 (b : Block) : b.statusWord.getLsbD 0 = b.busy := by
  rw [Block.statusWord, BitVec.getLsbD_append]
  simp [bit]

/-- Settles O15: a write while BUSY = 1 is refused at each register but CTRL, a read answers STATUS or a free value, and
`wait` is a STATUS read that goes back to the queue while BUSY = 1. -/
theorem hostRulesWhileBusy : Obligations.HostRulesWhileBusy := by
  unfold Obligations.HostRulesWhileBusy
  refine ⟨fun s => ⟨hostMove_wait_of_busy, hostMove_wait_of_idle⟩, fun s o v hl ho ha hn => ?_⟩
  have hb := busy_true_iff.2 hl
  obtain ⟨r, hr⟩ := regAt_of_not_reserved ho ha hn
  refine ⟨fun h4 => ?_, fun bit => ?_, hostMove_read_of_busy hb (by decide) rfl, statusWord_bit0 _ ▸ hb, fun h8 => ?_⟩
  · have notCtrl : r ≠ .ctrl := fun e => h4 (offset_of_regAt (e ▸ hr)).symm
    rw [hostMove_write ho ha, hostWrite_of_busy hb hr notCtrl]
  · exact congrArg Host.Outcome.next (if_neg (Bool.eq_false_iff.1 bit))
  · have notStatus : r ≠ .status := fun e => h8 (regAt_status_iff.1 (e ▸ hr))
    rw [hostMove_read_of_busy hb ho ha, readValue_of_busy hb hr notStatus]

end Sys2Proof.Machine
end

section
/-! SUPPORT. The schedule is used up at last (70_reset_and_hazards.md R353; log 1): a latched command gets its turn, and
a `wait` comes to its end, by induction over the schedule. O6. -/

namespace Sys2Proof.Machine

theorem run_of_step {M : Host.Core} {s t : M.State} (h : M.step s = .next t) (k : Nat) :
    M.run (k + 1) s = M.run k t := by
  rw [Host.Core.run, h]

theorem turn_of_schedule {s : State} {agent : Agent} {rest : List Agent} (h : s.schedule = agent :: rest) :
    s.turn = agent := by
  simp [State.turn, h]

theorem turn_of_busy {s : State} (h : s.schedule = []) (hl : s.blk.latch ≠ none) : s.turn = .engine := by
  simp [State.turn, h, busy_true_iff.2 hl]

theorem turn_of_idle {s : State} (h : s.schedule = []) (hl : s.blk.latch = none) : s.turn = .host := by
  simp [State.turn, h, busy_false_iff.2 hl]

/-! ### The engine's turn comes -/

/-- Every turn of a host that is done passes, until the engine's comes. -/
theorem engine_turn_comes : ∀ (turns : List Agent) {s : State}, s.schedule = turns → s.host = [] → s.blk.latch ≠ none →
    ∃ k ≤ turns.length, ∃ t, Host.Core.run core k s = .next t ∧ t = { s with schedule := turns.drop k } ∧
      t.turn = .engine
  | [], s, hs, _, hl => ⟨0, le_rfl, s, rfl, by rw [← hs]; rfl, turn_of_busy hs hl⟩
  | .engine :: rest, s, hs, _, _ => ⟨0, Nat.zero_le _, s, rfl, by rw [← hs]; rfl, turn_of_schedule hs⟩
  | .host :: rest, s, hs, hh, hl => by
    have passes : step s = .next s.nextTurn := step_of_idle_turn (.inr ⟨turn_of_schedule hs, hh⟩)
    have moved : s.nextTurn.schedule = rest := congrArg List.tail hs
    obtain ⟨k, hk, t, run, rfl, turn⟩ := engine_turn_comes rest moved hh hl
    exact ⟨k + 1, Nat.succ_le_succ hk, _, (run_of_step passes k).trans run, rfl, turn⟩

/-! ### A `wait` ends -/

/-- Within `n` steps the `wait` before `rest` has ended: its STATUS read has returned BUSY = 0 (30_encoding.md R126;
70_reset_and_hazards.md R347, R355). -/
def WaitEnds (rest : List HostMove) (n : Nat) (s : State) : Prop :=
  ∃ k ≤ n, ∃ t, Host.Core.run core k s = .next t ∧ t.host = rest ∧ t.blk.latch = none ∧ t.settled = true ∧
    t.pending = .none

section Wait
variable {rest : List HostMove} {n : Nat} {s t : State}

theorem WaitEnds.of_step (h : step s = .next t) : WaitEnds rest n t → WaitEnds rest (n + 1) s
  | ⟨k, hk, u, run, ended⟩ => ⟨k + 1, Nat.succ_le_succ hk, u, (run_of_step h k).trans run, ended⟩

/-- The host's turn, with BUSY = 0. -/
theorem waitEnds_of_read (ht : s.turn = .host) (hh : s.host = .wait :: rest) (hl : s.blk.latch = none) :
    WaitEnds rest (n + 1) s := by
  have read : step s = .next _ := (step_of_host_move ht hh).trans (hostMove_wait_of_idle hl)
  exact .of_step read ⟨0, Nat.zero_le _, _, rfl, rfl, hl, rfl, rfl⟩

/-- With BUSY = 0 the `wait` ends at the host's next turn. -/
theorem waitEnds_of_idle : ∀ (turns : List Agent) {s : State}, s.schedule = turns → s.host = .wait :: rest →
    s.blk.latch = none → WaitEnds rest (turns.length + 1) s
  | [], _, hs, hh, hl => waitEnds_of_read (turn_of_idle hs hl) hh hl
  | .host :: _, _, hs, hh, hl => waitEnds_of_read (turn_of_schedule hs) hh hl
  | .engine :: turns, s, hs, hh, hl => by
    have passes : step s = .next s.nextTurn := step_of_idle_turn (.inl ⟨turn_of_schedule hs, hl⟩)
    have moved : s.nextTurn.schedule = turns := congrArg List.tail hs
    exact .of_step passes (waitEnds_of_idle turns moved hh hl)

/-- On its turn the engine clears BUSY, where no region has read side effects: the word is illegal, or its command ends
(R352). -/
theorem engine_step_ends (quiet : s.platform.readEffects = []) (ht : s.turn = .engine) (hl : s.blk.latch ≠ none) :
    ∃ t, step s = .next t ∧ t.blk.latch = none ∧ t.host = s.host ∧ t.schedule = s.schedule.tail := by
  obtain ⟨w, hw⟩ := Option.ne_none_iff_exists'.1 hl
  cases hd : decode w with
  | illegal why =>
    refine ⟨raiseFault (.illegalCommand w) s.nextTurn, ?_, rfl, rfl, rfl⟩
    simp [step_of_engine_turn ht, engineStep, hw, runWord, hd]
  | command i =>
    obtain ⟨-, -, ends, kept⟩ := commandsLeaveTheHostsRegisters i s.nextTurn
    obtain ⟨t, exec⟩ := ends quiet
    obtain ⟨latch, -, -, -, -, -, host, schedule, -⟩ := kept t exec
    exact ⟨_, (step_of_command ht hw hd).trans (runCommand_of_next exec), latch, host, schedule⟩

/-- Once the engine has had its turn, BUSY = 0. -/
theorem waitEnds_of_engine_turn {turns : List Agent} (quiet : s.platform.readEffects = [])
    (hh : s.host = .wait :: rest) (hl : s.blk.latch ≠ none) (ht : s.turn = .engine) (hs : s.schedule.tail = turns) :
    WaitEnds rest (turns.length + 2) s := by
  obtain ⟨t, ends, latch, host, schedule⟩ := engine_step_ends quiet ht hl
  exact .of_step ends (waitEnds_of_idle turns (schedule.trans hs) (host.trans hh) latch)

/-- While BUSY = 1 the `wait` stays at the head of the queue, turn by turn, until the engine's comes. -/
theorem waitEnds_of_busy : ∀ (turns : List Agent) {s : State}, s.platform.readEffects = [] → s.schedule = turns →
    s.host = .wait :: rest → s.blk.latch ≠ none → WaitEnds rest (turns.length + 2) s
  | [], _, quiet, hs, hh, hl => waitEnds_of_engine_turn quiet hh hl (turn_of_busy hs hl) (congrArg List.tail hs)
  | .engine :: turns, _, quiet, hs, hh, hl => by
    obtain ⟨k, hk, ended⟩ := waitEnds_of_engine_turn quiet hh hl (turn_of_schedule hs) (congrArg List.tail hs)
    exact ⟨k, Nat.le_succ_of_le hk, ended⟩
  | .host :: turns, _, quiet, hs, hh, hl => by
    have read : step _ = .next _ := (step_of_host_move (turn_of_schedule hs) hh).trans (hostMove_wait_of_busy hl)
    exact .of_step read (waitEnds_of_busy turns quiet (congrArg List.tail hs) rfl hl)

end Wait

/-- Settles O6: the engine's turn comes when the schedule is used up at the latest, and after it BUSY = 0, so that the
host's next turn ends the `wait`. -/
theorem latchedCommandGetsItsTurn : Obligations.LatchedCommandGetsItsTurn := by
  unfold Obligations.LatchedCommandGetsItsTurn
  refine ⟨fun s => engine_turn_comes s.schedule rfl, fun s rest quiet hh => ?_⟩
  by_cases hl : s.blk.latch = none
  · obtain ⟨k, hk, ended⟩ := waitEnds_of_idle s.schedule rfl hh hl
    exact ⟨k, Nat.le_succ_of_le hk, ended⟩
  · exact waitEnds_of_busy s.schedule quiet rfl hh hl

end Sys2Proof.Machine
end
